-- ==== Sys2Proof/Word.lean ====
section
/-! DEFINITION. The two plain words of the part: a byte of the link and a reading of the millisecond clock. -/

namespace Sys2Proof

/-- One byte of a frame, 0x00 to 0xFF (R1). -/
abbrev Byte := BitVec 8

/-- A reading of the 32-bit millisecond clock, which wraps (00_scope.md, "The millisecond clock"). -/
abbrev Clock := BitVec 32

end Sys2Proof
end

