-- ==== Sys2Proof/Syntax.lean ====
section
/-! DEFINITION. The commands the block takes, one constructor per row of spec/opcode_table.json, and the names their
operands are made of. -/

namespace Sys2Proof

/-- The two link ports, named by the side they face (01, opening). -/
inductive PortId where
  | cab
  | crane
  deriving DecidableEq, Repr

/-- The port a frame arriving on this one is forwarded to. -/
def PortId.other : PortId → PortId
  | .cab => .crane
  | .crane => .cab

/-- What the line interface delivers to a receiver in one symbol time, or a transmitter sends in one (R1).
`noSymbol` is a symbol time in which no symbol is delivered. -/
inductive LineSymbol where
  | idle
  | invertedIdle
  | startFrame
  | endFrame
  | abortFrame
  | data (b : Byte)
  | violation
  | noSymbol
  deriving DecidableEq, Repr

/-- The six measurands (R22). -/
inductive Measurand where
  | f
  | a
  | reach
  | pitch
  | roll
  | gpress
  deriving DecidableEq, Repr

/-- The lift states (04, "The lift controller at a glance"). -/
inductive LiftState where
  | empty
  | taring
  | gripped
  | lifting
  | weighed
  | releasing
  deriving DecidableEq, Repr

/-- The supervision states (R109, R118). -/
inductive SupState where
  | unconfigured
  | normal
  | warn
  | limit
  | hold
  | bypass
  deriving DecidableEq, Repr

/-- A clock event to trace capture (R177), with the value it carries where R175 gives it one. -/
inductive ClockEvent where
  | fSample (value : Int)
  | slewPace (p : Nat)
  | sectorChange
  | liftEvent (state : LiftState)
  | supChange (state : SupState)
  | vdShaped
  deriving DecidableEq, Repr

/-- The levels of the local inputs at a start: the six strap pins, the slew encoder and the service input (R13, R43, R130). -/
structure InputLevels where
  straps : BitVec 6
  a : Bool
  b : Bool
  z : Bool
  service : Bool
  deriving DecidableEq, Repr

/-- The commands. The management operations carry no operands of their own: each is the next operation of the chain of
the request at the head of the queue, which holds its operands (R159). -/
inductive Instr where
  /-- POWER_ON (R8), with the levels the inputs have. -/
  | powerOn (pins : InputLevels)
  /-- RESET_ASSERTED (R8). -/
  | resetAsserted
  /-- RESET_RELEASED (R8), with the levels the inputs have. -/
  | resetReleased (pins : InputLevels)
  /-- RECEIVE_SYMBOL (R10): one symbol time of a port's receiver. -/
  | receiveSymbol (port : PortId) (sym : LineSymbol)
  /-- POLARITY_FLIP (R4). -/
  | polarityFlip (port : PortId)
  /-- LINK_UP (R3). -/
  | linkUp (port : PortId)
  /-- LOSS_OF_SIGNAL (R6). -/
  | lossOfSignal (port : PortId)
  /-- VIOLATION_WINDOW_FULL (R5). -/
  | violationWindowFull (port : PortId)
  /-- TRANSMIT_SYMBOL (R17): one symbol time of a port's transmitter. -/
  | transmitSymbol (port : PortId)
  /-- HELD_REPLY_OFFER (R162). -/
  | heldReplyOffer
  /-- NOTICE_ATTEMPT (R173). -/
  | noticeAttempt
  /-- SENSOR_REPORT (R25): a good report's source station and payload. -/
  | sensorReport (source : Byte) (payload : List Byte)
  /-- FRESHNESS_EXPIRY (R32). -/
  | freshnessExpiry (m : Measurand)
  /-- OPERATOR_STATE (R35): a good frame's payload. -/
  | operatorState (payload : List Byte)
  /-- GAP_RUN_LIMIT (R63). -/
  | gapRunLimit
  /-- SET_DOWN (R74). -/
  | setDown
  /-- WINDOW_EVALUATION (R64). -/
  | windowEvaluation
  /-- GRIP_CONFIRMED (R71). -/
  | gripConfirmed
  /-- RELEASE (R78). -/
  | release
  /-- TARE_TIMER_EXPIRY (R67). -/
  | tareTimerExpiry
  /-- ENCODER_OBSERVATION (R40): the levels of A, B and Z. -/
  | encoderObservation (a b z : Bool)
  /-- SERVICE_INPUT_CHANGE (R124): the input's new level. -/
  | serviceInputChange (asserted : Bool)
  /-- ALERT_FLASH_TOGGLE (R128). -/
  | alertFlashToggle
  /-- SHAPE_VALVE_DEMAND (R133): the header bytes and payload of a good VALVE DEMAND of the cab port. -/
  | shapeValveDemand (dest source flags : Byte) (payload : List Byte)
  /-- TAKE_REQUEST (R158): the arrival port, source station and payload handed over. -/
  | takeRequest (port : PortId) (source : Byte) (payload : List Byte)
  /-- PERFORM_REQUEST (R159). -/
  | performRequest
  /-- TEST (R163). -/
  | test
  /-- READ_IDENTITY (R164). -/
  | readIdentity
  /-- READ_STATUS (R164). -/
  | readStatus
  /-- READ_MEASURANDS (R164). -/
  | readMeasurands
  /-- READ_TALLY (R164). -/
  | readTally
  /-- PEEK_LIFTS (R165). -/
  | peekLifts
  /-- DROP_LIFTS (R93). -/
  | dropLifts
  /-- CLEAR_BUNK (R106). -/
  | clearBunk
  /-- CLEAR_CONDITIONS (R171). -/
  | clearConditions
  /-- OPEN_STAGING (R146). -/
  | openStaging
  /-- WRITE_ENTRY (R147). -/
  | writeEntry
  /-- READ_ENTRY (R156). -/
  | readEntry
  /-- CHECK_STAGING (R148). -/
  | checkStaging
  /-- CHECK_STAGING_COMPLETE (R149). -/
  | checkStagingComplete
  /-- ACTIVATE (R154). -/
  | activate
  /-- TRACE_CONFIGURE (R176). -/
  | traceConfigure
  /-- TRACE_ENABLE (R179). -/
  | traceEnable
  /-- TRACE_DISABLE (R179). -/
  | traceDisable
  /-- TRACE_FLUSH (R179). -/
  | traceFlush
  /-- TRACE_READ (R180). -/
  | traceRead
  /-- TRACE_CAPTURE (R178): a clock event reaches trace capture (R177). -/
  | traceCapture (event : ClockEvent)
  /-- WARM_RESTART (R169). -/
  | warmRestart
  /-- WARM_RESTART_PERFORMED (R169). -/
  | warmRestartPerformed
  deriving DecidableEq, Repr

end Sys2Proof
end

