-- ==== Sys2Proof/Decode.lean ====
section
/-! DEFINITION. The command a word spells by the bits of spec/opcode_table.json. No row of the table gives bits
("fields": [], no match and no mask), so no word spells a command: the block's commands are the events of its ports,
inputs and timers and the operations of its management chains, and the bytes of a chain are read by management (R159),
in Machine/Management.lean. -/

namespace Sys2Proof

/-- The command that the low `nbits` bits of `w` spell: none, since no row of the table has bits. -/
def decodeTableWord (_nbits _w : Nat) : Option Instr := none

end Sys2Proof
end

