-- ==== Sys2Proof/Config.lean ====
section
/-! DEFINITION. The free values: what the manual leaves open after which the part goes on. They have no body, so
no proof can see a value of theirs; a statement about them holds for every value. -/

namespace Sys2Proof

/-- FREE VALUE (notes/assumptions/11.md). The order in which the receivers of the n-th doubly received event take it:
the manual says "in either order" (R127, R175) and fixes none. It is the order, too, of offers to a transmit list that become ready
together (R16, R21; notes/assumptions/20.md, 31.md). The model applies it to `State.choices`. -/
opaque Config.order : Nat → Nat

/-- FREE VALUE (notes/assumptions/13.md). What the status record carries in the field of the open lift's sequence
number while there is none: R164 and R174 lay the field out and state no value for that case. -/
opaque Config.noSequenceField : Nat → BitVec 16

end Sys2Proof
end

