-- ==== Sys2Proof/Machine/State.lean ====
section
/-! DEFINITION. Everything the manual gives the part to hold, as plain data, and its value right after power-on. -/

namespace Sys2Proof.Machine

/-- No command of the block faults: for every command in every state the manual gives an effect, or gives that the
command finds nothing to do. The type is therefore empty (safe: nothing is cut short). -/
inductive Fault where
  deriving DecidableEq, Repr

/-- Why a command is refused. -/
inductive Refusal where
  /-- Raised by an arm of `exec` whose command has no meaning yet; no arm raises it now (safe: it would only stop). -/
  | notModelled (mnemonic : String)
  deriving DecidableEq, Repr

/-! ## Link ports (01) -/

/-- The link states (R2, R3, R5). -/
inductive LinkState where
  | down
  | training
  | up
  deriving DecidableEq, Repr

/-- The receive polarity (R1, R4). -/
inductive Polarity where
  | normal
  | swapped
  deriving DecidableEq, Repr

/-- The receiver's framing states (R10). -/
inductive Framing where
  | waiting
  | inFrame
  | discarding
  deriving DecidableEq, Repr

/-- What the classifier decided for the frame being received (R14). -/
inductive Treatment where
  | cutThrough
  | cutThroughAndSnoop
  | storeAndShape
  | take
  deriving DecidableEq, Repr

/-- A port's receiver (R10): the framing state, the bytes of the frame received so far (their number is the byte count,
the first five are the header, the running check is computed from them, and for a stored frame they are the receive
store), and the treatment once the header is complete. -/
structure Receiver where
  framing : Framing := .waiting
  bytes : List Byte := []
  treatment : Option Treatment := none
  deriving DecidableEq, Repr

/-- How far an entry's frame has come (R16, R19): a cut-through entry still arriving, a whole frame, or a forwarded frame
found bad or dropped after its transmission had begun. -/
inductive EntryStatus where
  | arriving
  | whole
  | broken
  deriving DecidableEq, Repr

/-- An entry of a transmit list (R16): the bytes it holds and its status. -/
structure Entry where
  bytes : List Byte
  status : EntryStatus
  deriving DecidableEq, Repr

/-- What may wait to be offered to a transmit list (R21): the reply held for the port, or, on the cab port, a NOTICE of the
pending kinds. -/
inductive Offer where
  | reply
  | notice
  deriving DecidableEq, Repr

/-- One link port. `violations` is the violation window (R5): the age in symbol times of each VIOLATION among the most
recent 1024 symbol times. `sending` is the number of bytes of the head entry already sent, when its START has left.
`abortNext` says that the next symbol is the ABORT of a frame cut off by R7 or R8, `owesIdle` that an END or ABORT has
just been sent (R17), and `lastSent` is the symbol sent in the latest symbol time. `owed` is the model's own: the offers of the
latest occasion that are still to be made (notes/assumptions/31.md). -/
structure Port where
  link : LinkState := .down
  polarity : Polarity := .normal
  flipped : Bool := false
  invertedRun : Nat := 0
  cleanCount : Nat := 0
  lossCount : Nat := 0
  violations : List Nat := []
  rx : Receiver := {}
  list : List Entry := []
  sending : Option Nat := none
  abortNext : Bool := false
  owesIdle : Bool := false
  lastSent : LineSymbol := .idle
  owed : List Offer := []
  deriving DecidableEq, Repr

/-! ## Measurand intake and the operator-state snapshot (02) -/

/-- FRESH or STALE (R22). -/
inductive Freshness where
  | fresh
  | stale
  deriving DecidableEq, Repr

/-- A measurand's record (R22); a running timer holds the clock reading at which it expires. -/
structure MeasurandRecord where
  value : Int := 0
  state : Freshness := .stale
  lastAccepted : Clock := 0
  timer : Option Clock := none
  deriving DecidableEq, Repr

/-- The operator-state snapshot (R35). -/
structure Snapshot where
  tool : Nat := 0
  assortment : Nat := 0
  tareNumber : Option Byte := none
  deriving DecidableEq, Repr

/-- Intake's six records and the snapshot. -/
structure Intake where
  f : MeasurandRecord := {}
  a : MeasurandRecord := {}
  reach : MeasurandRecord := {}
  pitch : MeasurandRecord := {}
  roll : MeasurandRecord := {}
  gpress : MeasurandRecord := {}
  snapshot : Snapshot := {}
  deriving DecidableEq, Repr

/-! ## Slew counter (03) -/

/-- The slew counter. A sector is its index, and `none` is UNKNOWN. The modulus is a view of the ACTIVE bank
(`State.modulus`), and the pacing parameters are in the trace configuration (R52). -/
structure Slew where
  p : Nat := 0
  referenced : Bool := false
  sector : Option Nat := none
  lastDrift : Int := 0
  levelA : Bool := false
  levelB : Bool := false
  levelZ : Bool := false
  indexHeld : Bool := false
  lastPace : Option Nat := none
  deriving DecidableEq, Repr

/-! ## The table set (02, 03, 04, 06, 07, 08; layouts R174) -/

/-- A channel entry as stored (R24, R174). -/
structure ChannelEntry where
  source : Byte := 0
  slot : Byte := 0
  measurand : Byte := 0
  c0 : BitVec 24 := 0
  v0 : BitVec 32 := 0
  c1 : BitVec 24 := 0
  v1 : BitVec 32 := 0
  low : BitVec 32 := 0
  high : BitVec 32 := 0
  timeout : BitVec 16 := 0
  deriving DecidableEq, Repr

/-- A tool entry as stored (R57, R174). -/
structure ToolEntry where
  toolId : Byte := 0
  tare : BitVec 16 := 0
  closeThreshold : BitVec 16 := 0
  openThreshold : BitVec 16 := 0
  gripConfirmTime : BitVec 16 := 0
  regripTime : BitVec 16 := 0
  liftoffNet : BitVec 16 := 0
  accelGate : BitVec 16 := 0
  windowLength : BitVec 16 := 0
  tolerance : Byte := 0
  spreadFloor : BitVec 16 := 0
  gapLimit : Byte := 0
  deriving DecidableEq, Repr

/-- The sector header as stored (R46, R174). -/
structure SectorHeader where
  cpr : BitVec 16 := 0
  indexOffset : BitVec 16 := 0
  driftLimit : BitVec 16 := 0
  hysteresis : Byte := 0
  count : Byte := 0
  deriving DecidableEq, Repr

/-- A sector entry as stored (R47, R174). -/
structure SectorEntry where
  start : BitVec 16 := 0
  kind : Byte := 0
  column : Byte := 0
  cosWeight : BitVec 16 := 0
  sinWeight : BitVec 16 := 0
  towardLesser : Byte := 0
  deriving DecidableEq, Repr

/-- A capacity row as stored (R113, R174): the capacities at the tilt points −160 to 160. -/
structure CapacityRow where
  capacities : Vector (BitVec 16) 9 := Vector.replicate 9 0
  deriving DecidableEq, Repr

/-- A function entry as stored (R132, R174). -/
structure FunctionEntry where
  functionId : Byte := 0
  role : Byte := 0
  effect : Byte := 0
  sense : Byte := 0
  warnScale : BitVec 16 := 0
  deriving DecidableEq, Repr

/-- The machine record as stored (R144, R174). -/
structure MachineRecord where
  generation : BitVec 16 := 0
  warnOn : BitVec 16 := 0
  warnOff : BitVec 16 := 0
  limitOff : BitVec 16 := 0
  classThreshold1 : BitVec 32 := 0
  classThreshold2 : BitVec 32 := 0
  bunkWarn : BitVec 32 := 0
  bunkLimit : BitVec 32 := 0
  queueThreshold : Byte := 0
  overflowMode : Byte := 0
  noticeStation : Byte := 0
  deriving DecidableEq, Repr

/-- A table set (R145): five lists, whose lengths are their entry counts, and three single records. The set with every
list empty and every record all zero is the one OPEN STAGING makes (R146). -/
structure TableSet where
  channels : List ChannelEntry := []
  tools : List ToolEntry := []
  sectorHeader : SectorHeader := {}
  sectors : List SectorEntry := []
  columnCount : Byte := 0
  rows : List CapacityRow := []
  functions : List FunctionEntry := []
  machine : MachineRecord := {}
  deriving DecidableEq, Repr

/-- The STAGING bank: its staging state with what that state says it holds (R145). -/
inductive Staging where
  | empty
  | loading (t : TableSet)
  | checked (t : TableSet)
  | failed (t : TableSet)
  | previous (t : TableSet)
  deriving DecidableEq, Repr

/-! ## Lift controller (04) -/

/-- The weigh window (R63). -/
structure Window where
  n : Nat := 0
  sum : Nat := 0
  least : Option Nat := none
  greatest : Option Nat := none
  gapRun : Nat := 0
  deriving DecidableEq, Repr

/-- A lift's weighing: gross, net and BELOW_TARE, present together (R69, R75). -/
structure Weighing where
  gross : Nat
  net : Nat
  belowTare : Bool
  deriving DecidableEq, Repr

/-- What an open records (R76). -/
structure OpenDetails where
  sector : Option Nat
  assortment : Nat
  time : Clock
  deriving DecidableEq, Repr

/-- The open lift (R69). `snapshot = none` is the mark unknown; `number` is the sequence number with the generation,
both taken at the first entry to LIFTING. -/
structure OpenLift where
  tool : Nat
  snapshot : Option ToolEntry
  tareInUse : Option Nat
  workingTare : Bool
  gripTime : Clock
  pickSector : Option Nat
  number : Option (BitVec 16 × BitVec 16) := none
  sampleCount : Nat := 0
  windowAttempts : Nat := 0
  regripCount : Nat := 0
  weighing : Option Weighing := none
  static : Bool := false
  opened : Option OpenDetails := none
  peak : Nat := 0
  limitDuring : Bool := false
  bypassed : Bool := false
  deriving DecidableEq, Repr

/-- The lift controller (04, "The lift controller at a glance"). -/
structure LiftController where
  state : LiftState := .empty
  remembered : Option LiftState := none
  selectedTool : Nat := 0
  pendingTool : Option Nat := none
  workingTare : Option Nat := none
  notedSector : Option Nat := none
  gripTimer : Option Clock := none
  regripTimer : Option Clock := none
  tareTimer : Option Clock := none
  window : Window := {}
  setDownRun : Nat := 0
  lastSampleMass : Nat := 0
  openLift : Option OpenLift := none
  deriving DecidableEq, Repr

/-! ## Lift queue and tally (05) -/

/-- The outcomes of a lift (R86). -/
inductive LiftOutcome where
  | delivered
  | dropped
  | unloaded
  | shifted
  | unplaced
  | abandoned
  deriving DecidableEq, Repr

/-- A lift record (R87); the weighed indicator is set when `weighing` is present (R88). -/
structure LiftRecord where
  sequence : BitVec 16
  outcome : LiftOutcome
  weighing : Option Weighing
  tool : Nat
  assortment : Nat
  pickSector : Option Nat
  releaseSector : Option Nat
  generation : BitVec 16
  sampleCount : Nat
  windowAttempts : Nat
  regripCount : Nat
  static : Bool
  workingTare : Bool
  limitDuring : Bool
  bypassed : Bool
  peak : Nat
  gripTime : Clock
  duration : Nat
  deriving DecidableEq, Repr

/-- The lift queue with the next sequence number and the LIFTS_WAITING arm (R90, R91, R95). -/
structure LiftQueue where
  nextSequence : BitVec 16 := 0
  records : List LiftRecord := []
  waitingArm : Bool := true
  deriving DecidableEq, Repr

/-- The five figures of one assortment (R98). -/
structure AssortmentTally where
  deliveredCount : Nat := 0
  deliveredMass : Nat := 0
  unweighedDelivered : Nat := 0
  unloadedCount : Nat := 0
  unloadedMass : Nat := 0
  deriving DecidableEq, Repr

/-- The bunk tally (R98, R99, R105); `assortments` has the 32 assortments in order. -/
structure Tally where
  assortments : Vector AssortmentTally 32 := Vector.replicate 32 {}
  bunkTotal : Nat := 0
  totalDelivered : Nat := 0
  incomplete : Bool := false
  bunkClass : Nat := 0
  warnArm : Bool := true
  fullArm : Bool := true
  deriving DecidableEq, Repr

/-! ## Supervision (06) -/

/-- Supervision (R109); `alertNext` is the clock reading of the next change in WARN (R128). -/
structure Supervision where
  state : SupState := .unconfigured
  history : List Int := []
  sector : Option Nat := none
  bunkClass : Nat := 0
  service : Bool := false
  moment : Nat := 0
  tilt : Int := 0
  capacity : Nat := 0
  utilisation : Nat := 0
  tracking : Bool := false
  alert : Bool := true
  alertNext : Option Clock := none
  deriving DecidableEq, Repr

/-! ## Trace capture (10) -/

/-- The trace states. -/
inductive TraceState where
  | disabled
  | running
  | full
  deriving DecidableEq, Repr

/-- The kinds of clock event (R177). -/
inductive ClockKind where
  | fSample
  | slewPace
  | sectorChange
  | liftEvent
  | supChange
  | vdShaped
  deriving DecidableEq, Repr

/-- The element types (R175, R174). -/
inductive ElementType where
  | time
  | f
  | a
  | reach
  | pitch
  | roll
  | slewPos
  | sampleMass
  | u
  | capacity
  | liftState
  | supState
  | captureNumber
  deriving DecidableEq, Repr

/-- What a full buffer does with a capture (R178). -/
inductive TraceMode where
  | stopWhenFull
  | overwriteOldest
  deriving DecidableEq, Repr

/-- The slew pacing parameters (R52). -/
structure Pacing where
  interval : Nat := 256
  windowEnabled : Bool := false
  windowStart : Nat := 0
  windowEnd : Nat := 0
  deglitch : Bool := false
  deriving DecidableEq, Repr

/-- The trace configuration (R176), with its power-on values. -/
structure TraceConfig where
  clock : ClockKind := .fSample
  divider : Nat := 1
  block : List ElementType := [.time, .f]
  mode : TraceMode := .stopWhenFull
  pacing : Pacing := {}
  deriving DecidableEq, Repr

/-- A trace element: a tag and a 32-bit value (R175). -/
structure TraceElement where
  tag : ElementType
  value : BitVec 32
  deriving DecidableEq, Repr

/-- Trace capture (10): the buffer is its capture blocks, oldest first. -/
structure Trace where
  state : TraceState := .disabled
  config : TraceConfig := {}
  dividerCount : Nat := 0
  captureNumber : BitVec 32 := 0
  buffer : List (List TraceElement) := []
  deriving DecidableEq, Repr

/-! ## Management (09) -/

/-- A request in the queue (R158). -/
structure Request where
  port : PortId
  source : Byte
  payload : List Byte
  deriving DecidableEq, Repr

/-- Where the chain of the head request stands: the offset of the next operation, the bytes of the result records so
far and the two counts of the reply (R159, R160). -/
structure Chain where
  offset : Nat := 1
  results : List Byte := []
  resultCount : Nat := 0
  performedCount : Nat := 0
  deriving DecidableEq, Repr

/-- What management is doing with the head request: reading its chain, waiting for a check begun at `started`
(`more` is the CHAIN bit of CHECK STAGING) (R149), or holding its built reply, with whether a warm restart follows it
(R162, R169). -/
inductive Phase where
  | reading (c : Chain)
  | checking (c : Chain) (started : Clock) (more : Bool)
  | held (reply : List Byte) (restart : Bool)
  deriving DecidableEq, Repr

/-- The request queue, oldest first, and what is being done with its head (R158). -/
structure Management where
  requests : List Request := []
  phase : Phase := .reading {}
  deriving DecidableEq, Repr

/-! ## The machine -/

/-- The whole part, with the queue of waiting commands. `choices` is the model's own: it counts the uses of the free
values (notes/assumptions/11.md). -/
structure State where
  pending : List Instr := []
  choices : Nat := 0
  inReset : Bool := false
  clock : Clock := 0
  strapValue : BitVec 6 := 0
  station : Byte := 40
  cab : Port := {}
  crane : Port := {}
  conditions : BitVec 32 := 0
  notices : BitVec 16 := 0
  intake : Intake := {}
  slew : Slew := {}
  lift : LiftController := {}
  queue : LiftQueue := {}
  tally : Tally := {}
  sup : Supervision := {}
  active : Option TableSet := none
  staging : Staging := .empty
  mgmt : Management := {}
  trace : Trace := {}
  deriving DecidableEq, Repr

/-- The part right after power-on with strap value 0 (station 40, R13), the encoder inputs low and the service input
released (notes/assumptions/4.md); every other field has the power-on value its chapter states. -/
def State.reset : State := {}

end Sys2Proof.Machine
end

