-- ==== Sys2Proof/Machine/Bytes.lean ====
section
/-! DEFINITION. Byte order and bit fields of the link (R174) and the rounding words of the manual (00_scope.md,
"Conventions"). -/

namespace Sys2Proof.Machine

/-! ## Fields, high byte first (R174) -/

/-- The byte at an offset of a record; a byte beyond its end reads as 0 (records are read after their length is judged). -/
def byteAt (r : List Byte) (i : Nat) : Byte := r.getD i 0

/-- The 16-bit field at an offset, high byte first. -/
def field16 (r : List Byte) (i : Nat) : BitVec 16 := byteAt r i ++ byteAt r (i + 1)

/-- The 24-bit field at an offset, high byte first. -/
def field24 (r : List Byte) (i : Nat) : BitVec 24 := field16 r i ++ byteAt r (i + 2)

/-- The 32-bit field at an offset, high byte first. -/
def field32 (r : List Byte) (i : Nat) : BitVec 32 := field16 r i ++ field16 r (i + 2)

/-- A 16-bit field as it is sent. -/
def bytes16 (x : BitVec 16) : List Byte := [x.extractLsb' 8 8, x.extractLsb' 0 8]

/-- A 24-bit field as it is sent. -/
def bytes24 (x : BitVec 24) : List Byte := [x.extractLsb' 16 8, x.extractLsb' 8 8, x.extractLsb' 0 8]

/-- A 32-bit field as it is sent. -/
def bytes32 (x : BitVec 32) : List Byte :=
  [x.extractLsb' 24 8, x.extractLsb' 16 8, x.extractLsb' 8 8, x.extractLsb' 0 8]

/-- An unsigned one-byte field. -/
def sendByte (n : Nat) : Byte := BitVec.ofNat 8 n

/-- An unsigned 16-bit field. -/
def send16 (n : Nat) : List Byte := bytes16 (BitVec.ofNat 16 n)

/-- An unsigned 32-bit field. -/
def send32 (n : Nat) : List Byte := bytes32 (BitVec.ofNat 32 n)

/-- A signed 16-bit field, two's complement. -/
def sendSigned16 (n : Int) : List Byte := bytes16 (BitVec.ofInt 16 n)

/-- A signed 32-bit field, two's complement. -/
def sendSigned32 (n : Int) : List Byte := bytes32 (BitVec.ofInt 32 n)

/-- A sector index, with UNKNOWN sent as 0xFF (R174). -/
def sendSector (s : Option Nat) : Byte :=
  match s with
  | some i => sendByte i
  | none => 0xFF

/-- A byte holding one bit. -/
def bitByte (b : Bool) (i : Nat) : Byte := if b then BitVec.twoPow 8 i else 0

/-! ## Rounding -/

/-- "Rounded half up" of a quotient that is not negative: an exact half goes to the greater integer. -/
def roundHalfUp (num den : Nat) : Nat := (2 * num + den) / (2 * den)

/-- "Rounded to nearest, ties away from zero" of a true signed quotient; numerator and divisor may each be negative. -/
def roundAway (num den : Int) : Int := Int.sign num * Int.sign den * (roundHalfUp num.natAbs den.natAbs : Int)

/-- "Ceiling" of a quotient that is not negative. -/
def ceilDiv (num den : Nat) : Nat := (num + den - 1) / den

/-- "Clamped" into a range of integers. -/
def clampInt (low high v : Int) : Int := if v < low then low else if high < v then high else v

/-- A saturating sum. -/
def satAdd (cap a b : Nat) : Nat := if cap < a + b then cap else a + b

end Sys2Proof.Machine
end

