-- ==== Sys2Proof/Machine/Flags.lean ====
section
/-! DEFINITION. The condition set, the pending-notice set, the flags bytes and the codes of named values (R170, R172,
R174). -/

namespace Sys2Proof.Machine

/-- The seventeen conditions (R170). -/
inductive Condition where
  | forwardOverrun (p : PortId)
  | linkLost (p : PortId)
  | checkErrorSeen (p : PortId)
  | slewCountError
  | slewSuspect
  | implausible (m : Measurand)
  | tiltHigh
  | queueOverflow
  | traceOverflow
  deriving DecidableEq, Repr

/-- A condition's bit in the condition set (R174). -/
def Condition.bit : Condition → Nat
  | .forwardOverrun .cab => 0
  | .forwardOverrun .crane => 1
  | .linkLost .cab => 2
  | .linkLost .crane => 3
  | .checkErrorSeen .cab => 4
  | .checkErrorSeen .crane => 5
  | .slewCountError => 6
  | .slewSuspect => 7
  | .implausible .f => 8
  | .implausible .a => 9
  | .implausible .reach => 10
  | .implausible .pitch => 11
  | .implausible .roll => 12
  | .implausible .gpress => 13
  | .tiltHigh => 14
  | .queueOverflow => 15
  | .traceOverflow => 16

/-- The thirteen notice kinds (R172). -/
inductive NoticeKind where
  | limitEntered
  | limitLeft
  | holdEntered
  | holdLeft
  | bypassOn
  | bypassOff
  | liftsWaiting
  | bunkWarn
  | bunkFull
  | slewSuspect
  | tareDone
  | tareFailed
  | tablesActive
  deriving DecidableEq, Repr

/-- A notice kind's bit in the pending-notice set (R174). -/
def NoticeKind.bit : NoticeKind → Nat
  | .limitEntered => 0
  | .limitLeft => 1
  | .holdEntered => 2
  | .holdLeft => 3
  | .bypassOn => 4
  | .bypassOff => 5
  | .liftsWaiting => 6
  | .bunkWarn => 7
  | .bunkFull => 8
  | .slewSuspect => 9
  | .tareDone => 10
  | .tareFailed => 11
  | .tablesActive => 12

/-- Raising a condition; one already raised stays as it is (R170). -/
def State.raise (c : Condition) (s : State) : State := { s with conditions := s.conditions ||| BitVec.twoPow 32 c.bit }

/-- A condition is raised. -/
def State.raised (c : Condition) (s : State) : Bool := s.conditions.getLsbD c.bit

/-- A notice kind is pending. -/
def State.isPending (k : NoticeKind) (s : State) : Bool := s.notices.getLsbD k.bit

/-! ## State codes (R174) -/

/-- Link state codes. -/
def LinkState.code : LinkState → Nat
  | .down => 0
  | .training => 1
  | .up => 2

/-- Supervision state codes. -/
def supCode : SupState → Nat
  | .unconfigured => 0
  | .normal => 1
  | .warn => 2
  | .limit => 3
  | .hold => 4
  | .bypass => 5

/-- Lift state codes. -/
def liftCode : LiftState → Nat
  | .empty => 0
  | .taring => 1
  | .gripped => 2
  | .lifting => 3
  | .weighed => 4
  | .releasing => 5

/-- Staging state codes. -/
def Staging.code : Staging → Nat
  | .empty => 0
  | .loading _ => 1
  | .checked _ => 2
  | .failed _ => 3
  | .previous _ => 4

/-- Trace state codes. -/
def TraceState.code : TraceState → Nat
  | .disabled => 0
  | .running => 1
  | .full => 2

/-- Outcome codes. -/
def LiftOutcome.code : LiftOutcome → Nat
  | .delivered => 1
  | .dropped => 2
  | .unloaded => 3
  | .shifted => 4
  | .unplaced => 5
  | .abandoned => 6

/-- Measurand codes. -/
def measurandCode : Measurand → Nat
  | .f => 1
  | .a => 2
  | .reach => 3
  | .pitch => 4
  | .roll => 5
  | .gpress => 6

/-- The measurand a code names, if it names one. -/
def measurandOfCode : Nat → Option Measurand
  | 1 => some .f
  | 2 => some .a
  | 3 => some .reach
  | 4 => some .pitch
  | 5 => some .roll
  | 6 => some .gpress
  | _ => none

/-- A measurand's range (02, "The six measurands"). -/
def measurandRange : Measurand → Int × Int
  | .f => (0, 120000)
  | .a => (-2000, 2000)
  | .reach => (0, 1500)
  | .pitch => (-450, 450)
  | .roll => (-450, 450)
  | .gpress => (0, 3500)

/-- Element type tags. -/
def ElementType.code : ElementType → Nat
  | .time => 1
  | .f => 2
  | .a => 3
  | .reach => 4
  | .pitch => 5
  | .roll => 6
  | .slewPos => 7
  | .sampleMass => 8
  | .u => 9
  | .capacity => 10
  | .liftState => 11
  | .supState => 12
  | .captureNumber => 13

/-- The element type a tag names, if it names one. -/
def elementOfCode : Nat → Option ElementType
  | 1 => some .time
  | 2 => some .f
  | 3 => some .a
  | 4 => some .reach
  | 5 => some .pitch
  | 6 => some .roll
  | 7 => some .slewPos
  | 8 => some .sampleMass
  | 9 => some .u
  | 10 => some .capacity
  | 11 => some .liftState
  | 12 => some .supState
  | 13 => some .captureNumber
  | _ => none

/-- The clock event kind a code names, if it names one. -/
def clockKindOfCode : Nat → Option ClockKind
  | 1 => some .fSample
  | 2 => some .slewPace
  | 3 => some .sectorChange
  | 4 => some .liftEvent
  | 5 => some .supChange
  | 6 => some .vdShaped
  | _ => none

/-- The kind of a clock event. -/
def clockKind : ClockEvent → ClockKind
  | .fSample _ => .fSample
  | .slewPace _ => .slewPace
  | .sectorChange => .sectorChange
  | .liftEvent _ => .liftEvent
  | .supChange _ => .supChange
  | .vdShaped => .vdShaped

/-- The statuses of a result record and of a reply (R160). -/
inductive Status where
  | ok
  | skipped
  | badOperation
  | lengthError
  | rangeError
  | notOpen
  | wrongState
  | notFound
  | generationMismatch
  | noRoom
  | busy
  deriving DecidableEq, Repr

/-- Status codes. -/
def Status.code : Status → Nat
  | .ok => 0
  | .skipped => 1
  | .badOperation => 2
  | .lengthError => 3
  | .rangeError => 4
  | .notOpen => 5
  | .wrongState => 6
  | .notFound => 7
  | .generationMismatch => 8
  | .noRoom => 9
  | .busy => 10

/-! ## Flags bytes (R140, R162, R174) -/

/-- The flags byte of a shaped VALVE DEMAND: SHAPED in bit 0, the level in bits 1–2, BYPASS in bit 3. -/
def shapedFlags (shaped : Bool) (level : Nat) (bypass : Bool) : Byte :=
  bitByte shaped 0 ||| (BitVec.ofNat 8 level <<< 1) ||| bitByte bypass 3

/-- The flags byte of a MANAGEMENT REPLY: RESTART FOLLOWS in bit 0, BUSY in bit 1. -/
def replyFlags (restartFollows busy : Bool) : Byte := bitByte restartFollows 0 ||| bitByte busy 1

/-- The CHAIN bit of an operation's flags byte (R174). -/
def chainBit (flags : Byte) : Bool := flags.getLsbD 0

end Sys2Proof.Machine
end

