-- ==== Sys2Proof/Machine/Operands.lean ====
section
/-! DEFINITION. The records the part reads and sends, field by field, from the byte layouts of R174: table entries,
traffic payload records, the trace configuration, trace elements and lift records. -/

namespace Sys2Proof.Machine

/-! ## Table entry records -/

/-- Channel entry, 27 bytes. -/
def channelOfBytes (r : List Byte) : ChannelEntry :=
  { source := byteAt r 0, slot := byteAt r 1, measurand := byteAt r 2, c0 := field24 r 3, v0 := field32 r 6,
    c1 := field24 r 10, v1 := field32 r 13, low := field32 r 17, high := field32 r 21, timeout := field16 r 25 }

/-- Channel entry, 27 bytes. -/
def channelBytes (e : ChannelEntry) : List Byte :=
  [e.source, e.slot, e.measurand] ++ bytes24 e.c0 ++ bytes32 e.v0 ++ bytes24 e.c1 ++ bytes32 e.v1 ++
    bytes32 e.low ++ bytes32 e.high ++ bytes16 e.timeout

/-- Tool entry, 21 bytes. -/
def toolOfBytes (r : List Byte) : ToolEntry :=
  { toolId := byteAt r 0, tare := field16 r 1, closeThreshold := field16 r 3, openThreshold := field16 r 5,
    gripConfirmTime := field16 r 7, regripTime := field16 r 9, liftoffNet := field16 r 11, accelGate := field16 r 13,
    windowLength := field16 r 15, tolerance := byteAt r 17, spreadFloor := field16 r 18, gapLimit := byteAt r 20 }

/-- Tool entry, 21 bytes. -/
def toolBytes (e : ToolEntry) : List Byte :=
  [e.toolId] ++ bytes16 e.tare ++ bytes16 e.closeThreshold ++ bytes16 e.openThreshold ++ bytes16 e.gripConfirmTime ++
    bytes16 e.regripTime ++ bytes16 e.liftoffNet ++ bytes16 e.accelGate ++ bytes16 e.windowLength ++ [e.tolerance] ++
    bytes16 e.spreadFloor ++ [e.gapLimit]

/-- Sector header, 8 bytes. -/
def sectorHeaderOfBytes (r : List Byte) : SectorHeader :=
  { cpr := field16 r 0, indexOffset := field16 r 2, driftLimit := field16 r 4, hysteresis := byteAt r 6,
    count := byteAt r 7 }

/-- Sector header, 8 bytes. -/
def sectorHeaderBytes (h : SectorHeader) : List Byte :=
  bytes16 h.cpr ++ bytes16 h.indexOffset ++ bytes16 h.driftLimit ++ [h.hysteresis, h.count]

/-- Sector entry, 9 bytes. -/
def sectorOfBytes (r : List Byte) : SectorEntry :=
  { start := field16 r 0, kind := byteAt r 2, column := byteAt r 3, cosWeight := field16 r 4, sinWeight := field16 r 6,
    towardLesser := byteAt r 8 }

/-- Sector entry, 9 bytes. -/
def sectorBytes (e : SectorEntry) : List Byte :=
  bytes16 e.start ++ [e.kind, e.column] ++ bytes16 e.cosWeight ++ bytes16 e.sinWeight ++ [e.towardLesser]

/-- Capacity row, 18 bytes: the capacities at −160 to 160. -/
def rowOfBytes (r : List Byte) : CapacityRow :=
  { capacities := #v[field16 r 0, field16 r 2, field16 r 4, field16 r 6, field16 r 8, field16 r 10, field16 r 12,
      field16 r 14, field16 r 16] }

/-- Capacity row, 18 bytes. -/
def rowBytes (e : CapacityRow) : List Byte := e.capacities.toList.flatMap bytes16

/-- Function entry, 6 bytes. -/
def functionOfBytes (r : List Byte) : FunctionEntry :=
  { functionId := byteAt r 0, role := byteAt r 1, effect := byteAt r 2, sense := byteAt r 3, warnScale := field16 r 4 }

/-- Function entry, 6 bytes. -/
def functionBytes (e : FunctionEntry) : List Byte := [e.functionId, e.role, e.effect, e.sense] ++ bytes16 e.warnScale

/-- Machine record, 27 bytes. -/
def machineOfBytes (r : List Byte) : MachineRecord :=
  { generation := field16 r 0, warnOn := field16 r 2, warnOff := field16 r 4, limitOff := field16 r 6,
    classThreshold1 := field32 r 8, classThreshold2 := field32 r 12, bunkWarn := field32 r 16, bunkLimit := field32 r 20,
    queueThreshold := byteAt r 24, overflowMode := byteAt r 25, noticeStation := byteAt r 26 }

/-- Machine record, 27 bytes. -/
def machineBytes (e : MachineRecord) : List Byte :=
  bytes16 e.generation ++ bytes16 e.warnOn ++ bytes16 e.warnOff ++ bytes16 e.limitOff ++ bytes32 e.classThreshold1 ++
    bytes32 e.classThreshold2 ++ bytes32 e.bunkWarn ++ bytes32 e.bunkLimit ++
    [e.queueThreshold, e.overflowMode, e.noticeStation]

/-! ## Traffic payload records -/

/-- A sensor slot record: slot number and signed raw count (R25). -/
structure SlotRecord where
  slot : Byte
  count : Int
  deriving DecidableEq, Repr

/-- The slot records of a payload, from its first byte; the 1 to 3 bytes after the last whole record are ignored (R25). -/
def slotRecords : List Byte → List SlotRecord
  | s :: b1 :: b2 :: b3 :: rest => { slot := s, count := ((b1 ++ b2 ++ b3 : BitVec 24)).toInt } :: slotRecords rest
  | _ => []

/-- A demand record: function id and signed demand (R131). -/
structure DemandRecord where
  function : Byte
  demand : Int
  deriving DecidableEq, Repr

/-- The demand records of a payload, if it can be read as demand records: its length is a multiple of 3 and at most 36
bytes (R131). -/
def demandRecords (payload : List Byte) : Option (List DemandRecord) :=
  if payload.length ≤ 36 then go payload else none
where
  go : List Byte → Option (List DemandRecord)
    | [] => some []
    | f :: b1 :: b2 :: rest =>
      (go rest).map fun rs => { function := f, demand := ((b1 ++ b2 : BitVec 16)).toInt } :: rs
    | _ => none

/-- A demand record as it is sent. -/
def demandBytes (r : DemandRecord) : List Byte := r.function :: sendSigned16 r.demand

/-! ## Trace records -/

/-- The element types of the first `n` tag places, in capture order; `none` when a tag names none. -/
def elementTypes : List Byte → Option (List ElementType)
  | [] => some []
  | tag :: rest =>
    match elementOfCode tag.toNat, elementTypes rest with
    | some e, some es => some (e :: es)
    | _, _ => none

/-- A yes/no byte: 0 or 1 (R176). -/
def flagOfByte (b : Byte) : Option Bool := if b = 0 then some false else if b = 1 then some true else none

/-- The mode a code names, if it names one. -/
def traceModeOfCode : Nat → Option TraceMode
  | 1 => some .stopWhenFull
  | 2 => some .overwriteOldest
  | _ => none

/-- The trace configuration record, 18 bytes, judged as R176 gives: `none` is a record that any of its checks refuses. -/
def traceConfigOfBytes (r : List Byte) : Option TraceConfig := do
  let clock ← clockKindOfCode (byteAt r 0).toNat
  let divider := (byteAt r 1).toNat
  let length := (byteAt r 2).toNat
  let interval := (field16 r 10).toNat
  guard (divider ≠ 0)
  guard (1 ≤ length ∧ length ≤ 6)
  let block ← elementTypes ((r.drop 3).take length)
  let mode ← traceModeOfCode (byteAt r 9).toNat
  guard (1 ≤ interval ∧ interval ≤ 4096)
  let enabled ← flagOfByte (byteAt r 12)
  let deglitch ← flagOfByte (byteAt r 17)
  return { clock, divider, block, mode,
           pacing := { interval, windowEnabled := enabled, windowStart := (field16 r 13).toNat,
                       windowEnd := (field16 r 15).toNat, deglitch } }

/-- A trace element, 5 bytes. -/
def elementBytes (e : TraceElement) : List Byte := sendByte e.tag.code :: bytes32 e.value

/-! ## Lift records -/

/-- The flags byte of a lift record. -/
def recordFlags (r : LiftRecord) : Byte :=
  bitByte r.weighing.isSome 0 ||| bitByte (r.weighing.elim false (·.belowTare)) 1 ||| bitByte r.static 2 |||
    bitByte r.workingTare 3 ||| bitByte r.limitDuring 4 ||| bitByte r.bypassed 5

/-- A lift record: 22 bytes unweighed, 30 weighed (R88, R174). -/
def recordBytes (r : LiftRecord) : List Byte :=
  bytes16 r.sequence ++ [sendByte r.outcome.code, recordFlags r, sendByte r.tool, sendByte r.assortment,
      sendSector r.pickSector, sendSector r.releaseSector] ++
    bytes16 r.generation ++ send16 r.sampleCount ++ [sendByte r.windowAttempts, sendByte r.regripCount] ++
    send16 r.peak ++ bytes32 r.gripTime ++ send16 r.duration ++
    match r.weighing with
    | some w => send32 w.gross ++ send32 w.net
    | none => []

end Sys2Proof.Machine
end

