-- ==== Sys2Proof/Machine/Ops.lean ====
section
/-! DEFINITION. The named operations over the state that several blocks share: the frame check, ports and transmit lists,
timers on the millisecond clock, and the views of the ACTIVE bank. -/

namespace Sys2Proof.Machine

/-- Every meaning of the block answers with a next state. -/
abbrev Answer := Host.Outcome State Fault Refusal

/-- While the reset input is asserted the blocks take no events and their timers do not run (00_scope.md, "Resets"): a
command then changes nothing. -/
def State.unlessReset (s : State) (f : State → State) : Answer := .next (if s.inReset then s else f s)

/-! ## The frame check (R9) -/

/-- One shift of the check register. -/
def crcShift (r : BitVec 16) : BitVec 16 := if r.msb then (r <<< 1) ^^^ 0x1021 else r <<< 1

/-- The check register after one more byte, most significant bit first. -/
def crcByte (r : BitVec 16) (b : Byte) : BitVec 16 :=
  let x := r ^^^ (b ++ (0 : Byte))
  crcShift (crcShift (crcShift (crcShift (crcShift (crcShift (crcShift (crcShift x)))))))

/-- The check of a run of bytes: CRC-16, generator x^16+x^12+x^5+1, from 0xFFFF, no final inversion. -/
def check (bytes : List Byte) : BitVec 16 := bytes.foldl crcByte 0xFFFF

/-- A frame the part makes: header, payload and the check over the bytes as sent. -/
def frameOf (dest source kind flags : Byte) (payload : List Byte) : List Byte :=
  let body := [dest, source, kind, flags, sendByte payload.length] ++ payload
  body ++ bytes16 (check body)

/-! ## Ports -/

/-- A port of the part. -/
def State.port (p : PortId) (s : State) : Port :=
  match p with
  | .cab => s.cab
  | .crane => s.crane

/-- Changing one port. -/
def State.modPort (p : PortId) (f : Port → Port) (s : State) : State :=
  match p with
  | .cab => { s with cab := f s.cab }
  | .crane => { s with crane := f s.crane }

/-- The six places of a transmit list (R16). -/
def listPlaces : Nat := 6

/-- A port's list has room for one more entry and the port is UP. -/
def Port.hasPlace (p : Port) : Bool := p.link = .up && decide (p.list.length < listPlaces)

/-- An entry joins at the tail (R16). -/
def Port.append (e : Entry) (p : Port) : Port := { p with list := p.list ++ [e] }

/-- The answers of a list to a frame the part offers it (R21). -/
inductive PlaceResult where
  | placed
  | noRoom
  | notUp
  deriving DecidableEq, Repr

/-- What a port answers to an offered frame (R21). -/
def Port.answer (p : Port) : PlaceResult :=
  if p.link ≠ .up then .notUp else if p.list.length < listPlaces then .placed else .noRoom

/-- Offering one of the part's own frames whole: it joins the tail as a stored entry when there is a place (R21). -/
def State.offer (p : PortId) (frame : List Byte) (s : State) : State :=
  if (s.port p).hasPlace then s.modPort p (Port.append { bytes := frame, status := .whole }) else s

/-- Finishing the forwarded copy of the frame that arrives on the other port, in one list (R19). The copy is the entry
still arriving; there is at most one. -/
def finishCopy (good : Bool) (p : Port) : Port :=
  if good then
    { p with list := p.list.map fun e => if e.status = .arriving then { e with status := .whole } else e }
  else
    match p.list with
    | [] => p
    | e :: rest =>
      if p.sending.isSome then
        { p with list := (if e.status = .arriving then { e with status := .broken } else e) ::
            rest.filter (fun x => decide (x.status ≠ .arriving)) }
      else { p with list := (e :: rest).filter (fun x => decide (x.status ≠ .arriving)) }

/-- A received byte of a forwarded frame fills its entry (R16). -/
def extendCopy (b : Byte) (p : Port) : Port :=
  { p with list := p.list.map fun e => if e.status = .arriving then { e with bytes := e.bytes ++ [b] } else e }

/-! ## Timers -/

/-- The clock reading `ms` milliseconds on from a reading. -/
def after (t : Clock) (ms : Nat) : Clock := t + BitVec.ofNat 32 ms

/-- A running timer has expired: the clock has reached its expiry time, measured across the clock's wrap (R32). -/
def expired (now : Clock) (timer : Option Clock) : Bool :=
  match timer with
  | some t => decide ((now - t).toNat < 2147483648)
  | none => false

/-! ## The ACTIVE bank -/

/-- The modulus of the slew position: the ACTIVE CPR, or 65536 while no table set is active (R42). -/
def State.modulus (s : State) : Nat :=
  match s.active with
  | some t => t.sectorHeader.cpr.toNat
  | none => 65536

/-- The generation of the ACTIVE set, 0 while none (R145). -/
def State.activeGeneration (s : State) : BitVec 16 :=
  match s.active with
  | some t => t.machine.generation
  | none => 0

/-- The channel entry of a measurand (R24). -/
def TableSet.channelOf (t : TableSet) (m : Measurand) : Option ChannelEntry :=
  t.channels.find? fun e => e.measurand.toNat = measurandCode m

/-- The tool entry with an id (R57, R58). -/
def TableSet.toolOf (t : TableSet) (id : Nat) : Option ToolEntry := t.tools.find? fun e => e.toolId.toNat = id

/-- The entry whose parameters an unknown tool falls back on: the one with the lowest tool id (R58). -/
def TableSet.fallbackTool (t : TableSet) : Option ToolEntry :=
  t.tools.foldl (fun best e =>
    match best with
    | some b => if e.toolId.toNat < b.toolId.toNat then some e else some b
    | none => some e) none

/-- The sector entry of an index, when the index lies below the sector count (R109, R133). -/
def TableSet.sectorOf (t : TableSet) (i : Nat) : Option SectorEntry :=
  if i < t.sectorHeader.count.toNat then t.sectors[i]? else none

/-- The function entry with an id (R134). -/
def TableSet.functionOf (t : TableSet) (id : Byte) : Option FunctionEntry :=
  t.functions.find? fun e => e.functionId = id

/-! ## Measurands -/

/-- A measurand's record. -/
def Intake.get (m : Measurand) (i : Intake) : MeasurandRecord :=
  match m with
  | .f => i.f
  | .a => i.a
  | .reach => i.reach
  | .pitch => i.pitch
  | .roll => i.roll
  | .gpress => i.gpress

/-- Replacing a measurand's record. -/
def Intake.set (m : Measurand) (r : MeasurandRecord) (i : Intake) : Intake :=
  match m with
  | .f => { i with f := r }
  | .a => { i with a := r }
  | .reach => { i with reach := r }
  | .pitch => { i with pitch := r }
  | .roll => { i with roll := r }
  | .gpress => { i with gpress := r }

/-- A measurand is FRESH. -/
def State.fresh (m : Measurand) (s : State) : Bool := (s.intake.get m).state = .fresh

/-- U is current when a table set is active and F and REACH are FRESH (R117). -/
def State.uCurrent (s : State) : Bool := s.active.isSome && s.fresh .f && s.fresh .reach

/-- Drawing the next free choice of the order of simultaneous events, out of `n` orders (notes/assumptions/11.md). -/
def State.choose (n : Nat) (s : State) : Nat × State :=
  (Config.order s.choices % n, { s with choices := s.choices + 1 })

end Sys2Proof.Machine
end

