-- ==== Sys2Proof/Machine/Notices.lean ====
section
/-! DEFINITION. The pending-notice set and NOTICE frames (R172, R173): every raise of a kind is an attempt to send. -/

namespace Sys2Proof.Machine

/-- The kind code of NOTICE. -/
def kindNotice : Byte := 0x53

/-- The notice station: 0 while no table set is active. -/
def noticeStation (s : State) : Byte := s.active.elim 0 fun t => t.machine.noticeStation

/-- The payload of a NOTICE, from the state as it stands (R173, R174). -/
def noticePayload (s : State) : List Byte :=
  bytes16 s.notices ++ [sendByte (supCode s.sup.state)] ++ send16 s.sup.utilisation ++
    [sendByte s.queue.records.length] ++ send32 s.tally.bunkTotal

/-- The NOTICE frame of the state as it stands (R173). -/
def noticeFrame (s : State) : List Byte := frameOf (noticeStation s) s.station kindNotice 0 (noticePayload s)

/-- An attempt to send a NOTICE: with kinds pending, a notice station and a place in the cab port's list it is placed and
the pending-notice set emptied (R173). -/
def attemptNotice (s : State) : State :=
  if s.notices ≠ 0 ∧ noticeStation s ≠ 0 ∧ s.cab.hasPlace then { s.offer .cab (noticeFrame s) with notices := 0 } else s

/-- A kind becomes pending; one already pending stays as it is (R172). -/
def State.markPending (k : NoticeKind) (s : State) : State := { s with notices := s.notices ||| BitVec.twoPow 16 k.bit }

/-- Raising a notice kind (R172, R173): it becomes pending, and that raise is itself an attempt to send. -/
def State.notify (k : NoticeKind) (s : State) : State := attemptNotice (s.markPending k)

/-- NOTICE_ATTEMPT (R173). -/
def execNoticeAttempt (s : State) : Answer := s.unlessReset attemptNotice

end Sys2Proof.Machine
end

