-- ==== Sys2Proof/Machine/Trace.lean ====
section
/-! DEFINITION. Trace capture (10): clock events, captures, trace control and reading out. -/

namespace Sys2Proof.Machine

/-- The room of the trace buffer, in elements (R178). -/
def traceRoom : Nat := 1024

/-- The number of elements a run of capture blocks holds. -/
def elementsOf (blocks : List (List TraceElement)) : Nat := (blocks.map List.length).sum

/-- The number of elements the buffer holds (READ STATUS, R164). -/
def Trace.held (t : Trace) : Nat := elementsOf t.buffer

/-- The value an element takes at a capture numbered `number`: the one its clock event carries where the types agree,
else its owning block's state as it stands (R175). -/
def captureValue (event : ClockEvent) (number : BitVec 32) (s : State) : ElementType → BitVec 32
  | .time => s.clock
  | .f => match event with
    | .fSample v => BitVec.ofInt 32 v
    | _ => BitVec.ofInt 32 s.intake.f.value
  | .a => BitVec.ofInt 32 s.intake.a.value
  | .reach => BitVec.ofInt 32 s.intake.reach.value
  | .pitch => BitVec.ofInt 32 s.intake.pitch.value
  | .roll => BitVec.ofInt 32 s.intake.roll.value
  | .slewPos => match event with
    | .slewPace p => BitVec.ofNat 32 p
    | _ => BitVec.ofNat 32 s.slew.p
  | .sampleMass => BitVec.ofNat 32 s.lift.lastSampleMass
  | .u => BitVec.ofNat 32 s.sup.utilisation
  | .capacity => BitVec.ofNat 32 s.sup.capacity
  | .liftState => match event with
    | .liftEvent l => BitVec.ofNat 32 (liftCode l)
    | _ => BitVec.ofNat 32 (liftCode s.lift.state)
  | .supState => match event with
    | .supChange x => BitVec.ofNat 32 (supCode x)
    | _ => BitVec.ofNat 32 (supCode s.sup.state)
  | .captureNumber => number

/-- Removing whole blocks from the head, oldest first, until a block of `b` elements fits (R178). -/
def dropToFit (b : Nat) : List (List TraceElement) → List (List TraceElement)
  | [] => []
  | blk :: rest => if elementsOf (blk :: rest) + b ≤ traceRoom then blk :: rest else dropToFit b rest

/-- Writing one block at the tail of a buffer that has room for it (R178). -/
def writeBlock (event : ClockEvent) (kept : List (List TraceElement)) (s : State) : State :=
  let number := s.trace.captureNumber + 1
  let block := s.trace.config.block.map fun ty => { tag := ty, value := captureValue event number s ty : TraceElement }
  { s with trace := { s.trace with captureNumber := number, buffer := kept ++ [block] } }

/-- A capture (R178). -/
def capture (event : ClockEvent) (s : State) : State :=
  let b := s.trace.config.block.length
  if s.trace.held + b ≤ traceRoom then writeBlock event s.trace.buffer s
  else
    match s.trace.config.mode with
    | .stopWhenFull => State.raise .traceOverflow { s with trace := { s.trace with state := .full } }
    | .overwriteOldest => State.raise .traceOverflow (writeBlock event (dropToFit b s.trace.buffer) s)

/-- A clock event reaches trace capture (R177): in RUNNING, one of the configured kind counts toward the divider, and at
the divider the count becomes 0 and a capture is taken. -/
def clockEvent (event : ClockEvent) (s : State) : State :=
  if s.trace.state = .running ∧ s.trace.config.clock = clockKind event then
    if s.trace.config.divider ≤ s.trace.dividerCount + 1 then
      capture event { s with trace := { s.trace with dividerCount := 0 } }
    else { s with trace := { s.trace with dividerCount := s.trace.dividerCount + 1 } }
  else s

/-- TRACE_CAPTURE (R177, R178): a clock event of the part. -/
def execTraceCapture (event : ClockEvent) (s : State) : Answer := s.unlessReset (clockEvent event)

/-! ## Control (R176, R179) -/

/-- The emptied trace: no blocks, capture number 0, divider count 0. -/
def Trace.emptied (t : Trace) : Trace := { t with buffer := [], captureNumber := 0, dividerCount := 0 }

/-- TRACE CONTROL (configure) with a record that has passed its checks: every field is replaced, the slew counter takes
the pacing parameters and its last pace multiple becomes none, and the buffer is emptied (R176, R52). -/
def traceConfigure (c : TraceConfig) (s : State) : State :=
  { s with trace := { s.trace.emptied with config := c }, slew := { s.slew with lastPace := none } }

/-- TRACE CONTROL (enable). -/
def traceEnable (s : State) : State :=
  match s.trace.state with
  | .disabled => { s with trace := { s.trace with state := .running, dividerCount := 0 } }
  | .running => s
  | .full => s

/-- TRACE CONTROL (disable). -/
def traceDisable (s : State) : State := { s with trace := { s.trace with state := .disabled } }

/-- TRACE CONTROL (flush). -/
def traceFlush (s : State) : State :=
  { s with trace := { s.trace.emptied with
      state := if s.trace.state = .full then .running else s.trace.state } }

/-! ## Reading out (R180) -/

/-- The whole blocks that fit within a maximum of elements, oldest first, and the rest. -/
def takeBlocks : Nat → List (List TraceElement) → List (List TraceElement) × List (List TraceElement)
  | _, [] => ([], [])
  | max, blk :: rest =>
    if blk.length ≤ max then
      let r := takeBlocks (max - blk.length) rest
      (blk :: r.1, r.2)
    else ([], blk :: rest)

/-- TRACE READ of at most `max` elements: the elements returned, and the state after. In FULL, removing a block gives
RUNNING. -/
def traceRead (max : Nat) (s : State) : List TraceElement × State :=
  let r := takeBlocks max s.trace.buffer
  let state := if s.trace.state = .full ∧ r.1 ≠ [] then .running else s.trace.state
  (r.1.flatten, { s with trace := { s.trace with buffer := r.2, state := state } })

end Sys2Proof.Machine
end

