-- ==== Sys2Proof/Machine/Supervision.lean ====
section
/-! DEFINITION. Load-moment supervision (06): the figures, the states, lift tracking and the alert output. -/

namespace Sys2Proof.Machine

/-! ## The figures -/

/-- The effective force: the mean of the values the history holds, rounded half up (R110). -/
def effectiveForce (history : List Int) : Nat := roundHalfUp history.sum.toNat history.length

/-- The force history after an accepted F sample: at most the four latest values, oldest first (R110). -/
def pushForce (v : Int) (history : List Int) : List Int :=
  let h := history ++ [v]
  if h.length = 5 then h.drop 1 else h

/-- The moment, in 0.1 kN·m (R111). -/
def momentOf (feff reach : Nat) : Nat := min 13200 (roundHalfUp (feff * reach) 10000)

/-- The sector entry of the sector in use; an index at or above the sector count is taken as UNKNOWN (R109). -/
def sectorInUse (t : TableSet) (sector : Option Nat) : Option SectorEntry :=
  match sector with
  | some i => t.sectorOf i
  | none => none

/-- The tilt along the boom, in 0.1° (R112). -/
def tiltOf (t : TableSet) (s : State) : Int :=
  if ¬(s.fresh .pitch ∧ s.fresh .roll) then 160
  else
    match sectorInUse t s.sup.sector with
    | none => s.intake.pitch.value.natAbs + s.intake.roll.value.natAbs
    | some e => roundAway (s.intake.pitch.value * e.cosWeight.toInt + s.intake.roll.value * e.sinWeight.toInt) 1000

/-- The capacity of one row at the tilt point of index `k` (−160 + 40·k). -/
def pointCapacity (row : CapacityRow) (k : Nat) : Nat := (row.capacities.toList.getD k 0).toNat

/-- The capacity in one row at a tilt (R114). -/
def rowCapacity (row : CapacityRow) (tilt : Int) : Nat :=
  if tilt ≤ -160 then pointCapacity row 0
  else if 160 ≤ tilt then pointCapacity row 8
  else
    let k := ((tilt + 160) / 40).toNat
    let low : Int := pointCapacity row k
    let next : Int := pointCapacity row (k + 1)
    (low + (next - low) * (tilt - (-160 + 40 * (k : Int))) / 40).toNat

/-- The capacity row of a column and bunk class, at row index column × 3 + class (R113). -/
def TableSet.rowOf (t : TableSet) (column bunkClass : Nat) : CapacityRow := t.rows.getD (column * 3 + bunkClass) {}

/-- The least capacity over every column, in one bunk class at one tilt (R115). -/
def leastCapacity (t : TableSet) (bunkClass : Nat) (tilt : Int) : Nat :=
  (List.range (t.columnCount.toNat - 1)).foldl
    (fun least c => min least (rowCapacity (t.rowOf (c + 1) bunkClass) tilt)) (rowCapacity (t.rowOf 0 bunkClass) tilt)

/-- The capacity used for the utilisation (R115). -/
def capacityOf (t : TableSet) (sup : Supervision) (tilt : Int) : Nat :=
  match sectorInUse t sup.sector with
  | some e => rowCapacity (t.rowOf e.column.toNat sup.bunkClass) tilt
  | none => leastCapacity t sup.bunkClass tilt

/-- The utilisation, in per-mille (R116). -/
def utilisationOf (moment capacity : Nat) : Nat :=
  if capacity = 0 then (if moment = 0 then 0 else 1999) else min 1999 (ceilDiv (moment * 1000) capacity)

/-- Step 1 of an evaluation (R119): with an active table set T and L are computed, TILT_HIGH is raised when T is above
160, and when U is current M and U are computed; otherwise they keep their values (R117). -/
def computeFigures (s : State) : State :=
  match s.active with
  | none => s
  | some t =>
    let tilt := tiltOf t s
    let capacity := capacityOf t s.sup tilt
    let s := if 160 < tilt then s.raise .tiltHigh else s
    let s := { s with sup := { s.sup with tilt := tilt, capacity := capacity } }
    if s.uCurrent then
      let moment := momentOf (effectiveForce s.sup.history) s.intake.reach.value.toNat
      { s with sup := { s.sup with moment := moment, utilisation := utilisationOf moment capacity } }
    else s

/-! ## The states -/

/-- A fresh evaluation, from U alone (R121). -/
def freshState (m : MachineRecord) (u : Nat) : SupState :=
  if 1000 ≤ u then .limit else if m.warnOn.toNat ≤ u then .warn else .normal

/-- The state decided from U with hysteresis, for a state before of NORMAL, WARN or LIMIT (R120); from the other states the
evaluation is fresh (R121). -/
def hysteresisState (m : MachineRecord) (before : SupState) (u : Nat) : SupState :=
  match before with
  | .normal => freshState m u
  | .warn => if 1000 ≤ u then .limit else if m.warnOff.toNat ≤ u then .warn else .normal
  | .limit => if m.limitOff.toNat ≤ u then .limit else if m.warnOff.toNat ≤ u then .warn else .normal
  | .unconfigured => freshState m u
  | .hold => freshState m u
  | .bypass => freshState m u

/-- Step 2 of an evaluation: the new supervision state (R120 to R124). -/
def decideState (s : State) : SupState :=
  if s.sup.service then .bypass
  else
    match s.active with
    | none => .unconfigured
    | some t =>
      if s.fresh .f && s.fresh .reach then hysteresisState t.machine s.sup.state s.sup.utilisation else .hold

/-! ## What a state change does -/

/-- The notices a change of state raises (R126). -/
def stateNotices (before now : SupState) : List NoticeKind :=
  (if before = .limit then [.limitLeft] else []) ++ (if before = .hold then [.holdLeft] else []) ++
    (if before = .bypass then [.bypassOff] else []) ++ (if now = .limit then [.limitEntered] else []) ++
    (if now = .hold then [.holdEntered] else []) ++ (if now = .bypass then [.bypassOn] else [])

/-- The level of the alert output on entry to a state (R128); WARN begins with the output on. -/
def alertLevel : SupState → Bool
  | .unconfigured => true
  | .limit => true
  | .hold => true
  | .warn => true
  | .normal => false
  | .bypass => false

/-- The alert output takes a state's level, and in WARN the next change is set 200 ms on (R128). -/
def setAlert (st : SupState) (s : State) : State :=
  { s with sup := { s.sup with alert := alertLevel st, alertNext := if st = .warn then some (after s.clock 200) else none } }

/-- Changing the open lift, if there is one. -/
def State.modOpenLift (f : OpenLift → OpenLift) (s : State) : State :=
  { s with lift := { s.lift with openLift := s.lift.openLift.map f } }

/-- The flags that tracking sets while the state is LIMIT or BYPASS (R127). -/
def trackState (st : SupState) (l : OpenLift) : OpenLift :=
  match st with
  | .limit => { l with limitDuring := true }
  | .bypass => { l with bypassed := true }
  | .unconfigured => l
  | .normal => l
  | .warn => l
  | .hold => l

/-- Tracking folds the present state into the open lift's flags while it is on (R127). -/
def trackChange (st : SupState) (s : State) : State := if s.sup.tracking then s.modOpenLift (trackState st) else s

/-- Tracking brings the peak up to U while it is on and U is current (R127). -/
def trackPeak (s : State) : State :=
  if s.sup.tracking && s.uCurrent then s.modOpenLift fun l => { l with peak := max l.peak s.sup.utilisation } else s

/-- Step 3 of an evaluation: the effects of a change of state (R126, R127, R128). -/
def changeState (now : SupState) (s : State) : State :=
  if now = s.sup.state then s
  else
    let notices := stateNotices s.sup.state now
    let s := { s with sup := { s.sup with state := now } }
    let s := notices.foldl (fun s k => s.notify k) s
    let s := setAlert now s
    let s := trackChange now s
    clockEvent (.supChange now) s

/-- An evaluation, taken whole, after the event's first effect (R119). -/
def evaluate (s : State) : State :=
  let s := computeFigures s
  trackPeak (changeState (decideState s) s)

/-! ## The events that reach supervision (R119) -/

/-- An F sample joins the force history, and supervision evaluates. -/
def supFSample (v : Int) (s : State) : State :=
  evaluate { s with sup := { s.sup with history := pushForce v s.sup.history } }

/-- F expires: the force history is emptied, and supervision evaluates. -/
def supFExpiry (s : State) : State := evaluate { s with sup := { s.sup with history := [] } }

/-- A sector-change event: the sector in use becomes the new sector, and supervision evaluates. -/
def supSectorChange (sector : Option Nat) (s : State) : State :=
  evaluate { s with sup := { s.sup with sector := sector } }

/-- A bunk-class change event: the class in use becomes the new class, and supervision evaluates. -/
def supClassChange (c : Nat) (s : State) : State := evaluate { s with sup := { s.sup with bunkClass := c } }

/-- Activation: the force history is emptied, and supervision evaluates with the new table set (R125). -/
def supActivation (s : State) : State := evaluate { s with sup := { s.sup with history := [] } }

/-- A change of the service input's level (R124). -/
def supServiceChange (level : Bool) (s : State) : State :=
  if s.sup.service = level then s else evaluate { s with sup := { s.sup with service := level } }

/-- The message that a lift is weighing (R73, R127): tracking turns on, and the present state and U are folded in. -/
def trackStart (s : State) : State :=
  let s := { s with sup := { s.sup with tracking := true } }
  trackPeak (trackChange s.sup.state s)

/-- Supervision stops keeping the lift's fields (R127). -/
def trackStop (s : State) : State := { s with sup := { s.sup with tracking := false } }

/-! ## Meanings -/

/-- SERVICE_INPUT_CHANGE (R124). -/
def execServiceInputChange (asserted : Bool) (s : State) : Answer := s.unlessReset (supServiceChange asserted)

/-- The alert output turns over when its next change is due in WARN, and the next change is set 200 ms on (R128). -/
def alertToggle (s : State) : State :=
  if s.sup.state = .warn ∧ expired s.clock s.sup.alertNext then
    { s with sup := { s.sup with alert := !s.sup.alert, alertNext := s.sup.alertNext.map fun t => after t 200 } }
  else s

/-- ALERT_FLASH_TOGGLE (R128). -/
def execAlertFlashToggle (s : State) : Answer := s.unlessReset alertToggle

end Sys2Proof.Machine
end

