-- ==== Sys2Proof/Machine/Tally.lean ====
section
/-! DEFINITION. Lift records, the lift queue and the bunk tally (05). -/

namespace Sys2Proof.Machine

/-- The largest mass figure of the tally (R98, R99). -/
def massCap : Nat := 4294967295

/-- The largest count of the tally (R98). -/
def countCap : Nat := 65535

/-- The places of the lift queue (R91). -/
def queuePlaces : Nat := 32

/-! ## Bunk class (R104) -/

/-- The judged bunk class of a total under a machine record. -/
def classOf (m : MachineRecord) (total : Nat) : Nat :=
  if total < m.classThreshold1.toNat then 0 else if total < m.classThreshold2.toNat then 1 else 2

/-- The judged bunk class: 0 with no active table set. -/
def judgedClass (s : State) : Nat :=
  match s.active with
  | some t => classOf t.machine s.tally.bunkTotal
  | none => 0

/-- Judging the bunk class: a class that differs is taken and sent to supervision, which evaluates (R104). -/
def judgeClass (s : State) : State :=
  let c := judgedClass s
  if c = s.tally.bunkClass then s
  else supClassChange c { s with tally := { s.tally with bunkClass := c } }

/-! ## Bunk notices (R105) -/

/-- After an increase, and at activation for a level at or below the total: a notice whose arm is set and whose level the
total is at or above is raised, and its arm is cleared. -/
def raiseBunkNotices (m : MachineRecord) (s : State) : State :=
  let warn := s.tally.warnArm && decide (m.bunkWarn.toNat ≤ s.tally.bunkTotal)
  let full := s.tally.fullArm && decide (m.bunkLimit.toNat ≤ s.tally.bunkTotal)
  let s := if warn then State.notify .bunkWarn { s with tally := { s.tally with warnArm := false } } else s
  if full then State.notify .bunkFull { s with tally := { s.tally with fullArm := false } } else s

/-- After a decrease, and at CLEAR BUNK: each arm is set if the total is below its level. -/
def setBunkArms (m : MachineRecord) (s : State) : State :=
  { s with tally := { s.tally with
      warnArm := s.tally.warnArm || decide (s.tally.bunkTotal < m.bunkWarn.toNat),
      fullArm := s.tally.fullArm || decide (s.tally.bunkTotal < m.bunkLimit.toNat) } }

/-- What follows a booking that changed the bunk total from `before`: the class is judged, then the bunk notices
(R100, R101). -/
def afterBooking (before : Nat) (s : State) : State :=
  if s.tally.bunkTotal = before then s
  else
    let s := judgeClass s
    match s.active with
    | none => s
    | some t => if before < s.tally.bunkTotal then raiseBunkNotices t.machine s else setBunkArms t.machine s

/-! ## Booking (R100 to R103) -/

/-- Changing the figures of one assortment. -/
def Tally.modAssortment (i : Nat) (f : AssortmentTally → AssortmentTally) (t : Tally) : Tally :=
  { t with assortments := t.assortments.mapIdx fun j a => if j = i then f a else a }

/-- The booking of a DELIVERED lift (R100). -/
def bookDelivered (assortment : Nat) (weighing : Option Weighing) (t : Tally) : Tally :=
  match weighing with
  | some w =>
    { t.modAssortment assortment fun a =>
        { a with deliveredCount := satAdd countCap a.deliveredCount 1,
                 deliveredMass := satAdd massCap a.deliveredMass w.net } with
      bunkTotal := satAdd massCap t.bunkTotal w.net,
      totalDelivered := satAdd massCap t.totalDelivered w.net }
  | none =>
    { t.modAssortment assortment fun a => { a with unweighedDelivered := satAdd countCap a.unweighedDelivered 1 } with
      incomplete := true }

/-- The booking of an UNLOADED lift (R101): the bunk total goes down by the net, saturating at 0. -/
def bookUnloaded (assortment : Nat) (weighing : Option Weighing) (t : Tally) : Tally :=
  match weighing with
  | some w =>
    { t.modAssortment assortment fun a =>
        { a with unloadedCount := satAdd countCap a.unloadedCount 1,
                 unloadedMass := satAdd massCap a.unloadedMass w.net } with
      bunkTotal := t.bunkTotal - w.net }
  | none =>
    { t.modAssortment assortment fun a => { a with unloadedCount := satAdd countCap a.unloadedCount 1 } with
      incomplete := true }

/-- The figures after an outcome is booked (R100 to R102). -/
def bookOutcome (outcome : LiftOutcome) (assortment : Nat) (weighing : Option Weighing) (t : Tally) : Tally :=
  match outcome with
  | .delivered => bookDelivered assortment weighing t
  | .unloaded => bookUnloaded assortment weighing t
  | .dropped => t
  | .shifted => t
  | .unplaced => { t with incomplete := true }
  | .abandoned => { t with incomplete := true }

/-- Booking a lift record into the tally, with what follows (R84 step 3). -/
def book (r : LiftRecord) (s : State) : State :=
  afterBooking s.tally.bunkTotal { s with tally := bookOutcome r.outcome r.assortment r.weighing s.tally }

/-! ## Filing (R91, R92, R95) -/

/-- Filing a record at the tail; a full queue overflows as the ACTIVE machine table's overflow mode gives, and the
LIFTS_WAITING notice is raised when the length passes above the threshold with the arm set. -/
def fileRecord (r : LiftRecord) (s : State) : State :=
  let length := s.queue.records.length
  let machine := s.active.elim {} (·.machine)
  if queuePlaces ≤ length then
    let s := s.raise .queueOverflow
    if machine.overflowMode = 2 then s
    else { s with queue := { s.queue with records := s.queue.records.drop 1 ++ [r] } }
  else
    let s := { s with queue := { s.queue with records := s.queue.records ++ [r] } }
    if length ≤ machine.queueThreshold.toNat ∧ machine.queueThreshold.toNat < length + 1 ∧ s.queue.waitingArm then
      State.notify .liftsWaiting { s with queue := { s.queue with waitingArm := false } }
    else s

/-! ## Outcome and record (R85 to R89) -/

/-- How a lift ended (R78, R79). -/
inductive LiftEnding where
  | released
  | pressureLost
  deriving DecidableEq, Repr

/-- A sector index is in BUNK in the ACTIVE sector table (R85). -/
def inBunk (s : State) (sector : Option Nat) : Bool :=
  match s.active, sector with
  | some t, some i => (t.sectorOf i).elim false fun e => e.kind = 1
  | _, _ => false

/-- The outcome of a closed lift (R86). -/
def decideOutcome (s : State) (ending : LiftEnding) (pick release : Option Nat) : LiftOutcome :=
  match ending with
  | .pressureLost => .abandoned
  | .released =>
    if release = none then .unplaced
    else
      match inBunk s pick, inBunk s release with
      | false, true => .delivered
      | false, false => .dropped
      | true, false => .unloaded
      | true, true => .shifted

/-- A duration in 10 ms units, rounded down, saturating (R78, R89). -/
def durationOf (begun ended : Clock) : Nat := min 65535 ((ended - begun).toNat / 10)

/-- The lift record of a closed lift with a sequence number (R87 to R89). -/
def buildRecord (s : State) (ending : LiftEnding) (l : OpenLift) (number : BitVec 16 × BitVec 16) : LiftRecord :=
  let releaseSector := l.opened.bind (·.sector)
  let closeTime :=
    match ending with
    | .released => l.opened.elim s.clock (·.time)
    | .pressureLost => s.clock
  { sequence := number.1, outcome := decideOutcome s ending l.pickSector releaseSector, weighing := l.weighing,
    tool := l.tool, assortment := l.opened.elim s.intake.snapshot.assortment (·.assortment), pickSector := l.pickSector,
    releaseSector := releaseSector, generation := number.2, sampleCount := l.sampleCount,
    windowAttempts := l.windowAttempts, regripCount := l.regripCount, static := l.static, workingTare := l.workingTare,
    limitDuring := l.limitDuring, bypassed := l.bypassed, peak := l.peak, gripTime := l.gripTime,
    duration := durationOf l.gripTime closeTime }

/-- Taking a closed lift whole: outcome, record, booking, filing (R84). Supervision stops keeping its fields at the
hand-over (R78). -/
def handOver (ending : LiftEnding) (l : OpenLift) (number : BitVec 16 × BitVec 16) (s : State) : State :=
  let s := trackStop s
  let r := buildRecord s ending l number
  fileRecord r (book r s)

/-! ## Management's operations on the queue and the tally -/

/-- The queue after DROP LIFTS for a sequence number, or none when no record has it (R93). -/
def dropThrough (seq : BitVec 16) : List LiftRecord → Option (List LiftRecord)
  | [] => none
  | r :: rest => if r.sequence = seq then some rest else dropThrough seq rest

/-- The LIFTS_WAITING arm after a removal: set when the length is at or below the threshold of the ACTIVE machine table;
with no active table set it stays as it is (R95). -/
def armAfterRemoval (s : State) : State :=
  match s.active with
  | some t =>
    if s.queue.records.length ≤ t.machine.queueThreshold.toNat then
      { s with queue := { s.queue with waitingArm := true } } else s
  | none => s

/-- DROP LIFTS of a sequence number that a record has: the records up to and including it leave the head (R93). -/
def removeLifts (rest : List LiftRecord) (s : State) : State :=
  armAfterRemoval { s with queue := { s.queue with records := rest } }

/-- CLEAR BUNK (R106). -/
def clearBunk (s : State) : State :=
  let s := { s with tally := { s.tally with assortments := Vector.replicate 32 {}, bunkTotal := 0, totalDelivered := 0,
                                            incomplete := false } }
  let s := judgeClass s
  match s.active with
  | some t => setBunkArms t.machine s
  | none => s

/-! ## Activation (R96, R107) -/

/-- The LIFTS_WAITING arm judged against the new threshold (R96). -/
def queueActivation (m : MachineRecord) (s : State) : State :=
  if s.queue.records.length ≤ m.queueThreshold.toNat then { s with queue := { s.queue with waitingArm := true } }
  else if s.queue.waitingArm then State.notify .liftsWaiting { s with queue := { s.queue with waitingArm := false } }
  else s

/-- The bunk class and the bunk notice arms judged against the new table set (R107). -/
def tallyActivation (m : MachineRecord) (s : State) : State :=
  let s := judgeClass s
  setBunkArms m (raiseBunkNotices m s)

end Sys2Proof.Machine
end

