-- ==== Sys2Proof/Machine/Lift.lean ====
section
/-! DEFINITION. The lift controller (04): tools and tares, sample masses, the weigh window, and the life of a lift. -/

namespace Sys2Proof.Machine

/-! ## States, tools and parameters -/

/-- Changing the lift controller. -/
def State.modLift (f : LiftController → LiftController) (s : State) : State := { s with lift := f s.lift }

/-- A change of the lift state, which is a lift event to trace capture (R83). -/
def enterLiftState (st : LiftState) (s : State) : State :=
  clockEvent (.liftEvent st) (s.modLift fun l => { l with state := st })

/-- A pending tool change is applied: a different tool is selected and the working tare cleared (R58). -/
def applyPendingTool (s : State) : State :=
  match s.lift.pendingTool with
  | none => s
  | some t =>
    if t = s.lift.selectedTool then s.modLift fun l => { l with pendingTool := none }
    else s.modLift fun l => { l with selectedTool := t, workingTare := none, pendingTool := none }

/-- An entry to EMPTY (R58, R83). -/
def enterEmpty (s : State) : State := applyPendingTool (enterLiftState .empty s)

/-- The ACTIVE entry of the selected tool; none while the tool is unknown (R58). -/
def selectedEntry (s : State) : Option ToolEntry := s.active.bind fun t => t.toolOf s.lift.selectedTool

/-- The entry whose thresholds and times serve in EMPTY: the selected tool's, or the fallback's (R58, R70). -/
def gripParams (s : State) : Option ToolEntry := (selectedEntry s).or (s.active.bind TableSet.fallbackTool)

/-- The entry whose thresholds and times serve an open lift: its snapshot, or the fallback for the mark unknown
(R71, R76). -/
def liftParams (s : State) (l : OpenLift) : Option ToolEntry := l.snapshot.or (s.active.bind TableSet.fallbackTool)

/-- The tool in use for the weigh window: the selected tool in TARING, the snapshot in LIFTING (R63). -/
def windowTool (s : State) : Option ToolEntry :=
  match s.lift.state with
  | .taring => selectedEntry s
  | .lifting => s.lift.openLift.bind (·.snapshot)
  | .empty => none
  | .gripped => none
  | .weighed => none
  | .releasing => none

/-! ## Sample mass (R60 to R62) -/

/-- One F sample as the lift controller sees it. -/
structure Sample where
  mass : Option Nat
  suitable : Bool
  static : Bool
  deriving DecidableEq, Repr

/-- The sample mass of a force under an acceleration: none when the effective gravity is below 300 (R61). -/
def massOf (force accel : Int) : Option Nat :=
  if 981 + accel < 300 then none
  else some (min 200000 (roundHalfUp (force.toNat * 1000) (981 + accel).toNat))

/-- A is configured when the ACTIVE channel table has an entry for it (R60). -/
def aConfigured (s : State) : Bool := s.active.elim false fun t => (t.channelOf .a).isSome

/-- The sample an accepted F value makes, given the A value accepted from the same report, if there is one (R60, R62). -/
def sampleOf (gate : Nat) (force : Int) (sameReport : Option Int) (s : State) : Sample :=
  if aConfigured s then
    match sameReport.or (if s.fresh .a then some s.intake.a.value else none) with
    | none => { mass := none, suitable := false, static := false }
    | some a =>
      let m := massOf force a
      { mass := m, suitable := m.isSome && decide (a.natAbs ≤ gate), static := false }
  else { mass := massOf force 0, suitable := true, static := true }

/-- A sample mass that is formed becomes the last sample mass (R61). -/
def noteMass (x : Sample) (s : State) : State :=
  match x.mass with
  | some m => s.modLift fun l => { l with lastSampleMass := m }
  | none => s

/-- A static sample sets the open lift's STATIC flag (R62). -/
def noteStatic (x : Sample) (s : State) : State :=
  if x.static then s.modOpenLift fun l => { l with static := true } else s

/-- The net sample mass: the mass minus the tare in use; it may be negative (R61). -/
def netOf (l : OpenLift) (mass : Nat) : Int := (mass : Int) - (l.tareInUse.getD 0 : Int)

/-! ## The weigh window (R63, R64) -/

/-- A sample handed to the window: a suitable one is added, an unsuitable one lengthens the gap run (R63). -/
def Window.feed (x : Sample) (w : Window) : Window :=
  match x.suitable, x.mass with
  | true, some m =>
    { n := w.n + 1, sum := w.sum + m, least := some (w.least.elim m (min m)),
      greatest := some (w.greatest.elim m (max m)), gapRun := 0 }
  | _, _ => { w with gapRun := w.gapRun + 1 }

/-- The mean of a window, rounded half up (R64). -/
def Window.mean (w : Window) : Nat := roundHalfUp w.sum w.n

/-- The permitted spread of a window (R64). -/
def Window.tolerance (e : ToolEntry) (w : Window) : Nat :=
  max e.spreadFloor.toNat (roundHalfUp (w.mean * e.tolerance.toNat) 1000)

/-- The window passes the spread test (R64). -/
def Window.accepted (e : ToolEntry) (w : Window) : Bool := decide (w.greatest.getD 0 - w.least.getD 0 ≤ w.tolerance e)

/-- The window is cleared. -/
def clearWindow (s : State) : State := s.modLift fun l => { l with window := {} }

/-- The gap run has reached the gap limit of the tool in use (R63). -/
def gapRunDue (s : State) : Bool :=
  (windowTool s).elim false fun e => decide (e.gapLimit.toNat ≤ s.lift.window.gapRun)

/-- The window count has reached W (R64). -/
def windowDue (s : State) : Bool := (windowTool s).elim false fun e => decide (s.lift.window.n = e.windowLength.toNat)

/-- An accepted window in TARING (R66): a mean within a fifth of the table tare becomes the working tare. -/
def tareAccepted (e : ToolEntry) (mean : Nat) (s : State) : State :=
  let tare := e.tare.toNat
  let s :=
    if ((mean : Int) - (tare : Int)).natAbs ≤ tare / 5 then
      State.notify .tareDone (s.modLift fun l => { l with workingTare := some mean })
    else s.notify .tareFailed
  enterEmpty (s.modLift fun l => { l with tareTimer := none, window := {} })

/-- An accepted window in LIFTING (R75): the lift is weighed, with net clamped at 0. -/
def liftWeighed (mean : Nat) (s : State) : State :=
  let s := s.modOpenLift fun l =>
    { l with weighing := some { gross := mean, net := (netOf l mean).toNat, belowTare := decide (netOf l mean < 0) } }
  enterLiftState .weighed (s.modLift fun l => { l with setDownRun := 0 })

/-- A refused window in LIFTING adds a window attempt (R64). -/
def countAttempt (s : State) : State :=
  s.modOpenLift fun l => { l with windowAttempts := satAdd 255 l.windowAttempts 1 }

/-- The window is evaluated (R64, R66, R75). -/
def evaluateWindow (s : State) : State :=
  match windowTool s with
  | none => s
  | some e =>
    let w := s.lift.window
    if s.lift.state = .taring then
      if w.accepted e then tareAccepted e w.mean s else clearWindow s
    else if w.accepted e then liftWeighed w.mean s else countAttempt (clearWindow s)

/-- A sample is fed to the window, which is then cleared by its gap run or evaluated at once (R63, R64). -/
def feedWindow (x : Sample) (s : State) : State :=
  let s := s.modLift fun l => { l with window := l.window.feed x }
  let s := if gapRunDue s then clearWindow s else s
  if windowDue s then evaluateWindow s else s

/-! ## Lifting (R72 to R74) -/

/-- On the first entry of a lift to LIFTING it takes the next sequence number and the ACTIVE generation, its peak and
flags are cleared, and supervision is told that a lift is weighing (R69, R73, R90). -/
def takeNumber (s : State) : State :=
  match s.lift.openLift with
  | none => s
  | some l =>
    if l.number.isSome then s
    else
      let seq := s.queue.nextSequence
      let numbered := { l with number := some (seq, s.activeGeneration), peak := 0, limitDuring := false, bypassed := false }
      trackStart { s with lift := { s.lift with openLift := some numbered },
                          queue := { s.queue with nextSequence := seq + 1 } }

/-- An entry to LIFTING (R73). -/
def enterLifting (s : State) : State := takeNumber (enterLiftState .lifting s)

/-- The set-down run has reached the snapshot's gap limit in LIFTING (R74). -/
def setDownDue (s : State) : Bool :=
  s.lift.state = .lifting && (windowTool s).elim false fun e => decide (e.gapLimit.toNat ≤ s.lift.setDownRun)

/-- The load is set down: back to GRIPPED with the window and the set-down run cleared (R74). -/
def takeSetDown (s : State) : State :=
  enterLiftState .gripped (s.modLift fun l => { l with window := {}, setDownRun := 0 })

/-- The set-down run after a sample: a net below liftoff adds 1, one at or above it gives 0, a sample without a mass
leaves it (R74). -/
def setDownRunAfter (e : ToolEntry) (l : OpenLift) (x : Sample) (run : Nat) : Nat :=
  match x.mass with
  | some m => if netOf l m < (e.liftoffNet.toNat : Int) then run + 1 else 0
  | none => run

/-- An F sample in LIFTING, its sample formed (R74). -/
def liftingSample (e : ToolEntry) (x : Sample) (s : State) : State :=
  match s.lift.openLift with
  | none => s
  | some l =>
    let s := s.modOpenLift fun l => { l with sampleCount := satAdd 65535 l.sampleCount 1 }
    let s := s.modLift fun c => { c with setDownRun := setDownRunAfter e l x c.setDownRun }
    if setDownDue s then takeSetDown s else feedWindow x s

/-- A sample's net mass is at or above the liftoff net mass (R72). -/
def isLiftoff (e : ToolEntry) (l : OpenLift) (x : Sample) : Bool :=
  x.mass.elim false fun m => decide ((e.liftoffNet.toNat : Int) ≤ netOf l m)

/-- An F sample event (R60, R66, R72, R74), with the same-report A value of R27. -/
def liftFSample (force : Int) (sameReport : Option Int) (s : State) : State :=
  match s.lift.state with
  | .taring =>
    match selectedEntry s with
    | none => s
    | some e =>
      let x := sampleOf e.accelGate.toNat force sameReport s
      feedWindow x (noteMass x s)
  | .gripped =>
    match s.lift.openLift with
    | none => s
    | some l =>
      match l.snapshot with
      | none => s
      | some e =>
        let x := sampleOf e.accelGate.toNat force sameReport s
        let s := noteStatic x (noteMass x s)
        if isLiftoff e l x then liftingSample e x (enterLifting s) else s
  | .lifting =>
    match s.lift.openLift.bind (·.snapshot) with
    | none => s
    | some e =>
      let x := sampleOf e.accelGate.toNat force sameReport s
      liftingSample e x (noteStatic x (noteMass x s))
  | .empty => s
  | .weighed => s
  | .releasing => s

/-! ## Grip, opening, regrip (R70, R76, R77) -/

/-- The grip-confirm timer starts from a GPRESS sample taken now, unless it runs (R70). -/
def startGripTimer (e : ToolEntry) (s : State) : State :=
  s.modLift fun l => { l with gripTimer := l.gripTimer.or (some (after s.clock e.gripConfirmTime.toNat)) }

/-- A GPRESS sample in EMPTY (R70). -/
def gripPressure (v : Int) (s : State) : State :=
  match gripParams s with
  | none => s
  | some e =>
    if (e.closeThreshold.toNat : Int) ≤ v then startGripTimer e s
    else s.modLift fun l => { l with gripTimer := none }

/-- TARING fails: TARE_FAILED, the tare timer stopped, EMPTY (R67). -/
def failTare (s : State) : State :=
  enterEmpty (State.notify .tareFailed (s.modLift fun l => { l with tareTimer := none }))

/-- A GPRESS sample at or above the close threshold ends TARING, and the grip-confirm timer starts from it (R67). -/
def taringPressure (v : Int) (s : State) : State :=
  match selectedEntry s with
  | none => s
  | some e =>
    if (e.closeThreshold.toNat : Int) ≤ v then
      let s := failTare s
      match gripParams s with
      | none => s
      | some g => startGripTimer g s
    else s

/-- The grapple opens (R76). -/
def openGrapple (e : ToolEntry) (s : State) : State :=
  let s := s.modOpenLift fun l =>
    { l with opened := some { sector := s.lift.notedSector, assortment := s.intake.snapshot.assortment, time := s.clock } }
  enterLiftState .releasing (s.modLift fun l =>
    { l with remembered := some l.state, regripTimer := some (after s.clock e.regripTime.toNat), setDownRun := 0 })

/-- A GPRESS sample in GRIPPED, LIFTING and WEIGHED (R76). -/
def heldPressure (v : Int) (s : State) : State :=
  match s.lift.openLift.bind (liftParams s) with
  | none => s
  | some e => if v ≤ (e.openThreshold.toNat : Int) then openGrapple e s else s

/-- A regrip (R77). -/
def regrip (s : State) : State :=
  let remembered := s.lift.remembered
  let s := s.modOpenLift fun l => { l with regripCount := satAdd 255 l.regripCount 1 }
  let s := s.modLift fun l => { l with regripTimer := none, remembered := none }
  match remembered with
  | some .weighed =>
    enterLifting (clearWindow (s.modOpenLift fun l => { l with weighing := none }))
  | some .lifting => enterLifting s
  | _ => enterLiftState .gripped s

/-- A GPRESS sample in RELEASING (R76, R77). -/
def releasingPressure (v : Int) (s : State) : State :=
  match s.lift.openLift.bind (liftParams s) with
  | none => s
  | some e => if (e.closeThreshold.toNat : Int) ≤ v then regrip s else s

/-- A GPRESS sample event. -/
def liftGpress (v : Int) (s : State) : State :=
  match s.lift.state with
  | .empty => gripPressure v s
  | .taring => taringPressure v s
  | .gripped => heldPressure v s
  | .lifting => heldPressure v s
  | .weighed => heldPressure v s
  | .releasing => releasingPressure v s

/-! ## Grip confirmation, release and losses (R71, R78, R79) -/

/-- The lift that a grip confirmation opens (R69, R71). -/
def newLift (s : State) : OpenLift :=
  let entry := selectedEntry s
  { tool := s.lift.selectedTool, snapshot := entry,
    tareInUse := entry.map fun e => s.lift.workingTare.getD e.tare.toNat,
    workingTare := entry.isSome && s.lift.workingTare.isSome, gripTime := s.clock, pickSector := s.lift.notedSector }

/-- The grip is confirmed (R71): GRIPPED, and for an unknown tool LIFTING in the same event. -/
def confirmGrip (s : State) : State :=
  let l := newLift s
  let s := enterLiftState .gripped (s.modLift fun c =>
    { c with openLift := some l, gripTimer := none, window := {}, setDownRun := 0 })
  if l.snapshot.isNone then enterLifting s else s

/-- The lift ends: one with a sequence number is handed over, one without is discarded; the state becomes EMPTY (R78, R79). -/
def endLift (ending : LiftEnding) (s : State) : State :=
  let s :=
    match s.lift.openLift with
    | none => s
    | some l =>
      match l.number with
      | some number => handOver ending l number s
      | none => s
  enterEmpty (s.modLift fun c =>
    { c with openLift := none, regripTimer := none, gripTimer := none, remembered := none })

/-- GPRESS expires (R70, R79). -/
def liftGpressExpiry (s : State) : State :=
  match s.lift.state with
  | .empty => s.modLift fun l => { l with gripTimer := none }
  | .taring => s
  | .gripped => endLift .pressureLost s
  | .lifting => endLift .pressureLost s
  | .weighed => endLift .pressureLost s
  | .releasing => endLift .pressureLost s

/-- The states in which the expiry of F or A clears the window (R80). -/
def windowStates : LiftState → Bool
  | .taring => true
  | .gripped => true
  | .lifting => true
  | .empty => false
  | .weighed => false
  | .releasing => false

/-- A expires (R80). -/
def liftAExpiry (s : State) : State := if windowStates s.lift.state then clearWindow s else s

/-- F expires (R80): the set-down run is cleared too. -/
def liftFExpiry (s : State) : State :=
  if windowStates s.lift.state then s.modLift fun l => { l with window := {}, setDownRun := 0 } else s

/-! ## Operator events (R58, R65) -/

/-- A tool-change event (R58). -/
def liftToolChange (id : Nat) (s : State) : State :=
  if s.lift.state = .empty then
    s.modLift fun l => { l with selectedTool := id, workingTare := none, pendingTool := none }
  else s.modLift fun l => { l with pendingTool := some id }

/-- A tare-request event (R65). -/
def liftTareRequest (s : State) : State :=
  if s.lift.state = .empty ∧ (selectedEntry s).isSome ∧ s.lift.gripTimer = none then
    enterLiftState .taring (s.modLift fun l => { l with window := {}, tareTimer := some (after s.clock 5000) })
  else s.notify .tareFailed

/-- A sector-change event sets the noted sector (R59). -/
def liftSectorChange (sector : Option Nat) (s : State) : State := s.modLift fun l => { l with notedSector := sector }

/-- Activation (R81): a running tare fails, and the working tare is cleared. -/
def liftActivation (s : State) : State :=
  let s := if s.lift.state = .taring then failTare s else s
  s.modLift fun l => { l with workingTare := none }

/-! ## Meanings -/

/-- GAP_RUN_LIMIT (R63): a gap run that has reached the gap limit clears the window. -/
def execGapRunLimit (s : State) : Answer := s.unlessReset fun s => if gapRunDue s then clearWindow s else s

/-- SET_DOWN (R74): a set-down run that has reached the gap limit sets the load down. -/
def execSetDown (s : State) : Answer := s.unlessReset fun s => if setDownDue s then takeSetDown s else s

/-- WINDOW_EVALUATION (R64): a window whose count is W is evaluated. -/
def execWindowEvaluation (s : State) : Answer := s.unlessReset fun s => if windowDue s then evaluateWindow s else s

/-- GRIP_CONFIRMED (R71): the grip-confirm timer has expired in EMPTY. -/
def execGripConfirmed (s : State) : Answer :=
  s.unlessReset fun s => if s.lift.state = .empty ∧ expired s.clock s.lift.gripTimer then confirmGrip s else s

/-- RELEASE (R78): the regrip timer has expired in RELEASING. -/
def execRelease (s : State) : Answer :=
  s.unlessReset fun s => if s.lift.state = .releasing ∧ expired s.clock s.lift.regripTimer then endLift .released s else s

/-- TARE_TIMER_EXPIRY (R67): the tare timer has expired in TARING. -/
def execTareTimerExpiry (s : State) : Answer :=
  s.unlessReset fun s => if s.lift.state = .taring ∧ expired s.clock s.lift.tareTimer then failTare s else s

end Sys2Proof.Machine
end

