-- ==== Sys2Proof/Machine/Slew.lean ====
section
/-! DEFINITION. The slew counter (03): counting, the index, sector tracking and pacing. -/

namespace Sys2Proof.Machine

/-- Changing the slew counter. -/
def State.modSlew (f : Slew → Slew) (s : State) : State := { s with slew := f s.slew }

/-! ## The current sector (R48 to R51) -/

/-- A sector-change event to a new sector: to the lift controller, and to supervision and trace capture in either order
(R51, R175). -/
def sectorEvent (sector : Option Nat) (s : State) : State :=
  let s := liftSectorChange sector (s.modSlew fun w => { w with sector := sector })
  let (order, s) := s.choose 2
  if order = 0 then clockEvent .sectorChange (supSectorChange sector s)
  else supSectorChange sector (clockEvent .sectorChange s)

/-- The current sector becomes `sector`; a change is an event (R49, R51). -/
def setSector (sector : Option Nat) (s : State) : State := if sector = s.slew.sector then s else sectorEvent sector s

/-- The start of a sector of the table. -/
def TableSet.startOf (t : TableSet) (i : Nat) : Nat := (t.sectors.getD i {}).start.toNat

/-- The sector whose span contains a position (R47): the last one whose start is not above it, and before the first start
the last sector of the table. -/
def TableSet.sectorAt (t : TableSet) (p : Nat) : Nat :=
  let k := (t.sectors.filter fun e => decide (e.start.toNat ≤ p)).length
  if k = 0 then t.sectors.length - 1 else k - 1

/-- How far a position in sector `j` lies past the boundary it shares with its neighbour `i` (R50); none when `j` is no
neighbour. In a table of two sectors it is measured from the nearer boundary. -/
def TableSet.distancePast (t : TableSet) (i j p : Nat) : Option Nat :=
  let cpr := t.sectorHeader.cpr.toNat
  let n := t.sectors.length
  let fromNext := (p + cpr - t.startOf j) % cpr
  let fromPrevious := (t.startOf i + cpr - 1 - p) % cpr
  if j = (i + 1) % n then (if i = (j + 1) % n then some (min fromNext fromPrevious) else some fromNext)
  else if i = (j + 1) % n then some fromPrevious
  else none

/-- Sector tracking after a count on a referenced slew (R50). -/
def trackSector (s : State) : State :=
  match s.active, s.slew.sector with
  | some t, some i =>
    let j := t.sectorAt s.slew.p
    if j = i then s
    else
      match t.distancePast i j s.slew.p with
      | some d => if t.sectorHeader.hysteresis.toNat ≤ d then setSector (some j) s else s
      | none => s
  | _, _ => s

/-! ## Pacing (R52, R53, R56) -/

/-- A position lies inside the pacing window (R52). DESIGN CHOICE (notes/assumptions/33.md): a window whose start and end
both lie at or above the modulus holds no position, its start above its end or not, though R52's rule for a window that
wraps takes in every position up to such an end. -/
def Pacing.inside (c : Pacing) (modulus p : Nat) : Bool :=
  if c.windowEnabled then
    if modulus ≤ c.windowStart ∧ modulus ≤ c.windowEnd then false
    else if c.windowStart ≤ c.windowEnd then decide (c.windowStart ≤ p ∧ p ≤ c.windowEnd)
    else decide (c.windowStart ≤ p ∨ p ≤ c.windowEnd)
  else true

/-- Pacing after a count: a candidate that deglitch does not suppress is a pace event carrying P (R53, R56). -/
def paceCount (s : State) : State :=
  let c := s.trace.config.pacing
  let p := s.slew.p
  if p % c.interval = 0 ∧ c.inside s.modulus p ∧ ¬(c.deglitch ∧ s.slew.lastPace = some p) then
    clockEvent (.slewPace p) (s.modSlew fun w => { w with lastPace := some p })
  else s

/-! ## Counts and the index (R40 to R45) -/

/-- The place of a pair of levels in the sequence (low, low), (high, low), (high, high), (low, high). -/
def phaseOf : Bool → Bool → Nat
  | false, false => 0
  | true, false => 1
  | true, true => 2
  | false, true => 3

/-- The position after a count up or down, modulo the modulus (R40, R42). -/
def countedPosition (up : Bool) (modulus p : Nat) : Nat := if up then (p + 1) % modulus else (p + modulus - 1) % modulus

/-- A count: P moves, then sector tracking while the slew is referenced, then pacing (R40). -/
def takeCount (up : Bool) (s : State) : State :=
  let s := s.modSlew fun w => { w with p := countedPosition up s.modulus w.p }
  paceCount (if s.slew.referenced then trackSector s else s)

/-- A count error (R41): the slew becomes unreferenced, the sector UNKNOWN, the last pace multiple none. -/
def countError (s : State) : State :=
  setSector none ((s.raise .slewCountError).modSlew fun w => { w with referenced := false, lastPace := none })

/-- A drift wrapped into −⌊CPR/2⌋ to CPR − ⌊CPR/2⌋ − 1 (R44). -/
def wrappedDrift (cpr p offset : Nat) : Int :=
  ((p : Int) - (offset : Int) + (cpr / 2 : Nat)) % (cpr : Int) - (cpr / 2 : Nat)

/-- A qualified index with a table set active (R44). -/
def indexReferenced (t : TableSet) (s : State) : State :=
  let h := t.sectorHeader
  let drift := wrappedDrift h.cpr.toNat s.slew.p h.indexOffset.toNat
  let s :=
    if s.slew.referenced ∧ h.driftLimit.toNat < drift.natAbs then (s.raise .slewSuspect).notify .slewSuspect else s
  let s := s.modSlew fun w =>
    { w with p := h.indexOffset.toNat, referenced := true, lastDrift := drift, lastPace := none }
  setSector (some (t.sectorAt s.slew.p)) s

/-- A qualified index (R44, R45). -/
def takeIndex (s : State) : State :=
  match s.active with
  | some t => indexReferenced t s
  | none => s.modSlew fun w => { w with p := 0, lastPace := none }

/-- An observation of A, B and Z (R40, R41, R43): the count or count error first, then the index. -/
def observe (a b z : Bool) (s : State) : State :=
  let old := s.slew
  let held := z && a && b
  let s := s.modSlew fun w => { w with levelA := a, levelB := b, levelZ := z, indexHeld := held }
  let s :=
    if a ≠ old.levelA ∧ b ≠ old.levelB then countError s
    else if a ≠ old.levelA ∨ b ≠ old.levelB then
      takeCount (decide (phaseOf a b = (phaseOf old.levelA old.levelB + 1) % 4)) s
    else s
  if held && !old.indexHeld then takeIndex s else s

/-- ENCODER_OBSERVATION (R40). -/
def execEncoderObservation (a b z : Bool) (s : State) : Answer := s.unlessReset (observe a b z)

/-! ## Activation (R54) -/

/-- The reference is kept when the CPR and the index offset are unchanged. -/
def keepsReference (old : Option TableSet) (new : TableSet) : Bool :=
  old.elim false fun o => o.sectorHeader.cpr = new.sectorHeader.cpr && o.sectorHeader.indexOffset = new.sectorHeader.indexOffset

/-- Activation at the slew counter, the new table set being ACTIVE already (R54). -/
def slewActivation (old : Option TableSet) (new : TableSet) (s : State) : State :=
  let s := s.modSlew fun w => { w with lastPace := none }
  if keepsReference old new then
    if s.slew.referenced then setSector (some (new.sectorAt s.slew.p)) s else s
  else
    setSector none (s.modSlew fun w => { w with referenced := false, p := w.p % new.sectorHeader.cpr.toNat })

end Sys2Proof.Machine
end

