-- ==== Sys2Proof/Machine/Intake.lean ====
section
/-! DEFINITION. Measurand intake and the operator-state snapshot (02). -/

namespace Sys2Proof.Machine

/-! ## Conversion (R28, R29) -/

/-- The converted value of a raw count on an entry's calibration line, clamped to a range (R28, R29). -/
def convert (e : ChannelEntry) (range : Int × Int) (count : Int) : Int :=
  let v := e.v0.toInt + roundAway ((count - e.c0.toInt) * (e.v1.toInt - e.v0.toInt)) (e.c1.toInt - e.c0.toInt)
  clampInt range.1 range.2 v

/-- A clamped value inside the plausibility limits (R30, R31). -/
def plausible (e : ChannelEntry) (v : Int) : Bool := decide (e.low.toInt ≤ v) && decide (v ≤ e.high.toInt)

/-! ## Sample events (R34) -/

/-- An accepted F sample reaches the lift controller, supervision and trace capture, in an order the manual leaves open
(R34, R127, R175). -/
def deliverForce (v : Int) (sameReport : Option Int) (s : State) : State :=
  let (order, s) := s.choose 6
  match order with
  | 0 => clockEvent (.fSample v) (supFSample v (liftFSample v sameReport s))
  | 1 => supFSample v (clockEvent (.fSample v) (liftFSample v sameReport s))
  | 2 => clockEvent (.fSample v) (liftFSample v sameReport (supFSample v s))
  | 3 => liftFSample v sameReport (clockEvent (.fSample v) (supFSample v s))
  | 4 => supFSample v (liftFSample v sameReport (clockEvent (.fSample v) s))
  | _ => liftFSample v sameReport (supFSample v (clockEvent (.fSample v) s))

/-- A sample event goes to the blocks that use its measurand (R34). A samples reach the lift controller, which does not
process them by themselves (R60). -/
def deliverSample (m : Measurand) (v : Int) (sameReport : Option Int) (s : State) : State :=
  match m with
  | .f => deliverForce v sameReport s
  | .a => s
  | .reach => evaluate s
  | .pitch => evaluate s
  | .roll => evaluate s
  | .gpress => liftGpress v s

/-- A measurand's record after an acceptance (R31). -/
def acceptedRecord (e : ChannelEntry) (v : Int) (now : Clock) : MeasurandRecord :=
  { value := v, state := .fresh, lastAccepted := now, timer := some (after now e.timeout.toNat) }

/-- Changing intake. -/
def State.modIntake (f : Intake → Intake) (s : State) : State := { s with intake := f s.intake }

/-- An acceptance (R31). -/
def acceptSample (m : Measurand) (e : ChannelEntry) (v : Int) (sameReport : Option Int) (s : State) : State :=
  deliverSample m v sameReport (s.modIntake fun i => i.set m (acceptedRecord e v s.clock))

/-! ## Reading a report (R25 to R27) -/

/-- A slot record with the measurand and entry it matches. -/
structure MatchedRecord where
  measurand : Measurand
  entry : ChannelEntry
  count : Int
  deriving DecidableEq, Repr

/-- The entry that a slot record of a station matches (R26). -/
def matchRecord (t : TableSet) (source : Byte) (r : SlotRecord) : Option MatchedRecord := do
  let e ← t.channels.find? fun e => e.source = source && e.slot = r.slot
  let m ← measurandOfCode e.measurand.toNat
  return { measurand := m, entry := e, count := r.count }

/-- The two passes over a report: the records of A first, then all others, each in payload order (R27). -/
def passOrder (rs : List MatchedRecord) : List MatchedRecord :=
  rs.filter (fun r => decide (r.measurand = .a)) ++ rs.filter (fun r => decide (r.measurand ≠ .a))

/-- One record is converted and judged (R28 to R31); the second component is the last A value accepted from the report
(R27). -/
def judgeRecord (acc : State × Option Int) (r : MatchedRecord) : State × Option Int :=
  let v := convert r.entry (measurandRange r.measurand) r.count
  if plausible r.entry v then
    (acceptSample r.measurand r.entry v acc.2 acc.1, if r.measurand = .a then some v else acc.2)
  else (acc.1.raise (.implausible r.measurand), acc.2)

/-- A good SENSOR REPORT of the crane port is read whole (R25). While no table set is active no record is read. -/
def readReport (source : Byte) (payload : List Byte) (s : State) : State :=
  match s.active with
  | none => s
  | some t => ((passOrder ((slotRecords payload).filterMap (matchRecord t source))).foldl judgeRecord (s, none)).1

/-- SENSOR_REPORT (R25). -/
def execSensorReport (source : Byte) (payload : List Byte) (s : State) : Answer := s.unlessReset (readReport source payload)

/-! ## Freshness (R32) -/

/-- An expiry event goes to the lift controller and to supervision (R34). -/
def deliverExpiry (m : Measurand) (s : State) : State :=
  match m with
  | .f => supFExpiry (liftFExpiry s)
  | .a => liftAExpiry s
  | .reach => evaluate s
  | .pitch => evaluate s
  | .roll => evaluate s
  | .gpress => liftGpressExpiry s

/-- A measurand's running freshness timer expires (R32). -/
def expireMeasurand (m : Measurand) (s : State) : State :=
  if expired s.clock (s.intake.get m).timer then
    deliverExpiry m (s.modIntake fun i => i.set m { i.get m with state := .stale, timer := none })
  else s

/-- FRESHNESS_EXPIRY (R32). -/
def execFreshnessExpiry (m : Measurand) (s : State) : Answer := s.unlessReset (expireMeasurand m)

/-! ## The operator-state snapshot (R35 to R37) -/

/-- Changing the snapshot. -/
def State.modSnapshot (f : Snapshot → Snapshot) (s : State) : State := s.modIntake fun i => { i with snapshot := f i.snapshot }

/-- The tool id of a frame that is read (R36). -/
def takeTool (id : Nat) (s : State) : State :=
  if id = s.intake.snapshot.tool then s else liftToolChange id (s.modSnapshot fun n => { n with tool := id })

/-- The tare request number of a frame that is read (R37). -/
def takeTareNumber (number : Byte) (s : State) : State :=
  let last := s.intake.snapshot.tareNumber
  let s := s.modSnapshot fun n => { n with tareNumber := some number }
  match last with
  | none => s
  | some old => if old = number then s else liftTareRequest s

/-- A good OPERATOR STATE frame of the cab port (R35): tool, assortment and tare request number in turn; a frame too
short or out of range is ignored whole. -/
def readOperatorState (payload : List Byte) (s : State) : State :=
  match payload with
  | tool :: assortment :: number :: _ =>
    if tool.toNat ≤ 7 ∧ assortment.toNat ≤ 31 then
      takeTareNumber number ((takeTool tool.toNat s).modSnapshot fun n => { n with assortment := assortment.toNat })
    else s
  | _ => s

/-- OPERATOR_STATE (R35). -/
def execOperatorState (payload : List Byte) (s : State) : Answer := s.unlessReset (readOperatorState payload)

/-! ## Activation (R39) -/

/-- A measurand's record after an activation: STALE, value and time kept, its timer restarted by its new entry or stopped. -/
def staleRecord (t : TableSet) (m : Measurand) (now : Clock) (r : MeasurandRecord) : MeasurandRecord :=
  { r with state := .stale, timer := (t.channelOf m).map fun e => after now e.timeout.toNat }

/-- Activation at intake (R39). -/
def intakeActivation (t : TableSet) (s : State) : State :=
  s.modIntake fun i =>
    { i with
      f := staleRecord t .f s.clock i.f, a := staleRecord t .a s.clock i.a, reach := staleRecord t .reach s.clock i.reach,
      pitch := staleRecord t .pitch s.clock i.pitch, roll := staleRecord t .roll s.clock i.roll,
      gpress := staleRecord t .gpress s.clock i.gpress }

end Sys2Proof.Machine
end

