-- ==== Sys2Proof/Machine/Shaper.lean ====
section
/-! DEFINITION. The demand shaper (07). -/

namespace Sys2Proof.Machine

/-- The classes of a demand (07, "Classifying a demand"). -/
inductive DemandClass where
  | increasing
  | decreasing
  | neutral
  deriving DecidableEq, Repr

/-- The code of INCREASING in slew-count sense and toward-lesser (R174); DECREASING is 2 and NONE is 0. -/
def increasingCode : Nat := 1

/-- The count direction a SLEW demand asks for (R136): the entry's sense for a positive demand, the other for a negative. -/
def askedDirection (e : FunctionEntry) (d : Int) : Nat := if 0 < d then e.sense.toNat else 3 - e.sense.toNat

/-- The class of a SLEW demand in a sector (R136). -/
def slewClass (sector : Option SectorEntry) (e : FunctionEntry) (d : Int) : DemandClass :=
  match sector with
  | none => .increasing
  | some x =>
    if x.towardLesser = 0 then .neutral
    else if askedDirection e d = x.towardLesser.toNat then .increasing
    else .decreasing

/-- The class of a demand of any other role, by its positive effect: INCREASES 1, DECREASES 2, NONE 0 (R135, R174). -/
def effectClass (e : FunctionEntry) (d : Int) : DemandClass :=
  if e.effect = 1 then (if 0 < d then .increasing else .decreasing)
  else if e.effect = 2 then (if 0 < d then .decreasing else .increasing)
  else .neutral

/-- The class of a clamped demand (R134); role SLEW has code 0. -/
def classify (s : State) (function : Byte) (d : Int) : DemandClass :=
  if d = 0 then .neutral
  else
    match s.active with
    | none => .increasing
    | some t =>
      match t.functionOf function with
      | none => .neutral
      | some e => if e.role = 0 then slewClass (sectorInUse t s.sup.sector) e d else effectClass e d

/-- A demand clamped to −1000..1000 (R134). -/
def clampDemand (d : Int) : Int := clampInt (-1000) 1000 d

/-- A moment-increasing demand scaled in WARN by its function's warn scale, truncated toward zero (R138). -/
def warnScaled (s : State) (function : Byte) (d : Int) : Int :=
  match s.active.bind fun t => t.functionOf function with
  | some e => Int.tdiv (d * (e.warnScale.toNat : Int)) 1000
  | none => d

/-- A moment-increasing demand as it is forwarded (R137 to R139). -/
def shapeIncreasing (s : State) (function : Byte) (d : Int) : Int :=
  match s.sup.state with
  | .normal => d
  | .bypass => d
  | .warn => warnScaled s function d
  | .limit => 0
  | .hold => 0
  | .unconfigured => 0

/-- A demand as it is forwarded (R134, R137). -/
def shapeDemand (s : State) (function : Byte) (received : Int) : Int :=
  let d := clampDemand received
  match classify s function d with
  | .increasing => shapeIncreasing s function d
  | .decreasing => d
  | .neutral => d

/-- A demand record as it is forwarded: its function id is kept (R141). -/
def shapeRecord (s : State) (r : DemandRecord) : DemandRecord := { r with demand := shapeDemand s r.function r.demand }

/-- The level the flags byte carries in a state (R137, R140). -/
def shapeLevel : SupState → Nat
  | .normal => 0
  | .bypass => 0
  | .warn => 1
  | .limit => 2
  | .hold => 2
  | .unconfigured => 2

/-- The flags byte of a shaped frame: SHAPED when a forwarded demand differs from the received one (R140). -/
def flagsFor (s : State) (rs : List DemandRecord) : Byte :=
  shapedFlags (decide (rs.map (shapeRecord s) ≠ rs)) (shapeLevel s.sup.state) (decide (s.sup.state = .bypass))

/-- The kind code of VALVE DEMAND. -/
def kindValveDemand : Byte := 0x31

/-- The shaped frame, with its check computed afresh (R140, R141). -/
def shapedFrame (s : State) (dest source : Byte) (rs : List DemandRecord) : List Byte :=
  frameOf dest source kindValveDemand (flagsFor s rs) ((rs.map (shapeRecord s)).flatMap demandBytes)

/-- A shaped frame becomes ready for the crane port's list: it joins, is discarded with FORWARD_OVERRUN when the list is
full, or is discarded when the port is not UP (R20). -/
def placeShaped (frame : List Byte) (s : State) : State :=
  match s.crane.answer with
  | .placed => s.offer .crane frame
  | .noRoom => s.raise (.forwardOverrun .crane)
  | .notUp => s

/-- A good VALVE DEMAND of the cab port at its END (R131, R133, R142): shaped whole against one reading, one VD_SHAPED
event, then the crane port's list. A payload that is no list of demand records is discarded. -/
def shapeFrame (dest source : Byte) (payload : List Byte) (s : State) : State :=
  match demandRecords payload with
  | none => s
  | some rs => placeShaped (shapedFrame s dest source rs) (clockEvent .vdShaped s)

/-- SHAPE_VALVE_DEMAND (R133). The received flags byte is not kept (R140). -/
def execShapeValveDemand (dest source _flags : Byte) (payload : List Byte) (s : State) : Answer :=
  s.unlessReset (shapeFrame dest source payload)

end Sys2Proof.Machine
end

