-- ==== Sys2Proof/Machine/Tables.lean ====
section
/-! DEFINITION. The table store (08): write targets, validation, the STAGING bank, and activation. -/

namespace Sys2Proof.Machine

/-! ## Write targets (R145) -/

/-- The eight write targets. -/
inductive Target where
  | channelEntry
  | toolEntry
  | sectorHeader
  | sectorEntry
  | capacityHeader
  | capacityRow
  | functionEntry
  | machineRecord
  deriving DecidableEq, Repr

/-- Target codes. -/
def Target.code : Target → Nat
  | .channelEntry => 1
  | .toolEntry => 2
  | .sectorHeader => 3
  | .sectorEntry => 4
  | .capacityHeader => 5
  | .capacityRow => 6
  | .functionEntry => 7
  | .machineRecord => 8

/-- The target a code names, if it names one. -/
def targetOfCode : Nat → Option Target
  | 1 => some .channelEntry
  | 2 => some .toolEntry
  | 3 => some .sectorHeader
  | 4 => some .sectorEntry
  | 5 => some .capacityHeader
  | 6 => some .capacityRow
  | 7 => some .functionEntry
  | 8 => some .machineRecord
  | _ => none

/-- The number of indices of a target (R145). -/
def Target.indices : Target → Nat
  | .channelEntry => 16
  | .toolEntry => 8
  | .sectorHeader => 1
  | .sectorEntry => 12
  | .capacityHeader => 1
  | .capacityRow => 18
  | .functionEntry => 8
  | .machineRecord => 1

/-- The length of a target's record (R174). -/
def Target.recordLength : Target → Nat
  | .channelEntry => 27
  | .toolEntry => 21
  | .sectorHeader => 8
  | .sectorEntry => 9
  | .capacityHeader => 1
  | .capacityRow => 18
  | .functionEntry => 6
  | .machineRecord => 27

/-- A write into a list target: the entry at the index is replaced; an index at or above the entry count makes the count
the index plus 1, with all-zero entries between (R147). -/
def writeList {α : Type} (zero : α) (i : Nat) (e : α) (l : List α) : List α :=
  if i < l.length then l.set i e else l ++ List.replicate (i - l.length) zero ++ [e]

/-- A record written at a target and index of a table set (R147). -/
def TableSet.write (target : Target) (i : Nat) (r : List Byte) (t : TableSet) : TableSet :=
  match target with
  | .channelEntry => { t with channels := writeList {} i (channelOfBytes r) t.channels }
  | .toolEntry => { t with tools := writeList {} i (toolOfBytes r) t.tools }
  | .sectorHeader => { t with sectorHeader := sectorHeaderOfBytes r }
  | .sectorEntry => { t with sectors := writeList {} i (sectorOfBytes r) t.sectors }
  | .capacityHeader => { t with columnCount := byteAt r 0 }
  | .capacityRow => { t with rows := writeList {} i (rowOfBytes r) t.rows }
  | .functionEntry => { t with functions := writeList {} i (functionOfBytes r) t.functions }
  | .machineRecord => { t with machine := machineOfBytes r }

/-- The record a table set holds at a target and index; none for an index at or above the entry count (R156). -/
def TableSet.read (target : Target) (i : Nat) (t : TableSet) : Option (List Byte) :=
  match target with
  | .channelEntry => t.channels[i]?.map channelBytes
  | .toolEntry => t.tools[i]?.map toolBytes
  | .sectorHeader => some (sectorHeaderBytes t.sectorHeader)
  | .sectorEntry => t.sectors[i]?.map sectorBytes
  | .capacityHeader => some [t.columnCount]
  | .capacityRow => t.rows[i]?.map rowBytes
  | .functionEntry => t.functions[i]?.map functionBytes
  | .machineRecord => some (machineBytes t.machine)

/-- The set the STAGING bank holds, if it holds one (R145). -/
def Staging.held : Staging → Option TableSet
  | .empty => none
  | .loading t => some t
  | .checked t => some t
  | .failed t => some t
  | .previous t => some t

/-- The set the STAGING bank holds in a state in which it may be written and checked (R147, R148). -/
def Staging.writable : Staging → Option TableSet
  | .empty => none
  | .loading t => some t
  | .checked t => some t
  | .failed t => some t
  | .previous _ => none

/-- The set the STAGING bank holds in a state in which it may be activated (R154). -/
def Staging.ready : Staging → Option TableSet
  | .empty => none
  | .loading _ => none
  | .checked t => some t
  | .failed _ => none
  | .previous t => some t

/-! ## Validation (R148 to R153) -/

/-- A failed check: the target and index reported, and the check code (R148). -/
structure Failure where
  target : Target
  index : Nat
  code : Byte
  deriving DecidableEq, Repr

/-- The first check that fails, of checks in order. -/
def firstFailure : List (Option Failure) → Option Failure
  | [] => none
  | some f :: _ => some f
  | none :: rest => firstFailure rest

/-- One check: its failure when it does not pass. -/
def failUnless (passes : Bool) (target : Target) (index : Nat) (code : Byte) : Option Failure :=
  if passes then none else some { target, index, code }

/-- A value lies in a range, both ends included. -/
def between (low high v : Nat) : Bool := decide (low ≤ v) && decide (v ≤ high)

/-- A signed value lies in a measurand's range. -/
def inRange (range : Int × Int) (v : Int) : Bool := decide (range.1 ≤ v) && decide (v ≤ range.2)

/-- Entry checks, each entry having all of its checks made before the next is judged (R150, "Check codes"). -/
def entryFailures {α : Type} (checkEntry : Nat → α → Option Failure) (l : List α) : Option Failure :=
  firstFailure (l.mapIdx checkEntry)

/-- The index of the first entry in index order that repeats an entry at a lower index (R150). -/
def firstRepeat {α : Type} (same : α → α → Bool) (l : List α) : Option Nat :=
  (List.range l.length).find? fun j =>
    match l[j]? with
    | some e => (l.take j).any fun d => same d e
    | none => false

/-- CHANNEL FIELD: every field of a channel entry lies in its range (R24, R150). -/
def channelFieldsOk (e : ChannelEntry) : Bool :=
  match measurandOfCode e.measurand.toNat with
  | none => false
  | some m =>
    let range := measurandRange m
    between 1 62 e.source.toNat && between 0 15 e.slot.toNat && inRange range e.v0.toInt && inRange range e.v1.toInt &&
      inRange range e.low.toInt && inRange range e.high.toInt && between 5 1000 e.timeout.toNat

/-- The entry checks of the channel table (R150). -/
def checkChannel (i : Nat) (e : ChannelEntry) : Option Failure :=
  firstFailure [
    failUnless (channelFieldsOk e) .channelEntry i 0x11,
    failUnless (e.c1 ≠ e.c0) .channelEntry i 0x12,
    failUnless (decide (e.low.toInt ≤ e.high.toInt)) .channelEntry i 0x13]

/-- The checks of the channel table (R150). -/
def checkChannels (t : TableSet) : Option Failure :=
  firstFailure [
    entryFailures checkChannel t.channels,
    (firstRepeat (fun d e => d.source = e.source && d.slot = e.slot) t.channels).map fun j => ⟨.channelEntry, j, 0x14⟩,
    (firstRepeat (fun d e => d.measurand = e.measurand) t.channels).map fun j => ⟨.channelEntry, j, 0x15⟩,
    ([.f, .reach, .pitch, .roll, .gpress].find? fun m => (t.channelOf m).isNone).map
      fun m => ⟨.channelEntry, measurandCode m, 0x16⟩]

/-- TOOL FIELD: every field of a tool entry lies in its range (R57, R151). -/
def toolFieldsOk (e : ToolEntry) : Bool :=
  between 0 7 e.toolId.toNat && between 0 50000 e.tare.toNat && between 1 3500 e.closeThreshold.toNat &&
    between 0 3499 e.openThreshold.toNat && between 50 2000 e.gripConfirmTime.toNat && between 100 3000 e.regripTime.toNat &&
    between 100 20000 e.liftoffNet.toNat && between 5 500 e.accelGate.toNat && between 16 256 e.windowLength.toNat &&
    between 1 200 e.tolerance.toNat && between 0 2000 e.spreadFloor.toNat && between 1 32 e.gapLimit.toNat

/-- The entry checks of the tool table (R151). -/
def checkTool (i : Nat) (e : ToolEntry) : Option Failure :=
  firstFailure [
    failUnless (toolFieldsOk e) .toolEntry i 0x22,
    failUnless (decide (e.openThreshold.toNat < e.closeThreshold.toNat)) .toolEntry i 0x23]

/-- The checks of the tool table (R151). -/
def checkTools (t : TableSet) : Option Failure :=
  firstFailure [
    failUnless (decide (t.tools.length ≠ 0)) .toolEntry 0 0x21,
    entryFailures checkTool t.tools,
    (firstRepeat (fun d e => d.toolId = e.toolId) t.tools).map fun j => ⟨.toolEntry, j, 0x24⟩]

/-- A row's capacities do not rise from one tilt point to the next (R113). -/
def nonIncreasing : List (BitVec 16) → Bool
  | a :: b :: rest => decide (b.toNat ≤ a.toNat) && nonIncreasing (b :: rest)
  | _ => true

/-- The entry checks of the capacity table (R151). -/
def checkRow (i : Nat) (r : CapacityRow) : Option Failure :=
  firstFailure [
    failUnless (r.capacities.toList.all fun c => decide (c.toNat ≤ 30000)) .capacityRow i 0x33,
    failUnless (nonIncreasing r.capacities.toList) .capacityRow i 0x34]

/-- The checks of the capacity table (R151). -/
def checkCapacity (t : TableSet) : Option Failure :=
  firstFailure [
    failUnless (between 1 6 t.columnCount.toNat) .capacityHeader 0 0x31,
    failUnless (decide (t.rows.length = 3 * t.columnCount.toNat)) .capacityRow t.rows.length 0x32,
    entryFailures checkRow t.rows]

/-- SECTOR HEADER: the header's fields lie in their ranges (R46, R152). -/
def sectorHeaderOk (h : SectorHeader) : Bool :=
  between 1024 65535 h.cpr.toNat && decide (h.indexOffset.toNat < h.cpr.toNat) &&
    decide (h.driftLimit.toNat ≤ h.cpr.toNat / 8) && between 2 12 h.count.toNat

/-- SECTOR FIELD: the fields of a sector entry lie in their ranges (R47, R152). -/
def sectorFieldsOk (h : SectorHeader) (e : SectorEntry) : Bool :=
  decide (e.start.toNat < h.cpr.toNat) && between 1 4 e.kind.toNat && inRange (-1000, 1000) e.cosWeight.toInt &&
    inRange (-1000, 1000) e.sinWeight.toInt && between 0 2 e.towardLesser.toNat

/-- The entry checks of the sector table (R152); the order check is not made for entry 0. -/
def checkSector (t : TableSet) (i : Nat) (e : SectorEntry) : Option Failure :=
  firstFailure [
    failUnless (sectorFieldsOk t.sectorHeader e) .sectorEntry i 0x43,
    failUnless (decide (i = 0 ∨ t.startOf (i - 1) < e.start.toNat)) .sectorEntry i 0x44,
    failUnless (decide (e.column.toNat < t.columnCount.toNat)) .sectorEntry i 0x45]

/-- The width of a sector: the number of positions it covers (R47). -/
def TableSet.widthOf (t : TableSet) (i : Nat) : Nat :=
  if i + 1 < t.sectors.length then t.startOf (i + 1) - t.startOf i
  else t.sectorHeader.cpr.toNat - t.startOf i + t.startOf 0

/-- The index of the narrowest sector, the lowest of several equally narrow (R152). -/
def TableSet.narrowest (t : TableSet) : Nat :=
  (List.range t.sectors.length).foldl (fun best i => if t.widthOf i < t.widthOf best then i else best) 0

/-- The checks of the sector table (R152). -/
def checkSectors (t : TableSet) : Option Failure :=
  firstFailure [
    failUnless (sectorHeaderOk t.sectorHeader) .sectorHeader 0 0x41,
    failUnless (decide (t.sectors.length = t.sectorHeader.count.toNat)) .sectorEntry t.sectors.length 0x42,
    entryFailures (checkSector t) t.sectors,
    failUnless (decide (2 * t.sectorHeader.hysteresis.toNat < t.widthOf t.narrowest)) .sectorEntry t.narrowest 0x46]

/-- FUNCTION FIELD: the fields of a function entry lie in their ranges (R132, R153). -/
def functionFieldsOk (e : FunctionEntry) : Bool :=
  between 0 15 e.functionId.toNat && between 0 6 e.role.toNat && between 0 2 e.effect.toNat && between 0 2 e.sense.toNat &&
    between 100 1000 e.warnScale.toNat

/-- The entry checks of the function table (R153). -/
def checkFunction (i : Nat) (e : FunctionEntry) : Option Failure :=
  firstFailure [
    failUnless (decide (e.role ≠ 0 ∨ (e.sense ≠ 0 ∧ e.effect = 0))) .functionEntry i 0x51,
    failUnless (decide (e.role = 0 ∨ e.sense = 0)) .functionEntry i 0x52,
    failUnless (functionFieldsOk e) .functionEntry i 0x53]

/-- The checks of the function table (R153). -/
def checkFunctions (t : TableSet) : Option Failure :=
  firstFailure [
    entryFailures checkFunction t.functions,
    (firstRepeat (fun d e => d.functionId = e.functionId) t.functions).map fun j => ⟨.functionEntry, j, 0x54⟩]

/-- The checks of the machine table (R153). -/
def checkMachine (m : MachineRecord) : Option Failure :=
  firstFailure [
    failUnless (between 500 999 m.warnOn.toNat && decide (m.warnOff.toNat ≤ m.warnOn.toNat) &&
      between m.warnOff.toNat 999 m.limitOff.toNat) .machineRecord 0 0x61,
    failUnless (decide (m.classThreshold1.toNat < m.classThreshold2.toNat)) .machineRecord 0 0x62,
    failUnless (decide (m.bunkWarn.toNat ≤ m.bunkLimit.toNat)) .machineRecord 0 0x63,
    failUnless (between 1 31 m.queueThreshold.toNat && between 1 2 m.overflowMode.toNat) .machineRecord 0 0x64,
    failUnless (decide (m.noticeStation.toNat ≤ 62)) .machineRecord 0 0x65]

/-- The first check that fails in a table set: channel, tool, capacity, sector, function, machine (R148). -/
def validate (t : TableSet) : Option Failure :=
  firstFailure [checkChannels t, checkTools t, checkCapacity t, checkSectors t, checkFunctions t, checkMachine t.machine]

/-! ## The STAGING bank (R146, R147, R148) -/

/-- OPEN STAGING: an empty set in LOADING (R146). -/
def openStaging (s : State) : State := { s with staging := .loading {} }

/-- A performed WRITE ENTRY: the record is written, and the staging state becomes LOADING (R147). -/
def writeStaging (t : TableSet) (target : Target) (i : Nat) (r : List Byte) (s : State) : State :=
  { s with staging := .loading (t.write target i r) }

/-- The STAGING bank after a check of its set (R148). -/
def stagingAfterCheck (t : TableSet) : Staging :=
  match validate t with
  | none => .checked t
  | some _ => .failed t

/-! ## Activation (R154, R155) -/

/-- The STAGING bank after the swap (R154). -/
def stagingAfterSwap (old : Option TableSet) : Staging :=
  match old with
  | some t => .previous t
  | none => .empty

/-- The swap and what every block does at it (R154, R155): the blocks take the activation whole, one after the other, in the
model's order (DESIGN CHOICE, unsafe, notes/assumptions/14.md). R155 and R181 say that an activation changes neither the
condition set nor trace capture, and R51, R83 and R126 make its changes of sector, lift state and supervision state clock
events; the model takes the former of the activation itself and lets those events count, capture and raise TRACE_OVERFLOW
within it (DESIGN CHOICE, unsafe, notes/assumptions/32.md). -/
def activateSet (t : TableSet) (s : State) : State :=
  let old := s.active
  let s := { s with active := some t, staging := stagingAfterSwap old }
  let s := s.notify .tablesActive
  let s := intakeActivation t s
  let s := supActivation s
  let s := slewActivation old t s
  let s := liftActivation s
  let s := queueActivation t.machine s
  tallyActivation t.machine s

end Sys2Proof.Machine
end

