-- ==== Sys2Proof/Machine/Starts.lean ====
section
/-! DEFINITION. The three starts: power-on, reset-pin release and warm restart (R8, R13, R38, R55, R82, R97, R108, R130,
R143, R157, R158, R170, R172, R181). -/

namespace Sys2Proof.Machine

/-- The station number of a strap value: 0 and 63 give station 40 (R13). -/
def stationOf (straps : BitVec 6) : Byte :=
  if straps = 0 ∨ straps = 63 then 40 else straps.setWidth 8

/-- The supervision state at a power-on or reset-pin release (R130). -/
def supStart (service : Bool) : Supervision :=
  { state := if service then .bypass else .unconfigured, service := service, alert := !service }

/-- The part's state at a power-on and at a reset-pin release, with the levels its inputs then have: the straps are read
(R13), the decoder takes the present levels (R43), supervision reads the service input (R130). -/
def startState (pins : InputLevels) : State :=
  { State.reset with
    strapValue := pins.straps, station := stationOf pins.straps,
    slew := { levelA := pins.a, levelB := pins.b, levelZ := pins.z, indexHeld := pins.z && pins.a && pins.b },
    sup := supStart pins.service }

/-- A start that keeps only the command queue and the model's count of free choices. -/
def startFrom (pins : InputLevels) (s : State) : State :=
  { startState pins with pending := s.pending, choices := s.choices }

/-- POWER_ON (R8). -/
def execPowerOn (pins : InputLevels) (s : State) : Answer := .next (startFrom pins s)

/-- RESET_RELEASED (R8): as power-on. -/
def execResetReleased (pins : InputLevels) (s : State) : Answer := .next (startFrom pins s)

/-- A frame being sent is cut off: its ABORT leaves in the next symbol time (R7, R8). -/
def cutOff (p : Port) : Port := { p with abortNext := p.abortNext || p.sending.isSome, sending := none }

/-- The reset input is asserted (R8, R128): a transmitter in the middle of a frame sends ABORT in the next symbol time, the
blocks take no more events, and the alert output is on. -/
def assertReset (s : State) : State :=
  { s with inReset := true, cab := cutOff s.cab, crane := cutOff s.crane, sup := { s.sup with alert := true } }

/-- RESET_ASSERTED (R8). -/
def execResetAsserted (s : State) : Answer := .next (assertReset s)

/-- Supervision after a warm restart, intake having been restarted: the state re-evaluated, M and U 0, T and L computed when
a table set is active and kept when none is (R130). -/
def supWarmRestart (s : State) : Supervision :=
  let started : Supervision :=
    { state := if s.sup.service then .bypass else if s.active.isSome then .hold else .unconfigured,
      bunkClass := s.tally.bunkClass, service := s.sup.service, tilt := s.sup.tilt, capacity := s.sup.capacity,
      alert := !s.sup.service }
  match s.active with
  | none => started
  | some t =>
    let tilt := tiltOf t s
    { started with tilt := tilt, capacity := capacityOf t started tilt }

/-- The warm restart, taken whole by every block (R169): the link ports, the tally, the table store, the clock, P, the last
drift, the next sequence number and the trace configuration are kept. -/
def warmRestart (s : State) : State :=
  let s := { s with
    intake := {}, lift := {}, mgmt := {}, conditions := 0, notices := 0,
    slew := { s.slew with referenced := false, sector := none, lastPace := none,
                          indexHeld := s.slew.levelZ && s.slew.levelA && s.slew.levelB },
    queue := { s.queue with records := [], waitingArm := true },
    trace := { config := s.trace.config } }
  { s with sup := supWarmRestart s }

end Sys2Proof.Machine
end

