-- ==== Sys2Proof/Machine/Management.lean ====
section
/-! DEFINITION. Management (09): requests, result records, replies, and the reading of a chain. What each
operation does is in Operations.lean. -/

namespace Sys2Proof.Machine

/-- Changing management. -/
def State.modMgmt (f : Management → Management) (s : State) : State := { s with mgmt := f s.mgmt }

/-- The kind code of MANAGEMENT REPLY (R162). -/
def kindReply : Byte := 0x52

/-- The kind code of MANAGEMENT REQUEST. -/
def kindRequest : Byte := 0x51

/-! ## Result records (R160, R161) -/

/-- The bytes free for result records: a reply payload holds 120 bytes, and its header takes 4 (R161). -/
def Chain.free (c : Chain) : Nat := 116 - c.results.length

/-- A result record whose status is OK or SKIPPED fits when it leaves at least 3 bytes free after it (R161). -/
def fits (dataLength free : Nat) : Bool := decide (3 + dataLength + 3 ≤ free)

/-- A result record is placed in the reply. -/
def Chain.record (code : Byte) (status : Status) (data : List Byte) (c : Chain) : Chain :=
  { c with
    results := c.results ++ [code, sendByte status.code, sendByte data.length] ++ data,
    resultCount := c.resultCount + 1,
    performedCount := c.performedCount + if status = .ok then 1 else 0 }

/-! ## Replies (R162) -/

/-- The tag of a request; 0 for a payload of 0 bytes (R159). -/
def Request.tag (r : Request) : Byte := r.payload.headD 0

/-- The MANAGEMENT REPLY frame to a request. -/
def replyFrame (station : Byte) (r : Request) (final : Status) (restart busy : Bool) (c : Chain) : List Byte :=
  frameOf r.source station kindReply (replyFlags restart busy)
    ([r.tag, sendByte c.resultCount, sendByte c.performedCount, sendByte final.code] ++ c.results)

/-- The head request leaves the queue, and the next one waits to have its chain read (R158). -/
def dropHead (s : State) : State := s.modMgmt fun m => { requests := m.requests.drop 1, phase := .reading {} }

/-- The held reply is offered to the list of the request's port (R162): placed or discarded, the request leaves the queue
and a warm restart that waits for it is performed (R169); without room it stays held. -/
def offerHeld (s : State) : State :=
  match s.mgmt.phase, s.mgmt.requests with
  | .held reply restart, r :: _ =>
    match (s.port r.port).answer with
    | .noRoom => s
    | .placed =>
      let s := dropHead (s.offer r.port reply)
      if restart then warmRestart s else s
    | .notUp =>
      let s := dropHead s
      if restart then warmRestart s else s
  | _, _ => s

/-- When the chain has ended, the reply is built; management holds it until it leaves (R162). -/
def holdReply (final : Status) (restart : Bool) (c : Chain) (s : State) : State :=
  match s.mgmt.requests with
  | [] => s
  | r :: _ => s.modMgmt fun m => { m with phase := .held (replyFrame s.station r final restart false c) restart }

/-- The chain has ended: the reply is built and offered (R162). -/
def endChain (final : Status) (c : Chain) (s : State) : State := offerHeld (holdReply final false c s)

/-- A reply is held for a port. -/
def heldFor (p : PortId) (s : State) : Bool :=
  match s.mgmt.phase, s.mgmt.requests with
  | .held _ _, r :: _ => decide (r.port = p)
  | _, _ => false

/-- One offer of what waits for a port: the reply, if one is held for it, or an attempt to send a NOTICE (R21). -/
def makeOffer (p : PortId) (o : Offer) (s : State) : State :=
  match o with
  | .reply => if heldFor p s then offerHeld s else s
  | .notice => attemptNotice s

/-- Offers made one after the other. -/
def makeOffers (p : PortId) (offers : List Offer) (s : State) : State := offers.foldl (fun s o => makeOffer p o s) s

/-- What waits for a port's list: the reply held for it, and on the cab port the pending kinds. -/
def waitingOffers (p : PortId) (s : State) : List Offer :=
  (if heldFor p s then [.reply] else []) ++ (if p = .cab ∧ s.notices ≠ 0 then [.notice] else [])

/-- The offers a port still owes. -/
def State.owe (p : PortId) (offers : List Offer) (s : State) : State := s.modPort p fun q => { q with owed := offers }

/-- Each time an entry leaves a port's list, and each time the port enters UP, its list is offered what waits for it: a held
reply, and on the cab port a NOTICE (R21, R162, R173). R16 and R21 let these and a frame of the other port that becomes ready
together with them be placed in any order, so on a port that is UP their order, and how many of them are made at once, are
free values; the port owes the rest (notes/assumptions/20.md, 31.md). On a port that is not UP every offer meets NOT UP. -/
def settleOffers (p : PortId) (s : State) : State :=
  let waiting := waitingOffers p s
  if waiting = [] ∨ (s.port p).link ≠ .up then makeOffers p waiting s
  else
    let (order, s) := s.choose 2
    let (atOnce, s) := s.choose 3
    let waiting := if order = 0 then waiting else waiting.reverse
    makeOffers p (waiting.take atOnce) (s.owe p (waiting.drop atOnce))

/-- The offers that a port owes are made (R21; notes/assumptions/31.md). -/
def offerOwed (p : PortId) (s : State) : State := makeOffers p (s.port p).owed (s.owe p [])

/-- What waits for a port is offered if an entry has left its list since `before`. -/
def settleIfLeft (p : PortId) (before s : State) : State :=
  if (s.port p).list.length < (before.port p).list.length then settleOffers p s else s

/-- HELD_REPLY_OFFER (R162): a held reply is offered again. -/
def execHeldReplyOffer (s : State) : Answer := s.unlessReset offerHeld

/-- WARM_RESTART_PERFORMED (R169): the reply of a request that asked for a warm restart is offered, and the restart is
performed when it leaves management. -/
def execWarmRestartPerformed (s : State) : Answer :=
  s.unlessReset fun s =>
    match s.mgmt.phase with
    | .held _ true => offerHeld s
    | _ => s

/-! ## Taking a request (R158) -/

/-- The places of the request queue. -/
def requestPlaces : Nat := 2

/-- A request is taken: it joins the queue, or is answered once with a BUSY reply (R158, R162). -/
def takeRequest (port : PortId) (source : Byte) (payload : List Byte) (s : State) : State :=
  let r : Request := { port, source, payload }
  if s.mgmt.requests.length < requestPlaces then s.modMgmt fun m => { m with requests := m.requests ++ [r] }
  else s.offer port (replyFrame s.station r .busy false true {})

/-- TAKE_REQUEST (R158). -/
def execTakeRequest (port : PortId) (source : Byte) (payload : List Byte) (s : State) : Answer :=
  s.unlessReset (takeRequest port source payload)

/-! ## Reading a chain (R159) -/

/-- An operation read from a payload: steps 1 and 2 of R159. `short` is a LENGTH_ERROR with the code byte its result record
carries. -/
inductive ReadOp where
  | short (code : Byte)
  | op (code : Byte) (more : Bool) (operands : List Byte) (next : Nat)
  deriving DecidableEq, Repr

/-- Reading the operation at an offset of a payload: its header and operands (R159 steps 1 and 2). -/
def readOp (payload : List Byte) (offset : Nat) : ReadOp :=
  match payload.drop offset with
  | [] => .short 0
  | code :: flags :: length :: body =>
    if body.length < length.toNat then .short code
    else .op code (chainBit flags) (body.take length.toNat) (offset + 3 + length.toNat)
  | code :: _ => .short code

/-- What performing an operation gives (R160): a status with result data, a check that has been started (R149), or a warm
restart that ends the chain (R169). -/
inductive OpResult where
  | gives (status : Status) (data : List Byte)
  | checking
  | restarts
  deriving DecidableEq, Repr

/-- An operation ends the chain with an error. -/
def refuse (status : Status) (s : State) : State × OpResult := (s, .gives status [])

/-- An operation whose OK result has the data: it is performed when its record fits, else it gives NO_ROOM (R161). -/
def performIf (free dataLength : Nat) (result : State × OpResult) (s : State) : State × OpResult :=
  if fits dataLength free then result else refuse .noRoom s

/-- The code of TEST. -/
def codeTest : Byte := 0x01

/-- After a false TEST with CHAIN set, the next operation is read and SKIPPED: its header is read, its operand length and
operands are not judged, and it is not performed (R163). -/
def skipNext (payload : List Byte) (c : Chain) (s : State) : State :=
  match readOp payload c.offset with
  | .short code => endChain .lengthError (c.record code .lengthError []) s
  | .op code more _ next =>
    if fits 0 c.free then
      let c := { c.record code .skipped [] with offset := next }
      if more then s.modMgmt fun m => { m with phase := .reading c } else endChain .ok c s
    else endChain .noRoom (c.record code .noRoom []) s

/-- What follows an operation that has been judged and performed: its result record, and the next operation or the end of
the chain (R159, R160, R163, R169). -/
def concludeOp (payload : List Byte) (code : Byte) (more : Bool) (next : Nat) (c : Chain) (result : State × OpResult) : State :=
  let s := result.1
  match result.2 with
  | .checking => s.modMgmt fun m => { m with phase := .checking { c with offset := next } s.clock more }
  | .restarts => holdReply .ok true (c.record code .ok []) s
  | .gives .ok data =>
    let c := { c.record code .ok data with offset := next }
    if more then
      if code = codeTest ∧ data = [0] then skipNext payload c s else s.modMgmt fun m => { m with phase := .reading c }
    else endChain .ok c s
  | .gives status data => endChain status (c.record code status data) s

/-- The next operation of the chain of the head request, with the request's payload and the chain so far. -/
structure NextOp where
  payload : List Byte
  chain : Chain
  read : ReadOp
  deriving DecidableEq, Repr

/-- The next operation management is to read, if it is reading a chain with operations (R159): a payload of one byte or
none has none. -/
def nextOp (s : State) : Option NextOp :=
  match s.mgmt.phase, s.mgmt.requests with
  | .reading c, r :: _ =>
    if 2 ≤ r.payload.length then some { payload := r.payload, chain := c, read := readOp r.payload c.offset } else none
  | _, _ => none

/-- The operand lengths each operation accepts (R159 step 4, R167, R168, R174). -/
def operandLengthOk (code : Byte) (length : Nat) : Bool :=
  match code.toNat with
  | 0x01 => length = 2
  | 0x02 => length = 0
  | 0x03 => length = 0
  | 0x04 => length = 0
  | 0x05 => length = 2
  | 0x10 => length = 1
  | 0x11 => length = 2
  | 0x12 => length = 0
  | 0x13 => length = 4
  | 0x20 => length = 0
  | 0x21 => decide (2 ≤ length)
  | 0x22 => length = 3
  | 0x23 => length = 0
  | 0x24 => length = 2
  | 0x30 => length = 1 || length = 19
  | 0x31 => length = 1
  | 0x3F => length = 0
  | _ => false

/-- An operation whose operand length is judged first (R159 step 4). -/
def judged (code : Byte) (perform : List Byte → Nat → State → State × OpResult) (operands : List Byte) (free : Nat)
    (s : State) : State × OpResult :=
  if operandLengthOk code operands.length then perform operands free s else refuse .lengthError s

/-- Performing the next operation of the chain by `perform`, when its code is `code` and its operands are `wanted`: a
command for another operation finds nothing to do. -/
def performWanted (wantedCode : Byte) (wanted : List Byte → Bool)
    (perform : List Byte → Nat → State → State × OpResult) (s : State) : State :=
  match nextOp s with
  | none => s
  | some n =>
    match n.read with
    | .short _ => s
    | .op code more operands next =>
      if code = wantedCode ∧ wanted operands then
        concludeOp n.payload code more next n.chain (judged code perform operands n.chain.free s)
      else s

/-- Performing the next operation whatever its operands. -/
def performCoded (code : Byte) (perform : List Byte → Nat → State → State × OpResult) (s : State) : State :=
  performWanted code (fun _ => true) perform s

end Sys2Proof.Machine
end

