-- ==== Sys2Proof/Machine/Operations.lean ====
section
/-! DEFINITION. The management operations (R163 to R169): what each judges, does and returns, and the performing of a
chain. -/

namespace Sys2Proof.Machine

/-! ## TEST (R163) -/

/-- The condition a TEST evaluates; none for a kind outside the four or a value outside its range. -/
def testCondition (kind value : Nat) (s : State) : Option Bool :=
  match kind with
  | 1 => if value ≤ 4 then some (decide (s.staging.code = value)) else none
  | 2 => if value ≤ 5 then some (decide (supCode s.sup.state = value)) else none
  | 3 => if value ≤ 32 then some (decide (value ≤ s.queue.records.length)) else none
  | 4 => some s.tally.incomplete
  | _ => none

/-- TEST (R163). -/
def opTest (operands : List Byte) (free : Nat) (s : State) : State × OpResult :=
  match testCondition (byteAt operands 0).toNat (byteAt operands 1).toNat s with
  | none => refuse .rangeError s
  | some b => performIf free 1 (s, .gives .ok [bitByte b 0]) s

/-- TEST (R163): the next operation of the chain, when it is a TEST. -/
def execTest (s : State) : Answer := s.unlessReset (performCoded codeTest opTest)

/-! ## Reading the part (R164) -/

/-- The identity record: part code 0x0420, revision 1, station number, strap value. -/
def identityRecord (s : State) : List Byte := [0x04, 0x20, 1, s.station, s.strapValue.setWidth 8]

/-- READ IDENTITY (R164). -/
def opReadIdentity (_operands : List Byte) (free : Nat) (s : State) : State × OpResult :=
  performIf free 5 (s, .gives .ok (identityRecord s)) s

/-- READ_IDENTITY (R164). -/
def execReadIdentity (s : State) : Answer := s.unlessReset (performCoded 0x02 opReadIdentity)

/-- A port's two bytes of the status record. -/
def portStatus (p : Port) : List Byte :=
  [sendByte p.link.code, bitByte (decide (p.polarity = .swapped)) 0 ||| bitByte p.flipped 1]

/-- The open lift's sequence number, if it has one. -/
def openNumber (s : State) : Option (BitVec 16) := s.lift.openLift.bind fun l => l.number.map Prod.fst

/-- The flag bits at offset 10 of the status record. -/
def statusFlags (s : State) : Byte :=
  bitByte s.slew.referenced 0 ||| bitByte (openNumber s).isSome 1 ||| bitByte s.tally.incomplete 2 |||
    bitByte s.active.isSome 3 ||| bitByte s.sup.service 4

/-- The 41-byte status record (R174), given what its sequence number field carries. -/
def statusRecord (seqField : BitVec 16) (s : State) : List Byte :=
  portStatus s.cab ++ portStatus s.crane ++ bytes32 s.conditions ++ bytes16 s.notices ++
    [statusFlags s, sendByte (supCode s.sup.state)] ++ send16 s.sup.utilisation ++ send16 s.sup.moment ++
    send16 s.sup.capacity ++ sendSigned16 s.sup.tilt ++ [sendSector s.slew.sector] ++ send16 s.slew.p ++
    sendSigned16 s.slew.lastDrift ++ [sendByte (liftCode s.lift.state)] ++ bytes16 seqField ++
    [sendByte s.queue.records.length] ++ send32 s.tally.bunkTotal ++
    [sendByte s.tally.bunkClass, sendByte s.staging.code] ++ bytes16 s.activeGeneration ++
    [sendByte s.trace.state.code] ++ send16 s.trace.held ++ [sendByte s.mgmt.requests.length]

/-- READ STATUS (R164). With no sequence number to carry, its field is a free value (notes/assumptions/13.md). -/
def opReadStatus (_operands : List Byte) (free : Nat) (s : State) : State × OpResult :=
  match openNumber s with
  | some seq => performIf free 41 (s, .gives .ok (statusRecord seq s)) s
  | none =>
    performIf free 41 ({ s with choices := s.choices + 1 },
      .gives .ok (statusRecord (Config.noSequenceField s.choices) s)) s

/-- READ_STATUS (R164). -/
def execReadStatus (s : State) : Answer := s.unlessReset (performCoded 0x03 opReadStatus)

/-- A measurand's nine bytes in READ MEASURANDS. -/
def measurandBytes (r : MeasurandRecord) : List Byte :=
  sendSigned32 r.value ++ [bitByte (decide (r.state = .fresh)) 0] ++ bytes32 r.lastAccepted

/-- The six measurands, in the order F, A, REACH, PITCH, ROLL, GPRESS. -/
def measurandsRecord (i : Intake) : List Byte :=
  measurandBytes i.f ++ measurandBytes i.a ++ measurandBytes i.reach ++ measurandBytes i.pitch ++ measurandBytes i.roll ++
    measurandBytes i.gpress

/-- READ MEASURANDS (R164). -/
def opReadMeasurands (_operands : List Byte) (free : Nat) (s : State) : State × OpResult :=
  performIf free 54 (s, .gives .ok (measurandsRecord s.intake)) s

/-- READ_MEASURANDS (R164). -/
def execReadMeasurands (s : State) : Answer := s.unlessReset (performCoded 0x04 opReadMeasurands)

/-- An assortment's fourteen bytes in READ TALLY. -/
def assortmentBytes (a : AssortmentTally) : List Byte :=
  send16 a.deliveredCount ++ send32 a.deliveredMass ++ send16 a.unweighedDelivered ++ send16 a.unloadedCount ++
    send32 a.unloadedMass

/-- The figures of `count` assortments from `first`. -/
def tallyRecord (first count : Nat) (t : Tally) : List Byte :=
  [sendByte first, sendByte count] ++ send32 t.totalDelivered ++
    ((t.assortments.toList.drop first).take count).flatMap assortmentBytes

/-- READ TALLY (R164). -/
def opReadTally (operands : List Byte) (free : Nat) (s : State) : State × OpResult :=
  let first := (byteAt operands 0).toNat
  let count := (byteAt operands 1).toNat
  if 1 ≤ count ∧ count ≤ 4 ∧ first + count ≤ 32 then
    performIf free (6 + 14 * count) (s, .gives .ok (tallyRecord first count s.tally)) s
  else refuse .rangeError s

/-- READ_TALLY (R164). -/
def execReadTally (s : State) : Answer := s.unlessReset (performCoded 0x05 opReadTally)

/-! ## Lift queue and tally (R165, R166) -/

/-- The whole records, oldest first, whose bytes fit in a space. -/
def recordsThatFit : Nat → List LiftRecord → List Byte
  | _, [] => []
  | space, r :: rest =>
    let b := recordBytes r
    if b.length ≤ space then b ++ recordsThatFit (space - b.length) rest else []

/-- PEEK LIFTS (R165). -/
def opPeekLifts (operands : List Byte) (free : Nat) (s : State) : State × OpResult :=
  let k := (byteAt operands 0).toNat
  if 1 ≤ k ∧ k ≤ 4 then
    let records := s.queue.records.take k
    let data := records.flatMap recordBytes
    if fits data.length free then (s, .gives .ok data) else (s, .gives .noRoom (recordsThatFit (free - 3) records))
  else refuse .rangeError s

/-- PEEK_LIFTS (R165). -/
def execPeekLifts (s : State) : Answer := s.unlessReset (performCoded 0x10 opPeekLifts)

/-- DROP LIFTS (R93, R166). -/
def opDropLifts (operands : List Byte) (free : Nat) (s : State) : State × OpResult :=
  match dropThrough (field16 operands 0) s.queue.records with
  | none => refuse .notFound s
  | some rest =>
    performIf free 2 (removeLifts rest s,
      .gives .ok [sendByte (s.queue.records.length - rest.length), sendByte rest.length]) s

/-- DROP_LIFTS (R93). -/
def execDropLifts (s : State) : Answer := s.unlessReset (performCoded 0x11 opDropLifts)

/-- CLEAR BUNK (R106, R166). -/
def opClearBunk (_operands : List Byte) (free : Nat) (s : State) : State × OpResult :=
  performIf free 0 (clearBunk s, .gives .ok []) s

/-- CLEAR_BUNK (R106). -/
def execClearBunk (s : State) : Answer := s.unlessReset (performCoded 0x12 opClearBunk)

/-- CLEAR CONDITIONS (R171): the result is the set before the clear. -/
def opClearConditions (operands : List Byte) (free : Nat) (s : State) : State × OpResult :=
  performIf free 4 ({ s with conditions := s.conditions &&& ~~~(field32 operands 0) },
    .gives .ok (bytes32 s.conditions)) s

/-- CLEAR_CONDITIONS (R171). -/
def execClearConditions (s : State) : Answer := s.unlessReset (performCoded 0x13 opClearConditions)

/-! ## The table store (R167) -/

/-- OPEN STAGING (R146). -/
def opOpenStaging (_operands : List Byte) (free : Nat) (s : State) : State × OpResult :=
  performIf free 0 (openStaging s, .gives .ok []) s

/-- OPEN_STAGING (R146). -/
def execOpenStaging (s : State) : Answer := s.unlessReset (performCoded 0x20 opOpenStaging)

/-- A target and index carried by an operation, if they are in range (R147 step 1, R156 step 1). -/
def targetAndIndex (code index : Nat) : Option Target :=
  (targetOfCode code).bind fun target => if index < target.indices then some target else none

/-- WRITE ENTRY (R147): target and index, then the record's length, then the staging state. -/
def opWriteEntry (operands : List Byte) (free : Nat) (s : State) : State × OpResult :=
  let index := (byteAt operands 1).toNat
  match targetAndIndex (byteAt operands 0).toNat index with
  | none => refuse .rangeError s
  | some target =>
    let r := operands.drop 2
    if r.length ≠ target.recordLength then refuse .lengthError s
    else
      match s.staging.writable with
      | none => refuse .notOpen s
      | some t => performIf free 0 (writeStaging t target index r s, .gives .ok []) s

/-- WRITE_ENTRY (R147). -/
def execWriteEntry (s : State) : Answer := s.unlessReset (performCoded 0x21 opWriteEntry)

/-- The set a bank holds, by the bank's code: ACTIVE 0, STAGING 1 (R156, R174). -/
def bankSet (bank : Nat) (s : State) : Option TableSet := if bank = 0 then s.active else s.staging.held

/-- READ ENTRY (R156): the operands, then the bank's contents, then the entry. -/
def opReadEntry (operands : List Byte) (free : Nat) (s : State) : State × OpResult :=
  let bank := (byteAt operands 0).toNat
  let index := (byteAt operands 2).toNat
  match targetAndIndex (byteAt operands 1).toNat index with
  | none => refuse .rangeError s
  | some target =>
    if bank ≤ 1 then
      match (bankSet bank s).bind (TableSet.read target index) with
      | none => refuse .notFound s
      | some r => performIf free target.recordLength (s, .gives .ok r) s
    else refuse .rangeError s

/-- READ_ENTRY (R156). -/
def execReadEntry (s : State) : Answer := s.unlessReset (performCoded 0x22 opReadEntry)

/-- CHECK STAGING (R148): the check is started, and the chain waits for its outcome (R149). -/
def opCheckStaging (_operands : List Byte) (free : Nat) (s : State) : State × OpResult :=
  match s.staging with
  | .empty => refuse .notOpen s
  | .previous _ => refuse .wrongState s
  | .loading _ => performIf free 6 (s, .checking) s
  | .checked _ => performIf free 6 (s, .checking) s
  | .failed _ => performIf free 6 (s, .checking) s

/-- CHECK_STAGING (R148). -/
def execCheckStaging (s : State) : Answer := s.unlessReset (performCoded 0x23 opCheckStaging)

/-- The result data of a check (R148, R167). -/
def checkData (t : TableSet) : List Byte :=
  match validate t with
  | none => [0] ++ bytes16 t.machine.generation ++ [0, 0, 0]
  | some f => [1] ++ bytes16 t.machine.generation ++ [sendByte f.target.code, sendByte f.index, f.code]

/-- The outcome of a running check: the staging state becomes CHECKED or FAILED, and the chain goes on (R148, R149). -/
def completeCheck (s : State) : State :=
  match s.mgmt.phase, s.mgmt.requests, s.staging.writable with
  | .checking c _ more, r :: _, some t =>
    concludeOp r.payload 0x23 more c.offset c ({ s with staging := stagingAfterCheck t }, .gives .ok (checkData t))
  | _, _, _ => s

/-- CHECK_STAGING_COMPLETE (R149): at any time from the start of the check. -/
def execCheckStagingComplete (s : State) : Answer := s.unlessReset completeCheck

/-- ACTIVATE (R154): the staging state, then the generation, then the swap. -/
def opActivate (operands : List Byte) (free : Nat) (s : State) : State × OpResult :=
  match s.staging.ready with
  | none => refuse .wrongState s
  | some t =>
    if t.machine.generation ≠ field16 operands 0 then refuse .generationMismatch s
    else
      performIf free 3 (activateSet t s,
        .gives .ok (bytes16 t.machine.generation ++ [sendByte (stagingAfterSwap s.active).code])) s

/-- ACTIVATE (R154). -/
def execActivate (s : State) : Answer := s.unlessReset (performCoded 0x24 opActivate)

/-! ## Trace capture (R168) -/

/-- The code of TRACE CONTROL. -/
def codeTraceControl : Byte := 0x30

/-- The result of a TRACE CONTROL action: the trace state after it. -/
def traceResult (free : Nat) (after : State) (s : State) : State × OpResult :=
  performIf free 1 (after, .gives .ok [sendByte after.trace.state.code]) s

/-- TRACE CONTROL (configure): the length, then the trace state, then the record's fields (R168, R176). -/
def opTraceConfigure (operands : List Byte) (free : Nat) (s : State) : State × OpResult :=
  if operands.length ≠ 19 then refuse .lengthError s
  else if s.trace.state ≠ .disabled then refuse .wrongState s
  else
    match traceConfigOfBytes (operands.drop 1) with
    | none => refuse .rangeError s
    | some c => traceResult free (traceConfigure c s) s

/-- TRACE CONTROL (enable). -/
def opTraceEnable (operands : List Byte) (free : Nat) (s : State) : State × OpResult :=
  if operands.length ≠ 1 then refuse .lengthError s else traceResult free (traceEnable s) s

/-- TRACE CONTROL (disable). -/
def opTraceDisable (operands : List Byte) (free : Nat) (s : State) : State × OpResult :=
  if operands.length ≠ 1 then refuse .lengthError s else traceResult free (traceDisable s) s

/-- TRACE CONTROL (flush). -/
def opTraceFlush (operands : List Byte) (free : Nat) (s : State) : State × OpResult :=
  if operands.length ≠ 1 then refuse .lengthError s else traceResult free (traceFlush s) s

/-- TRACE CONTROL by its action (R168). -/
def opTraceControl (operands : List Byte) (free : Nat) (s : State) : State × OpResult :=
  match (byteAt operands 0).toNat with
  | 1 => opTraceConfigure operands free s
  | 2 => opTraceEnable operands free s
  | 3 => opTraceDisable operands free s
  | 4 => opTraceFlush operands free s
  | _ => refuse .rangeError s

/-- A TRACE CONTROL carries an action. -/
def hasAction (action : Byte) (operands : List Byte) : Bool := decide (operands.head? = some action)

/-- TRACE_CONFIGURE (R176). -/
def execTraceConfigure (s : State) : Answer :=
  s.unlessReset (performWanted codeTraceControl (hasAction 1) opTraceConfigure)

/-- TRACE_ENABLE (R179). -/
def execTraceEnable (s : State) : Answer := s.unlessReset (performWanted codeTraceControl (hasAction 2) opTraceEnable)

/-- TRACE_DISABLE (R179). -/
def execTraceDisable (s : State) : Answer := s.unlessReset (performWanted codeTraceControl (hasAction 3) opTraceDisable)

/-- TRACE_FLUSH (R179). -/
def execTraceFlush (s : State) : Answer := s.unlessReset (performWanted codeTraceControl (hasAction 4) opTraceFlush)

/-- The maximum of a TRACE READ, lowered to the elements whose result leaves 3 bytes free (R168). -/
def loweredMaximum (max free : Nat) : Nat := min max ((free - 7) / 5)

/-- TRACE READ (R168, R180). -/
def opTraceRead (operands : List Byte) (free : Nat) (s : State) : State × OpResult :=
  let max := (byteAt operands 0).toNat
  if 1 ≤ max ∧ max ≤ 20 then
    let lowered := loweredMaximum max free
    match s.trace.buffer with
    | [] => performIf free 1 (s, .gives .ok [0]) s
    | oldest :: _ =>
      if lowered < oldest.length then refuse .noRoom s
      else
        let r := traceRead lowered s
        (r.2, .gives .ok (sendByte r.1.length :: r.1.flatMap elementBytes))
  else refuse .rangeError s

/-- TRACE_READ (R180). -/
def execTraceRead (s : State) : Answer := s.unlessReset (performCoded 0x31 opTraceRead)

/-! ## Warm restart (R169) -/

/-- WARM RESTART (R169): OK with no data, and the chain ends. -/
def opWarmRestart (_operands : List Byte) (free : Nat) (s : State) : State × OpResult :=
  performIf free 0 (s, .restarts) s

/-- WARM_RESTART (R169): the chain ends and the reply, with RESTART FOLLOWS set, is built; the restart is performed when it
leaves management. -/
def execWarmRestart (s : State) : Answer := s.unlessReset (performCoded 0x3F opWarmRestart)

/-! ## Performing a request (R159) -/

/-- An operation by its code; a code that names no operation gives BAD_OPERATION (R159 steps 3 to 5). -/
def performCode (code : Byte) (operands : List Byte) (free : Nat) (s : State) : State × OpResult :=
  match code.toNat with
  | 0x01 => judged code opTest operands free s
  | 0x02 => judged code opReadIdentity operands free s
  | 0x03 => judged code opReadStatus operands free s
  | 0x04 => judged code opReadMeasurands operands free s
  | 0x05 => judged code opReadTally operands free s
  | 0x10 => judged code opPeekLifts operands free s
  | 0x11 => judged code opDropLifts operands free s
  | 0x12 => judged code opClearBunk operands free s
  | 0x13 => judged code opClearConditions operands free s
  | 0x20 => judged code opOpenStaging operands free s
  | 0x21 => judged code opWriteEntry operands free s
  | 0x22 => judged code opReadEntry operands free s
  | 0x23 => judged code opCheckStaging operands free s
  | 0x24 => judged code opActivate operands free s
  | 0x30 => judged code opTraceControl operands free s
  | 0x31 => judged code opTraceRead operands free s
  | 0x3F => judged code opWarmRestart operands free s
  | _ => refuse .badOperation s

/-- The next operation of the chain is read and performed, or ends the chain with LENGTH_ERROR (R159). -/
def performNext (s : State) : State :=
  match nextOp s with
  | none => s
  | some n =>
    match n.read with
    | .short code => endChain .lengthError (n.chain.record code .lengthError []) s
    | .op code more operands next =>
      concludeOp n.payload code more next n.chain (performCode code operands n.chain.free s)

/-- Management is reading a chain. -/
def isReading (s : State) : Bool :=
  match s.mgmt.phase with
  | .reading _ => true
  | .checking _ _ _ => false
  | .held _ _ => false

/-- The operations of one chain, one after another, until it ends or waits for a check; the fuel is the payload's length,
and each operation takes at least 3 bytes of it. -/
def runChain : Nat → State → State
  | 0, s => s
  | fuel + 1, s =>
    let s' := performNext s
    if s'.mgmt.requests.length = s.mgmt.requests.length ∧ isReading s' then runChain fuel s' else s'

/-- The head request is performed from where its chain stands; its reply is built and offered when the chain ends (R159,
R162). A payload of one byte has an empty chain, and one of 0 bytes has no tag. -/
def performRequest (s : State) : State :=
  match s.mgmt.phase, s.mgmt.requests with
  | .held _ _, _ => offerHeld s
  | .checking _ _ _, _ => s
  | .reading _, [] => s
  | .reading c, r :: _ =>
    match r.payload with
    | [] => endChain .lengthError c s
    | [_] => endChain .ok c s
    | _ => offerHeld (runChain r.payload.length s)

/-- PERFORM_REQUEST (R159). -/
def execPerformRequest (s : State) : Answer := s.unlessReset performRequest

end Sys2Proof.Machine
end

