-- ==== Sys2Proof/Machine/Link.lean ====
section
/-! DEFINITION. The crane link and frame forwarding (01): link states, framing, classification, forwarding and
transmission. -/

namespace Sys2Proof.Machine

/-! ## Link states (R2 to R7) -/

/-- A valid symbol: IDLE, START, END, ABORT or DATA (R1). -/
def isValid : LineSymbol → Bool
  | .idle => true
  | .startFrame => true
  | .endFrame => true
  | .abortFrame => true
  | .data _ => true
  | .invertedIdle => false
  | .violation => false
  | .noSymbol => false

/-- A symbol that counts as a VIOLATION in UP (R4, R5). -/
def isViolation : LineSymbol → Bool
  | .violation => true
  | .invertedIdle => true
  | .idle => false
  | .startFrame => false
  | .endFrame => false
  | .abortFrame => false
  | .data _ => false
  | .noSymbol => false

/-- The other receive polarity. -/
def Polarity.flip : Polarity → Polarity
  | .normal => .swapped
  | .swapped => .normal

/-- The inverted-idle run has reached 8 in DOWN or TRAINING (R4). -/
def flipDue (p : Port) : Bool := decide (p.link ≠ .up) && decide (8 ≤ p.invertedRun)

/-- A polarity flip (R4); in TRAINING it sets the clean-symbol count to 0 (R3). -/
def flipPolarity (p : Port) : Port :=
  { p with polarity := p.polarity.flip, invertedRun := 0, flipped := true,
           cleanCount := if p.link = .training then 0 else p.cleanCount }

/-- The clean-symbol count has reached 2048 in TRAINING (R3). -/
def linkUpDue (p : Port) : Bool := decide (p.link = .training) && decide (2048 ≤ p.cleanCount)

/-- Entry to UP (R3). -/
def goUp (p : Port) : Port :=
  { p with link := .up, violations := [], lossCount := 0, rx := { framing := .discarding }, list := [], sending := none }

/-- The loss-of-signal count has reached 256 in TRAINING or UP (R6). -/
def lossDue (p : Port) : Bool := decide (p.link ≠ .down) && decide (256 ≤ p.lossCount)

/-- The violation window holds 32 violations in UP (R5). -/
def windowFull (p : Port) : Bool := decide (p.link = .up) && decide (32 ≤ p.violations.length)

/-- The port's own side of going DOWN (R7 steps 2, 3 and 5). -/
def downPort (p : Port) : Port :=
  { cutOff p with link := .down, list := [], rx := {}, violations := [], lossCount := 0, invertedRun := 0 }

/-- A port goes DOWN (R7): LINK_LOST, the output cut off, the list emptied, the inbound frame dropped with its forwarded
copy ended or removed, the framing state reset. Entries that leave the two lists are occasions to offer what waits for them
(R16, R21). -/
def goDown (p : PortId) (s : State) : State :=
  let t := ((s.raise (.linkLost p)).modPort p.other (finishCopy false)).modPort p downPort
  settleIfLeft p.other s (settleIfLeft p s t)

/-! ## Bad frames (R11, R12) -/

/-- A frame found bad: CHECK_ERROR_SEEN, its copy ended or removed, its bytes discarded, and the next framing state. A
removed copy frees its place, and a waiting own frame may then be placed (R19). -/
def badFrame (p : PortId) (next : Framing) (s : State) : State :=
  settleIfLeft p.other s
    (((s.raise (.checkErrorSeen p)).modPort p.other (finishCopy false)).modPort p
      fun q => { q with rx := { framing := next } })

/-! ## Classification and forwarding (R14, R18) -/

/-- The treatment of a frame, from its kind, arrival port and destination (R14). -/
def treatmentOf (station : Byte) (p : PortId) (dest kind : Byte) : Treatment :=
  if kind = 0x21 then (match p with | .cab => .cutThrough | .crane => .cutThroughAndSnoop)
  else if kind = kindValveDemand then (match p with | .cab => .storeAndShape | .crane => .cutThrough)
  else if kind = 0x32 then (match p with | .cab => .cutThroughAndSnoop | .crane => .cutThrough)
  else if kind = kindRequest ∧ dest = station then .take
  else .cutThrough

/-- A treatment that forwards the frame as it arrives. -/
def Treatment.forwards : Treatment → Bool
  | .cutThrough => true
  | .cutThroughAndSnoop => true
  | .storeAndShape => false
  | .take => false

/-- A forwarded frame becomes ready for the list of a port (R18). -/
def forwardReady (q : PortId) (header : List Byte) (s : State) : State :=
  match (s.port q).answer with
  | .notUp => s
  | .noRoom => s.raise (.forwardOverrun q)
  | .placed => s.modPort q (Port.append { bytes := header, status := .arriving })

/-- The 5th byte completes the header (R10, R14): a length above 120 is bad at once, else the frame is classified. -/
def headerComplete (p : PortId) (header : List Byte) (s : State) : State :=
  if 120 < (byteAt header 4).toNat then badFrame p .discarding s
  else
    let t := treatmentOf s.station p (byteAt header 0) (byteAt header 2)
    let s := s.modPort p fun q => { q with rx := { q.rx with treatment := some t } }
    if t.forwards then forwardReady p.other header s else s

/-- A DATA byte inside a frame (R10, R12). -/
def frameByte (p : PortId) (b : Byte) (s : State) : State :=
  let rx := (s.port p).rx
  let bytes := rx.bytes ++ [b]
  if 128 ≤ bytes.length then badFrame p .discarding s
  else
    let s := s.modPort p fun q => { q with rx := { q.rx with bytes := bytes } }
    if bytes.length = 5 then headerComplete p bytes s
    else if rx.treatment.elim false Treatment.forwards then s.modPort p.other (extendCopy b)
    else s

/-! ## The end of a frame (R11, R15) -/

/-- The frame passes every check made at END (R9, R11). -/
def goodAtEnd (bytes : List Byte) : Bool :=
  let n := bytes.length
  decide (7 ≤ n) && decide (n = 7 + (byteAt bytes 4).toNat) && decide (check (bytes.take (n - 2)) = field16 bytes (n - 2))

/-- A frame's payload. -/
def payloadOf (bytes : List Byte) : List Byte := (bytes.drop 5).take (byteAt bytes 4).toNat

/-- A good frame is handed on according to its treatment (R15). -/
def handOn (p : PortId) (t : Treatment) (bytes : List Byte) (s : State) : State :=
  match t with
  | .cutThrough => s
  | .cutThroughAndSnoop =>
    match p with
    | .crane => readReport (byteAt bytes 1) (payloadOf bytes) s
    | .cab => readOperatorState (payloadOf bytes) s
  | .storeAndShape => shapeFrame (byteAt bytes 0) (byteAt bytes 1) (payloadOf bytes) s
  | .take => takeRequest p (byteAt bytes 1) (payloadOf bytes) s

/-- An END inside a frame (R10, R15, R19). -/
def frameEnd (p : PortId) (s : State) : State :=
  let rx := (s.port p).rx
  if goodAtEnd rx.bytes then
    let s := (s.modPort p fun q => { q with rx := {} }).modPort p.other (finishCopy true)
    match rx.treatment with
    | some t => handOn p t rx.bytes s
    | none => s
  else badFrame p .waiting s

/-! ## Framing in UP (R10) -/

/-- Beginning a frame. -/
def beginFrame (q : Port) : Port := { q with rx := { framing := .inFrame } }

/-- A symbol while WAITING. -/
def waitingSymbol (p : PortId) (sym : LineSymbol) (s : State) : State :=
  match sym with
  | .startFrame => s.modPort p beginFrame
  | _ => s

/-- A symbol IN FRAME: a START makes the frame in progress bad, and a new frame begins. -/
def inFrameSymbol (p : PortId) (sym : LineSymbol) (s : State) : State :=
  match sym with
  | .startFrame => badFrame p .inFrame s
  | .data b => frameByte p b s
  | .endFrame => frameEnd p s
  | .abortFrame => badFrame p .waiting s
  | .idle => badFrame p .waiting s
  | .violation => badFrame p .discarding s
  | .invertedIdle => badFrame p .discarding s
  | .noSymbol => badFrame p .discarding s

/-- A symbol while DISCARDING. -/
def discardingSymbol (p : PortId) (sym : LineSymbol) (s : State) : State :=
  match sym with
  | .idle => s.modPort p fun q => { q with rx := {} }
  | _ => s

/-- The effect of a symbol time on the framing state (R10). -/
def frameSymbol (p : PortId) (sym : LineSymbol) (s : State) : State :=
  match (s.port p).rx.framing with
  | .waiting => waitingSymbol p sym s
  | .inFrame => inFrameSymbol p sym s
  | .discarding => discardingSymbol p sym s

/-! ## Receiving (R2 to R6) -/

/-- The violation window after a symbol time: ages grow, and one of 1024 leaves (R5). -/
def windowAfter (violations : List Nat) (viol : Bool) : List Nat :=
  (violations.map (· + 1)).filter (fun a => decide (a < 1024)) ++ if viol then [0] else []

/-- The loss-of-signal count after a symbol time (R6). -/
def lossAfter (count : Nat) (sym : LineSymbol) : Nat := if isValid sym then 0 else count + 1

/-- The inverted-idle run after a symbol time (R4). -/
def invertedAfter (run : Nat) (sym : LineSymbol) : Nat := if sym = .invertedIdle then run + 1 else 0

/-- The clean-symbol count after a symbol time in TRAINING (R3). -/
def cleanAfter (count : Nat) (sym : LineSymbol) : Nat :=
  if isValid sym then count + 1 else if isViolation sym then 0 else count

/-- A symbol time in DOWN (R2, R4). -/
def receiveDown (sym : LineSymbol) (p : Port) : Port :=
  let p := { p with invertedRun := invertedAfter p.invertedRun sym }
  if sym = .idle then { p with link := .training, cleanCount := 0, lossCount := 0 }
  else if flipDue p then flipPolarity p else p

/-- The counts of a symbol time in TRAINING (R3, R4, R6), with the flip and the entry to UP they bring about. -/
def receiveTraining (sym : LineSymbol) (p : Port) : Port :=
  let p := { p with invertedRun := invertedAfter p.invertedRun sym, cleanCount := cleanAfter p.cleanCount sym,
                    lossCount := lossAfter p.lossCount sym }
  let p := if flipDue p then flipPolarity p else p
  if linkUpDue p then goUp p else p

/-- The counts of a symbol time in UP (R5, R6). -/
def countUp (sym : LineSymbol) (p : Port) : Port :=
  { p with violations := windowAfter p.violations (isViolation sym), lossCount := lossAfter p.lossCount sym }

/-- One symbol time of a receiver (R10): the link state first, and in UP the framing, unless the symbol takes the port
DOWN. -/
def receive (p : PortId) (sym : LineSymbol) (s : State) : State :=
  match (s.port p).link with
  | .down => s.modPort p (receiveDown sym)
  | .training =>
    let s := s.modPort p (receiveTraining sym)
    if lossDue (s.port p) then goDown p s else if (s.port p).link = .up then settleOffers p s else s
  | .up =>
    let s := s.modPort p (countUp sym)
    if windowFull (s.port p) || lossDue (s.port p) then goDown p s else frameSymbol p sym s

/-- RECEIVE_SYMBOL (R10). -/
def execReceiveSymbol (port : PortId) (sym : LineSymbol) (s : State) : Answer := s.unlessReset (receive port sym)

/-- POLARITY_FLIP (R4): an inverted-idle run that has reached 8 flips the polarity. -/
def execPolarityFlip (port : PortId) (s : State) : Answer :=
  s.unlessReset fun s => if flipDue (s.port port) then s.modPort port flipPolarity else s

/-- LINK_UP (R3): a clean-symbol count that has reached 2048 takes the port UP. -/
def execLinkUp (port : PortId) (s : State) : Answer :=
  s.unlessReset fun s => if linkUpDue (s.port port) then settleOffers port (s.modPort port goUp) else s

/-- LOSS_OF_SIGNAL (R6): a loss-of-signal count that has reached 256 takes the port DOWN. -/
def execLossOfSignal (port : PortId) (s : State) : Answer :=
  s.unlessReset fun s => if lossDue (s.port port) then goDown port s else s

/-- VIOLATION_WINDOW_FULL (R5): a violation window that holds 32 violations takes the port DOWN. -/
def execViolationWindowFull (port : PortId) (s : State) : Answer :=
  s.unlessReset fun s => if windowFull (s.port port) then goDown port s else s

/-! ## Transmitting (R16, R17, R19) -/

/-- The head entry leaves with its END or ABORT; exactly one IDLE follows (R16, R17). -/
def leaveHead (sym : LineSymbol) (p : Port) : Port :=
  { p with list := p.list.drop 1, sending := none, owesIdle := true, lastSent := sym }

/-- One symbol time of a transmitter (R2, R7, R8, R17). `running` is false while the reset input is asserted. A cut-through
entry whose next byte has not arrived leaves the transmitter as it is (notes/assumptions/8.md). -/
def sendSymbol (running : Bool) (p : Port) : Port :=
  if p.abortNext then { p with abortNext := false, owesIdle := true, lastSent := .abortFrame }
  else if ¬running ∨ p.link ≠ .up ∨ p.owesIdle then { p with owesIdle := false, lastSent := .idle }
  else
    match p.list with
    | [] => { p with lastSent := .idle }
    | e :: _ =>
      match p.sending with
      | none => { p with sending := some 0, lastSent := .startFrame }
      | some k =>
        if e.status = .broken then leaveHead .abortFrame p
        else
          match e.bytes[k]? with
          | some b => { p with sending := some (k + 1), lastSent := .data b }
          | none => if e.status = .whole then leaveHead .endFrame p else p

/-- One symbol time of a port's transmitter; the END or ABORT with which an entry leaves the list is an occasion to offer what
waits for the port (R16, R21). Offers that the port owes from an earlier symbol time are made first
(notes/assumptions/31.md). -/
def transmit (p : PortId) (s : State) : State :=
  if s.inReset then s.modPort p (sendSymbol false)
  else
    let s := offerOwed p s
    settleIfLeft p s (s.modPort p (sendSymbol true))

/-- TRANSMIT_SYMBOL (R17). -/
def execTransmitSymbol (port : PortId) (s : State) : Answer := .next (transmit port s)

end Sys2Proof.Machine
end

