-- ==== Sys2Proof/Machine/Dispatch.lean ====
section
/-! DEFINITION. Each command goes to its meaning. -/

namespace Sys2Proof.Machine

/-- The effect of a command on everything but the queue of waiting commands. -/
def exec (i : Instr) (s : State) : Host.Outcome State Fault Refusal :=
  match i with
  | .powerOn pins => Sys2Proof.Machine.execPowerOn pins s
  | .resetAsserted => Sys2Proof.Machine.execResetAsserted s
  | .resetReleased pins => Sys2Proof.Machine.execResetReleased pins s
  | .receiveSymbol port sym => Sys2Proof.Machine.execReceiveSymbol port sym s
  | .polarityFlip port => Sys2Proof.Machine.execPolarityFlip port s
  | .linkUp port => Sys2Proof.Machine.execLinkUp port s
  | .lossOfSignal port => Sys2Proof.Machine.execLossOfSignal port s
  | .violationWindowFull port => Sys2Proof.Machine.execViolationWindowFull port s
  | .transmitSymbol port => Sys2Proof.Machine.execTransmitSymbol port s
  | .heldReplyOffer => Sys2Proof.Machine.execHeldReplyOffer s
  | .noticeAttempt => Sys2Proof.Machine.execNoticeAttempt s
  | .sensorReport source payload => Sys2Proof.Machine.execSensorReport source payload s
  | .freshnessExpiry m => Sys2Proof.Machine.execFreshnessExpiry m s
  | .operatorState payload => Sys2Proof.Machine.execOperatorState payload s
  | .gapRunLimit => Sys2Proof.Machine.execGapRunLimit s
  | .setDown => Sys2Proof.Machine.execSetDown s
  | .windowEvaluation => Sys2Proof.Machine.execWindowEvaluation s
  | .gripConfirmed => Sys2Proof.Machine.execGripConfirmed s
  | .release => Sys2Proof.Machine.execRelease s
  | .tareTimerExpiry => Sys2Proof.Machine.execTareTimerExpiry s
  | .encoderObservation a b z => Sys2Proof.Machine.execEncoderObservation a b z s
  | .serviceInputChange asserted => Sys2Proof.Machine.execServiceInputChange asserted s
  | .alertFlashToggle => Sys2Proof.Machine.execAlertFlashToggle s
  | .shapeValveDemand dest source flags payload => Sys2Proof.Machine.execShapeValveDemand dest source flags payload s
  | .takeRequest port source payload => Sys2Proof.Machine.execTakeRequest port source payload s
  | .performRequest => Sys2Proof.Machine.execPerformRequest s
  | .test => Sys2Proof.Machine.execTest s
  | .readIdentity => Sys2Proof.Machine.execReadIdentity s
  | .readStatus => Sys2Proof.Machine.execReadStatus s
  | .readMeasurands => Sys2Proof.Machine.execReadMeasurands s
  | .readTally => Sys2Proof.Machine.execReadTally s
  | .peekLifts => Sys2Proof.Machine.execPeekLifts s
  | .dropLifts => Sys2Proof.Machine.execDropLifts s
  | .clearBunk => Sys2Proof.Machine.execClearBunk s
  | .clearConditions => Sys2Proof.Machine.execClearConditions s
  | .openStaging => Sys2Proof.Machine.execOpenStaging s
  | .writeEntry => Sys2Proof.Machine.execWriteEntry s
  | .readEntry => Sys2Proof.Machine.execReadEntry s
  | .checkStaging => Sys2Proof.Machine.execCheckStaging s
  | .checkStagingComplete => Sys2Proof.Machine.execCheckStagingComplete s
  | .activate => Sys2Proof.Machine.execActivate s
  | .traceConfigure => Sys2Proof.Machine.execTraceConfigure s
  | .traceEnable => Sys2Proof.Machine.execTraceEnable s
  | .traceDisable => Sys2Proof.Machine.execTraceDisable s
  | .traceFlush => Sys2Proof.Machine.execTraceFlush s
  | .traceRead => Sys2Proof.Machine.execTraceRead s
  | .traceCapture event => Sys2Proof.Machine.execTraceCapture event s
  | .warmRestart => Sys2Proof.Machine.execWarmRestart s
  | .warmRestartPerformed => Sys2Proof.Machine.execWarmRestartPerformed s

end Sys2Proof.Machine
end

