-- ==== Sys2Proof/Machine/Idle.lean ====
section
/-! DEFINITION. What the part does of itself while no command waits (notes/assumptions/2.md): the first internal event that
is due is taken, and when none is due one millisecond of the clock passes (00_scope.md, "The millisecond clock"). -/

namespace Sys2Proof.Machine

/-- One internal event: whether it is due, and what taking it does. -/
structure InternalEvent where
  due : Bool
  taken : State

/-- A measurand's freshness timer has expired (R32). -/
def freshnessEvent (m : Measurand) (s : State) : InternalEvent :=
  { due := expired s.clock (s.intake.get m).timer, taken := expireMeasurand m s }

/-- The grip-confirm timer has expired (R71). -/
def gripEvent (s : State) : InternalEvent :=
  { due := decide (s.lift.state = .empty) && expired s.clock s.lift.gripTimer, taken := confirmGrip s }

/-- The regrip timer has expired (R78). -/
def releaseEvent (s : State) : InternalEvent :=
  { due := decide (s.lift.state = .releasing) && expired s.clock s.lift.regripTimer, taken := endLift .released s }

/-- The tare timer has expired (R67). -/
def tareEvent (s : State) : InternalEvent :=
  { due := decide (s.lift.state = .taring) && expired s.clock s.lift.tareTimer, taken := failTare s }

/-- The alert output's next change in WARN has come (R128). -/
def alertEvent (s : State) : InternalEvent :=
  { due := decide (s.sup.state = .warn) && expired s.clock s.sup.alertNext, taken := alertToggle s }

/-- The 20 ms that a check may take have passed (R149). -/
def checkDue (s : State) : Bool :=
  match s.mgmt.phase with
  | .checking _ started _ => expired s.clock (some (after started 20))
  | .reading _ => false
  | .held _ _ => false

/-- A check completes within 20 ms (R149). -/
def checkEvent (s : State) : InternalEvent := { due := checkDue s, taken := completeCheck s }

/-- A port owes offers (R21): they are made before time passes (notes/assumptions/31.md). -/
def owedEvent (p : PortId) (s : State) : InternalEvent :=
  { due := decide ((s.port p).owed ≠ []), taken := offerOwed p s }

/-- A held reply would not meet NO ROOM (R162). -/
def replyLeaves (s : State) : Bool :=
  match s.mgmt.phase, s.mgmt.requests with
  | .held _ _, r :: _ => decide ((s.port r.port).answer ≠ .noRoom)
  | _, _ => false

/-- A held reply is offered again (R162). -/
def replyEvent (s : State) : InternalEvent := { due := replyLeaves s, taken := offerHeld s }

/-- A request waits for its chain to be performed (R159). -/
def requestEvent (s : State) : InternalEvent :=
  { due := isReading s && !s.mgmt.requests.isEmpty, taken := performRequest s }

/-- The internal events, in the order in which the idle step takes those that are due (DESIGN CHOICE). -/
def internalEvents (s : State) : List InternalEvent :=
  [owedEvent .cab s, owedEvent .crane s, freshnessEvent .f s, freshnessEvent .a s, freshnessEvent .reach s, freshnessEvent .pitch s, freshnessEvent .roll s,
    freshnessEvent .gpress s, gripEvent s, releaseEvent s, tareEvent s, alertEvent s, checkEvent s, replyEvent s,
    requestEvent s]

/-- One millisecond of the clock passes; the clock wraps. -/
def tick (s : State) : State := { s with clock := s.clock + 1 }

/-- The step of an empty queue: nothing while the reset input is asserted, else the first due event, else a millisecond. -/
def idle (s : State) : State :=
  if s.inReset then s
  else
    match (internalEvents s).find? InternalEvent.due with
    | some e => e.taken
    | none => tick s

end Sys2Proof.Machine
end

