-- ==== Sys2Proof/Safety.lean ====
section
/-! DEFINITION. What counts as a safe state of the part: the promises the manual makes about each block's state at all
times, as predicates that every step keeps; and other terms of the claims: the notices raised between two states, the
checks of a table set, and a change of the current sector. -/

namespace Sys2Proof.Machine

/-! ## Link ports and transmit lists -/

/-- A port's list holds at most six entries, and none, with nothing being sent, unless the port is UP; only an entry that
is there is being sent (R2, R3, R7, R16). A receiver is inside a frame only in UP (R2, R3). -/
def PortSafe (p : Port) : Prop :=
  p.list.length ≤ 6 ∧ (p.link ≠ .up → p.list = [] ∧ p.sending = none ∧ p.rx.framing ≠ .inFrame) ∧
    (p.sending.isSome → p.list ≠ [])

/-- No count of a port stands at its limit after a step: the run of 8 has flipped, the 2048th clean symbol has led UP, and
the 256th silent symbol time or the 32nd violation has led DOWN (R3 to R6). -/
def PortSettled (p : Port) : Prop :=
  (p.link ≠ .up → p.invertedRun < 8) ∧ (p.link = .training → p.cleanCount < 2048) ∧
    (p.link ≠ .down → p.lossCount < 256) ∧ (p.link = .up → p.violations.length < 32)

/-- The entries of a list that are whole are good frames, and one that still arrives holds exactly the bytes that the
other port's receiver has taken of the frame it is inside (R16, R17, R19). -/
def EntriesGood (list : List Entry) (from_ : Receiver) : Prop :=
  ∀ e ∈ list, (e.status = .whole → goodAtEnd e.bytes = true) ∧
    (e.status = .arriving → from_.framing = .inFrame ∧ from_.treatment.elim false Treatment.forwards = true ∧
      5 ≤ e.bytes.length ∧ e.bytes = from_.bytes)

/-- Both ports are safe and settled. -/
def LinkSafe (s : State) : Prop := PortSafe s.cab ∧ PortSafe s.crane ∧ PortSettled s.cab ∧ PortSettled s.crane

/-! ## Trace capture and management's two sets -/

/-- The trace buffer holds at most 1024 elements and only whole capture blocks of the configured length; the divider count
stays below the divider; the configuration lies in its ranges (R52, R176, R177, R178). -/
def TraceSafe (s : State) : Prop :=
  elementsOf s.trace.buffer ≤ 1024 ∧ (∀ b ∈ s.trace.buffer, b.length = s.trace.config.block.length) ∧
    1 ≤ s.trace.config.block.length ∧ s.trace.config.block.length ≤ 6 ∧
    s.trace.dividerCount < s.trace.config.divider ∧ s.trace.config.divider ≤ 255 ∧
    1 ≤ s.trace.config.pacing.interval ∧ s.trace.config.pacing.interval ≤ 4096

/-- Only the seventeen conditions and the thirteen notice kinds are ever raised (R170, R172). -/
def SetsSafe (s : State) : Prop := s.conditions.toNat < 131072 ∧ s.notices.toNat < 8192

/-! ## Notices -/

/-- From one state to another exactly these notice kinds were raised (R172, R173): what the cab port gained is good NOTICE
frames at the tail of its list, and a kind is at the end pending or given by one of them just when it was pending before or
was raised. -/
def NoticesRaised (raised : NoticeKind → Prop) (s t : State) : Prop :=
  ∃ sent : List Entry, t.cab = { s.cab with list := s.cab.list ++ sent } ∧
    (∀ e ∈ sent, e.status = .whole ∧ goodAtEnd e.bytes = true ∧ byteAt e.bytes 2 = 0x53) ∧
    ∀ k : NoticeKind, (t.notices.getLsbD k.bit = true ∨ ∃ e ∈ sent, (field16 e.bytes 5).getLsbD k.bit = true) ↔
      (s.notices.getLsbD k.bit = true ∨ raised k)

/-- From one state to another the cab port has gained nothing but NOTICE frames, and every kind that was pending is pending
or given by one of them. -/
def OnlyNoticesSent (s t : State) : Prop := ∃ raised, NoticesRaised raised s t

/-! ## Management -/

/-- The bytes of result records that leave 3 bytes free in a reply (R161). -/
def chainRoom : Nat := 113

/-- The chain of the head request fits in its reply (R161). -/
def ChainSafe (c : Chain) : Prop := c.results.length ≤ chainRoom

/-- The request queue holds at most two requests; a held reply or a running check belongs to the head request; the results
fit in a reply, and a reply that is held is a good frame (R149, R158, R161, R162); the blocks that TRACE READ returns are
those of a safe trace. -/
def ManagementSafe (s : State) : Prop :=
  TraceSafe s ∧ s.mgmt.requests.length ≤ 2 ∧
    match s.mgmt.phase with
    | .reading c => ChainSafe c
    | .checking c _ _ => s.mgmt.requests ≠ [] ∧ s.staging.writable.isSome ∧ c.results.length + 9 ≤ chainRoom
    | .held reply _ => s.mgmt.requests ≠ [] ∧ goodAtEnd reply = true

/-- Every frame in a transmit list that will be sent with END is a good frame (R17). -/
def FramesSafe (s : State) : Prop :=
  LinkSafe s ∧ ManagementSafe s ∧ EntriesGood s.cab.list s.crane.rx ∧ EntriesGood s.crane.list s.cab.rx

/-! ## Reading a chain -/

/-- Management runs and is about to perform the operation with this code and these operands, the next of the chain of the
request at the head of the queue (R159). -/
def NextOperation (s : State) (r : Request) (c : Chain) (code : Byte) (more : Bool) (operands : List Byte) (next : Nat) :
    Prop :=
  s.inReset = false ∧ s.mgmt.phase = .reading c ∧ s.mgmt.requests.head? = some r ∧ 2 ≤ r.payload.length ∧
    readOp r.payload c.offset = .op code more operands next

/-- A result record with so many data bytes leaves 3 of the 116 bytes of result records free (R161). -/
def RoomFor (c : Chain) (dataLength : Nat) : Prop := c.results.length + 3 + dataLength + 3 ≤ 116

/-! ## The table store -/

/-- A set has no more entries than its lists have indices (R145). -/
def SetFits (t : TableSet) : Prop :=
  t.channels.length ≤ 16 ∧ t.tools.length ≤ 8 ∧ t.sectors.length ≤ 12 ∧ t.rows.length ≤ 18 ∧ t.functions.length ≤ 8

/-- A set has passed validation (R148). -/
def SetValid (t : TableSet) : Prop := validate t = none ∧ SetFits t

/-- The STAGING bank holds a validated set where its state says so (R145). -/
def StagingSafe : Staging → Prop
  | .empty => True
  | .loading t => SetFits t
  | .checked t => SetValid t
  | .failed t => SetFits t ∧ validate t ≠ none
  | .previous t => SetValid t

/-- The ACTIVE bank never holds a table set that has not passed validation (R154). -/
def TablesSafe (s : State) : Prop := (∀ t, s.active = some t → SetValid t) ∧ StagingSafe s.staging

/-! ## The checks of a table set (R148, R150 to R153) -/

/-- One check of the manual's tables: when it fails, and the target, index and code it then reports. -/
structure TableCheck where
  fails : Prop
  report : Failure

/-- A value lies outside a range whose ends are included. -/
def Outside (low high value : Int) : Prop := value < low ∨ high < value

/-- The six measurand codes with their ranges (02, "The six measurands"; R174). -/
def measurandRanges : List (Nat × Int × Int) :=
  [(1, 0, 120000), (2, -2000, 2000), (3, 0, 1500), (4, -450, 450), (5, -450, 450), (6, 0, 3500)]

/-- A table check on every entry in index order: it repeats one at a lower index. -/
def repeatChecks {α : Type} (target : Target) (code : Byte) (same : α → α → Prop) (l : List α) : List TableCheck :=
  l.mapIdx fun j e => ⟨∃ d ∈ l.take j, same d e, target, j, code⟩

/-- The entry checks of a table, each entry having all of its own made before the next. -/
def entryChecks {α : Type} (checks : Nat → α → List TableCheck) (l : List α) : List TableCheck := (l.mapIdx checks).flatten

/-- The checks of the channel table (R24, R150). -/
def TableSet.channelChecks (t : TableSet) : List TableCheck :=
  let of_ (e : ChannelEntry) (range : Nat × Int × Int) : Prop := e.measurand.toNat = range.1
  entryChecks (fun i e => [
    ⟨Outside 1 62 e.source.toNat ∨ Outside 0 15 e.slot.toNat ∨ Outside 5 1000 e.timeout.toNat ∨
      (∀ range ∈ measurandRanges, ¬of_ e range) ∨
      ∃ range ∈ measurandRanges, of_ e range ∧
        ∃ value ∈ [e.v0, e.v1, e.low, e.high], Outside range.2.1 range.2.2 value.toInt, .channelEntry, i, 0x11⟩,
    ⟨e.c1 = e.c0, .channelEntry, i, 0x12⟩,
    ⟨e.high.toInt < e.low.toInt, .channelEntry, i, 0x13⟩]) t.channels ++
  repeatChecks .channelEntry 0x14 (fun d e => d.source = e.source ∧ d.slot = e.slot) t.channels ++
  repeatChecks .channelEntry 0x15 (fun d e => d.measurand = e.measurand) t.channels ++
  [1, 3, 4, 5, 6].map fun m => ⟨∀ e ∈ t.channels, e.measurand.toNat ≠ m, .channelEntry, m, 0x16⟩

/-- The checks of the tool table (R57, R151). -/
def TableSet.toolChecks (t : TableSet) : List TableCheck :=
  [⟨t.tools = [], .toolEntry, 0, 0x21⟩] ++
  entryChecks (fun i e => [
    ⟨Outside 0 7 e.toolId.toNat ∨ Outside 0 50000 e.tare.toNat ∨ Outside 1 3500 e.closeThreshold.toNat ∨
      Outside 0 3499 e.openThreshold.toNat ∨ Outside 50 2000 e.gripConfirmTime.toNat ∨
      Outside 100 3000 e.regripTime.toNat ∨ Outside 100 20000 e.liftoffNet.toNat ∨ Outside 5 500 e.accelGate.toNat ∨
      Outside 16 256 e.windowLength.toNat ∨ Outside 1 200 e.tolerance.toNat ∨ Outside 0 2000 e.spreadFloor.toNat ∨
      Outside 1 32 e.gapLimit.toNat, .toolEntry, i, 0x22⟩,
    ⟨e.closeThreshold.toNat ≤ e.openThreshold.toNat, .toolEntry, i, 0x23⟩]) t.tools ++
  repeatChecks .toolEntry 0x24 (fun d e => d.toolId = e.toolId) t.tools

/-- The checks of the capacity table (R113, R151). -/
def TableSet.capacityChecks (t : TableSet) : List TableCheck :=
  [⟨Outside 1 6 t.columnCount.toNat, .capacityHeader, 0, 0x31⟩,
    ⟨t.rows.length ≠ 3 * t.columnCount.toNat, .capacityRow, t.rows.length, 0x32⟩] ++
  entryChecks (fun i r => [
    ⟨∃ c ∈ r.capacities.toList, 30000 < c.toNat, .capacityRow, i, 0x33⟩,
    ⟨∃ k, k < 8 ∧ pointCapacity r k < pointCapacity r (k + 1), .capacityRow, i, 0x34⟩]) t.rows

/-- The checks of the sector table (R46, R47, R152). -/
def TableSet.sectorChecks (t : TableSet) : List TableCheck :=
  let h := t.sectorHeader
  let n := t.sectors.length
  let width (i : Nat) : Nat :=
    if i + 1 < n then t.startOf (i + 1) - t.startOf i else h.cpr.toNat - t.startOf i + t.startOf 0
  [⟨Outside 1024 65535 h.cpr.toNat ∨ h.cpr.toNat ≤ h.indexOffset.toNat ∨ h.cpr.toNat / 8 < h.driftLimit.toNat ∨
      Outside 2 12 h.count.toNat, .sectorHeader, 0, 0x41⟩,
    ⟨n ≠ h.count.toNat, .sectorEntry, n, 0x42⟩] ++
  entryChecks (fun i e => [
    ⟨h.cpr.toNat ≤ e.start.toNat ∨ Outside 1 4 e.kind.toNat ∨ Outside (-1000) 1000 e.cosWeight.toInt ∨
      Outside (-1000) 1000 e.sinWeight.toInt ∨ Outside 0 2 e.towardLesser.toNat, .sectorEntry, i, 0x43⟩,
    ⟨i ≠ 0 ∧ e.start.toNat ≤ t.startOf (i - 1), .sectorEntry, i, 0x44⟩,
    ⟨t.columnCount.toNat ≤ e.column.toNat, .sectorEntry, i, 0x45⟩]) t.sectors ++
  (List.range n).map fun i =>
    ⟨(∀ j, j < n → width i ≤ width j) ∧ (∀ j, j < i → width i < width j) ∧ width i ≤ 2 * h.hysteresis.toNat,
      .sectorEntry, i, 0x46⟩

/-- The checks of the function table (R132, R153). -/
def TableSet.functionChecks (t : TableSet) : List TableCheck :=
  entryChecks (fun i e => [
    ⟨e.role = 0 ∧ (e.sense = 0 ∨ e.effect ≠ 0), .functionEntry, i, 0x51⟩,
    ⟨e.role ≠ 0 ∧ e.sense ≠ 0, .functionEntry, i, 0x52⟩,
    ⟨Outside 0 15 e.functionId.toNat ∨ Outside 0 6 e.role.toNat ∨ Outside 0 2 e.effect.toNat ∨
      Outside 0 2 e.sense.toNat ∨ Outside 100 1000 e.warnScale.toNat, .functionEntry, i, 0x53⟩]) t.functions ++
  repeatChecks .functionEntry 0x54 (fun d e => d.functionId = e.functionId) t.functions

/-- The checks of the machine table (R153). -/
def TableSet.machineChecks (t : TableSet) : List TableCheck :=
  let m := t.machine
  [⟨Outside 500 999 m.warnOn.toNat ∨ m.warnOn.toNat < m.warnOff.toNat ∨ m.limitOff.toNat < m.warnOff.toNat ∨
      999 < m.limitOff.toNat, .machineRecord, 0, 0x61⟩,
    ⟨m.classThreshold2.toNat ≤ m.classThreshold1.toNat, .machineRecord, 0, 0x62⟩,
    ⟨m.bunkLimit.toNat < m.bunkWarn.toNat, .machineRecord, 0, 0x63⟩,
    ⟨Outside 1 31 m.queueThreshold.toNat ∨ Outside 1 2 m.overflowMode.toNat, .machineRecord, 0, 0x64⟩,
    ⟨62 < m.noticeStation.toNat, .machineRecord, 0, 0x65⟩]

/-- All checks of a table set, in the order in which they are made (R148). -/
def TableSet.checks (t : TableSet) : List TableCheck :=
  t.channelChecks ++ t.toolChecks ++ t.capacityChecks ++ t.sectorChecks ++ t.functionChecks ++ t.machineChecks

/-! ## The current sector -/

/-- From one state to another the current sector became this one (R51, R119, R175): nothing happened when it was that
already; else the lift controller noted it and, in an open order (notes/assumptions/11.md), supervision took it and
evaluated, and it was one SECTOR_CHANGE event to trace capture. -/
def SectorBecomes (sector : Option Nat) (s t : State) : Prop :=
  if sector = s.slew.sector then t = s
  else
    let noted : State :=
      { s with slew := { s.slew with sector := sector }, lift := { s.lift with notedSector := sector }, choices := s.choices + 1 }
    let supervised (x : State) : State := evaluate { x with sup := { x.sup with sector := sector } }
    t = clockEvent .sectorChange (supervised noted) ∨ t = supervised (clockEvent .sectorChange noted)

/-! ## Intake and supervision -/

/-- A slot record as a report carries it, with the channel entry it matches and that entry's measurand, if it matches one
(R25, R26). -/
structure SlotReading where
  slot : Byte
  high : Byte
  middle : Byte
  low : Byte
  entry : Option (ChannelEntry × Measurand)

/-- The four bytes of a slot record (R25). -/
def SlotReading.bytes (r : SlotReading) : List Byte := [r.slot, r.high, r.middle, r.low]

/-- The record matches its entry, the one entry of the channel table with the report's station and the record's slot, or
there is none (R26). -/
def SlotReading.MatchesIn (set : TableSet) (source : Byte) (r : SlotReading) : Prop :=
  match r.entry with
  | none => ∀ e ∈ set.channels, ¬(e.source = source ∧ e.slot = r.slot)
  | some (e, m) => e.measurand.toNat = measurandCode m ∧ e.source = source ∧ e.slot = r.slot ∧
      ∃ before behind, set.channels = before ++ e :: behind ∧ ∀ d ∈ before, ¬(d.source = source ∧ d.slot = r.slot)

/-- The record is one of A (R27). -/
def SlotReading.isA (r : SlotReading) : Bool := decide (r.entry.map Prod.snd = some .a)

/-- A measurand's value lies in its range, and a FRESH measurand has a running timer (R22, R23). -/
def RecordSafe (m : Measurand) (r : MeasurandRecord) : Prop :=
  (measurandRange m).1 ≤ r.value ∧ r.value ≤ (measurandRange m).2 ∧ (r.state = .fresh → r.timer.isSome)

/-- Intake's records and the snapshot lie in their ranges (R22, R35). -/
def IntakeSafe (i : Intake) : Prop :=
  (∀ m, RecordSafe m (i.get m)) ∧ i.snapshot.tool ≤ 7 ∧ i.snapshot.assortment ≤ 31

/-- The supervision state follows the service input, the ACTIVE bank and the freshness of F and REACH (R122 to R124). -/
def ModeSafe (s : State) : Prop :=
  (s.sup.state = .bypass ↔ s.sup.service = true) ∧
    (s.sup.state = .unconfigured ↔ s.sup.service = false ∧ s.active = none) ∧
    (s.sup.state = .hold ↔ s.sup.service = false ∧ s.active.isSome ∧ ¬(s.fresh .f = true ∧ s.fresh .reach = true)) ∧
    (s.active = none → s.fresh .f = false ∧ s.fresh .reach = false)

/-- The force history holds at most four values of F, and at least one exactly when F is FRESH (R110). -/
def HistorySafe (s : State) : Prop :=
  s.sup.history.length ≤ 4 ∧ (∀ v ∈ s.sup.history, 0 ≤ v ∧ v ≤ 120000) ∧ (s.sup.history ≠ [] ↔ s.fresh .f = true)

/-- The figures lie in their ranges (R109, R116). -/
def FiguresSafe (s : State) : Prop :=
  s.sup.moment ≤ 13200 ∧ s.sup.utilisation ≤ 1999 ∧ s.sup.capacity ≤ 30000 ∧ -900 ≤ s.sup.tilt ∧ s.sup.tilt ≤ 900

/-- Supervision and the intake it reads are safe, under validated tables. -/
def SupervisionSafe (s : State) : Prop := TablesSafe s ∧ IntakeSafe s.intake ∧ HistorySafe s ∧ FiguresSafe s

/-! ## Slew counter -/

/-- P lies below the modulus (R42); the slew is referenced exactly when the current sector is known, which needs an active
table set and is one of its sectors (R45, R48); the lift controller and supervision have the sector the slew counter has
(R51, R59, R109). -/
def SlewSafe (s : State) : Prop :=
  TablesSafe s ∧ s.slew.p < s.modulus ∧ s.slew.sector.isSome = s.slew.referenced ∧
    (∀ i, s.slew.sector = some i → ∃ t, s.active = some t ∧ i < t.sectors.length) ∧
    s.lift.notedSector = s.slew.sector ∧ s.sup.sector = s.slew.sector

/-! ## Lift controller, lift queue and tally -/

/-- The lift states in which a lift is open (R69). -/
def holdsLift : LiftState → Bool
  | .empty => false
  | .taring => false
  | .gripped => true
  | .lifting => true
  | .weighed => true
  | .releasing => true

/-- A weighing holds 0 ≤ net ≤ gross ≤ 200000 (R75, R88). -/
def WeighingSafe (w : Weighing) : Prop := w.net ≤ w.gross ∧ w.gross ≤ 200000

/-- A lift is open exactly in the four states of a lift; it has a sequence number in LIFTING and WEIGHED; supervision keeps
its fields exactly while it has one; and its figures lie in their ranges (R63, R69, R73, R75, R127). -/
def LiftSafe (s : State) : Prop :=
  s.lift.openLift.isSome = holdsLift s.lift.state ∧
    (s.lift.state = .lifting ∨ s.lift.state = .weighed → (openNumber s).isSome) ∧
    s.sup.tracking = (openNumber s).isSome ∧
    (∀ l w, s.lift.openLift = some l → l.weighing = some w → WeighingSafe w) ∧
    s.lift.window.sum ≤ 200000 * s.lift.window.n ∧ s.lift.lastSampleMass ≤ 200000 ∧
    (∀ r ∈ s.queue.records, ∀ w, r.weighing = some w → WeighingSafe w)

/-- How far a sequence number lies behind the next one, modulo 65536 (R90). -/
def sequenceAge (s : State) (number : BitVec 16) : Nat := (s.queue.nextSequence - number).toNat

/-- The sequence numbers of the queued records, oldest first, and then that of the open lift are distinct and ascend modulo
65536 toward the next sequence number: each lies behind it by less than the one before (R90, R91). -/
def SequenceSafe (s : State) : Prop :=
  List.Pairwise (fun a b => b < a)
    (s.queue.records.map (fun r => sequenceAge s r.sequence) ++ (openNumber s).toList.map (sequenceAge s) ++ [0])

/-- One assortment's figures lie in their ranges (R98). -/
def AssortmentSafe (a : AssortmentTally) : Prop :=
  a.deliveredCount ≤ 65535 ∧ a.deliveredMass ≤ 4294967295 ∧ a.unweighedDelivered ≤ 65535 ∧ a.unloadedCount ≤ 65535 ∧
    a.unloadedMass ≤ 4294967295

/-- The queue holds at most 32 records (R91); the bunk total never exceeds the total delivered (R103); and the bunk class
is the one its total gives, in the tally and in supervision (R104). -/
def AccountSafe (s : State) : Prop :=
  s.queue.records.length ≤ 32 ∧ s.tally.bunkTotal ≤ s.tally.totalDelivered ∧ s.tally.totalDelivered ≤ 4294967295 ∧
    (∀ a ∈ s.tally.assortments.toList, AssortmentSafe a) ∧ s.tally.bunkClass = judgedClass s ∧
    s.sup.bunkClass = s.tally.bunkClass

end Sys2Proof.Machine
end

