-- ==== Sys2Proof/Certificates/Slice0/Obligations.lean ====
section
/-! DEFINITION. The statements for the provers, in the order of the manual's chapters: the machine as a whole, the starts,
the link (01), intake (02), the slew counter (03), the lift controller (04), the account of lifts (05), supervision (06),
the shaper (07), the table store (08), management (09) and trace capture (10). -/

open Sys2Proof Sys2Proof.Machine

/-! ## The machine as a whole -/

/-- A step performs the command at the front of the queue with the queue's rest. With no command waiting, the first
due internal event is taken, and when none is due a millisecond passes; in reset nothing happens (the model's choice,
notes/assumptions/2.md). -/
def Obligations.StepRunsTheFrontCommand : Prop :=
  (∀ (c : Instr) (rest : List Instr) (s : State), s.pending = c :: rest → step s = exec c { s with pending := rest }) ∧
  (∀ s : State, s.pending = [] → s.inReset = true → step s = .next s) ∧
  (∀ (s : State) (e : InternalEvent), s.pending = [] → s.inReset = false →
    (internalEvents s).find? InternalEvent.due = some e → step s = .next e.taken) ∧
  (∀ s : State, s.pending = [] → s.inReset = false → (∀ e ∈ internalEvents s, e.due = false) →
    step s = .next { s with clock := s.clock + 1 })

/-- Every command in every state answers a next state (that none ends in a stop is deduced, notes/assumptions/24.md),
leaves the queue of waiting commands alone, and, unless it is a start, leaves the straps, the station number and the
clock alone (that no command but a start moves the clock is the model's choice, notes/assumptions/2.md); only the
starts and RESET_ASSERTED change whether the part is in reset. -/
def Obligations.EveryCommandAnswersANextState : Prop :=
  ∀ (c : Instr) (s : State), ∃ t, exec c s = .next t ∧ t.pending = s.pending ∧
    ((∀ pins, c ≠ .powerOn pins ∧ c ≠ .resetReleased pins) →
      t.clock = s.clock ∧ t.strapValue = s.strapValue ∧ t.station = s.station ∧
        (c ≠ .resetAsserted → t.inReset = s.inReset))

/-- RESET_ASSERTED turns the alert output on and cuts off a frame being sent (its ABORT leaves next, then IDLE). While
the reset input is asserted the blocks take no events: every command but the starts, the reset input's own and the
transmitters' symbol times changes nothing. That RESET_ASSERTED changes nothing else but that the part is in reset,
and that the state is kept while it is, is deduced (notes/assumptions/7.md). -/
def Obligations.ResetInputHoldsThePart : Prop :=
  (∀ (c : Instr) (s : State), s.inReset = true → (∀ pins, c ≠ .powerOn pins ∧ c ≠ .resetReleased pins) →
    c ≠ .resetAsserted → (∀ port, c ≠ .transmitSymbol port) → exec c s = .next s) ∧
  (∀ s : State, ∃ t, exec .resetAsserted s = .next t ∧ t.inReset = true ∧ t.sup = { s.sup with alert := true } ∧
    t = { s with inReset := true, sup := t.sup, cab := t.cab, crane := t.crane } ∧
    (∀ p : PortId, t.port p =
      { s.port p with sending := none, abortNext := (s.port p).abortNext || (s.port p).sending.isSome }))

/-- The state after reset meets every promise that the invariants below make. -/
def Obligations.ResetMeetsEveryPromise : Prop :=
  FramesSafe State.reset ∧ TablesSafe State.reset ∧ SupervisionSafe State.reset ∧ ModeSafe State.reset ∧
    SlewSafe State.reset ∧ LiftSafe State.reset ∧ AccountSafe State.reset ∧ SequenceSafe State.reset ∧
    TraceSafe State.reset ∧ SetsSafe State.reset

/-! ## The starts -/

/-- POWER_ON and RESET_RELEASED leave the same state, in which every block has its start value, whatever state they
found; the inputs' levels give the station number, the decoder's levels and the supervision state. (That a release
without an assertion before it acts alike is deduced, notes/assumptions/6.md.) -/
def Obligations.StartsGiveEveryBlockItsStartState : Prop :=
  ∀ (pins : InputLevels) (s : State), ∃ t, exec (.powerOn pins) s = .next t ∧ exec (.resetReleased pins) s = .next t ∧
    t.pending = s.pending ∧ t.inReset = false ∧ t.clock = 0 ∧ t.strapValue = pins.straps ∧
    t.station.toNat = (if pins.straps.toNat = 0 ∨ pins.straps.toNat = 63 then 40 else pins.straps.toNat) ∧
    t.cab = {} ∧ t.crane = {} ∧ t.conditions = 0 ∧ t.notices = 0 ∧ t.intake = {} ∧ t.lift = {} ∧ t.tally = {} ∧
    t.queue = { nextSequence := 0, records := [], waitingArm := true } ∧
    t.slew = { levelA := pins.a, levelB := pins.b, levelZ := pins.z, indexHeld := pins.z && pins.a && pins.b } ∧
    t.sup = { state := if pins.service then .bypass else .unconfigured, service := pins.service, alert := !pins.service } ∧
    t.active = none ∧ t.staging = .empty ∧ t.mgmt = {} ∧ t.trace = {}

/-- A warm restart waits for a reply: when the reply held for it can be placed, or meets a port that is not UP, the
restart is performed, by WARM_RESTART_PERFORMED and by HELD_REPLY_OFFER alike (that both rows offer the reply is the
model's choice, notes/assumptions/21.md). It keeps the clock, the station, the tally, both banks, the link ports (with
the reply placed), P, the last drift, the next sequence number and the trace configuration, and gives every other
block its start value; supervision is in BYPASS, HOLD or UNCONFIGURED, with the figures recomputed when a table set is
active. (The present levels of the index and of the service input are those last observed, notes/assumptions/29.md.) -/
def Obligations.WarmRestartKeepsAndClears : Prop :=
  ∀ (s : State) (reply : List Byte) (r : Request), s.inReset = false → s.mgmt.phase = .held reply true →
    s.mgmt.requests.head? = some r → (s.port r.port).answer ≠ .noRoom →
    ∃ t, exec .warmRestartPerformed s = .next t ∧ exec .heldReplyOffer s = .next t ∧
      t.pending = s.pending ∧ t.clock = s.clock ∧ t.inReset = false ∧ t.strapValue = s.strapValue ∧
      t.station = s.station ∧ t.tally = s.tally ∧ t.active = s.active ∧ t.staging = s.staging ∧
      t.cab = (s.offer r.port reply).cab ∧ t.crane = (s.offer r.port reply).crane ∧
      t.intake = {} ∧ t.lift = {} ∧ t.mgmt = {} ∧ t.conditions = 0 ∧ t.notices = 0 ∧
      t.queue = { nextSequence := s.queue.nextSequence, records := [], waitingArm := true } ∧
      t.trace = { config := s.trace.config } ∧
      t.slew = { s.slew with referenced := false, sector := none, lastPace := none,
                             indexHeld := s.slew.levelZ && s.slew.levelA && s.slew.levelB } ∧
      t.sup.state = (if s.sup.service then .bypass else if s.active.isSome then .hold else .unconfigured) ∧
      t.sup.service = s.sup.service ∧ t.sup.history = [] ∧ t.sup.sector = none ∧ t.sup.bunkClass = s.tally.bunkClass ∧
      t.sup.moment = 0 ∧ t.sup.utilisation = 0 ∧ t.sup.tracking = false ∧ t.sup.alert = !s.sup.service ∧
      (match s.active with
        | none => t.sup.tilt = s.sup.tilt ∧ t.sup.capacity = s.sup.capacity
        | some set => t.sup.tilt = 160 ∧ t.sup.capacity = leastCapacity set s.tally.bunkClass 160)

/-! ## The crane link (01) -/

/-- The frame check is the remainder register of the bit-serial CRC-16 with generator x^16+x^12+x^5+1: from 0xFFFF,
the bytes most significant bit first, each bit shifted against the register's top bit, with no final inversion. A
frame passes when the computed value equals its two check bytes, high byte first. -/
def Obligations.CheckIsTheBitSerialCrc : Prop :=
  (∀ bytes : List Byte, check bytes =
    (bytes.flatMap fun b => [b[7], b[6], b[5], b[4], b[3], b[2], b[1], b[0]]).foldl
      (fun (r : BitVec 16) (bit : Bool) => if r.msb ^^ bit then (r <<< 1) ^^^ 0x1021 else r <<< 1) 0xFFFF) ∧
  (∀ (body : List Byte) (hi lo : Byte), 5 ≤ body.length → body.length = 5 + (byteAt body 4).toNat →
    goodAtEnd (body ++ [hi, lo]) = decide (check body = hi ++ lo))

/-- One symbol time of a receiver that is not UP. In DOWN an IDLE leads to TRAINING with the counts at 0, the 8th
INVERTED IDLE in a row flips the polarity, and any other symbol time only ends the run. In TRAINING the three counts
follow the symbol; a run of 8 flips the polarity and restarts the clean count; 2048 clean symbols lead UP with the
receiver DISCARDING and an empty list, where what waits for the list is offered (HeldReplyAndNoticeAreOffered); and
256 symbol times without a valid symbol take the port DOWN (LinkStateCommandsFollowTheCounts). Nothing else of the
part changes. (That a count at its limit acts within the symbol time that brings it there, and not only by its own
command, is notes/assumptions/1.md; that a flip and the loss of signal in one symbol time are taken in this order,
so that the port goes DOWN with the polarity flipped, is the model's choice, notes/assumptions/10.md.) -/
def Obligations.SymbolOutsideUp : Prop :=
  ∀ (p : PortId) (y : LineSymbol) (s : State), s.inReset = false → PortSettled (s.port p) → (s.port p).link ≠ .up →
    let q := s.port p
    (q.link = .down → exec (.receiveSymbol p y) s = .next (s.modPort p fun _ =>
      if y = .idle then { q with link := .training, invertedRun := 0, cleanCount := 0, lossCount := 0 }
      else if y = .invertedIdle ∧ q.invertedRun = 7 then
        { q with polarity := q.polarity.flip, flipped := true, invertedRun := 0 }
      else { q with invertedRun := if y = .invertedIdle then q.invertedRun + 1 else 0 })) ∧
    (q.link = .training →
      let silent := y = .violation ∨ y = .invertedIdle ∨ y = .noSymbol
      let clean := if y = .violation ∨ y = .invertedIdle then 0 else if y = .noSymbol then q.cleanCount else q.cleanCount + 1
      let loss := if silent then q.lossCount + 1 else 0
      let counted : Port :=
        if y = .invertedIdle then
          if q.invertedRun = 7 then
            { q with polarity := q.polarity.flip, flipped := true, invertedRun := 0, cleanCount := 0, lossCount := loss }
          else { q with invertedRun := q.invertedRun + 1, cleanCount := 0, lossCount := loss }
        else { q with invertedRun := 0, cleanCount := clean, lossCount := loss }
      (clean < 2048 → loss < 256 → exec (.receiveSymbol p y) s = .next (s.modPort p fun _ => counted)) ∧
      (clean = 2048 → exec (.receiveSymbol p y) s = .next (settleOffers p (s.modPort p fun _ =>
        { counted with link := .up, lossCount := 0, violations := [], rx := { framing := .discarding }, list := [],
                       sending := none }))) ∧
      (loss = 256 → exec (.receiveSymbol p y) s = .next (goDown p (s.modPort p fun _ => counted))))

/-- POLARITY_FLIP flips the receive polarity when the inverted-idle run has reached 8 outside UP, and LINK_UP leads UP
when the clean count has reached 2048 in TRAINING and offers what waits for the port's list; otherwise each finds
nothing to do. LOSS_OF_SIGNAL with a loss count of 256, and VIOLATION_WINDOW_FULL with 32 violations in UP, take the
port DOWN; with the count below its limit each finds nothing to do. (The model takes each at once within the symbol
time that brings it about, so that as a command it finds nothing left, notes/assumptions/1.md.) Going DOWN raises
LINK_LOST and no other condition, takes the port's list and inbound frame away and its counts to 0, cuts off a frame
being sent, and ends or removes the forwarded copy of the inbound frame on the other port; nothing else changes, but
that entries which leave the two lists are occasions to offer what waits for them, in that order (the own list's is
deduced, notes/assumptions/18.md). -/
def Obligations.LinkStateCommandsFollowTheCounts : Prop :=
  (∀ (p : PortId) (s : State), s.inReset = false →
    (let due := (s.port p).link ≠ .up ∧ 8 ≤ (s.port p).invertedRun;
      (¬due → exec (.polarityFlip p) s = .next s) ∧
      (due → exec (.polarityFlip p) s = .next (s.modPort p fun q =>
        { q with polarity := q.polarity.flip, flipped := true, invertedRun := 0,
                 cleanCount := if q.link = .training then 0 else q.cleanCount }))) ∧
    (let due := (s.port p).link = .training ∧ 2048 ≤ (s.port p).cleanCount;
      (¬due → exec (.linkUp p) s = .next s) ∧
      (due → exec (.linkUp p) s = .next (settleOffers p (s.modPort p fun q =>
        { q with link := .up, violations := [], lossCount := 0, rx := { framing := .discarding }, list := [],
                 sending := none }))))) ∧
  (∀ (p : PortId) (s : State), s.inReset = false →
    (let due := (s.port p).link ≠ .down ∧ 256 ≤ (s.port p).lossCount;
      (¬due → exec (.lossOfSignal p) s = .next s) ∧ (due → exec (.lossOfSignal p) s = .next (goDown p s))) ∧
    (let due := (s.port p).link = .up ∧ 32 ≤ (s.port p).violations.length;
      (¬due → exec (.violationWindowFull p) s = .next s) ∧ (due → exec (.violationWindowFull p) s = .next (goDown p s)))) ∧
  (∀ (p : PortId) (s : State), ∃ t, goDown p s = settleIfLeft p.other s (settleIfLeft p s t) ∧
    t = { s with cab := t.cab, crane := t.crane, conditions := t.conditions } ∧
    t.conditions = s.conditions ||| BitVec.twoPow 32 (Condition.linkLost p).bit ∧
    t.port p.other = finishCopy false (s.port p.other) ∧
    t.port p = { s.port p with link := .down, list := [], sending := none, rx := {}, violations := [], lossCount := 0,
                               invertedRun := 0, abortNext := (s.port p).abortNext || (s.port p).sending.isSome })

/-- A forwarded copy (R16, R19): each further byte of its frame joins the arriving entry; a good END makes the entry
whole; otherwise the entry is removed, or, when its transmission has begun, it stays at the head to be ended with
ABORT. Other entries keep their bytes and their order. -/
def Obligations.ForwardedCopyIsFinished : Prop :=
  ∀ (before behind : List Entry) (bytes : List Byte) (p : Port),
    (∀ e ∈ before ++ behind, e.status ≠ .arriving) → p.list = before ++ { bytes, status := .arriving } :: behind →
    (∀ b, extendCopy b p = { p with list := before ++ { bytes := bytes ++ [b], status := .arriving } :: behind }) ∧
    finishCopy true p = { p with list := before ++ { bytes, status := .whole } :: behind } ∧
    (before = [] → p.sending.isSome → finishCopy false p = { p with list := { bytes, status := .broken } :: behind }) ∧
    (before ≠ [] ∨ p.sending = none → finishCopy false p = { p with list := before ++ behind })

/-- A symbol time in UP. The violation window covers 1024 symbol times: each violation in it grows one symbol time
older, one that comes to be 1024 old leaves, and a VIOLATION or INVERTED IDLE joins; a symbol time without a valid
symbol adds 1 to the loss-of-signal count, and a valid symbol clears it. The 32nd violation in the window and the
256th silent symbol time take the port DOWN (LinkStateCommandsFollowTheCounts). Otherwise the port stays UP with these
two counts, and the framing state follows the table of R10: outside a frame nothing else changes; a byte inside a
frame joins it, and joins the forwarded copy once the header is complete; the other outcomes inside a frame are stated
whole in HeaderDecidesTheTreatment, GoodEndHandsTheFrameOn and BadFrameReachesNoBlock. (That a symbol time which takes
the port DOWN inside a frame drops the frame before it is judged is deduced, notes/assumptions/9.md.) -/
def Obligations.FramingStatesInUp : Prop :=
  ∀ (p : PortId) (y : LineSymbol) (s : State), s.inReset = false → (s.port p).link = .up →
    let q := s.port p
    let rx := q.rx
    let violation := y = .violation ∨ y = .invertedIdle
    let window := (q.violations.map (· + 1)).filter (· < 1024) ++ if violation then [0] else []
    let loss := if violation ∨ y = .noSymbol then q.lossCount + 1 else 0
    let counted : Port := { q with violations := window, lossCount := loss }
    (32 ≤ window.length ∨ 256 ≤ loss → exec (.receiveSymbol p y) s = .next (goDown p (s.modPort p fun _ => counted))) ∧
    (window.length < 32 → loss < 256 →
      (rx.framing = .waiting → exec (.receiveSymbol p y) s =
        .next (s.modPort p fun _ => if y = .startFrame then { counted with rx := { framing := .inFrame } } else counted)) ∧
      (rx.framing = .discarding → exec (.receiveSymbol p y) s =
        .next (s.modPort p fun _ => if y = .idle then { counted with rx := { framing := .waiting } } else counted)) ∧
      (∀ b, rx.framing = .inFrame → y = .data b → rx.bytes.length < 127 → rx.bytes.length ≠ 4 →
        let joined := s.modPort p fun _ => { counted with rx := { rx with bytes := rx.bytes ++ [b] } }
        let forwarded := rx.treatment = some .cutThrough ∨ rx.treatment = some .cutThroughAndSnoop
        exec (.receiveSymbol p y) s = .next (if forwarded then joined.modPort p.other (extendCopy b) else joined)) ∧
      (rx.framing = .inFrame →
        ∃ t, exec (.receiveSymbol p y) s = .next t ∧ (t.port p).link = .up ∧ (t.port p).violations = window ∧
          (t.port p).lossCount = loss ∧
          match y with
          | .startFrame => (t.port p).rx = { framing := .inFrame }
          | .data b =>
            if 127 ≤ rx.bytes.length ∨ (rx.bytes.length = 4 ∧ 120 < b.toNat) then
              (t.port p).rx = { framing := .discarding }
            else (t.port p).rx.framing = .inFrame ∧ (t.port p).rx.bytes = rx.bytes ++ [b]
          | .endFrame => (t.port p).rx = { framing := .waiting }
          | .abortFrame => (t.port p).rx = { framing := .waiting }
          | .idle => (t.port p).rx = { framing := .waiting }
          | _ => (t.port p).rx = { framing := .discarding }))

/-- The 5th byte of a frame decides its treatment from its kind, its arrival port and, for a MANAGEMENT REQUEST, its
destination, and a frame to be forwarded becomes ready for the other port's list, which places it, discards it with
FORWARD_OVERRUN, or, when it is not UP, discards it. -/
def Obligations.HeaderDecidesTheTreatment : Prop :=
  ∀ (p : PortId) (dest source kind flags len : Byte) (s : State), s.inReset = false → (s.port p).link = .up →
    (windowAfter (s.port p).violations false).length < 32 → (s.port p).rx.framing = .inFrame →
    (s.port p).rx.bytes = [dest, source, kind, flags] → len.toNat ≤ 120 →
    let header := [dest, source, kind, flags, len]
    let take := kind = 0x51 ∧ dest = s.station
    let treatment : Treatment :=
      if kind = 0x21 then (if p = .crane then .cutThroughAndSnoop else .cutThrough)
      else if kind = 0x31 then (if p = .cab then .storeAndShape else .cutThrough)
      else if kind = 0x32 then (if p = .cab then .cutThroughAndSnoop else .cutThrough)
      else if take then .take
      else .cutThrough
    let forwarded := ¬(kind = 0x31 ∧ p = .cab) ∧ ¬take
    let out := s.port p.other
    ∃ t, exec (.receiveSymbol p (.data len)) s = .next t ∧
      (t.port p).rx = { framing := .inFrame, bytes := header, treatment := some treatment } ∧
      t = { s with cab := t.cab, crane := t.crane, conditions := t.conditions } ∧
      (t.port p.other).list =
        (if forwarded ∧ out.link = .up ∧ out.list.length < 6 then out.list ++ [{ bytes := header, status := .arriving }]
         else out.list) ∧
      t.conditions =
        (if forwarded ∧ out.link = .up ∧ 6 ≤ out.list.length
         then s.conditions ||| BitVec.twoPow 32 (Condition.forwardOverrun p.other).bit else s.conditions)

/-- The END of a good frame finishes its forwarded copy and hands the frame on as its treatment says: what then
happens is what the reading block's own command does with the payload. -/
def Obligations.GoodEndHandsTheFrameOn : Prop :=
  ∀ (p : PortId) (bytes : List Byte) (treatment : Treatment) (s : State), s.inReset = false → (s.port p).link = .up →
    (windowAfter (s.port p).violations false).length < 32 →
    (s.port p).rx = { framing := .inFrame, bytes, treatment := some treatment } → goodAtEnd bytes = true →
    let source := byteAt bytes 1
    let payload := (bytes.drop 5).take (byteAt bytes 4).toNat
    ∃ u, (u.port p).rx = {} ∧ (u.port p.other) = finishCopy true (s.port p.other) ∧
      u = { s with cab := u.cab, crane := u.crane } ∧ (u.port p).list = (s.port p).list ∧
      exec (.receiveSymbol p .endFrame) s =
        match treatment, p with
        | .cutThrough, _ => .next u
        | .cutThroughAndSnoop, .crane => exec (.sensorReport source payload) u
        | .cutThroughAndSnoop, .cab => exec (.operatorState payload) u
        | .storeAndShape, _ => exec (.shapeValveDemand (byteAt bytes 0) source (byteAt bytes 3) payload) u
        | .take, _ => exec (.takeRequest p source payload) u

/-- A frame found bad raises CHECK_ERROR_SEEN for its port, has its forwarded copy ended or removed, and reaches no
block, and the receiver goes on in the framing state of R10's table: a new START, an END with a wrong length or check,
an ABORT, an IDLE, a violation, an inverted idle, a symbol time without a symbol, a 5th byte above 120 and a 128th
byte. A copy that leaves the other port's list is an occasion to offer what waits for that list; nothing else
changes. -/
def Obligations.BadFrameReachesNoBlock : Prop :=
  ∀ (p : PortId) (y : LineSymbol) (s : State), s.inReset = false → (s.port p).link = .up →
    (windowAfter (s.port p).violations (isViolation y)).length < 32 → lossAfter (s.port p).lossCount y < 256 →
    (s.port p).rx.framing = .inFrame →
    (∀ b, y = .data b → (s.port p).rx.bytes.length = 127 ∨ ((s.port p).rx.bytes.length = 4 ∧ 120 < b.toNat)) →
    (y = .endFrame → goodAtEnd (s.port p).rx.bytes = false) →
    let next : Framing := if y = .startFrame then .inFrame
      else if y = .endFrame ∨ y = .abortFrame ∨ y = .idle then .waiting else .discarding
    ∃ t, exec (.receiveSymbol p y) s = .next (settleIfLeft p.other s t) ∧
      t.conditions = s.conditions ||| BitVec.twoPow 32 (Condition.checkErrorSeen p).bit ∧
      t.port p.other = finishCopy false (s.port p.other) ∧
      t.port p = { s.port p with violations := windowAfter (s.port p).violations (isViolation y),
                                 lossCount := lossAfter (s.port p).lossCount y, rx := { framing := next } } ∧
      t = { s with cab := t.cab, crane := t.crane, conditions := t.conditions }

/-- A whole entry at the head of an UP port's list leaves as START, its bytes in order, END and exactly one IDLE, one
symbol time each, and then it has left the list; a command for this port's transmitter sends each symbol. Nothing is
waiting for the port's list meanwhile. -/
def Obligations.WholeEntryIsSentWhole : Prop :=
  ∀ (p : PortId) (bytes : List Byte) (rest : List Entry) (s : State), s.inReset = false → (s.port p).link = .up →
    (s.port p).abortNext = false → (s.port p).owesIdle = false → (s.port p).sending = none →
    (s.port p).list = { bytes, status := .whole } :: rest → s.notices = 0 → s.mgmt = {} →
    ∃ states : List State, states.length = bytes.length + 3 ∧
      states.map (fun t => (t.port p).lastSent) = .startFrame :: bytes.map .data ++ [.endFrame, .idle] ∧
      List.IsChain (fun a b => exec (.transmitSymbol p) a = .next b) (s :: states) ∧
      (∀ t, states.getLast? = some t → (t.port p).list = rest ∧ (t.port p).sending = none ∧
        (t.port p).owesIdle = false ∧ t = { s with cab := t.cab, crane := t.crane } ∧ t.port p.other = s.port p.other)

/-- One symbol time of a transmitter. One that owes an ABORT sends it, and one that is in reset, not UP, owes its IDLE,
or has an empty list sends IDLE. Else the head entry is sent: START, then its next byte, a cut-through entry's as far
as its frame has arrived, then END when it is whole; one found broken after its transmission began is ended with
ABORT. With END or ABORT the entry leaves the list and what waits for the list is offered, in an open order with frames
that become ready together with it (HeldReplyAndNoticeAreOffered); offers that the port still owes from an earlier
symbol time are made before its next symbol is sent (notes/assumptions/31.md). (A cut-through entry whose next byte has
not arrived leaves the transmitter as it is, notes/assumptions/8.md.) -/
def Obligations.TransmitterSendsAbortOrIdle : Prop :=
  ∀ (p : PortId) (s : State), let q := s.port p
    let next (f : Port → Port) : Host.Outcome State Fault Refusal := .next (s.modPort p f)
    let left (f : Port → Port) : Host.Outcome State Fault Refusal := .next (settleOffers p (s.modPort p f))
    (s.inReset = false → ((offerOwed p s).port p).owed = [] ∧
      exec (.transmitSymbol p) s = exec (.transmitSymbol p) (offerOwed p s)) ∧
    (s.inReset = true ∨ q.owed = [] → q.abortNext = true → exec (.transmitSymbol p) s =
      next fun q => { q with abortNext := false, owesIdle := true, lastSent := .abortFrame }) ∧
    (s.inReset = true ∨ q.owed = [] → q.abortNext = false → s.inReset = true ∨ q.link ≠ .up ∨ q.owesIdle = true ∨ q.list = [] →
      exec (.transmitSymbol p) s = next fun q => { q with owesIdle := false, lastSent := .idle }) ∧
    (∀ (e : Entry) (rest : List Entry), q.owed = [] → q.abortNext = false → s.inReset = false → q.link = .up → q.owesIdle = false →
      q.list = e :: rest →
      (q.sending = none → exec (.transmitSymbol p) s =
        next fun q => { q with sending := some 0, lastSent := .startFrame }) ∧
      (∀ k, q.sending = some k →
        (e.status = .broken → exec (.transmitSymbol p) s =
          left fun q => { q with list := rest, sending := none, owesIdle := true, lastSent := .abortFrame }) ∧
        (∀ b, e.status ≠ .broken → e.bytes[k]? = some b → exec (.transmitSymbol p) s =
          next fun q => { q with sending := some (k + 1), lastSent := .data b }) ∧
        (e.status = .whole → e.bytes.length ≤ k → exec (.transmitSymbol p) s =
          left fun q => { q with list := rest, sending := none, owesIdle := true, lastSent := .endFrame }) ∧
        (e.status = .arriving → e.bytes.length ≤ k → exec (.transmitSymbol p) s = .next s)))

/-- HELD_REPLY_OFFER: a held reply joins its port's list and its request leaves the queue; on a port that is not UP
the reply is discarded and the request leaves the queue; on a full list the reply stays held; with none held there is
nothing to offer. (A reply that announces a warm restart is stated in WarmRestartKeepsAndClears.) NOTICE_ATTEMPT: with
kinds pending, a notice station in the ACTIVE machine table and a place in the cab port's list, a good NOTICE frame of
ten payload bytes joins the list and the pending-notice set is emptied; otherwise nothing is built. Every raise of a
notice kind makes it pending and is itself such an attempt. When an entry has left a port's list, or the port has entered
UP, what waits for the port is offered: the reply held for it, and on the cab port a NOTICE. On a port that is UP these
are made in an open order, and each at once or, so that a frame of the other port that becomes ready together with them
may be placed before them, owed: the port makes the offers that it owes, in their order, before its transmitter's next
symbol (TransmitterSendsAbortOrIdle), or in the next step without a command (notes/assumptions/31.md). On a port that is
not UP they are made at once. -/
def Obligations.HeldReplyAndNoticeAreOffered : Prop :=
  (∀ (s : State), s.inReset = false →
    ((∀ reply restart, s.mgmt.phase ≠ .held reply restart) → exec .heldReplyOffer s = .next s) ∧
    (∀ (reply : List Byte) (restart : Bool) (r : Request) (rest : List Request), s.mgmt.phase = .held reply restart →
      s.mgmt.requests = r :: rest → (s.port r.port).link = .up → 6 ≤ (s.port r.port).list.length →
      exec .heldReplyOffer s = .next s ∧ exec .warmRestartPerformed s = .next s) ∧
    (∀ (reply : List Byte) (r : Request) (rest : List Request), s.mgmt.phase = .held reply false →
      s.mgmt.requests = r :: rest → exec .warmRestartPerformed s = .next s ∧
      ((s.port r.port).link ≠ .up →
        exec .heldReplyOffer s = .next { s with mgmt := { requests := rest, phase := .reading {} } }) ∧
      ((s.port r.port).link = .up → (s.port r.port).list.length < 6 →
        exec .heldReplyOffer s = .next { (s.modPort r.port fun q =>
          { q with list := q.list ++ [{ bytes := reply, status := .whole }] }) with
            mgmt := { requests := rest, phase := .reading {} } }))) ∧
  (∀ s : State, s.inReset = false →
    let station : Byte := match s.active with
      | some t => t.machine.noticeStation
      | none => 0
    if s.notices ≠ 0 ∧ station ≠ 0 ∧ s.cab.link = .up ∧ s.cab.list.length < 6 then
      ∃ (t : State) (frame : List Byte), exec .noticeAttempt s = .next t ∧
        t = { s with notices := 0, cab := { s.cab with list := s.cab.list ++ [{ bytes := frame, status := .whole }] } } ∧
        goodAtEnd frame = true ∧ frame.take 15 =
          [station, s.station, 0x53, 0, 10] ++ bytes16 s.notices ++ [sendByte (supCode s.sup.state)] ++
            send16 s.sup.utilisation ++ [sendByte s.queue.records.length] ++ send32 s.tally.bunkTotal
    else exec .noticeAttempt s = .next s) ∧
  (∀ s : State, s.inReset = false →
    (∀ k : NoticeKind,
      exec .noticeAttempt { s with notices := s.notices ||| BitVec.twoPow 16 k.bit } = .next (s.notify k)) ∧
    (∀ (p : PortId) (offers : List Offer) (o : Offer),
      let held := ∃ reply restart r rest, s.mgmt.phase = .held reply restart ∧ s.mgmt.requests = r :: rest ∧ r.port = p
      makeOffers p [] s = s ∧ makeOffers p (o :: offers) s = makeOffers p offers (makeOffer p o s) ∧
      (held → exec .heldReplyOffer s = .next (makeOffer p .reply s)) ∧ (¬held → makeOffer p .reply s = s) ∧
      exec .noticeAttempt s = .next (makeOffer p .notice s) ∧
      offerOwed p s = makeOffers p (s.port p).owed (s.modPort p fun q => { q with owed := [] }) ∧
      ((offerOwed p s).port p).owed = [] ∧
      (s.pending = [] → (s.port p).owed ≠ [] → p = .cab ∨ s.cab.owed = [] → step s = .next (offerOwed p s))) ∧
    (∀ (p : PortId) (before : State),
      let held := ∃ reply restart r rest, s.mgmt.phase = .held reply restart ∧ s.mgmt.requests = r :: rest ∧ r.port = p
      let waits (o : Offer) : Prop := match o with
        | .reply => held
        | .notice => p = .cab ∧ s.notices ≠ 0
      settleIfLeft p before s =
        (if (s.port p).list.length < (before.port p).list.length then settleOffers p s else s) ∧
      ((∀ o, ¬waits o) → settleOffers p s = s) ∧
      ((s.port p).link ≠ .up → settleOffers p s = makeOffer p .reply s) ∧
      ((s.port p).link = .up → (∃ o, waits o) → ∃ atOnce later : List Offer, (atOnce ++ later).Nodup ∧
        (∀ o, o ∈ atOnce ++ later ↔ waits o) ∧
        settleOffers p s = makeOffers p atOnce
          { (s.modPort p fun q => { q with owed := later }) with choices := s.choices + 2 })))

/-- Every step keeps the link's promise: every frame in a transmit list that is sent to its END is a good frame, the
lists hold at most six entries and none outside UP, no count stands at its limit, and the reply that management holds
is good. -/
def Obligations.EveryStepKeepsFramesSafe : Prop :=
  ∀ s t : State, FramesSafe s → step s = .next t → FramesSafe t

/-! ## Measurand intake and the operator-state snapshot (02) -/

/-- R28: a raw count C gives V0 + (C − C0)·(V1 − V0)/(C1 − C0) with the exact quotient rounded to nearest, ties away
from zero: the rounded quotient is the one integer whose distance from the quotient is below a half, or is a half on
the side away from zero; the line extends past both points. The result is then clamped to the range (R29). -/
def Obligations.ConversionFollowsTheCalibrationLine : Prop :=
  ∀ (e : ChannelEntry) (low high count : Int), e.c1 ≠ e.c0 → low ≤ high →
    let num := (count - e.c0.toInt) * (e.v1.toInt - e.v0.toInt)
    let den := e.c1.toInt - e.c0.toInt
    ∃ q : Int, convert e (low, high) count = max low (min high (e.v0.toInt + q)) ∧
      (2 * (q * den - num)).natAbs ≤ den.natAbs ∧
      ((2 * (q * den - num)).natAbs = den.natAbs → num.natAbs < (q * den).natAbs) ∧
      ((-8388608 ≤ count ∧ count ≤ 8388607 ∧ -120000 ≤ e.v0.toInt ∧ e.v0.toInt ≤ 120000 ∧ -120000 ≤ e.v1.toInt ∧
        e.v1.toInt ≤ 120000) → num.natAbs < 2 ^ 42)

/-- A SENSOR REPORT. While no table set is active nothing changes. Else the whole slot records are judged, those of A
first and then the others, each in payload order, and up to three bytes behind them are ignored. A record that matches
no entry does nothing. A plausible converted value becomes the measurand's value, FRESH, stamped with the clock, with
its timer running for the entry's timeout, and is delivered; an implausible one raises IMPLAUSIBLE. An F sample is
delivered with the last A value accepted from the report. A samples are delivered to nothing that acts on them alone;
REACH, PITCH and ROLL samples make supervision evaluate; a GPRESS sample goes to the lift controller; an F sample
goes to the lift controller, to supervision, whose force history keeps the latest four values and which then
evaluates, and to trace capture, in an open order (a free choice, notes/assumptions/11.md). A delivery changes no
measurand, nothing of the snapshot, the tally, the tables, management, the crane port and the slew counter. -/
def Obligations.SensorReportIsJudged : Prop :=
  (∀ (s : State) (source : Byte) (payload : List Byte), s.inReset = false → s.active = none →
    exec (.sensorReport source payload) s = .next s) ∧
  (∀ (s : State) (source : Byte) (set : TableSet) (records : List SlotReading) (tail : List Byte), s.inReset = false →
    s.active = some set → tail.length < 4 → (∀ r ∈ records, r.MatchesIn set source) →
    let judge (x : State × Option Int) (r : SlotReading) : State × Option Int :=
      match r.entry with
      | none => x
      | some (e, m) =>
        let u := x.1
        let v := convert e (measurandRange m) (r.high ++ r.middle ++ r.low : BitVec 24).toInt
        let accepted : MeasurandRecord :=
          { value := v, state := .fresh, lastAccepted := s.clock,
            timer := some (s.clock + BitVec.ofNat 32 e.timeout.toNat) }
        if e.low.toInt ≤ v ∧ v ≤ e.high.toInt then
          (deliverSample m v x.2 { u with intake := u.intake.set m accepted }, if m = .a then some v else x.2)
        else ({ u with conditions := u.conditions ||| BitVec.twoPow 32 (Condition.implausible m).bit }, x.2)
    exec (.sensorReport source (records.flatMap SlotReading.bytes ++ tail)) s =
      .next ((records.filter (·.isA) ++ records.filter (!·.isA)).foldl judge (s, none)).1) ∧
  (∀ (v : Int) (report : Option Int) (u : State),
    deliverSample .a v report u = u ∧ deliverSample .reach v report u = evaluate u ∧
    deliverSample .pitch v report u = evaluate u ∧ deliverSample .roll v report u = evaluate u ∧
    deliverSample .gpress v report u = liftGpress v u ∧
    (u.sup.history.length ≤ 4 →
      let lift := liftFSample v report
      let sup (x : State) : State := evaluate { x with sup := { x.sup with
        history := (x.sup.history ++ [v]).drop (x.sup.history.length - 3) } }
      let trace := clockEvent (.fSample v)
      let w := { u with choices := u.choices + 1 }
      deliverSample .f v report u ∈ [trace (sup (lift w)), sup (trace (lift w)), trace (lift (sup w)),
        lift (trace (sup w)), sup (lift (trace w)), lift (sup (trace w))]) ∧
    (∀ m, let d := deliverSample m v report u;
      d.intake = u.intake ∧ d.tally = u.tally ∧ d.active = u.active ∧ d.staging = u.staging ∧ d.mgmt = u.mgmt ∧
        d.crane = u.crane ∧ d.slew = u.slew ∧ OnlyNoticesSent u d))

/-- FRESHNESS_EXPIRY of a measurand whose running timer has expired: the measurand is STALE with its value and time
kept and its timer stopped. In TARING, GRIPPED and LIFTING an expiry of F or A clears the window, and one of F the
set-down run too; F also empties the force history. The expiry of F, REACH, PITCH or ROLL makes supervision evaluate,
and that of F or REACH puts a released supervision with an active table set in HOLD. The expiry of GPRESS cancels the
grip-confirm timer in EMPTY, does nothing in TARING, and ends an open lift in EMPTY with its timers stopped: one
without a sequence number is discarded, one with is booked and filed as a record with the outcome ABANDONED, the
release sector and assortment of the last open, or UNKNOWN and the present assortment, and the duration to the expiry.
A command with no expired timer finds nothing to do (deduced, notes/assumptions/3.md). -/
def Obligations.FreshnessExpires : Prop :=
  ∀ (m : Measurand) (s : State), s.inReset = false →
    (expired s.clock (s.intake.get m).timer = false → exec (.freshnessExpiry m) s = .next s) ∧
    (expired s.clock (s.intake.get m).timer = true →
      let u := { s with intake := s.intake.set m { s.intake.get m with state := .stale, timer := none } }
      let windowed := s.lift.state = .taring ∨ s.lift.state = .gripped ∨ s.lift.state = .lifting
      let stopped (c : LiftController) : LiftController :=
        { c with openLift := none, regripTimer := none, gripTimer := none, remembered := none }
      (m = .f → exec (.freshnessExpiry m) s = .next (evaluate { u with
        sup := { s.sup with history := [] },
        lift := if windowed then { s.lift with window := {}, setDownRun := 0 } else s.lift })) ∧
      (m = .a → exec (.freshnessExpiry m) s =
        .next { u with lift := if windowed then { s.lift with window := {} } else s.lift }) ∧
      (m = .reach ∨ m = .pitch ∨ m = .roll → exec (.freshnessExpiry m) s = .next (evaluate u)) ∧
      (m = .f ∨ m = .reach → s.sup.service = false → s.active.isSome →
        ∃ t, exec (.freshnessExpiry m) s = .next t ∧ t.sup.state = .hold) ∧
      (m = .gpress → s.lift.state = .empty →
        exec (.freshnessExpiry m) s = .next { u with lift := { s.lift with gripTimer := none } }) ∧
      (m = .gpress → s.lift.state = .taring → exec (.freshnessExpiry m) s = .next u) ∧
      (∀ l, m = .gpress → holdsLift s.lift.state = true → s.lift.openLift = some l →
        (l.number = none → exec (.freshnessExpiry m) s = .next (enterEmpty { u with lift := stopped s.lift })) ∧
        (∀ sequence generation, l.number = some (sequence, generation) →
          let record : LiftRecord :=
            { sequence, outcome := .abandoned, weighing := l.weighing, tool := l.tool,
              assortment := (match l.opened with
                | some o => o.assortment
                | none => s.intake.snapshot.assortment),
              pickSector := l.pickSector,
              releaseSector := (match l.opened with
                | some o => o.sector
                | none => none),
              generation, sampleCount := l.sampleCount, windowAttempts := l.windowAttempts, regripCount := l.regripCount,
              static := l.static, workingTare := l.workingTare, limitDuring := l.limitDuring, bypassed := l.bypassed,
              peak := l.peak, gripTime := l.gripTime, duration := min 65535 ((s.clock - l.gripTime).toNat / 10) }
          let filed := fileRecord record (book record { u with sup := { s.sup with tracking := false } })
          exec (.freshnessExpiry m) s = .next (enterEmpty { filed with lift := stopped filed.lift }))))

/-- OPERATOR_STATE: a payload of three bytes or more with a tool of 0 to 7 and an assortment of 0 to 31 gives the
snapshot its three fields. A new tool is selected at once in EMPTY and takes the working tare away, and else waits as
the pending tool. A tare request number that differs from the last one then asks for a tare: in EMPTY with a known
selected tool and the grip-confirm timer stopped the lift state becomes TARING with a clear window and the tare timer
running for 5000 ms; otherwise TARE_FAILED is raised and nothing else changes. With the number unset or unchanged no
tare is asked for. Any other payload changes nothing. -/
def Obligations.OperatorStateIsRead : Prop :=
  ∀ (s : State) (tool assortment number : Byte) (more : List Byte), s.inReset = false →
    (exec (.operatorState []) s = .next s ∧ exec (.operatorState [tool]) s = .next s ∧
      exec (.operatorState [tool, assortment]) s = .next s) ∧
    (7 < tool.toNat ∨ 31 < assortment.toNat →
      exec (.operatorState (tool :: assortment :: number :: more)) s = .next s) ∧
    (tool.toNat ≤ 7 → assortment.toNat ≤ 31 →
      let lift : LiftController :=
        if tool.toNat = s.intake.snapshot.tool then s.lift
        else if s.lift.state = .empty then
          { s.lift with selectedTool := tool.toNat, workingTare := none, pendingTool := none }
        else { s.lift with pendingTool := some tool.toNat }
      let u := { s with
        lift := lift,
        intake := { s.intake with snapshot :=
          { tool := tool.toNat, assortment := assortment.toNat, tareNumber := some number } } }
      let ready := lift.state = .empty ∧ lift.gripTimer = none ∧
        ∃ set e, s.active = some set ∧ set.toolOf lift.selectedTool = some e
      (s.intake.snapshot.tareNumber = none ∨ s.intake.snapshot.tareNumber = some number →
        exec (.operatorState (tool :: assortment :: number :: more)) s = .next u) ∧
      (∀ last, s.intake.snapshot.tareNumber = some last → last ≠ number →
        (ready → exec (.operatorState (tool :: assortment :: number :: more)) s =
          .next (clockEvent (.liftEvent .taring) { u with lift := { lift with
            state := .taring, window := {}, tareTimer := some (s.clock + 5000) } })) ∧
        (¬ready → exec (.operatorState (tool :: assortment :: number :: more)) s = .next (u.notify .tareFailed))))

/-! ## The slew counter (03) -/

/-- ENCODER_OBSERVATION without an index that begins. With neither input changed P stays. Both changed is a count
error: P stays, SLEW_COUNT_ERROR is raised, the slew is unreferenced, the sector UNKNOWN and the last pace multiple
none; a sector that was known so becomes UNKNOWN as a sector-change event. One changed input is one count, up when the pair of levels steps forward through (low, low), (high, low),
(high, high), (low, high); P moves by one modulo the modulus, a referenced slew has its sector tracked
(SectorFollowsWithHysteresis), and pacing then tests the new P: a multiple of the interval inside the window, the window wrapping when its start lies above its end
and holding nothing when both lie at or above the modulus (also where it wraps: the model's choice, notes/assumptions/33.md),
is a SLEW_PACE event carrying P and becomes the last pace multiple, unless deglitch is on and it is the last pace
multiple already. A count that changes no sector changes nothing but the slew before pacing; one that changes it is a
sector-change event, which the lift controller notes, supervision evaluates and trace capture takes as SECTOR_CHANGE (in
an open order, notes/assumptions/11.md). (An index that begins is stated in QualifiedIndexSetsThePosition.) -/
def Obligations.EncoderCounts : Prop :=
  ∀ (a b z : Bool) (s : State), s.inReset = false → ¬((z && a && b) = true ∧ s.slew.indexHeld = false) →
    let old := s.slew
    let seen : Slew := { old with levelA := a, levelB := b, levelZ := z, indexHeld := z && a && b }
    let framed (t : State) : Prop :=
      t = { s with slew := t.slew, choices := t.choices, lift := t.lift, sup := t.sup, notices := t.notices, cab := t.cab,
                   conditions := t.conditions, trace := t.trace } ∧
      t.lift = { s.lift with notedSector := t.lift.notedSector, openLift := t.lift.openLift } ∧ OnlyNoticesSent s t
    (a = old.levelA ∧ b = old.levelB → exec (.encoderObservation a b z) s = .next { s with slew := seen }) ∧
    (a ≠ old.levelA ∧ b ≠ old.levelB →
      ∃ t, exec (.encoderObservation a b z) s = .next t ∧ framed t ∧
        t.slew = { seen with referenced := false, sector := none, lastPace := none } ∧
        t.conditions.getLsbD Condition.slewCountError.bit = true ∧
        SectorBecomes none { s with slew := { seen with referenced := false, lastPace := none },
                                    conditions := s.conditions ||| BitVec.twoPow 32 Condition.slewCountError.bit } t ∧
        (old.sector = none → t = { s with slew := t.slew, conditions := t.conditions }) ∧
        (old.sector ≠ none → t.lift.notedSector = none ∧ t.sup.sector = none)) ∧
    ((a ≠ old.levelA ∧ b = old.levelB) ∨ (a = old.levelA ∧ b ≠ old.levelB) →
      let up : Bool := if a = old.levelA then b == a else a != b
      let p := if up then (old.p + 1) % s.modulus else (old.p + s.modulus - 1) % s.modulus
      let pacing := s.trace.config.pacing
      let inside := pacing.windowEnabled = false ∨
        (¬(s.modulus ≤ pacing.windowStart ∧ s.modulus ≤ pacing.windowEnd) ∧
          if pacing.windowStart ≤ pacing.windowEnd then pacing.windowStart ≤ p ∧ p ≤ pacing.windowEnd
          else pacing.windowStart ≤ p ∨ p ≤ pacing.windowEnd)
      ∃ u, framed u ∧ u.slew = { seen with p := p, sector := u.slew.sector } ∧
        SectorBecomes u.slew.sector { s with slew := { seen with p := p } } u ∧
        (old.referenced = false ∨ u.slew.sector = old.sector → u = { s with slew := { seen with p := p } }) ∧
        (p % pacing.interval = 0 ∧ inside ∧ ¬(pacing.deglitch = true ∧ old.lastPace = some p) →
          exec (.encoderObservation a b z) s =
            .next (clockEvent (.slewPace p) { u with slew := { u.slew with lastPace := some p } })) ∧
        (¬(p % pacing.interval = 0 ∧ inside ∧ ¬(pacing.deglitch = true ∧ old.lastPace = some p)) →
          exec (.encoderObservation a b z) s = .next u))

/-- An index condition that begins at an observation without a count: with a table set active P becomes the index
offset, the slew is referenced in the sector of that position, and the drift, wrapped around half the counts of a
revolution, is kept; a drift beyond the limit on a referenced slew raises SLEW_SUSPECT as condition and notice; a sector that so
changes is a sector-change event to the lift controller, to supervision, which evaluates, and to trace capture (in an
open order, notes/assumptions/11.md), and nothing else changes. With none active P becomes 0 and the slew stays as it was. The last pace multiple becomes none. At an observation that also
counts, or is a count error, that is taken first, as the same observation with Z low takes it, and the index then on
what it left: after a count error on an unreferenced slew, with the drift of P as it stood and SLEW_COUNT_ERROR still
raised. -/
def Obligations.QualifiedIndexSetsThePosition : Prop :=
  (∀ (s : State), s.inReset = false → s.slew.levelA = true → s.slew.levelB = true → s.slew.indexHeld = false →
    (s.active = none → exec (.encoderObservation true true true) s =
      .next { s with slew := { s.slew with levelZ := true, indexHeld := true, p := 0, lastPace := none } }) ∧
    (∀ set, s.active = some set → set.sectorHeader.cpr ≠ 0 →
      ∃ (t : State) (drift turns : Int) (raised : NoticeKind → Prop), exec (.encoderObservation true true true) s = .next t ∧
        let cpr : Int := set.sectorHeader.cpr.toNat
        let suspect := s.slew.referenced = true ∧ set.sectorHeader.driftLimit.toNat < drift.natAbs
        let sector := some (set.sectorAt set.sectorHeader.indexOffset.toNat)
        drift = (s.slew.p : Int) - set.sectorHeader.indexOffset.toNat + turns * cpr ∧ -(cpr / 2) ≤ drift ∧
        drift ≤ cpr - cpr / 2 - 1 ∧
        t.slew = { s.slew with levelZ := true, indexHeld := true, p := set.sectorHeader.indexOffset.toNat,
                               referenced := true, lastDrift := drift, lastPace := none, sector := sector } ∧
        t.conditions.getLsbD Condition.slewSuspect.bit =
          (s.conditions.getLsbD Condition.slewSuspect.bit || decide suspect) ∧
        (let marked : State := if suspect then State.notify .slewSuspect
            { s with conditions := s.conditions ||| BitVec.twoPow 32 Condition.slewSuspect.bit } else s;
          SectorBecomes sector { marked with slew := { t.slew with sector := s.slew.sector } } t) ∧
        NoticesRaised raised s t ∧ (raised .slewSuspect ↔ suspect) ∧
        (∀ k : Condition, s.conditions.getLsbD k.bit = true → t.conditions.getLsbD k.bit = true) ∧
        (sector ≠ s.slew.sector → t.lift.notedSector = sector ∧ t.sup.sector = sector))) ∧
  (∀ (s : State), s.inReset = false → s.slew.indexHeld = false →
    ∃ t, exec (.encoderObservation true true false) s = .next t ∧
      exec (.encoderObservation true true true) s = exec (.encoderObservation true true true) t ∧
      t.inReset = false ∧ t.slew.levelA = true ∧ t.slew.levelB = true ∧ t.slew.indexHeld = false ∧ t.active = s.active ∧
      (s.slew.levelA = false ∧ s.slew.levelB = false → t.slew.p = s.slew.p ∧ t.slew.referenced = false ∧
        t.conditions.getLsbD Condition.slewCountError.bit = true))

/-- The sectors of a validated table cover every position: sector i holds the positions from its start to the next
start, and the last sector goes on through 0 to the first start. The current sector follows a count with hysteresis:
an observation that counts on a referenced slew changes it only into the sector of the new position, only when that is
a neighbour (the next or the previous sector of the circle), and only when the position lies at least H counts past
the boundary the two share; in a table of two sectors, past the nearer one. -/
def Obligations.SectorFollowsWithHysteresis : Prop :=
  (∀ (set : TableSet) (p : Nat), SetValid set → p < set.sectorHeader.cpr.toNat →
    let n := set.sectors.length
    let i := set.sectorAt p
    i < n ∧ ((p < set.startOf 0 ∧ i = n - 1) ∨
      (set.startOf i ≤ p ∧ (∀ j, i < j → j < n → p < set.startOf j) ∧ (∀ j, j ≤ i → set.startOf j ≤ p)))) ∧
  (∀ (a b z : Bool) (set : TableSet) (i : Nat) (s : State), s.inReset = false → s.active = some set → SetValid set →
    s.slew.referenced = true → s.slew.sector = some i → i < set.sectors.length → s.slew.p < set.sectorHeader.cpr.toNat →
    ((a ≠ s.slew.levelA ∧ b = s.slew.levelB) ∨ (a = s.slew.levelA ∧ b ≠ s.slew.levelB)) →
    ¬((z && a && b) = true ∧ s.slew.indexHeld = false) →
    ∃ t, exec (.encoderObservation a b z) s = .next t ∧
      let n := set.sectors.length
      let cpr := set.sectorHeader.cpr.toNat
      let j := set.sectorAt t.slew.p
      let fromNext := (t.slew.p + cpr - set.startOf j) % cpr
      let fromPrevious := (set.startOf i + cpr - 1 - t.slew.p) % cpr
      let past := if n = 2 then min fromNext fromPrevious else if j = (i + 1) % n then fromNext else fromPrevious
      t.slew.sector =
        some (if j ≠ i ∧ (j = (i + 1) % n ∨ i = (j + 1) % n) ∧ set.sectorHeader.hysteresis.toNat ≤ past then j else i))

/-- Every step keeps the slew counter's promise: P lies below the modulus, the slew is referenced exactly when its
sector is known, that sector is one of the ACTIVE set's, and the lift controller and supervision hold the same
sector. -/
def Obligations.EveryStepKeepsSlewSafe : Prop :=
  ∀ s t : State, SlewSafe s → step s = .next t → SlewSafe t

/-! ## The lift controller (04) -/

/-- The sample mass is F·1000/geff rounded half up and at most 200000, and there is none when the effective gravity is
below 300. With A configured a sample uses the A value of its own report, else a FRESH A; without either it has no
mass and is unsuitable; it is suitable when it has a mass and A lies inside the accel gate. Without A configured it is
suitable and STATIC. A sample in GRIPPED leaves its mass as the last sample mass and a STATIC sample marks the lift; a
net at or above the liftoff net mass enters LIFTING, which is one LIFT_EVENT to trace capture, where the sample is then processed, and on the first entry the
lift takes the next sequence number and the ACTIVE generation and supervision begins to keep its fields. -/
def Obligations.SampleMassIsFormed : Prop :=
  (∀ force accel : Int, 0 ≤ force → 981 + accel < 300 → massOf force accel = none) ∧
  (∀ force accel : Int, 0 ≤ force → force ≤ 120000 → 300 ≤ 981 + accel →
    ∃ m : Nat, massOf force accel = some m ∧ m ≤ 200000 ∧ 2 * (m : Int) * (981 + accel) ≤ 2000 * force + (981 + accel) ∧
      (m < 200000 → 2000 * force < (2 * (m : Int) + 1) * (981 + accel))) ∧
  (∀ (gate : Nat) (force : Int) (report : Option Int) (s : State),
    (∀ set e, s.active = some set → set.channelOf .a = some e →
      (report = none → s.fresh .a = false →
        sampleOf gate force report s = { mass := none, suitable := false, static := false }) ∧
      (∀ a, report = some a ∨ (report = none ∧ s.fresh .a = true ∧ s.intake.a.value = a) →
        sampleOf gate force report s =
          { mass := massOf force a, suitable := (massOf force a).isSome && decide (a.natAbs ≤ gate), static := false })) ∧
    ((∀ set, s.active = some set → set.channelOf .a = none) →
      sampleOf gate force report s = { mass := massOf force 0, suitable := true, static := true })) ∧
  (∀ (force : Int) (report : Option Int) (s : State) (l : OpenLift) (e : ToolEntry), s.lift.state = .gripped →
    s.lift.openLift = some l → l.snapshot = some e →
    let x := sampleOf e.accelGate.toNat force report s
    let net (m : Nat) : Int := (m : Int) - (l.tareInUse.getD 0 : Nat)
    let sampled := { l with static := l.static || x.static }
    (x.mass = none → liftFSample force report s = { s with lift := { s.lift with openLift := some sampled } }) ∧
    (∀ m, x.mass = some m → net m < (e.liftoffNet.toNat : Int) →
      liftFSample force report s = { s with lift := { s.lift with lastSampleMass := m, openLift := some sampled } }) ∧
    (∀ m, x.mass = some m → (e.liftoffNet.toNat : Int) ≤ net m →
      ∃ t, liftFSample force report s = liftingSample e x t ∧
        t = { s with lift := t.lift, queue := t.queue, sup := t.sup, trace := t.trace, conditions := t.conditions } ∧
        t.lift = { s.lift with state := .lifting, lastSampleMass := m, openLift := t.lift.openLift } ∧
        t = { clockEvent (.liftEvent .lifting) { s with lift := t.lift } with queue := t.queue, sup := t.sup } ∧
        (∀ n, l.number = some n → t.lift.openLift = some sampled ∧ t.queue = s.queue ∧ t.sup = s.sup) ∧
        (l.number = none →
          t.lift.openLift = some { sampled with
            number := some (s.queue.nextSequence, s.activeGeneration), peak := if s.uCurrent then s.sup.utilisation else 0,
            limitDuring := decide (s.sup.state = .limit), bypassed := decide (s.sup.state = .bypass) } ∧
          t.queue = { s.queue with nextSequence := s.queue.nextSequence + 1 } ∧ t.sup = { s.sup with tracking := true })))

/-- A force sample in LIFTING, of a known tool, is formed with the snapshot's accel gate, leaves its mass, if it has
one, as the last sample mass, marks the lift STATIC when it is static, and counts as a sample; a net below the liftoff
net mass adds to the set-down run and one at or above it clears the run; a run at the gap limit sets the load down, and
otherwise a suitable sample joins the window and an unsuitable one lengthens the gap run, which at the gap limit clears
the window. A window that the sample fills is evaluated at once, as WINDOW_EVALUATION does it
(WindowEvaluationInLifting). In EMPTY, WEIGHED and RELEASING, and for an unknown tool's lift, a force sample changes
nothing in the lift controller. GAP_RUN_LIMIT clears the window when its gap run has
reached the gap limit of the tool in use; SET_DOWN returns a lift in LIFTING whose set-down run has reached its
snapshot's gap limit to GRIPPED, with the window and the run cleared, and nothing else changes; below the limit each
finds nothing to do (that the sample's own step has already acted on the limit is notes/assumptions/1.md). -/
def Obligations.SetDownAndTheGapRun : Prop :=
  (∀ (s : State) (l : OpenLift) (e : ToolEntry) (x : Sample), s.lift.state = .lifting → s.lift.openLift = some l →
    l.snapshot = some e → (x.suitable = true → x.mass.isSome) →
    let run := match x.mass with
      | some m => if (m : Int) - (l.tareInUse.getD 0 : Nat) < (e.liftoffNet.toNat : Int) then s.lift.setDownRun + 1 else 0
      | none => s.lift.setDownRun
    let counted := { l with sampleCount := min 65535 (l.sampleCount + 1) }
    let w := s.lift.window
    (e.gapLimit.toNat ≤ run →
      liftingSample e x s = clockEvent (.liftEvent .gripped)
        { s with lift := { s.lift with state := .gripped, window := {}, setDownRun := 0, openLift := some counted } }) ∧
    (run < e.gapLimit.toNat → x.suitable = false → w.gapRun + 1 < e.gapLimit.toNat → w.n ≠ e.windowLength.toNat →
      liftingSample e x s =
        { s with lift := { s.lift with setDownRun := run, openLift := some counted,
                                       window := { w with gapRun := w.gapRun + 1 } } }) ∧
    (run < e.gapLimit.toNat → x.suitable = false → e.gapLimit.toNat ≤ w.gapRun + 1 → e.windowLength ≠ 0 →
      liftingSample e x s =
        { s with lift := { s.lift with setDownRun := run, openLift := some counted, window := {} } }) ∧
    (∀ m, run < e.gapLimit.toNat → x.suitable = true → x.mass = some m →
      let joined : State :=
        { s with lift := { s.lift with setDownRun := run, openLift := some counted, window :=
          { n := w.n + 1, sum := w.sum + m, gapRun := 0,
            least := some (match w.least with | some a => min m a | none => m),
            greatest := some (match w.greatest with | some a => max m a | none => m) } } }
      (w.n + 1 ≠ e.windowLength.toNat → liftingSample e x s = joined) ∧
      (w.n + 1 = e.windowLength.toNat → s.inReset = false →
        exec .windowEvaluation joined = .next (liftingSample e x s)))) ∧
  (∀ (force : Int) (report : Option Int) (s : State),
    (s.lift.state = .empty ∨ s.lift.state = .weighed ∨ s.lift.state = .releasing → liftFSample force report s = s) ∧
    (∀ l, s.lift.state = .gripped ∨ s.lift.state = .lifting → s.lift.openLift = some l → l.snapshot = none →
      liftFSample force report s = s) ∧
    (∀ l e, s.lift.state = .lifting → s.lift.openLift = some l → l.snapshot = some e →
      let x := sampleOf e.accelGate.toNat force report s
      (x.suitable = true → x.mass.isSome) ∧
      liftFSample force report s = liftingSample e x { s with lift := { s.lift with
        lastSampleMass := match x.mass with
          | some m => m
          | none => s.lift.lastSampleMass,
        openLift := some { l with static := l.static || x.static } } })) ∧
  (∀ (s : State), s.inReset = false →
    (windowTool s = none → exec .gapRunLimit s = .next s ∧ exec .setDown s = .next s) ∧
    (∀ e, windowTool s = some e →
      (e.gapLimit.toNat ≤ s.lift.window.gapRun → exec .gapRunLimit s = .next { s with lift := { s.lift with window := {} } }) ∧
      (s.lift.window.gapRun < e.gapLimit.toNat → exec .gapRunLimit s = .next s) ∧
      (s.lift.state ≠ .lifting ∨ s.lift.setDownRun < e.gapLimit.toNat → exec .setDown s = .next s) ∧
      (s.lift.state = .lifting → e.gapLimit.toNat ≤ s.lift.setDownRun →
        exec .setDown s = .next (clockEvent (.liftEvent .gripped)
          { s with lift := { s.lift with state := .gripped, window := {}, setDownRun := 0 } }))))

/-- Grapple pressure. In EMPTY a sample at or above the close threshold starts a stopped grip-confirm timer and leaves
a running one, and one below cancels it; in GRIPPED, LIFTING and WEIGHED one at or below the open threshold opens the
grapple into RELEASING with the details of the release, and one above does nothing; in RELEASING one below the close
threshold does nothing, and one at or above is a regrip, which counts and returns to GRIPPED, whether or not the lift has
a sequence number, and for a lift that has one to LIFTING with its window, or from WEIGHED to LIFTING with the weighing
gone and the window clear. The entry whose thresholds and times serve is, in EMPTY, the selected tool's, and for an open
lift its snapshot; for an unknown tool it is the entry with the lowest tool id of the ACTIVE tool table; with no table
set active a lift without a snapshot, and EMPTY, have none. (That an unknown tool's fallback entry is looked up at each use is deduced, notes/assumptions/17.md.) -/
def Obligations.PressureGripsOpensAndRegrips : Prop :=
  (∀ (s : State) (l : OpenLift),
    (s.active = none → gripParams s = none ∧ liftParams s l = l.snapshot) ∧
    (∀ e, l.snapshot = some e → liftParams s l = some e) ∧
    (∀ set before e behind, s.active = some set → set.tools = before ++ e :: behind →
      (e.toolId.toNat = s.lift.selectedTool → (∀ d ∈ before, d.toolId.toNat ≠ s.lift.selectedTool) →
        gripParams s = some e) ∧
      ((∀ d ∈ before, e.toolId.toNat < d.toolId.toNat) → (∀ d ∈ behind, e.toolId.toNat ≤ d.toolId.toNat) →
        ((∀ d ∈ set.tools, d.toolId.toNat ≠ s.lift.selectedTool) → gripParams s = some e) ∧
        (l.snapshot = none → liftParams s l = some e)))) ∧
  (∀ (v : Int) (s : State) (e : ToolEntry),
    (s.lift.state = .empty → gripParams s = some e →
      liftGpress v s = { s with lift := { s.lift with gripTimer :=
        if v < (e.closeThreshold.toNat : Int) then none
        else match s.lift.gripTimer with
          | some t => some t
          | none => some (s.clock + BitVec.ofNat 32 e.gripConfirmTime.toNat) } }) ∧
    (∀ l, s.lift.openLift = some l → liftParams s l = some e →
      (s.lift.state = .gripped ∨ s.lift.state = .lifting ∨ s.lift.state = .weighed →
        ((e.openThreshold.toNat : Int) < v → liftGpress v s = s) ∧
        (v ≤ (e.openThreshold.toNat : Int) → liftGpress v s = clockEvent (.liftEvent .releasing)
          { s with lift := { s.lift with
              state := .releasing, remembered := some s.lift.state, setDownRun := 0,
              regripTimer := some (s.clock + BitVec.ofNat 32 e.regripTime.toNat),
              openLift := some { l with opened := some {
                sector := s.lift.notedSector, assortment := s.intake.snapshot.assortment, time := s.clock } } } })) ∧
      (s.lift.state = .releasing →
        (v < (e.closeThreshold.toNat : Int) → liftGpress v s = s) ∧
        ((e.closeThreshold.toNat : Int) ≤ v →
          let regripped := { l with regripCount := min 255 (l.regripCount + 1) }
          let stopped := { s.lift with regripTimer := none, remembered := none }
          (s.lift.remembered = some .gripped → liftGpress v s = clockEvent (.liftEvent .gripped)
            { s with lift := { stopped with state := .gripped, openLift := some regripped } }) ∧
          (s.lift.remembered = some .lifting → l.number.isSome → liftGpress v s = clockEvent (.liftEvent .lifting)
            { s with lift := { stopped with state := .lifting, openLift := some regripped } }) ∧
          (s.lift.remembered = some .weighed → l.number.isSome → liftGpress v s = clockEvent (.liftEvent .lifting)
            { s with lift := { stopped with state := .lifting, window := {},
                                            openLift := some { regripped with weighing := none } } })))))

/-- WINDOW_EVALUATION in LIFTING with W samples: the mean is the sum over n rounded half up, and the permitted spread
is the greater of the spread floor and the tolerance share of the mean. Inside the spread the lift is WEIGHED with
gross the mean and net the mean minus the tare in use, at least 0, BELOW_TARE telling that it was cut; outside, the
window is cleared and a window attempt counted. (That the accepted window is kept in WEIGHED is deduced,
notes/assumptions/26.md.) With another count the command finds nothing to do (notes/assumptions/1.md). -/
def Obligations.WindowEvaluationInLifting : Prop :=
  ∀ (s : State) (l : OpenLift) (e : ToolEntry) (lo hi : Nat), s.inReset = false → s.lift.state = .lifting →
    s.lift.openLift = some l → l.snapshot = some e →
    let w := s.lift.window
    (w.n ≠ e.windowLength.toNat → exec .windowEvaluation s = .next s) ∧
    (w.n = e.windowLength.toNat → w.n ≠ 0 → w.least = some lo → w.greatest = some hi → ∃ mean share : Nat,
      (2 * w.n * mean ≤ 2 * w.sum + w.n ∧ 2 * w.sum + w.n < 2 * w.n * (mean + 1)) ∧
      (2000 * share ≤ 2 * (mean * e.tolerance.toNat) + 1000 ∧ 2 * (mean * e.tolerance.toNat) + 1000 < 2000 * (share + 1)) ∧
      let spread := max e.spreadFloor.toNat share
      let tare := match l.tareInUse with
        | some t => t
        | none => 0
      (hi ≤ lo + spread →
        exec .windowEvaluation s = .next (clockEvent (.liftEvent .weighed)
          { s with lift := { s.lift with
              state := .weighed, setDownRun := 0,
              openLift := some { l with
                weighing := some { gross := mean, net := mean - tare, belowTare := decide (mean < tare) } } } })) ∧
      (lo + spread < hi →
        exec .windowEvaluation s = .next { s with lift := { s.lift with
          window := {}, openLift := some { l with windowAttempts := min 255 (l.windowAttempts + 1) } } }))

/-- TARING. A force sample with a suitable mass joins the window as a gross mass, one without lengthens the gap run.
WINDOW_EVALUATION with W samples inside the permitted spread captures the tare: a mean within a fifth of the table
tare becomes the working tare with TARE_DONE, another raises TARE_FAILED; outside the spread the window is cleared and
the tare goes on. TARE_TIMER_EXPIRY of an expired timer raises TARE_FAILED. A GPRESS sample at or above the close
threshold raises it too, and then starts the grip-confirm timer in EMPTY; one below does nothing. Each end goes to
EMPTY with the tare timer stopped; the entry to EMPTY is a lift event and applies a pending tool change, which takes
the working tare away when it names another tool. (The window is cleared by a captured tare and kept by the other
ends, deduced, notes/assumptions/26.md; that a pending tool is applied before the grip-confirm timer starts is deduced,
notes/assumptions/16.md; a timer command before its time, and an evaluation of another count, find
nothing to do, deduced, notes/assumptions/3.md and notes/assumptions/1.md.) -/
def Obligations.TaringEnds : Prop :=
  (∀ (s : State) (e : ToolEntry) (lo hi : Nat), s.inReset = false → s.lift.state = .taring → selectedEntry s = some e →
    let w := s.lift.window
    (w.n ≠ e.windowLength.toNat → exec .windowEvaluation s = .next s) ∧
    (w.n = e.windowLength.toNat → w.n ≠ 0 → w.least = some lo → w.greatest = some hi →
      (lo + w.tolerance e < hi → exec .windowEvaluation s = .next { s with lift := { s.lift with window := {} } }) ∧
      (hi ≤ lo + w.tolerance e →
        let ended (u : State) : State := enterEmpty { u with lift := { u.lift with tareTimer := none, window := {} } }
        let within := w.mean ≤ e.tare.toNat + e.tare.toNat / 5 ∧ e.tare.toNat ≤ w.mean + e.tare.toNat / 5
        (within → exec .windowEvaluation s = .next (ended
          (State.notify .tareDone { s with lift := { s.lift with workingTare := some w.mean } }))) ∧
        (¬within → exec .windowEvaluation s = .next (ended (s.notify .tareFailed))))) ∧
    (let failed : State := enterEmpty (State.notify .tareFailed { s with lift := { s.lift with tareTimer := none } });
      (expired s.clock s.lift.tareTimer = false → exec .tareTimerExpiry s = .next s) ∧
      (expired s.clock s.lift.tareTimer = true → exec .tareTimerExpiry s = .next failed) ∧
      (∀ v : Int, (v < (e.closeThreshold.toNat : Int) → liftGpress v s = s) ∧
        (∀ g, (e.closeThreshold.toNat : Int) ≤ v → gripParams failed = some g →
          liftGpress v s = { failed with lift := { failed.lift with gripTimer :=
            match s.lift.gripTimer with
            | some t => some t
            | none => some (s.clock + BitVec.ofNat 32 g.gripConfirmTime.toNat) } }))) ∧
    (∀ (force : Int) (report : Option Int),
      let x := sampleOf e.accelGate.toNat force report s
      let noted (m : Nat) (next : Window) : State := { s with lift := { s.lift with lastSampleMass := m, window := next } }
      (∀ m, x.mass = some m → x.suitable = true → w.n + 1 ≠ e.windowLength.toNat → e.gapLimit.toNat ≠ 0 →
        liftFSample force report s = noted m
          { n := w.n + 1, sum := w.sum + m, gapRun := 0,
            least := some (match w.least with | some a => min m a | none => m),
            greatest := some (match w.greatest with | some a => max m a | none => m) }) ∧
      (x.suitable = false → w.gapRun + 1 < e.gapLimit.toNat → w.n ≠ e.windowLength.toNat →
        liftFSample force report s = noted (x.mass.getD s.lift.lastSampleMass) { w with gapRun := w.gapRun + 1 }) ∧
      (x.suitable = false → e.gapLimit.toNat ≤ w.gapRun + 1 → e.windowLength.toNat ≠ 0 →
        liftFSample force report s = noted (x.mass.getD s.lift.lastSampleMass) {}) ∧
      (∀ m u, x.mass = some m → x.suitable = true → w.n + 1 = e.windowLength.toNat → e.gapLimit.toNat ≠ 0 →
        u = noted m (w.feed x) → exec .windowEvaluation u = .next (liftFSample force report s)))) ∧
  (∀ u : State, enterEmpty u =
    let t := clockEvent (.liftEvent .empty) { u with lift := { u.lift with state := .empty } }
    match u.lift.pendingTool with
    | none => t
    | some id =>
      if id = u.lift.selectedTool then { t with lift := { t.lift with pendingTool := none } }
      else { t with lift := { t.lift with pendingTool := none, selectedTool := id, workingTare := none } })

/-- GRIP_CONFIRMED with an expired grip-confirm timer in EMPTY opens a lift: a known tool's in GRIPPED, with its entry
as the snapshot and the working tare, or else the table tare, in use; an unknown tool's goes on to LIFTING in the same
event, with the mark unknown, and takes the next sequence number and the ACTIVE generation, and supervision begins to
keep its fields. Each of the two transitions is a LIFT_EVENT to trace capture, GRIPPED's first. With no expired timer in EMPTY the command finds nothing to do (deduced, notes/assumptions/3.md). -/
def Obligations.GripConfirmedOpensALift : Prop :=
  ∀ (s : State), s.inReset = false →
    (s.lift.state ≠ .empty ∨ expired s.clock s.lift.gripTimer = false → exec .gripConfirmed s = .next s) ∧
    (s.lift.state = .empty → expired s.clock s.lift.gripTimer = true →
      let cleared := { s.lift with gripTimer := none, window := {}, setDownRun := 0 }
      (∀ e, selectedEntry s = some e →
        exec .gripConfirmed s = .next (clockEvent (.liftEvent .gripped)
          { s with lift := { cleared with state := .gripped, openLift := some {
              tool := s.lift.selectedTool, snapshot := some e,
              tareInUse := some (match s.lift.workingTare with | some m => m | none => e.tare.toNat),
              workingTare := s.lift.workingTare.isSome, gripTime := s.clock, pickSector := s.lift.notedSector } } })) ∧
      (selectedEntry s = none →
        ∃ t, exec .gripConfirmed s = .next t ∧
          t.lift = { cleared with state := .lifting, openLift := some {
              tool := s.lift.selectedTool, snapshot := none, tareInUse := none, workingTare := false, gripTime := s.clock,
              pickSector := s.lift.notedSector, number := some (s.queue.nextSequence, s.activeGeneration),
              peak := if s.uCurrent then s.sup.utilisation else 0, limitDuring := decide (s.sup.state = .limit),
              bypassed := decide (s.sup.state = .bypass) } } ∧
          t.queue = { s.queue with nextSequence := s.queue.nextSequence + 1 } ∧ t.sup = { s.sup with tracking := true } ∧
          t = { s with lift := t.lift, queue := t.queue, sup := t.sup, trace := t.trace, conditions := t.conditions } ∧
          t = { clockEvent (.liftEvent .lifting) (clockEvent (.liftEvent .gripped) { s with lift := t.lift }) with
            queue := t.queue, sup := t.sup }))

/-- RELEASE with an expired regrip timer in RELEASING ends the lift in EMPTY with its timers stopped. One without a
sequence number is discarded; for one with, supervision stops keeping its fields, and a record with every field it
holds is booked by its outcome and filed: at the tail of the queue, in place of the oldest, or nowhere, as the
overflow mode gives for a full queue, with QUEUE_OVERFLOW raised; a queue that passes above the threshold with the arm
set raises LIFTS_WAITING once. Before its time the command finds nothing to do (deduced, notes/assumptions/3.md). -/
def Obligations.ReleaseHandsTheLiftOver : Prop :=
  (∀ (s : State) (l : OpenLift), s.inReset = false →
    (s.lift.state ≠ .releasing ∨ expired s.clock s.lift.regripTimer = false → exec .release s = .next s) ∧
    (s.lift.state = .releasing → expired s.clock s.lift.regripTimer = true → s.lift.openLift = some l →
      let stopped (c : LiftController) : LiftController :=
        { c with openLift := none, regripTimer := none, gripTimer := none, remembered := none }
      (∃ t, exec .release s = .next t ∧ t.lift.state = .empty ∧ t.lift.openLift = none ∧ t.lift.regripTimer = none ∧
        t.lift.remembered = none ∧ t.intake = s.intake ∧ t.slew = s.slew ∧ t.active = s.active ∧ t.staging = s.staging ∧
        t.mgmt = s.mgmt ∧ t.crane = s.crane ∧ t.queue.nextSequence = s.queue.nextSequence ∧ OnlyNoticesSent s t) ∧
      (l.number = none → exec .release s = .next (enterEmpty { s with lift := stopped s.lift })) ∧
      (∀ sequence generation o, l.number = some (sequence, generation) → l.opened = some o →
        let outcome := decideOutcome s .released l.pickSector o.sector
        let record : LiftRecord :=
          { sequence, outcome, weighing := l.weighing, tool := l.tool, assortment := o.assortment,
            pickSector := l.pickSector, releaseSector := o.sector, generation, sampleCount := l.sampleCount,
            windowAttempts := l.windowAttempts, regripCount := l.regripCount, static := l.static,
            workingTare := l.workingTare, limitDuring := l.limitDuring, bypassed := l.bypassed, peak := l.peak,
            gripTime := l.gripTime, duration := min 65535 ((o.time - l.gripTime).toNat / 10) }
        let filed := fileRecord record (book record { s with sup := { s.sup with tracking := false } })
        exec .release s = .next (enterEmpty { filed with lift := stopped filed.lift })))) ∧
  (∀ (record : LiftRecord) (set : TableSet) (u : State), u.active = some set →
    let held := u.queue.records.length
    (held < 32 →
      let t := { u with queue := { u.queue with records := u.queue.records ++ [record] } }
      (held = set.machine.queueThreshold.toNat ∧ u.queue.waitingArm = true → fileRecord record u =
        State.notify .liftsWaiting { t with queue := { t.queue with waitingArm := false } }) ∧
      (¬(held = set.machine.queueThreshold.toNat ∧ u.queue.waitingArm = true) → fileRecord record u = t)) ∧
    (32 ≤ held → fileRecord record u =
      { u with
        conditions := u.conditions ||| BitVec.twoPow 32 Condition.queueOverflow.bit,
        queue := if set.machine.overflowMode = 2 then u.queue
          else { u.queue with records := u.queue.records.drop 1 ++ [record] } }))

/-- Every step keeps the lift controller's promise: a lift is open exactly in the four states of a lift, has its
sequence number in LIFTING and WEIGHED, supervision keeps its fields exactly while it has one, and every weighing, of
the open lift and of the queued records, holds 0 ≤ net ≤ gross ≤ 200000. Every step keeps the account: at most 32
records are queued, the bunk total never exceeds the total delivered, every figure lies in its range, and the bunk
class is the one the total gives, in the tally and in supervision. Every step keeps the sequence numbers of the queued
records, and then that of the open lift, distinct and ascending modulo 65536 from oldest to newest, as long as the
count has not come round to a number that is still queued. -/
def Obligations.EveryStepKeepsLiftAndAccount : Prop :=
  (∀ s t : State, LiftSafe s → step s = .next t → LiftSafe t) ∧
  (∀ s t : State, AccountSafe s → step s = .next t → AccountSafe t) ∧
  (∀ s t : State, SequenceSafe s → (∀ r ∈ s.queue.records, sequenceAge s r.sequence < 65535) → step s = .next t →
    SequenceSafe t)

/-! ## Lift records, the lift queue and the bunk tally (05) -/

/-- The outcome of a closed lift (R86), a sector being in BUNK when the ACTIVE sector table has an entry of kind BUNK
at its index (R85). -/
def Obligations.OutcomeFollowsTheSectors : Prop :=
  ∀ (s : State) (pick release : Option Nat),
    let bunk (x : Option Nat) : Prop := ∃ set i e, s.active = some set ∧ x = some i ∧
      i < set.sectorHeader.count.toNat ∧ set.sectors[i]? = some e ∧ e.kind = 1
    decideOutcome s .pressureLost pick release = .abandoned ∧
    (release = none → decideOutcome s .released pick release = .unplaced) ∧
    (release ≠ none →
      (¬bunk pick → bunk release → decideOutcome s .released pick release = .delivered) ∧
      (¬bunk pick → ¬bunk release → decideOutcome s .released pick release = .dropped) ∧
      (bunk pick → ¬bunk release → decideOutcome s .released pick release = .unloaded) ∧
      (bunk pick → bunk release → decideOutcome s .released pick release = .shifted))

/-- Booking. Only the record's assortment changes, by count and net, saturating; a DELIVERED net joins the bunk
total and the total delivered, and an UNLOADED net leaves the bunk total, down to 0; an unweighed one of either,
an UNPLACED and an ABANDONED lift set the incomplete flag; DROPPED and SHIFTED book nothing. A changed bunk total
has its class judged, and a class that differs is sent to supervision, which evaluates with it; then each bunk notice whose arm is set and whose
level an increased total is at or above is raised with its arm cleared, while a decreased total sets the arms of
the levels it is below. Nothing else changes. (That BUNK_WARN is raised before BUNK_FULL is notes/assumptions/19.md.) -/
def Obligations.BookingKeepsTheAccount : Prop :=
  ∀ (r : LiftRecord) (set : TableSet) (s : State), s.active = some set → r.assortment < 32 →
    let t := book r s
    let weighedNet := match r.weighing with
      | some w => w.net
      | none => 0
    let weighed := r.weighing.isSome
    let fig (u : State) (i : Nat) : AssortmentTally := u.tally.assortments.toList.getD i {}
    let old := fig s r.assortment
    let level1 := set.machine.bunkWarn.toNat
    let level2 := set.machine.bunkLimit.toNat
    (∀ i, i < 32 → i ≠ r.assortment → fig t i = fig s i) ∧
    fig t r.assortment =
      (if r.outcome = .delivered then
        if weighed then { old with deliveredCount := min 65535 (old.deliveredCount + 1),
                                   deliveredMass := min 4294967295 (old.deliveredMass + weighedNet) }
        else { old with unweighedDelivered := min 65535 (old.unweighedDelivered + 1) }
      else if r.outcome = .unloaded then
        if weighed then { old with unloadedCount := min 65535 (old.unloadedCount + 1),
                                   unloadedMass := min 4294967295 (old.unloadedMass + weighedNet) }
        else { old with unloadedCount := min 65535 (old.unloadedCount + 1) }
      else old) ∧
    t.tally.bunkTotal =
      (if r.outcome = .delivered ∧ weighed then min 4294967295 (s.tally.bunkTotal + weighedNet)
      else if r.outcome = .unloaded ∧ weighed then s.tally.bunkTotal - weighedNet else s.tally.bunkTotal) ∧
    t.tally.totalDelivered =
      (if r.outcome = .delivered ∧ weighed then min 4294967295 (s.tally.totalDelivered + weighedNet)
      else s.tally.totalDelivered) ∧
    t.tally.incomplete =
      (s.tally.incomplete || decide (r.outcome = .unplaced ∨ r.outcome = .abandoned ∨
        ((r.outcome = .delivered ∨ r.outcome = .unloaded) ∧ weighed = false))) ∧
    (t.tally.bunkTotal ≠ s.tally.bunkTotal →
      (t.tally.bunkClass = if t.tally.bunkTotal < set.machine.classThreshold1.toNat then 0
        else if t.tally.bunkTotal < set.machine.classThreshold2.toNat then 1 else 2) ∧
      (t.tally.bunkClass ≠ s.tally.bunkClass → t.sup.bunkClass = t.tally.bunkClass) ∧
      (let increased := s.tally.bunkTotal < t.tally.bunkTotal;
        let booked : State := { s with tally := { t.tally with warnArm := s.tally.warnArm, fullArm := s.tally.fullArm } };
        let judged := if t.tally.bunkClass = s.tally.bunkClass then booked
          else evaluate { booked with sup := { s.sup with bunkClass := t.tally.bunkClass } };
        let kinds : List NoticeKind :=
          (if increased ∧ s.tally.warnArm = true ∧ level1 ≤ t.tally.bunkTotal then [.bunkWarn] else []) ++
            (if increased ∧ s.tally.fullArm = true ∧ level2 ≤ t.tally.bunkTotal then [.bunkFull] else []);
        t = kinds.foldl (fun u k => State.notify k u) { judged with tally := t.tally })) ∧
    (s.tally.bunkTotal < t.tally.bunkTotal →
      t.tally.warnArm = (s.tally.warnArm && decide (t.tally.bunkTotal < level1)) ∧
      t.tally.fullArm = (s.tally.fullArm && decide (t.tally.bunkTotal < level2))) ∧
    (t.tally.bunkTotal < s.tally.bunkTotal →
      t.tally.warnArm = (s.tally.warnArm || decide (t.tally.bunkTotal < level1)) ∧
      t.tally.fullArm = (s.tally.fullArm || decide (t.tally.bunkTotal < level2))) ∧
    (t.tally.bunkTotal = s.tally.bunkTotal → t = { s with tally := t.tally } ∧
      t.tally.bunkClass = s.tally.bunkClass ∧ t.tally.warnArm = s.tally.warnArm ∧ t.tally.fullArm = s.tally.fullArm) ∧
    t = { s with tally := t.tally, sup := t.sup, lift := t.lift, notices := t.notices, cab := t.cab,
                 conditions := t.conditions, trace := t.trace } ∧
    (∃ raised, NoticesRaised raised s t ∧
      (raised .bunkWarn ↔ s.tally.bunkTotal < t.tally.bunkTotal ∧ s.tally.warnArm = true ∧ level1 ≤ t.tally.bunkTotal) ∧
      (raised .bunkFull ↔ s.tally.bunkTotal < t.tally.bunkTotal ∧ s.tally.fullArm = true ∧ level2 ≤ t.tally.bunkTotal))

/-! ## Load-moment supervision (06) -/

/-- The figures. The effective force is the mean of one to four values and the moment is force times reach over 10000,
each rounded half up, the moment at most 13200. In a row whose capacities do not rise, the capacity between two tilt
points is the greatest integer on or below the straight line between them, and beyond the outer points it is that
point's. The utilisation is the least whole per-mille that is not below the moment's share of the capacity, at most
1999. -/
def Obligations.FiguresOfTheLoadMoment : Prop :=
  (∀ history : List Int, history ≠ [] → (∀ v ∈ history, 0 ≤ v) →
    2 * (history.length : Int) * effectiveForce history ≤ 2 * history.sum + history.length ∧
    2 * history.sum + (history.length : Int) < 2 * history.length * (effectiveForce history + 1)) ∧
  (∀ force reach : Nat, momentOf force reach ≤ 13200 ∧ 20000 * momentOf force reach ≤ 2 * (force * reach) + 10000 ∧
    (momentOf force reach < 13200 → 2 * (force * reach) + 10000 < 20000 * (momentOf force reach + 1))) ∧
  (∀ (row : CapacityRow) (tilt : Int), nonIncreasing row.capacities.toList = true →
    let at_ (k : Nat) : Int := (row.capacities.toList.getD k 0).toNat
    (tilt ≤ -160 → (rowCapacity row tilt : Int) = at_ 0) ∧ (160 ≤ tilt → (rowCapacity row tilt : Int) = at_ 8) ∧
    (∀ k : Nat, k < 8 → -160 + 40 * (k : Int) ≤ tilt → tilt < -160 + 40 * ((k : Int) + 1) →
      let line := 40 * at_ k - (at_ k - at_ (k + 1)) * (tilt - (-160 + 40 * (k : Int)))
      at_ (k + 1) ≤ rowCapacity row tilt ∧ (rowCapacity row tilt : Int) ≤ at_ k ∧
        40 * (rowCapacity row tilt : Int) ≤ line ∧ line < 40 * ((rowCapacity row tilt : Int) + 1))) ∧
  (∀ moment capacity : Nat, let u := utilisationOf moment capacity;
    u ≤ 1999 ∧ (capacity = 0 → u = if moment = 0 then 0 else 1999) ∧
    (0 < capacity → (u < 1999 → 1000 * moment ≤ u * capacity) ∧ (0 < u → (u - 1) * capacity < 1000 * moment)))

/-- An evaluation computes the figures first. With a table set active the tilt is 160 while PITCH or ROLL is STALE,
else the sum of their magnitudes in an UNKNOWN sector, else their weighted share rounded to nearest, ties away from
zero; the capacity is the sector's row at that tilt, or the least over the columns; a tilt above 160 raises TILT_HIGH;
and moment and utilisation follow when F and REACH are FRESH and are kept when not. With none active the four figures
are kept. -/
def Obligations.EvaluationComputesTheFigures : Prop :=
  ∀ s : State, let t := evaluate s;
    (s.active = none → t.sup.tilt = s.sup.tilt ∧ t.sup.capacity = s.sup.capacity ∧ t.sup.moment = s.sup.moment ∧
      t.sup.utilisation = s.sup.utilisation) ∧
    (∀ set, s.active = some set →
      (s.fresh .pitch = false ∨ s.fresh .roll = false → t.sup.tilt = 160) ∧
      (s.fresh .pitch = true → s.fresh .roll = true → sectorInUse set s.sup.sector = none →
        t.sup.tilt = (s.intake.pitch.value.natAbs : Int) + s.intake.roll.value.natAbs) ∧
      (∀ e, s.fresh .pitch = true → s.fresh .roll = true → sectorInUse set s.sup.sector = some e →
        let sum := s.intake.pitch.value * e.cosWeight.toInt + s.intake.roll.value * e.sinWeight.toInt
        (2 * (1000 * t.sup.tilt - sum)).natAbs ≤ 1000 ∧
          ((2 * (1000 * t.sup.tilt - sum)).natAbs = 1000 → sum.natAbs < (1000 * t.sup.tilt).natAbs)) ∧
      (∀ e, sectorInUse set s.sup.sector = some e →
        t.sup.capacity = rowCapacity (set.rows.getD (e.column.toNat * 3 + s.sup.bunkClass) {}) t.sup.tilt) ∧
      (sectorInUse set s.sup.sector = none → 1 ≤ set.columnCount.toNat →
        (∃ c, c < set.columnCount.toNat ∧
          t.sup.capacity = rowCapacity (set.rows.getD (c * 3 + s.sup.bunkClass) {}) t.sup.tilt) ∧
        (∀ c, c < set.columnCount.toNat →
          t.sup.capacity ≤ rowCapacity (set.rows.getD (c * 3 + s.sup.bunkClass) {}) t.sup.tilt)) ∧
      t.conditions.getLsbD Condition.tiltHigh.bit =
        (s.conditions.getLsbD Condition.tiltHigh.bit || decide (160 < t.sup.tilt)) ∧
      (s.fresh .f = true → s.fresh .reach = true →
        t.sup.moment = momentOf (effectiveForce s.sup.history) s.intake.reach.value.toNat ∧
        t.sup.utilisation = utilisationOf t.sup.moment t.sup.capacity) ∧
      (s.fresh .f = false ∨ s.fresh .reach = false →
        t.sup.moment = s.sup.moment ∧ t.sup.utilisation = s.sup.utilisation))

/-- The state an evaluation leaves with a validated table set active, the service input released and F and REACH
FRESH: from NORMAL, WARN and LIMIT with hysteresis, and from HOLD, UNCONFIGURED and BYPASS from U alone. -/
def Obligations.StateFollowsTheUtilisation : Prop :=
  ∀ (set : TableSet) (s : State), s.active = some set → SetValid set → s.sup.service = false → s.fresh .f = true →
    s.fresh .reach = true →
    let now := (evaluate s).sup.state
    let u := (evaluate s).sup.utilisation
    let warnOn := set.machine.warnOn.toNat
    let warnOff := set.machine.warnOff.toNat
    let limitOff := set.machine.limitOff.toNat
    match s.sup.state with
    | .warn => (now = .limit ↔ 1000 ≤ u) ∧ (now = .warn ↔ warnOff ≤ u ∧ u ≤ 999) ∧ (now = .normal ↔ u < warnOff)
    | .limit => (now = .limit ↔ limitOff ≤ u) ∧ (now = .warn ↔ warnOff ≤ u ∧ u < limitOff) ∧ (now = .normal ↔ u < warnOff)
    | _ => (now = .limit ↔ 1000 ≤ u) ∧ (now = .warn ↔ warnOn ≤ u ∧ u ≤ 999) ∧ (now = .normal ↔ u < warnOn)

/-- An evaluation is this: with the figures computed (EvaluationComputesTheFigures), and TILT_HIGH raised by a tilt
above 160, the state is decided, from the service input, the ACTIVE bank, the freshness of F and REACH, and U with the
hysteresis of the state before; a changed state takes its effects; and at last, while tracking is on and U is current,
the open lift's peak is brought up to U. A change of supervision state raises exactly the notices of the state left and the state entered, each raise being
an attempt to send with the new state and U (that the state left's comes first is notes/assumptions/19.md), gives the alert
output the level of the new state, on at once in WARN with the next change 200 ms on, and sets an open lift's flags in
LIMIT and BYPASS while tracking is on; it is one SUP_CHANGE event to trace capture; an evaluation that finds the same
state changes none of these. -/
def Obligations.ChangeOfSupervisionState : Prop :=
  ∀ (now : SupState) (s : State),
    (now = s.sup.state → changeState now s = s) ∧
    (now ≠ s.sup.state →
      let before := s.sup.state
      let t := changeState now s
      let left : List NoticeKind := match before with
        | .limit => [.limitLeft]
        | .hold => [.holdLeft]
        | .bypass => [.bypassOff]
        | _ => []
      let entered : List NoticeKind := match now with
        | .limit => [.limitEntered]
        | .hold => [.holdEntered]
        | .bypass => [.bypassOn]
        | _ => []
      let noticed := (left ++ entered).foldl (fun u k => State.notify k u) { s with sup := { s.sup with state := now } }
      t.sup = { s.sup with
        state := now,
        alert := decide (now = .unconfigured ∨ now = .limit ∨ now = .hold ∨ now = .warn),
        alertNext := if now = .warn then some (s.clock + 200) else none } ∧
      t = { s with sup := t.sup, lift := t.lift, notices := noticed.notices, cab := noticed.cab, trace := t.trace,
                   conditions := t.conditions } ∧
      t.trace = (clockEvent (.supChange now) { s with sup := t.sup, lift := t.lift }).trace ∧
      t.conditions = (clockEvent (.supChange now) { s with sup := t.sup, lift := t.lift }).conditions ∧
      (s.sup.tracking = false → t.lift = s.lift) ∧
      (∀ l, s.sup.tracking = true → s.lift.openLift = some l →
        t.lift = { s.lift with openLift := some { l with
          limitDuring := l.limitDuring || decide (now = .limit), bypassed := l.bypassed || decide (now = .bypass) } })) ∧
  (∀ s : State, ∃ figured : State,
    let sup := (evaluate s).sup
    let current : Prop := s.active.isSome ∧ s.fresh .f = true ∧ s.fresh .reach = true
    figured = { s with
      sup := { s.sup with tilt := sup.tilt, capacity := sup.capacity, moment := sup.moment, utilisation := sup.utilisation },
      conditions := if s.active.isSome ∧ 160 < sup.tilt then s.conditions ||| BitVec.twoPow 32 Condition.tiltHigh.bit
        else s.conditions } ∧
    let decided : SupState :=
      if s.sup.service = true then .bypass
      else
        match s.active with
        | none => .unconfigured
        | some set =>
          if s.fresh .f = true ∧ s.fresh .reach = true then
            let limitLevel := if s.sup.state = .limit then set.machine.limitOff.toNat else 1000
            let warnLevel := if s.sup.state = .limit ∨ s.sup.state = .warn then set.machine.warnOff.toNat
              else set.machine.warnOn.toNat
            if limitLevel ≤ sup.utilisation then .limit else if warnLevel ≤ sup.utilisation then .warn else .normal
          else .hold
    let changed := changeState decided figured
    (s.sup.tracking = true ∧ current → evaluate s = { changed with lift := { changed.lift with
      openLift := changed.lift.openLift.map fun l => { l with peak := max l.peak sup.utilisation } } }) ∧
    (¬(s.sup.tracking = true ∧ current) → evaluate s = changed))

/-- SERVICE_INPUT_CHANGE to a new level is an evaluation with that level (what that is stands in
EvaluationComputesTheFigures and ChangeOfSupervisionState): asserted gives BYPASS, and released gives UNCONFIGURED, HOLD
or a state decided from the utilisation alone, which is computed afresh; the notices BYPASS_ON and BYPASS_OFF follow and
the alert output takes the new state's level, in WARN on with the next change 200 ms on. The same level changes nothing. ALERT_FLASH_TOGGLE in WARN at the time of the next change turns the
alert output over and sets the next change 200 ms on; outside WARN and before that time it finds nothing to do
(deduced, notes/assumptions/3.md). -/
def Obligations.ServiceInputAndAlert : Prop :=
  ∀ (level : Bool) (s : State), s.inReset = false →
    (level = s.sup.service → exec (.serviceInputChange level) s = .next s) ∧
    (level ≠ s.sup.service → exec (.serviceInputChange level) s =
      .next (evaluate { s with sup := { s.sup with service := level } })) ∧
    (level ≠ s.sup.service → ModeSafe s →
      ∃ t, exec (.serviceInputChange level) s = .next t ∧ t.sup.service = level ∧
        t = { s with sup := t.sup, conditions := t.conditions, notices := t.notices, cab := t.cab, lift := t.lift,
                     trace := t.trace } ∧
        (∃ raised, NoticesRaised raised s t ∧ (raised .bypassOn ↔ level = true) ∧ (raised .bypassOff ↔ level = false) ∧
          (raised .holdEntered ↔ t.sup.state = .hold) ∧ (raised .limitEntered ↔ t.sup.state = .limit)) ∧
        t.lift = { s.lift with openLift := t.lift.openLift } ∧
        t.sup.history = s.sup.history ∧ t.sup.sector = s.sup.sector ∧ t.sup.bunkClass = s.sup.bunkClass ∧
        t.sup.tracking = s.sup.tracking ∧
        t.sup.alert = decide (t.sup.state = .unconfigured ∨ t.sup.state = .limit ∨ t.sup.state = .hold ∨
          t.sup.state = .warn) ∧
        t.sup.alertNext = (if t.sup.state = .warn then some (s.clock + 200) else none) ∧
        (s.active.isSome ∧ s.fresh .f = true ∧ s.fresh .reach = true →
          t.sup.moment = momentOf (effectiveForce s.sup.history) s.intake.reach.value.toNat ∧
          t.sup.utilisation = utilisationOf t.sup.moment t.sup.capacity) ∧
        (¬(s.active.isSome ∧ s.fresh .f = true ∧ s.fresh .reach = true) →
          t.sup.moment = s.sup.moment ∧ t.sup.utilisation = s.sup.utilisation) ∧
        (level = true → t.sup.state = .bypass ∧ t.sup.alert = false) ∧
        (level = false →
          (s.active = none → t.sup.state = .unconfigured ∧ t.sup.alert = true) ∧
          (∀ set, s.active = some set → s.fresh .f = false ∨ s.fresh .reach = false →
            t.sup.state = .hold ∧ t.sup.alert = true) ∧
          (∀ set, s.active = some set → s.fresh .f = true → s.fresh .reach = true →
            t.sup.state = if 1000 ≤ t.sup.utilisation then .limit
              else if set.machine.warnOn.toNat ≤ t.sup.utilisation then .warn else .normal))) ∧
    (s.sup.state ≠ .warn ∨ expired s.clock s.sup.alertNext = false → exec .alertFlashToggle s = .next s) ∧
    (∀ due, s.sup.state = .warn → s.sup.alertNext = some due → expired s.clock (some due) = true →
      exec .alertFlashToggle s =
        .next { s with sup := { s.sup with alert := !s.sup.alert, alertNext := some (due + 200) } })

/-- Every step keeps supervision's promise, under validated tables: the measurands lie in their ranges and a FRESH one
has a running timer, the force history holds one to four values of F exactly while F is FRESH, and the figures lie in
their ranges. Every step keeps the mode: BYPASS exactly while the service input is asserted, UNCONFIGURED exactly
while it is released with no table set active, and HOLD exactly while it is released with a set active and F or REACH
STALE. -/
def Obligations.EveryStepKeepsFiguresAndMode : Prop :=
  (∀ s t : State, SupervisionSafe s → step s = .next t → SupervisionSafe t) ∧
  (∀ s t : State, ModeSafe s → step s = .next t → ModeSafe t)

/-! ## The demand shaper (07) -/

/-- The class of a demand: a clamped demand of 0 is neutral; every other is moment-increasing with no table set
active, and neutral for a function without an entry; a SLEW entry's follows from the direction it asks for and the
toward-lesser field of the sector in use, moment-increasing in an UNKNOWN sector; any other entry's follows from its
positive effect and the demand's sign. -/
def Obligations.ClassOfADemand : Prop :=
  ∀ (s : State) (function : Byte) (d : Int),
    classify s function 0 = .neutral ∧ (d ≠ 0 → s.active = none → classify s function d = .increasing) ∧
    (∀ set, s.active = some set →
      ((∀ e ∈ set.functions, e.functionId ≠ function) → classify s function d = .neutral) ∧
      (∀ e, set.functionOf function = some e → d ≠ 0 →
        (e.role.toNat ≠ 0 →
          (e.effect.toNat = 1 → classify s function d = if 0 < d then .increasing else .decreasing) ∧
          (e.effect.toNat = 2 → classify s function d = if 0 < d then .decreasing else .increasing) ∧
          (e.effect.toNat = 0 → classify s function d = .neutral)) ∧
        (e.role.toNat = 0 → e.sense.toNat = 1 ∨ e.sense.toNat = 2 →
          (sectorInUse set s.sup.sector = none → classify s function d = .increasing) ∧
          (∀ x, sectorInUse set s.sup.sector = some x →
            (x.towardLesser.toNat = 0 → classify s function d = .neutral) ∧
            (x.towardLesser.toNat = 1 ∨ x.towardLesser.toNat = 2 →
              (0 < d → classify s function d = if e.sense = x.towardLesser then .increasing else .decreasing) ∧
              (d < 0 → classify s function d = if e.sense = x.towardLesser then .decreasing else .increasing))))))

/-- Shaping never strengthens a demand: what is forwarded is zero or has the received sign, and its magnitude is at
most the received one and at most 1000. A demand that is not moment-increasing passes as clamped; a moment-increasing
one passes as clamped in NORMAL and BYPASS, is scaled by the warn scale and truncated toward zero in WARN, and is 0 in
LIMIT, HOLD and UNCONFIGURED. -/
def Obligations.ShapingNeverStrengthensADemand : Prop :=
  ∀ (s : State) (function : Byte) (received : Int), (∀ set, s.active = some set → SetValid set) →
    let out := shapeDemand s function received
    let clamped := max (-1000) (min 1000 received)
    (0 ≤ received → 0 ≤ out ∧ out ≤ received ∧ out ≤ 1000) ∧ (received ≤ 0 → received ≤ out ∧ out ≤ 0 ∧ -1000 ≤ out) ∧
    (classify s function clamped ≠ .increasing → out = clamped) ∧
    (classify s function clamped = .increasing →
      (s.sup.state = .normal ∨ s.sup.state = .bypass → out = clamped) ∧
      (s.sup.state = .limit ∨ s.sup.state = .hold ∨ s.sup.state = .unconfigured → out = 0) ∧
      (∀ set e, s.sup.state = .warn → s.active = some set → set.functionOf function = some e →
        (1000 * out).natAbs ≤ (clamped * e.warnScale.toNat).natAbs ∧
        (clamped * e.warnScale.toNat).natAbs < (1000 * out).natAbs + 1000))

/-- SHAPE_VALVE_DEMAND: a payload of at most 12 records is shaped record by record into a good frame of the same
length, destination, source, kind and function ids, whose flags byte tells whether a demand was changed, the level and
BYPASS; the frame joins an UP crane port's list, or is discarded, with FORWARD_OVERRUN when that list is full; and
shaping is a VD_SHAPED event. A payload that is no list of demand records changes nothing. -/
def Obligations.ValveDemandIsShapedAndPlaced : Prop :=
  ∀ (dest source flags : Byte) (s : State), s.inReset = false → (∀ set, s.active = some set → SetValid set) →
    (∀ payload : List Byte, 36 < payload.length ∨ payload.length % 3 ≠ 0 →
      exec (.shapeValveDemand dest source flags payload) s = .next s) ∧
    (∀ records : List (Byte × BitVec 16), records.length ≤ 12 →
      let bytesOf (l : List (Byte × BitVec 16)) : List Byte := l.flatMap fun r => r.1 :: bytes16 r.2
      let shaped := records.map fun r => (r.1, BitVec.ofInt 16 (shapeDemand s r.1 r.2.toInt))
      let level : Nat := match s.sup.state with
        | .normal => 0
        | .bypass => 0
        | .warn => 1
        | _ => 2
      ∃ frame : List Byte, frame.length = 7 + 3 * records.length ∧ goodAtEnd frame = true ∧
        (frame.drop 5).take (3 * records.length) = bytesOf shaped ∧ byteAt frame 0 = dest ∧ byteAt frame 1 = source ∧
        byteAt frame 2 = 0x31 ∧
        (byteAt frame 3).toNat = (if shaped = records then 0 else 1) + 2 * level + (if s.sup.state = .bypass then 8 else 0) ∧
        let t := clockEvent .vdShaped s
        exec (.shapeValveDemand dest source flags (bytesOf records)) s =
          if s.crane.link ≠ .up then .next t
          else if s.crane.list.length < 6 then
            .next { t with crane := { s.crane with list := s.crane.list ++ [{ bytes := frame, status := .whole }] } }
          else .next { t with
            conditions := t.conditions ||| BitVec.twoPow 32 (Condition.forwardOverrun .crane).bit })

/-! ## The table store (08) -/

/-- An entry record reads back as it was written: WRITE's record at a target and index is the record that READ gives
there, whatever bytes it has; every other entry of the set reads as before, and indices between the old entry count
and the written index read as all zero. -/
def Obligations.EntryRecordsReadBack : Prop :=
  ∀ (target : Target) (i : Nat) (record : List Byte) (set : TableSet), i < target.indices →
    record.length = target.recordLength →
    TableSet.read target i (set.write target i record) = some record ∧
    (∀ other j, other ≠ target → TableSet.read other j (set.write target i record) = TableSet.read other j set) ∧
    (∀ j, j < target.indices → j ≠ i →
      (∀ old, TableSet.read target j set = some old →
        TableSet.read target j (set.write target i record) = some old) ∧
      (TableSet.read target j set = none → j < i →
        TableSet.read target j (set.write target i record) = some (List.replicate target.recordLength 0)) ∧
      (TableSet.read target j set = none → i < j → TableSet.read target j (set.write target i record) = none))

/-- OPEN_STAGING puts an empty set in LOADING. WRITE_ENTRY judges target and index, then the record's length, then the
staging state, and writes the entry, in LOADING. READ_ENTRY judges its operands, then the bank's contents and the
entry, and returns the record, changing nothing. A wrong operand length gives LENGTH_ERROR. Each then is concluded with
its result, or with its error and nothing changed; a result that leaves no room gives NO_ROOM. (That the errors are
judged before the room is deduced, notes/assumptions/15.md.) -/
def Obligations.StagingIsOpenedWrittenAndRead : Prop :=
  ∀ (s : State) (r : Request) (c : Chain) (more : Bool) (operands : List Byte) (next : Nat),
    (NextOperation s r c 0x20 more operands next →
      let done (u : State) (status : Status) : State := concludeOp r.payload 0x20 more next c (u, .gives status [])
      (operands ≠ [] → exec .openStaging s = .next (done s .lengthError)) ∧
      (operands = [] → RoomFor c 0 → exec .openStaging s = .next (done { s with staging := .loading {} } .ok)) ∧
      (operands = [] → ¬RoomFor c 0 → exec .openStaging s = .next (done s .noRoom))) ∧
    (NextOperation s r c 0x21 more operands next → operands.length < 2 →
      exec .writeEntry s = .next (concludeOp r.payload 0x21 more next c (s, .gives .lengthError []))) ∧
    (NextOperation s r c 0x22 more operands next → operands.length ≠ 3 →
      exec .readEntry s = .next (concludeOp r.payload 0x22 more next c (s, .gives .lengthError []))) ∧
    (∀ code index record, NextOperation s r c 0x21 more (code :: index :: record) next →
      let done (u : State) (status : Status) : State := concludeOp r.payload 0x21 more next c (u, .gives status [])
      ((∀ target : Target, code.toNat = target.code → target.indices ≤ index.toNat) →
        exec .writeEntry s = .next (done s .rangeError)) ∧
      (∀ target : Target, code.toNat = target.code → index.toNat < target.indices →
        (record.length ≠ target.recordLength → exec .writeEntry s = .next (done s .lengthError)) ∧
        (record.length = target.recordLength → (s.staging = .empty ∨ ∃ set, s.staging = .previous set) →
          exec .writeEntry s = .next (done s .notOpen)) ∧
        (∀ set, record.length = target.recordLength →
          s.staging = .loading set ∨ s.staging = .checked set ∨ s.staging = .failed set →
          (RoomFor c 0 → exec .writeEntry s =
            .next (done { s with staging := .loading (set.write target index.toNat record) } .ok)) ∧
          (¬RoomFor c 0 → exec .writeEntry s = .next (done s .noRoom))))) ∧
    (∀ bank code index, NextOperation s r c 0x22 more [bank, code, index] next →
      let done (status : Status) (data : List Byte) : State := concludeOp r.payload 0x22 more next c (s, .gives status data)
      let held := if bank = 0 then s.active else match s.staging with
        | .empty => none
        | .loading set => some set
        | .checked set => some set
        | .failed set => some set
        | .previous set => some set
      (1 < bank.toNat ∨ (∀ target : Target, code.toNat = target.code → target.indices ≤ index.toNat) →
        exec .readEntry s = .next (done .rangeError [])) ∧
      (∀ target : Target, bank.toNat ≤ 1 → code.toNat = target.code → index.toNat < target.indices →
        (held = none → exec .readEntry s = .next (done .notFound [])) ∧
        (∀ set, held = some set → TableSet.read target index.toNat set = none →
          exec .readEntry s = .next (done .notFound [])) ∧
        (∀ set record, held = some set → TableSet.read target index.toNat set = some record →
          (RoomFor c target.recordLength → exec .readEntry s = .next (done .ok record)) ∧
          (¬RoomFor c target.recordLength → exec .readEntry s = .next (done .noRoom [])))))

/-- CHECK_STAGING starts a check in LOADING, CHECKED and FAILED, and the chain waits; in EMPTY it gives NOT_OPEN and
in PREVIOUS WRONG_STATE. CHECK_STAGING_COMPLETE ends a check that runs: the bank becomes CHECKED when validation
passes, with the generation as data, and FAILED when it does not, with the target, index and code of the first
failure; with no check running it finds nothing to do (notes/assumptions/1.md). Validation makes the checks of
`TableSet.checks` (Safety.lean), which names for each record, field and range of R150 to R153, in the order of R148, the
target, index and code reported: a set passes when none of them fails, and else the first that fails is reported. (That NOT_OPEN and WRONG_STATE are judged
before the room is deduced, notes/assumptions/15.md; that the completion may come at any time from the start of the
check on is the model's, notes/assumptions/28.md.) -/
def Obligations.CheckStagingJudgesTheSet : Prop :=
  (∀ set : TableSet, (validate set = none ↔ ∀ c ∈ set.checks, ¬c.fails) ∧
    (∀ failure, validate set = some failure ↔ ∃ before c behind, set.checks = before ++ c :: behind ∧ c.fails ∧
      c.report = failure ∧ ∀ d ∈ before, ¬d.fails)) ∧
  (∀ (s : State) (r : Request) (c : Chain) (more : Bool) (next : Nat), NextOperation s r c 0x23 more [] next →
    let done (status : Status) : State := concludeOp r.payload 0x23 more next c (s, .gives status [])
    (s.staging = .empty → exec .checkStaging s = .next (done .notOpen)) ∧
    (∀ set, s.staging = .previous set → exec .checkStaging s = .next (done .wrongState)) ∧
    (∀ set, s.staging = .loading set ∨ s.staging = .checked set ∨ s.staging = .failed set →
      (RoomFor c 6 → exec .checkStaging s =
        .next { s with mgmt := { s.mgmt with phase := .checking { c with offset := next } s.clock more } }) ∧
      (¬RoomFor c 6 → exec .checkStaging s = .next (done .noRoom)))) ∧
  (∀ (s : State) (r : Request) (rest : List Request) (c : Chain) (started : Clock) (more : Bool) (set : TableSet),
    s.inReset = false → s.mgmt.phase = .checking c started more → s.mgmt.requests = r :: rest →
    s.staging = .loading set ∨ s.staging = .checked set ∨ s.staging = .failed set →
    let done (u : State) (data : List Byte) : State := concludeOp r.payload 0x23 more c.offset c (u, .gives .ok data)
    let generation := bytes16 set.machine.generation
    (validate set = none → exec .checkStagingComplete s =
      .next (done { s with staging := .checked set } ([0] ++ generation ++ [0, 0, 0]))) ∧
    (∀ failure, validate set = some failure → exec .checkStagingComplete s =
      .next (done { s with staging := .failed set }
        ([1] ++ generation ++ [sendByte failure.target.code, sendByte failure.index, failure.code])))) ∧
  (∀ s : State, s.inReset = false → (∀ c started more, s.mgmt.phase ≠ .checking c started more) →
    exec .checkStagingComplete s = .next s)

/-- ACTIVATE with the generation of a CHECKED or PREVIOUS set swaps the banks, and every block takes the activation:
all measurands STALE with their timers restarted or stopped, supervision in HOLD or BYPASS with an empty history, the
tilt at 160 and the capacity that the new tables give there, the reference of the slew kept only for an unchanged CPR and index offset, the working tare gone and a running tare
failed, an open lift kept with its snapshot, tare and sequence number (supervision alone may set its BYPASSED flag),
the bunk class and the arms judged by the new levels, and the notices of all this raised: TABLES_ACTIVE in each
case, whose own attempt sends what is pending to the new set's notice station before anything else can join the cab
port's list. In another staging state, or with another generation, it gives its error and changes nothing. (That these
are judged before the room is deduced, notes/assumptions/15.md; the order of the blocks is notes/assumptions/14.md;
that a tare so ended keeps its window is notes/assumptions/26.md; what the activation's own clock events leave in trace
capture and the condition set is the model's choice, notes/assumptions/32.md, and is left free here.) -/
def Obligations.ActivateSwapsTheBanks : Prop :=
  ∀ (s : State) (r : Request) (c : Chain) (more : Bool) (generation : BitVec 16) (next : Nat),
    NextOperation s r c 0x24 more (bytes16 generation) next →
    let done (u : State) (status : Status) (data : List Byte) : State :=
      concludeOp r.payload 0x24 more next c (u, .gives status data)
    ((∀ set, s.staging ≠ .checked set ∧ s.staging ≠ .previous set) →
      exec .activate s = .next (done s .wrongState [])) ∧
    (∀ set, s.staging = .checked set ∨ s.staging = .previous set →
      (set.machine.generation ≠ generation → exec .activate s = .next (done s .generationMismatch [])) ∧
      (set.machine.generation = generation → ¬RoomFor c 3 → exec .activate s = .next (done s .noRoom [])) ∧
      (set.machine.generation = generation → RoomFor c 3 →
        let total := s.tally.bunkTotal
        let held := s.queue.records.length
        let threshold := set.machine.queueThreshold.toNat
        let kept := ∃ old, s.active = some old ∧ old.sectorHeader.cpr = set.sectorHeader.cpr ∧
          old.sectorHeader.indexOffset = set.sectorHeader.indexOffset
        ∃ u, exec .activate s = .next (done u .ok (bytes16 generation ++ [if s.active.isSome then 4 else 0])) ∧
          u.active = some set ∧
          (u.staging = match s.active with
            | some old => .previous old
            | none => .empty) ∧
          u.mgmt = s.mgmt ∧ u.crane = s.crane ∧ u.clock = s.clock ∧ u.queue.records = s.queue.records ∧
          u.queue.nextSequence = s.queue.nextSequence ∧ u.tally.assortments = s.tally.assortments ∧
          u.tally.bunkTotal = total ∧ u.tally.totalDelivered = s.tally.totalDelivered ∧
          u.intake.snapshot = s.intake.snapshot ∧
          (∀ m, u.intake.get m = { s.intake.get m with
            state := .stale,
            timer := (set.channelOf m).map fun e => s.clock + BitVec.ofNat 32 e.timeout.toNat }) ∧
          u.sup.history = [] ∧ u.sup.state = (if s.sup.service then .bypass else .hold) ∧
          u.sup.moment = s.sup.moment ∧ u.sup.utilisation = s.sup.utilisation ∧ u.sup.tilt = 160 ∧
          (s.sup.sector = s.slew.sector → u.sup.sector = u.slew.sector) ∧
          (s.sup.bunkClass = s.tally.bunkClass → u.sup.bunkClass = u.tally.bunkClass) ∧
          (let there (column : Nat) : Nat := rowCapacity (set.rows.getD (column * 3 + u.sup.bunkClass) {}) 160;
            (∀ e, sectorInUse set u.sup.sector = some e → u.sup.capacity = there e.column.toNat) ∧
            (sectorInUse set u.sup.sector = none → 1 ≤ set.columnCount.toNat →
              (∃ column, column < set.columnCount.toNat ∧ u.sup.capacity = there column) ∧
              (∀ column, column < set.columnCount.toNat → u.sup.capacity ≤ there column))) ∧
          (s.lift.openLift = none → u.lift.openLift = none) ∧
          (∀ l, s.lift.openLift = some l →
            ∃ bypassed, u.lift.openLift = some { l with bypassed } ∧ (l.bypassed = true → bypassed = true)) ∧
          (s.lift.state ≠ .taring → u.lift = { s.lift with workingTare := none, notedSector := u.lift.notedSector,
                                                           openLift := u.lift.openLift }) ∧
          u.slew.lastPace = none ∧ u.slew.lastDrift = s.slew.lastDrift ∧
          (kept → u.slew.p = s.slew.p ∧ u.slew.referenced = s.slew.referenced ∧
            u.slew.sector = if s.slew.referenced then some (set.sectorAt s.slew.p) else s.slew.sector) ∧
          (¬kept → u.slew.p = s.slew.p % set.sectorHeader.cpr.toNat ∧ u.slew.referenced = false ∧ u.slew.sector = none) ∧
          u.lift.workingTare = none ∧ u.lift.window = s.lift.window ∧
          (s.lift.state = .taring → u.lift.state = .empty) ∧
          (s.lift.state ≠ .taring → u.lift.state = s.lift.state) ∧
          u.tally.bunkClass = (if total < set.machine.classThreshold1.toNat then 0
            else if total < set.machine.classThreshold2.toNat then 1 else 2) ∧
          u.tally.warnArm = decide (total < set.machine.bunkWarn.toNat) ∧
          u.tally.fullArm = decide (total < set.machine.bunkLimit.toNat) ∧
          u.queue.waitingArm = decide (held ≤ threshold) ∧
          (∃ raised, NoticesRaised raised s u ∧ raised .tablesActive ∧ (raised .tareFailed ↔ s.lift.state = .taring) ∧
            (raised .liftsWaiting ↔ s.queue.waitingArm = true ∧ threshold < held) ∧
            (raised .bunkWarn ↔ s.tally.warnArm = true ∧ set.machine.bunkWarn.toNat ≤ total) ∧
            (raised .bunkFull ↔ s.tally.fullArm = true ∧ set.machine.bunkLimit.toNat ≤ total) ∧
            (raised .holdEntered ↔ s.sup.service = false ∧ s.sup.state ≠ .hold) ∧
            (raised .limitLeft ↔ s.sup.state = .limit)) ∧
          (set.machine.noticeStation ≠ 0 → s.cab.link = .up → s.cab.list.length < 6 →
            ∃ frame behind, u.cab.list = s.cab.list ++ { bytes := frame, status := .whole } :: behind ∧
              byteAt frame 0 = set.machine.noticeStation ∧
              field16 frame 5 = s.notices ||| BitVec.twoPow 16 NoticeKind.tablesActive.bit)))

/-- Every step keeps the table store's promise: the ACTIVE bank never holds a table set that has not passed
validation, and the STAGING bank holds a validated set wherever its state says so. -/
def Obligations.EveryStepKeepsTablesSafe : Prop :=
  ∀ s t : State, TablesSafe s → step s = .next t → TablesSafe t

/-! ## Management (09) -/

/-- TAKE_REQUEST: a queue of fewer than two requests takes the request at its tail; with two the request is answered
with a good BUSY reply of no results when its port is UP with a place, and forgotten in any case. -/
def Obligations.RequestIsTakenOrAnsweredBusy : Prop :=
  ∀ (p : PortId) (source : Byte) (payload : List Byte) (s : State), s.inReset = false →
    (s.mgmt.requests.length < 2 → exec (.takeRequest p source payload) s =
      .next { s with mgmt := { s.mgmt with requests := s.mgmt.requests ++ [{ port := p, source, payload }] } }) ∧
    (2 ≤ s.mgmt.requests.length →
      ((s.port p).link ≠ .up ∨ 6 ≤ (s.port p).list.length → exec (.takeRequest p source payload) s = .next s) ∧
      ((s.port p).link = .up → (s.port p).list.length < 6 →
        ∃ (t : State) (frame : List Byte), exec (.takeRequest p source payload) s = .next t ∧ goodAtEnd frame = true ∧
          frame.take 9 = [source, s.station, 0x52, 2, 4, payload.headD 0, 0, 0, 10] ∧
          t = { s with cab := t.cab, crane := t.crane } ∧ t.port p.other = s.port p.other ∧
          t.port p = { s.port p with list := (s.port p).list ++ [{ bytes := frame, status := .whole }] }))

/-- What follows an operation that has been judged. An OK result with CHAIN set is recorded and the next operation is
to be read; after a TEST whose data is false that operation is SKIPPED: it is recorded so, and the chain goes on behind
it, ends with OK, or ends with LENGTH_ERROR when it cannot be read, or NO_ROOM. An OK result without CHAIN, and any
error, is recorded and ends the chain: the reply, a good frame with the tag, the two counts, the final status and the
records, is held and offered. WARM RESTART ends the chain with a reply that is held and sets RESTART FOLLOWS. (That the
skipped operation is recorded in the TEST's own step is the model's choice, notes/assumptions/22.md; so is that WARM
RESTART's reply is first held without an offer, notes/assumptions/21.md.) -/
def Obligations.OperationsAreConcluded : Prop :=
  ∀ (s : State) (r : Request) (rest : List Request) (c : Chain) (code : Byte) (next : Nat) (data : List Byte),
    s.mgmt.requests = r :: rest → c.results.length + 3 + data.length ≤ 116 →
    let recorded (status : Status) : List Byte := c.results ++ [code, sendByte status.code, sendByte data.length] ++ data
    let replyWith (reply : List Byte) (flags : Byte) (count performed : Nat) (final : Status) (results : List Byte) : Prop :=
      goodAtEnd reply = true ∧ payloadOf reply =
        [r.payload.headD 0, sendByte count, sendByte performed, sendByte final.code] ++ results ∧
        byteAt reply 0 = r.source ∧ byteAt reply 1 = s.station ∧ byteAt reply 2 = 0x52 ∧ byteAt reply 3 = flags
    let goodReply (reply : List Byte) (flags : Byte) (performed : Nat) (final : Status) : Prop :=
      replyWith reply flags (c.resultCount + 1) performed final (recorded final)
    let ongoing : Chain := { offset := next, results := recorded .ok, resultCount := c.resultCount + 1,
                             performedCount := c.performedCount + 1 }
    (¬(code = 0x01 ∧ data = [0]) → concludeOp r.payload code true next c (s, .gives .ok data) =
      { s with mgmt := { s.mgmt with phase := .reading ongoing } }) ∧
    (∀ skipped after_, code = 0x01 → data = [0] → ongoing.results.length + 6 ≤ 116 →
      (∃ operands, readOp r.payload next = .op skipped true operands after_) →
      concludeOp r.payload code true next c (s, .gives .ok data) =
        { s with mgmt := { s.mgmt with phase := .reading {
            offset := after_, results := ongoing.results ++ [skipped, 1, 0], resultCount := c.resultCount + 2,
            performedCount := c.performedCount + 1 } } }) ∧
    (code = 0x01 → data = [0] →
      let skips (final : Status) (record : List Byte) : Prop :=
        ∃ reply, replyWith reply 0 (c.resultCount + 2) (c.performedCount + 1) final (ongoing.results ++ record) ∧
          concludeOp r.payload code true next c (s, .gives .ok data) =
            offerHeld { s with mgmt := { s.mgmt with phase := .held reply false } }
      (∀ skipped operands after_, readOp r.payload next = .op skipped false operands after_ →
        ongoing.results.length + 6 ≤ 116 → skips .ok [skipped, 1, 0]) ∧
      (∀ skipped chained operands after_, readOp r.payload next = .op skipped chained operands after_ →
        116 < ongoing.results.length + 6 → ongoing.results.length + 3 ≤ 116 → skips .noRoom [skipped, 9, 0]) ∧
      (∀ found, readOp r.payload next = .short found → ongoing.results.length + 3 ≤ 116 →
        skips .lengthError [found, 3, 0])) ∧
    (∃ reply, goodReply reply 0 (c.performedCount + 1) .ok ∧
      concludeOp r.payload code false next c (s, .gives .ok data) =
        offerHeld { s with mgmt := { s.mgmt with phase := .held reply false } }) ∧
    (∀ status more, status ≠ .ok → ∃ reply, goodReply reply 0 c.performedCount status ∧
      concludeOp r.payload code more next c (s, .gives status data) =
        offerHeld { s with mgmt := { s.mgmt with phase := .held reply false } }) ∧
    (∀ more, data = [] → ∃ reply, goodReply reply 1 (c.performedCount + 1) .ok ∧
      concludeOp r.payload code more next c (s, .restarts) =
        { s with mgmt := { s.mgmt with phase := .held reply true } })

/-- PERFORM_REQUEST runs the head request's chain. An operation is read from three header bytes, code, flags with CHAIN
in bit 0, and operand length, and that many operand bytes; cut short, it ends the chain with LENGTH_ERROR. A code that
names no operation gives BAD_OPERATION, and an operand length that is not the code's LENGTH_ERROR. An operation whose
CHAIN is clear, or that ends the chain or waits for a check, is performed as that operation's own command performs it,
and one behind which the chain goes on is performed by its command and then the rest of the chain; for a WARM RESTART the
reply that its command leaves held is then offered, with which the restart is performed or waits
(WarmRestartKeepsAndClears, HeldReplyAndNoticeAreOffered); a payload of one
byte is answered OK and one of none LENGTH_ERROR, both with no results; a held reply is offered again. With no request,
or while a check runs, nothing happens. (That each operation's row performs the head request's next operation, and
finds nothing to do when that is another, is the model's choice, notes/assumptions/22.md.) -/
def Obligations.PerformRequestRunsTheChain : Prop :=
  let rows : List (Byte × Nat × Instr) :=
    [(0x01, 2, .test), (0x02, 0, .readIdentity), (0x03, 0, .readStatus), (0x04, 0, .readMeasurands), (0x05, 2, .readTally),
      (0x10, 1, .peekLifts), (0x11, 2, .dropLifts), (0x12, 0, .clearBunk), (0x13, 4, .clearConditions),
      (0x20, 0, .openStaging), (0x21, 2, .writeEntry), (0x22, 3, .readEntry), (0x23, 0, .checkStaging),
      (0x24, 2, .activate), (0x31, 1, .traceRead), (0x3F, 0, .warmRestart)]
  let traceRows : List (Byte × Instr) :=
    [(1, .traceConfigure), (2, .traceEnable), (3, .traceDisable), (4, .traceFlush)]
  (∀ (payload : List Byte) (offset : Nat),
    (payload.drop offset = [] → readOp payload offset = .short 0) ∧
    (∀ code, payload.drop offset = [code] → readOp payload offset = .short code) ∧
    (∀ code flags, payload.drop offset = [code, flags] → readOp payload offset = .short code) ∧
    (∀ code flags length body, payload.drop offset = code :: flags :: length :: body →
      readOp payload offset = if body.length < length.toNat then .short code
        else .op code (flags.getLsbD 0) (body.take length.toNat) (offset + 3 + length.toNat))) ∧
  (∀ s : State, s.inReset = false →
    (s.mgmt.requests = [] → (∀ reply restart, s.mgmt.phase ≠ .held reply restart) → exec .performRequest s = .next s) ∧
    (∀ c started more, s.mgmt.phase = .checking c started more → exec .performRequest s = .next s) ∧
    (∀ reply restart, s.mgmt.phase = .held reply restart → exec .performRequest s = exec .heldReplyOffer s) ∧
    (∀ r rest c, s.mgmt.phase = .reading c → s.mgmt.requests = r :: rest →
      let ends (tag : Byte) (count performed : Nat) (final : Byte) (results : List Byte) : Prop :=
        ∃ reply, goodAtEnd reply = true ∧ byteAt reply 0 = r.source ∧ byteAt reply 1 = s.station ∧ byteAt reply 2 = 0x52 ∧
          byteAt reply 3 = 0 ∧ payloadOf reply = [tag, sendByte count, sendByte performed, final] ++ results ∧
          exec .performRequest s = .next (offerHeld { s with mgmt := { s.mgmt with phase := .held reply false } })
      (∀ tag, r.payload = [tag] → c = {} → ends tag 0 0 0 []) ∧
      (r.payload = [] → c = {} → ends 0 0 0 3 []) ∧
      (∀ code, 2 ≤ r.payload.length → readOp r.payload c.offset = .short code → c.results.length + 3 ≤ 116 →
        ends (byteAt r.payload 0) (c.resultCount + 1) c.performedCount 3 (c.results ++ [code, 3, 0])))) ∧
  (∀ (s : State) (r : Request) (c : Chain) (code : Byte) (more : Bool) (operands : List Byte) (next : Nat),
    NextOperation s r c code more operands next →
    let done (status : Status) : State := concludeOp r.payload code more next c (s, .gives status [])
    (code ∉ rows.map Prod.fst → code ≠ 0x30 → exec .performRequest s = .next (done .badOperation)) ∧
    (code = 0x30 → (∀ b ∈ traceRows, operands.head? ≠ some b.1) → exec .performRequest s =
      .next (done (if operands.length = 1 ∨ operands.length = 19 then .rangeError else .lengthError))) ∧
    (∀ length x, (code, length, x) ∈ rows →
      (if x = .writeEntry then operands.length < length else operands.length ≠ length) →
      exec x s = .next (done .lengthError)) ∧
    (∀ x, ((∃ length, (code, length, x) ∈ rows) ∨
        (code = 0x30 ∧ ∃ action, (action, x) ∈ traceRows ∧ operands.head? = some action)) →
      ∃ t, exec x s = .next t ∧
        let goesOn := ∃ c', t.mgmt.phase = .reading c' ∧ t.mgmt.requests = s.mgmt.requests
        (x ≠ .warmRestart → more = false ∨ ¬goesOn → exec .performRequest s = .next t) ∧
        (x = .warmRestart → exec .performRequest s = exec .heldReplyOffer t) ∧
        (goesOn → t.inReset = false → exec .performRequest s = exec .performRequest t)) ∧
    (∀ y, (∃ b ∈ rows, b.2.2 = y) ∨ (∃ b ∈ traceRows, b.2 = y) →
      (∀ b ∈ rows, b.2.2 = y → b.1 ≠ code) → (∀ b ∈ traceRows, b.2 = y → ¬(code = 0x30 ∧ operands.head? = some b.1)) →
      exec y s = .next s))

/-- TEST evaluates its condition and gives one byte, 1 or 0; a kind or value out of range gives RANGE_ERROR.
READ_IDENTITY gives part code 0x0420, revision 1, station and straps. READ_MEASURANDS gives value, state and time
of the six measurands. READ_TALLY gives one to four assortments from a first one on. None changes anything but the
chain; a result that leaves no room gives NO_ROOM. (That RANGE_ERROR is judged before the room is deduced,
notes/assumptions/15.md.) -/
def Obligations.TestAndReadOperations : Prop :=
  ∀ (s : State) (r : Request) (c : Chain) (more : Bool) (next : Nat),
    let done (code : Byte) (status : Status) (data : List Byte) : State :=
      concludeOp r.payload code more next c (s, .gives status data)
    (∀ kind value, NextOperation s r c 0x01 more [kind, value] next →
      let v := value.toNat
      let ranged := (kind.toNat = 1 ∧ v ≤ 4) ∨ (kind.toNat = 2 ∧ v ≤ 5) ∨ (kind.toNat = 3 ∧ v ≤ 32) ∨ kind.toNat = 4
      let holds := (kind.toNat = 1 ∧ s.staging.code = v) ∨ (kind.toNat = 2 ∧ supCode s.sup.state = v) ∨
        (kind.toNat = 3 ∧ v ≤ s.queue.records.length) ∨ (kind.toNat = 4 ∧ s.tally.incomplete = true)
      (¬ranged → exec .test s = .next (done 0x01 .rangeError [])) ∧
      (ranged → RoomFor c 1 → exec .test s = .next (done 0x01 .ok [if holds then 1 else 0])) ∧
      (ranged → ¬RoomFor c 1 → exec .test s = .next (done 0x01 .noRoom []))) ∧
    (NextOperation s r c 0x02 more [] next →
      (RoomFor c 5 →
        exec .readIdentity s = .next (done 0x02 .ok [0x04, 0x20, 1, s.station, s.strapValue.setWidth 8])) ∧
      (¬RoomFor c 5 → exec .readIdentity s = .next (done 0x02 .noRoom []))) ∧
    (NextOperation s r c 0x04 more [] next → ¬RoomFor c 54 → exec .readMeasurands s = .next (done 0x04 .noRoom [])) ∧
    (NextOperation s r c 0x04 more [] next → RoomFor c 54 →
      ∃ data : List Byte, exec .readMeasurands s = .next (done 0x04 .ok data) ∧ data.length = 54 ∧
        (∀ (k : Nat) (m : Measurand), [Measurand.f, .a, .reach, .pitch, .roll, .gpress][k]? = some m →
          field32 data (9 * k) = BitVec.ofInt 32 (s.intake.get m).value ∧
          byteAt data (9 * k + 4) = (if (s.intake.get m).state = .fresh then 1 else 0) ∧
          field32 data (9 * k + 5) = (s.intake.get m).lastAccepted)) ∧
    (∀ first count, NextOperation s r c 0x05 more [first, count] next →
      let ranged := 1 ≤ count.toNat ∧ count.toNat ≤ 4 ∧ first.toNat + count.toNat ≤ 32
      (¬ranged → exec .readTally s = .next (done 0x05 .rangeError [])) ∧
      (ranged → ¬RoomFor c (6 + 14 * count.toNat) → exec .readTally s = .next (done 0x05 .noRoom [])) ∧
      (ranged → RoomFor c (6 + 14 * count.toNat) →
        ∃ data : List Byte, exec .readTally s = .next (done 0x05 .ok data) ∧ data.length = 6 + 14 * count.toNat ∧
          byteAt data 0 = first ∧ byteAt data 1 = count ∧ field32 data 2 = BitVec.ofNat 32 s.tally.totalDelivered ∧
          (∀ k, k < count.toNat →
            let a := s.tally.assortments.toList.getD (first.toNat + k) {}
            field16 data (6 + 14 * k) = BitVec.ofNat 16 a.deliveredCount ∧
            field32 data (8 + 14 * k) = BitVec.ofNat 32 a.deliveredMass ∧
            field16 data (12 + 14 * k) = BitVec.ofNat 16 a.unweighedDelivered ∧
            field16 data (14 + 14 * k) = BitVec.ofNat 16 a.unloadedCount ∧
            field32 data (16 + 14 * k) = BitVec.ofNat 32 a.unloadedMass)))

/-- READ_STATUS gives the 41 bytes of the status record, each field at its offset, and changes nothing but the chain;
the field of the open lift's sequence number carries it when there is one, and is open when there is none (a free
value, notes/assumptions/13.md). Without room for it the operation gives NO_ROOM. -/
def Obligations.StatusIsRead : Prop :=
  (∀ (s : State) (r : Request) (c : Chain) (more : Bool) (next : Nat), NextOperation s r c 0x03 more [] next →
    ¬RoomFor c 41 → exec .readStatus s = .next (concludeOp r.payload 0x03 more next c (s, .gives .noRoom []))) ∧
  ([SupState.unconfigured, .normal, .warn, .limit, .hold, .bypass].map supCode = [0, 1, 2, 3, 4, 5] ∧
    [LiftState.empty, .taring, .gripped, .lifting, .weighed, .releasing].map liftCode = [0, 1, 2, 3, 4, 5] ∧
    [LinkState.down, .training, .up].map LinkState.code = [0, 1, 2] ∧
    [TraceState.disabled, .running, .full].map TraceState.code = [0, 1, 2] ∧
    ∀ set, [Staging.empty, .loading set, .checked set, .failed set, .previous set].map Staging.code = [0, 1, 2, 3, 4]) ∧
  ∀ (s : State) (r : Request) (c : Chain) (more : Bool) (next : Nat), NextOperation s r c 0x03 more [] next → RoomFor c 41 →
    let portByte (p : Port) : Nat := (if p.polarity = .swapped then 1 else 0) + (if p.flipped then 2 else 0)
    let bit (b : Bool) (k : Nat) : Nat := if b then 2 ^ k else 0
    let lift := s.lift.openLift.bind fun l => l.number.map Prod.fst
    ∃ (data : List Byte) (uses : Nat),
      exec .readStatus s = .next (concludeOp r.payload 0x03 more next c ({ s with choices := uses }, .gives .ok data)) ∧
      data.length = 41 ∧ byteAt data 0 = BitVec.ofNat 8 s.cab.link.code ∧ (byteAt data 1).toNat = portByte s.cab ∧
      byteAt data 2 = BitVec.ofNat 8 s.crane.link.code ∧ (byteAt data 3).toNat = portByte s.crane ∧
      field32 data 4 = s.conditions ∧ field16 data 8 = s.notices ∧
      (byteAt data 10).toNat = bit s.slew.referenced 0 + bit lift.isSome 1 + bit s.tally.incomplete 2 +
        bit s.active.isSome 3 + bit s.sup.service 4 ∧
      byteAt data 11 = BitVec.ofNat 8 (supCode s.sup.state) ∧ field16 data 12 = BitVec.ofNat 16 s.sup.utilisation ∧
      field16 data 14 = BitVec.ofNat 16 s.sup.moment ∧ field16 data 16 = BitVec.ofNat 16 s.sup.capacity ∧
      field16 data 18 = BitVec.ofInt 16 s.sup.tilt ∧
      (byteAt data 20 = match s.slew.sector with
        | some i => BitVec.ofNat 8 i
        | none => 0xFF) ∧
      field16 data 21 = BitVec.ofNat 16 s.slew.p ∧ field16 data 23 = BitVec.ofInt 16 s.slew.lastDrift ∧
      byteAt data 25 = BitVec.ofNat 8 (liftCode s.lift.state) ∧ (∀ n, lift = some n → field16 data 26 = n) ∧
      byteAt data 28 = BitVec.ofNat 8 s.queue.records.length ∧ field32 data 29 = BitVec.ofNat 32 s.tally.bunkTotal ∧
      byteAt data 33 = BitVec.ofNat 8 s.tally.bunkClass ∧ byteAt data 34 = BitVec.ofNat 8 s.staging.code ∧
      (field16 data 35 = match s.active with
        | some set => set.machine.generation
        | none => 0) ∧
      byteAt data 37 = BitVec.ofNat 8 s.trace.state.code ∧
      field16 data 38 = BitVec.ofNat 16 ((s.trace.buffer.map List.length).sum) ∧
      byteAt data 40 = BitVec.ofNat 8 s.mgmt.requests.length

/-- PEEK_LIFTS of one to four gives the oldest records, whole, 22 bytes unweighed and 30 weighed with their fields at
their offsets, removing none; when they do not all fit, as many as fit with NO_ROOM. DROP_LIFTS removes the records up
to and including the one with its sequence number, sets the LIFTS_WAITING arm when the rest is at or below the
threshold, and gives the two counts; without such a record it gives NOT_FOUND. CLEAR_BUNK clears every figure of the
tally and judges the class, with which supervision evaluates when it has changed, and the arms. CLEAR_CONDITIONS clears
each condition whose bit is set in its mask and no other, and gives the condition set as it stood before. WARM_RESTART
ends the chain and is not yet performed (the model's choice, notes/assumptions/21.md). An operation that passes its own
checks and whose record does not fit gives NO_ROOM and changes nothing (that RANGE_ERROR and NOT_FOUND are judged before the room is deduced, notes/assumptions/15.md). -/
def Obligations.LiftsTallyAndConditionsOperations : Prop :=
  ((∀ (s : State) (r : Request) (c : Chain) (more : Bool) (next : Nat) (k : Byte), NextOperation s r c 0x10 more [k] next →
    let done (status : Status) (data : List Byte) : State := concludeOp r.payload 0x10 more next c (s, .gives status data)
    let all := (s.queue.records.take k.toNat).flatMap recordBytes
    (k.toNat = 0 ∨ 4 < k.toNat → exec .peekLifts s = .next (done .rangeError [])) ∧
    (1 ≤ k.toNat → k.toNat ≤ 4 → RoomFor c all.length → exec .peekLifts s = .next (done .ok all)) ∧
    (1 ≤ k.toNat → k.toNat ≤ 4 → ¬RoomFor c all.length → c.results.length ≤ 113 →
      ∃ n, exec .peekLifts s = .next (done .noRoom ((s.queue.records.take n).flatMap recordBytes)) ∧ n ≤ k.toNat ∧
        c.results.length + 3 + ((s.queue.records.take n).flatMap recordBytes).length ≤ 116 ∧
        (n < k.toNat → n < s.queue.records.length →
          116 < c.results.length + 3 + ((s.queue.records.take (n + 1)).flatMap recordBytes).length))) ∧
  (∀ x : LiftRecord, let b := recordBytes x;
    b.length = (if x.weighing.isSome then 30 else 22) ∧ field16 b 0 = x.sequence ∧
    byteAt b 2 = BitVec.ofNat 8 x.outcome.code ∧ (byteAt b 3).getLsbD 0 = x.weighing.isSome ∧
    (x.weighing = none → (byteAt b 3).getLsbD 1 = false) ∧ (byteAt b 3).getLsbD 2 = x.static ∧
    (byteAt b 3).getLsbD 3 = x.workingTare ∧ (byteAt b 3).getLsbD 4 = x.limitDuring ∧
    (byteAt b 3).getLsbD 5 = x.bypassed ∧ (byteAt b 3).toNat < 64 ∧
    byteAt b 4 = BitVec.ofNat 8 x.tool ∧ byteAt b 5 = BitVec.ofNat 8 x.assortment ∧ byteAt b 6 = sendSector x.pickSector ∧
    byteAt b 7 = sendSector x.releaseSector ∧ field16 b 8 = x.generation ∧ field16 b 10 = BitVec.ofNat 16 x.sampleCount ∧
    byteAt b 12 = BitVec.ofNat 8 x.windowAttempts ∧ byteAt b 13 = BitVec.ofNat 8 x.regripCount ∧
    field16 b 14 = BitVec.ofNat 16 x.peak ∧ field32 b 16 = x.gripTime ∧ field16 b 20 = BitVec.ofNat 16 x.duration ∧
    (∀ w, x.weighing = some w → field32 b 22 = BitVec.ofNat 32 w.gross ∧ field32 b 26 = BitVec.ofNat 32 w.net ∧
      (byteAt b 3).getLsbD 1 = w.belowTare)) ∧
  (∀ (s : State) (r : Request) (c : Chain) (more : Bool) (next : Nat) (sequence : BitVec 16),
    NextOperation s r c 0x11 more (bytes16 sequence) next →
    let done (u : State) (status : Status) (data : List Byte) : State :=
      concludeOp r.payload 0x11 more next c (u, .gives status data)
    ((∀ x ∈ s.queue.records, x.sequence ≠ sequence) → exec .dropLifts s = .next (done s .notFound [])) ∧
    (∀ before x rest, s.queue.records = before ++ x :: rest → (∀ y ∈ before, y.sequence ≠ sequence) →
      x.sequence = sequence →
      (RoomFor c 2 → exec .dropLifts s =
        .next (done { s with queue := { s.queue with
          records := rest,
          waitingArm := match s.active with
            | some set => s.queue.waitingArm || decide (rest.length ≤ set.machine.queueThreshold.toNat)
            | none => s.queue.waitingArm } } .ok [sendByte (before.length + 1), sendByte rest.length])) ∧
      (¬RoomFor c 2 → exec .dropLifts s = .next (done s .noRoom [])))) ∧
  (∀ (s : State) (r : Request) (c : Chain) (more : Bool) (next : Nat), NextOperation s r c 0x12 more [] next →
    (¬RoomFor c 0 → exec .clearBunk s = .next (concludeOp r.payload 0x12 more next c (s, .gives .noRoom []))) ∧
    (RoomFor c 0 →
      ∃ u, exec .clearBunk s = .next (concludeOp r.payload 0x12 more next c (u, .gives .ok [])) ∧
        (∀ i, i < 32 → u.tally.assortments.toList[i]? = some { deliveredCount := 0 }) ∧ u.tally.bunkTotal = 0 ∧ u.tally.totalDelivered = 0 ∧
        u.tally.incomplete = false ∧ u.queue = s.queue ∧ u.mgmt = s.mgmt ∧ u.lift.state = s.lift.state ∧
        u = { s with tally := u.tally, sup := u.sup, lift := u.lift, notices := u.notices, cab := u.cab,
                     conditions := u.conditions, trace := u.trace } ∧
        (∃ raised, NoticesRaised raised s u ∧ ¬raised .bunkWarn ∧ ¬raised .bunkFull) ∧
        (s.active = none → u.tally.bunkClass = 0 ∧ u.tally.warnArm = s.tally.warnArm ∧ u.tally.fullArm = s.tally.fullArm) ∧
        (∀ set, s.active = some set →
          u.tally.warnArm = (s.tally.warnArm || decide (0 < set.machine.bunkWarn.toNat)) ∧
          u.tally.fullArm = (s.tally.fullArm || decide (0 < set.machine.bunkLimit.toNat)) ∧
          (0 < set.machine.classThreshold1.toNat → u.tally.bunkClass = 0)) ∧
        (u.tally.bunkClass ≠ s.tally.bunkClass → u.sup.bunkClass = u.tally.bunkClass) ∧
        (let cleared : State := { s with tally := { u.tally with warnArm := s.tally.warnArm, fullArm := s.tally.fullArm } };
          let judged := if u.tally.bunkClass = s.tally.bunkClass then cleared
            else evaluate { cleared with sup := { s.sup with bunkClass := u.tally.bunkClass } };
          u = { judged with tally := u.tally })))) ∧
  (∀ (s : State) (r : Request) (c : Chain) (more : Bool) (next : Nat),
    (∀ mask : BitVec 32, NextOperation s r c 0x13 more (bytes32 mask) next →
      (RoomFor c 4 → ∃ u, exec .clearConditions s =
          .next (concludeOp r.payload 0x13 more next c (u, .gives .ok (bytes32 s.conditions))) ∧
        u = { s with conditions := u.conditions } ∧
        (∀ k : Condition, u.conditions.getLsbD k.bit = (s.conditions.getLsbD k.bit && !mask.getLsbD k.bit))) ∧
      (¬RoomFor c 4 → exec .clearConditions s =
        .next (concludeOp r.payload 0x13 more next c (s, .gives .noRoom [])))) ∧
    (NextOperation s r c 0x3F more [] next →
      (RoomFor c 0 → exec .warmRestart s = .next (concludeOp r.payload 0x3F more next c (s, .restarts))) ∧
      (¬RoomFor c 0 → exec .warmRestart s = .next (concludeOp r.payload 0x3F more next c (s, .gives .noRoom [])))))

/-! ## Trace capture (10) -/

/-- TRACE_CAPTURE: in RUNNING an event of the configured kind counts, and at the divider the count restarts and a
capture is taken. With room the capture number goes up and one block of the configured elements joins the buffer;
without, the trace becomes FULL in STOP_WHEN_FULL, and in OVERWRITE_OLDEST the fewest oldest blocks make room; both
raise TRACE_OVERFLOW. An element takes the value that an event of its own kind carries, and else its owner's value as it
stands. Every other event changes nothing. (An event sent as a command is notes/assumptions/1.md.) -/
def Obligations.CaptureFollowsTheClockEvent : Prop :=
  ∀ (event : ClockEvent) (s : State), s.inReset = false → TraceSafe s →
    let t := s.trace
    let number := t.captureNumber + 1
    let value (ty : ElementType) : BitVec 32 :=
      match ty, event with
      | .time, _ => s.clock
      | .f, .fSample v => BitVec.ofInt 32 v
      | .f, _ => BitVec.ofInt 32 s.intake.f.value
      | .a, _ => BitVec.ofInt 32 s.intake.a.value
      | .reach, _ => BitVec.ofInt 32 s.intake.reach.value
      | .pitch, _ => BitVec.ofInt 32 s.intake.pitch.value
      | .roll, _ => BitVec.ofInt 32 s.intake.roll.value
      | .slewPos, .slewPace p => BitVec.ofNat 32 p
      | .slewPos, _ => BitVec.ofNat 32 s.slew.p
      | .sampleMass, _ => BitVec.ofNat 32 s.lift.lastSampleMass
      | .u, _ => BitVec.ofNat 32 s.sup.utilisation
      | .capacity, _ => BitVec.ofNat 32 s.sup.capacity
      | .liftState, .liftEvent l => BitVec.ofNat 32 (liftCode l)
      | .liftState, _ => BitVec.ofNat 32 (liftCode s.lift.state)
      | .supState, .supChange x => BitVec.ofNat 32 (supCode x)
      | .supState, _ => BitVec.ofNat 32 (supCode s.sup.state)
      | .captureNumber, _ => number
    let block := t.config.block.map fun ty => { tag := ty, value := value ty : TraceElement }
    let raised := s.conditions ||| BitVec.twoPow 32 Condition.traceOverflow.bit
    let counted := t.state = .running ∧ t.config.clock = clockKind event
    let roomLeft := elementsOf t.buffer + block.length ≤ 1024
    (¬counted → exec (.traceCapture event) s = .next s) ∧
    (counted → t.dividerCount + 1 < t.config.divider →
      exec (.traceCapture event) s = .next { s with trace := { t with dividerCount := t.dividerCount + 1 } }) ∧
    (counted → t.dividerCount + 1 = t.config.divider →
      (roomLeft → exec (.traceCapture event) s =
        .next { s with trace := { t with dividerCount := 0, captureNumber := number, buffer := t.buffer ++ [block] } }) ∧
      (¬roomLeft → t.config.mode = .stopWhenFull → exec (.traceCapture event) s =
        .next { s with trace := { t with dividerCount := 0, state := .full }, conditions := raised }) ∧
      (¬roomLeft → t.config.mode = .overwriteOldest → ∃ dropped kept, t.buffer = dropped ++ kept ∧
        elementsOf kept + block.length ≤ 1024 ∧
        (∀ last, dropped.getLast? = some last → 1024 < elementsOf (last :: kept) + block.length) ∧
        exec (.traceCapture event) s =
          .next { s with trace := { t with dividerCount := 0, captureNumber := number, buffer := kept ++ [block] },
                         conditions := raised }))

/-- TRACE CONTROL. TRACE_CONFIGURE in DISABLED takes a record that passes every check, with the buffer, the capture
number and the divider count cleared and the pacing's last multiple none; outside DISABLED it gives WRONG_STATE, and a
record with a field out of range RANGE_ERROR; the clock event and the element tags have the codes of the manual's table
(R174). TRACE_ENABLE, TRACE_DISABLE and TRACE_FLUSH act as R179's table gives.
Each returns the trace state after it. An operand length that is not the action's gives LENGTH_ERROR, and a result that
leaves no room NO_ROOM with nothing changed. (That the errors are judged before the room is deduced,
notes/assumptions/15.md.) -/
def Obligations.TraceIsControlled : Prop :=
  let clocks : List (Nat × ClockKind) :=
    [(1, .fSample), (2, .slewPace), (3, .sectorChange), (4, .liftEvent), (5, .supChange), (6, .vdShaped)]
  let tags : List (Nat × ElementType) :=
    [(1, .time), (2, .f), (3, .a), (4, .reach), (5, .pitch), (6, .roll), (7, .slewPos), (8, .sampleMass), (9, .u),
      (10, .capacity), (11, .liftState), (12, .supState), (13, .captureNumber)]
  ∀ (s : State) (r : Request) (c : Chain) (more : Bool) (next : Nat),
    let done (u : State) (status : Status) (data : List Byte) : State :=
      concludeOp r.payload 0x30 more next c (u, .gives status data)
    (∀ rest : List Byte,
      (NextOperation s r c 0x30 more (1 :: rest) next → rest.length ≠ 18 →
        exec .traceConfigure s = .next (done s .lengthError [])) ∧
      (NextOperation s r c 0x30 more (2 :: rest) next → rest ≠ [] → exec .traceEnable s = .next (done s .lengthError [])) ∧
      (NextOperation s r c 0x30 more (3 :: rest) next → rest ≠ [] → exec .traceDisable s = .next (done s .lengthError [])) ∧
      (NextOperation s r c 0x30 more (4 :: rest) next → rest ≠ [] → exec .traceFlush s = .next (done s .lengthError []))) ∧
    (¬RoomFor c 1 →
      (NextOperation s r c 0x30 more [2] next → exec .traceEnable s = .next (done s .noRoom [])) ∧
      (NextOperation s r c 0x30 more [3] next → exec .traceDisable s = .next (done s .noRoom [])) ∧
      (NextOperation s r c 0x30 more [4] next → exec .traceFlush s = .next (done s .noRoom []))) ∧
    (∀ record : List Byte, record.length = 18 → NextOperation s r c 0x30 more (1 :: record) next →
      let at_ (i : Nat) : Nat := (byteAt record i).toNat
      let passes := 1 ≤ at_ 0 ∧ at_ 0 ≤ 6 ∧ at_ 1 ≠ 0 ∧ 1 ≤ at_ 2 ∧ at_ 2 ≤ 6 ∧
        (∀ i, i < at_ 2 → 1 ≤ at_ (3 + i) ∧ at_ (3 + i) ≤ 13) ∧ (at_ 9 = 1 ∨ at_ 9 = 2) ∧
        1 ≤ (field16 record 10).toNat ∧ (field16 record 10).toNat ≤ 4096 ∧ at_ 12 ≤ 1 ∧ at_ 17 ≤ 1
      (s.trace.state ≠ .disabled → exec .traceConfigure s = .next (done s .wrongState [])) ∧
      (s.trace.state = .disabled → ¬passes → exec .traceConfigure s = .next (done s .rangeError [])) ∧
      (s.trace.state = .disabled → passes → ¬RoomFor c 1 → exec .traceConfigure s = .next (done s .noRoom [])) ∧
      (s.trace.state = .disabled → passes → RoomFor c 1 →
        ∃ config : TraceConfig,
          exec .traceConfigure s = .next (done { s with
            trace := { state := .disabled, config }, slew := { s.slew with lastPace := none } } .ok [0]) ∧
          clockKindOfCode (at_ 0) = some config.clock ∧ config.divider = at_ 1 ∧
          (at_ 0, config.clock) ∈ clocks ∧ config.block.length = at_ 2 ∧
          (∀ i ty, config.block[i]? = some ty → (at_ (3 + i), ty) ∈ tags) ∧
          config.block.map ElementType.code = ((record.drop 3).take (at_ 2)).map BitVec.toNat ∧
          (config.mode = .stopWhenFull ↔ at_ 9 = 1) ∧ config.pacing.interval = (field16 record 10).toNat ∧
          (config.pacing.windowEnabled = true ↔ at_ 12 = 1) ∧ config.pacing.windowStart = (field16 record 13).toNat ∧
          config.pacing.windowEnd = (field16 record 15).toNat ∧ (config.pacing.deglitch = true ↔ at_ 17 = 1))) ∧
    (NextOperation s r c 0x30 more [2] next → RoomFor c 1 →
      (s.trace.state = .disabled →
        exec .traceEnable s = .next (done { s with trace := { s.trace with state := .running, dividerCount := 0 } } .ok [1])) ∧
      (s.trace.state ≠ .disabled → exec .traceEnable s = .next (done s .ok [sendByte s.trace.state.code]))) ∧
    (NextOperation s r c 0x30 more [3] next → RoomFor c 1 →
      exec .traceDisable s = .next (done { s with trace := { s.trace with state := .disabled } } .ok [0])) ∧
    (NextOperation s r c 0x30 more [4] next → RoomFor c 1 →
      let state : TraceState := if s.trace.state = .disabled then .disabled else .running
      exec .traceFlush s = .next (done { s with trace := { state, config := s.trace.config } } .ok [sendByte state.code]))

/-- TRACE_READ of 1 to 20 elements gives the oldest whole blocks that fit in the maximum, lowered to what leaves 3
bytes of the reply free, and removes them; a FULL trace goes on in RUNNING. An empty buffer gives a count of 0; a
maximum below the oldest block, and no room, give NO_ROOM and remove nothing. An element is sent as five bytes, its tag by
the codes of the manual's table and then its value, high byte first. (That RANGE_ERROR is judged before the
room is deduced, notes/assumptions/15.md.) -/
def Obligations.TraceIsReadInWholeBlocks : Prop :=
  (∀ e : TraceElement,
    let tags : List (Nat × ElementType) :=
      [(1, .time), (2, .f), (3, .a), (4, .reach), (5, .pitch), (6, .roll), (7, .slewPos), (8, .sampleMass), (9, .u),
        (10, .capacity), (11, .liftState), (12, .supState), (13, .captureNumber)]
    ∃ tag b1 b2 b3 b4 : Byte, elementBytes e = [tag, b1, b2, b3, b4] ∧ (tag.toNat, e.tag) ∈ tags ∧
      e.value = b1 ++ b2 ++ b3 ++ b4) ∧
  ∀ (s : State) (r : Request) (c : Chain) (more : Bool) (next : Nat) (max : Byte), NextOperation s r c 0x31 more [max] next →
    let done (u : State) (status : Status) (data : List Byte) : State :=
      concludeOp r.payload 0x31 more next c (u, .gives status data)
    (max.toNat = 0 ∨ 20 < max.toNat → exec .traceRead s = .next (done s .rangeError [])) ∧
    (1 ≤ max.toNat → max.toNat ≤ 20 →
      (s.trace.buffer = [] → RoomFor c 1 → exec .traceRead s = .next (done s .ok [0])) ∧
      (s.trace.buffer = [] → ¬RoomFor c 1 → exec .traceRead s = .next (done s .noRoom [])) ∧
      (∀ oldest blocks, s.trace.buffer = oldest :: blocks → oldest ≠ [] →
        (max.toNat < oldest.length ∨ ¬RoomFor c (1 + 5 * oldest.length) →
          exec .traceRead s = .next (done s .noRoom [])) ∧
        (oldest.length ≤ max.toNat → RoomFor c (1 + 5 * oldest.length) →
          ∃ taken left, s.trace.buffer = taken ++ left ∧ taken ≠ [] ∧ elementsOf taken ≤ max.toNat ∧
            RoomFor c (1 + 5 * elementsOf taken) ∧
            (∀ b, left.head? = some b → max.toNat < elementsOf (taken ++ [b]) ∨
              ¬RoomFor c (1 + 5 * elementsOf (taken ++ [b]))) ∧
            exec .traceRead s = .next (done
              { s with trace := { s.trace with
                  buffer := left, state := if s.trace.state = .full then .running else s.trace.state } } .ok
              (sendByte (elementsOf taken) :: taken.flatten.flatMap elementBytes)))))

/-- Every step keeps the trace's promise, that the buffer holds at most 1024 elements in whole blocks of the
configured length and that the divider count stays below the divider; and every step keeps the two sets to the
seventeen conditions and the thirteen notice kinds. -/
def Obligations.EveryStepKeepsTraceAndSetsSafe : Prop :=
  (∀ s t : State, TraceSafe s → step s = .next t → TraceSafe t) ∧
  (∀ s t : State, SetsSafe s → step s = .next t → SetsSafe t)
end

