-- ==== Sys2Proof/Laws/State.lean ====
section
/-! SUPPORT. The small lemmas of State: for each named update, the fields it leaves as they were and the field it writes. -/

namespace Sys2Proof.Machine

/-- What `State.raise` leaves as it was. -/
@[simp] theorem State.raise_keeps (c : Condition) (s : State) :
    (s.raise c).pending = s.pending ∧ (s.raise c).choices = s.choices ∧ (s.raise c).inReset = s.inReset ∧
    (s.raise c).clock = s.clock ∧ (s.raise c).strapValue = s.strapValue ∧ (s.raise c).station = s.station ∧
    (s.raise c).cab = s.cab ∧ (s.raise c).crane = s.crane ∧ (s.raise c).notices = s.notices ∧
    (s.raise c).intake = s.intake ∧ (s.raise c).slew = s.slew ∧ (s.raise c).lift = s.lift ∧
    (s.raise c).queue = s.queue ∧ (s.raise c).tally = s.tally ∧ (s.raise c).sup = s.sup ∧
    (s.raise c).active = s.active ∧ (s.raise c).staging = s.staging ∧ (s.raise c).mgmt = s.mgmt ∧
    (s.raise c).trace = s.trace := by
  refine ⟨rfl, rfl, rfl, rfl, rfl, rfl, rfl, rfl, rfl, rfl, rfl, rfl, rfl, rfl, rfl, rfl, rfl, rfl, rfl⟩

/-- What `State.markPending` leaves as it was. -/
@[simp] theorem State.markPending_keeps (k : NoticeKind) (s : State) :
    (s.markPending k).pending = s.pending ∧ (s.markPending k).choices = s.choices ∧
    (s.markPending k).inReset = s.inReset ∧ (s.markPending k).clock = s.clock ∧
    (s.markPending k).strapValue = s.strapValue ∧ (s.markPending k).station = s.station ∧
    (s.markPending k).cab = s.cab ∧ (s.markPending k).crane = s.crane ∧ (s.markPending k).conditions = s.conditions ∧
    (s.markPending k).intake = s.intake ∧ (s.markPending k).slew = s.slew ∧ (s.markPending k).lift = s.lift ∧
    (s.markPending k).queue = s.queue ∧ (s.markPending k).tally = s.tally ∧ (s.markPending k).sup = s.sup ∧
    (s.markPending k).active = s.active ∧ (s.markPending k).staging = s.staging ∧ (s.markPending k).mgmt = s.mgmt ∧
    (s.markPending k).trace = s.trace := by
  refine ⟨rfl, rfl, rfl, rfl, rfl, rfl, rfl, rfl, rfl, rfl, rfl, rfl, rfl, rfl, rfl, rfl, rfl, rfl, rfl⟩

/-- What `attemptNotice` leaves as it was. -/
@[simp] theorem attemptNotice_keeps (s : State) :
    (attemptNotice s).pending = s.pending ∧ (attemptNotice s).choices = s.choices ∧
    (attemptNotice s).inReset = s.inReset ∧ (attemptNotice s).clock = s.clock ∧
    (attemptNotice s).strapValue = s.strapValue ∧ (attemptNotice s).station = s.station ∧
    (attemptNotice s).crane = s.crane ∧ (attemptNotice s).conditions = s.conditions ∧
    (attemptNotice s).intake = s.intake ∧ (attemptNotice s).slew = s.slew ∧ (attemptNotice s).lift = s.lift ∧
    (attemptNotice s).queue = s.queue ∧ (attemptNotice s).tally = s.tally ∧ (attemptNotice s).sup = s.sup ∧
    (attemptNotice s).active = s.active ∧ (attemptNotice s).staging = s.staging ∧ (attemptNotice s).mgmt = s.mgmt ∧
    (attemptNotice s).trace = s.trace := by
  generalize h : attemptNotice s = r
  unfold attemptNotice State.offer at h
  (repeat' split at h) <;> subst h <;> exact ⟨rfl, rfl, rfl, rfl, rfl, rfl, rfl, rfl, rfl, rfl, rfl, rfl, rfl, rfl, rfl, rfl, rfl, rfl⟩

/-- What `State.notify` leaves as it was. -/
@[simp] theorem State.notify_keeps (k : NoticeKind) (s : State) :
    (s.notify k).pending = s.pending ∧ (s.notify k).choices = s.choices ∧ (s.notify k).inReset = s.inReset ∧
    (s.notify k).clock = s.clock ∧ (s.notify k).strapValue = s.strapValue ∧ (s.notify k).station = s.station ∧
    (s.notify k).crane = s.crane ∧ (s.notify k).conditions = s.conditions ∧ (s.notify k).intake = s.intake ∧
    (s.notify k).slew = s.slew ∧ (s.notify k).lift = s.lift ∧ (s.notify k).queue = s.queue ∧
    (s.notify k).tally = s.tally ∧ (s.notify k).sup = s.sup ∧ (s.notify k).active = s.active ∧
    (s.notify k).staging = s.staging ∧ (s.notify k).mgmt = s.mgmt ∧ (s.notify k).trace = s.trace := by
  simp [State.notify]

/-- What `State.modPort` leaves as it was. -/
@[simp] theorem State.modPort_keeps (p : PortId) (f : Port → Port) (s : State) :
    (s.modPort p f).pending = s.pending ∧ (s.modPort p f).choices = s.choices ∧ (s.modPort p f).inReset = s.inReset ∧
    (s.modPort p f).clock = s.clock ∧ (s.modPort p f).strapValue = s.strapValue ∧
    (s.modPort p f).station = s.station ∧ (s.modPort p f).conditions = s.conditions ∧
    (s.modPort p f).notices = s.notices ∧ (s.modPort p f).intake = s.intake ∧ (s.modPort p f).slew = s.slew ∧
    (s.modPort p f).lift = s.lift ∧ (s.modPort p f).queue = s.queue ∧ (s.modPort p f).tally = s.tally ∧
    (s.modPort p f).sup = s.sup ∧ (s.modPort p f).active = s.active ∧ (s.modPort p f).staging = s.staging ∧
    (s.modPort p f).mgmt = s.mgmt ∧ (s.modPort p f).trace = s.trace := by
  cases p <;> refine ⟨rfl, rfl, rfl, rfl, rfl, rfl, rfl, rfl, rfl, rfl, rfl, rfl, rfl, rfl, rfl, rfl, rfl, rfl⟩

/-- What `State.modOpenLift` leaves as it was. -/
@[simp] theorem State.modOpenLift_keeps (f : OpenLift → OpenLift) (s : State) :
    (s.modOpenLift f).pending = s.pending ∧ (s.modOpenLift f).choices = s.choices ∧
    (s.modOpenLift f).inReset = s.inReset ∧ (s.modOpenLift f).clock = s.clock ∧
    (s.modOpenLift f).strapValue = s.strapValue ∧ (s.modOpenLift f).station = s.station ∧
    (s.modOpenLift f).cab = s.cab ∧ (s.modOpenLift f).crane = s.crane ∧ (s.modOpenLift f).conditions = s.conditions ∧
    (s.modOpenLift f).notices = s.notices ∧ (s.modOpenLift f).intake = s.intake ∧ (s.modOpenLift f).slew = s.slew ∧
    (s.modOpenLift f).queue = s.queue ∧ (s.modOpenLift f).tally = s.tally ∧ (s.modOpenLift f).sup = s.sup ∧
    (s.modOpenLift f).active = s.active ∧ (s.modOpenLift f).staging = s.staging ∧ (s.modOpenLift f).mgmt = s.mgmt ∧
    (s.modOpenLift f).trace = s.trace := by
  refine ⟨rfl, rfl, rfl, rfl, rfl, rfl, rfl, rfl, rfl, rfl, rfl, rfl, rfl, rfl, rfl, rfl, rfl, rfl, rfl⟩

/-- What `State.modLift` leaves as it was. -/
@[simp] theorem State.modLift_keeps (f : LiftController → LiftController) (s : State) :
    (s.modLift f).pending = s.pending ∧ (s.modLift f).choices = s.choices ∧ (s.modLift f).inReset = s.inReset ∧
    (s.modLift f).clock = s.clock ∧ (s.modLift f).strapValue = s.strapValue ∧ (s.modLift f).station = s.station ∧
    (s.modLift f).cab = s.cab ∧ (s.modLift f).crane = s.crane ∧ (s.modLift f).conditions = s.conditions ∧
    (s.modLift f).notices = s.notices ∧ (s.modLift f).intake = s.intake ∧ (s.modLift f).slew = s.slew ∧
    (s.modLift f).queue = s.queue ∧ (s.modLift f).tally = s.tally ∧ (s.modLift f).sup = s.sup ∧
    (s.modLift f).active = s.active ∧ (s.modLift f).staging = s.staging ∧ (s.modLift f).mgmt = s.mgmt ∧
    (s.modLift f).trace = s.trace := by
  refine ⟨rfl, rfl, rfl, rfl, rfl, rfl, rfl, rfl, rfl, rfl, rfl, rfl, rfl, rfl, rfl, rfl, rfl, rfl, rfl⟩

/-- What `State.modSlew` leaves as it was. -/
@[simp] theorem State.modSlew_keeps (f : Slew → Slew) (s : State) :
    (s.modSlew f).pending = s.pending ∧ (s.modSlew f).choices = s.choices ∧ (s.modSlew f).inReset = s.inReset ∧
    (s.modSlew f).clock = s.clock ∧ (s.modSlew f).strapValue = s.strapValue ∧ (s.modSlew f).station = s.station ∧
    (s.modSlew f).cab = s.cab ∧ (s.modSlew f).crane = s.crane ∧ (s.modSlew f).conditions = s.conditions ∧
    (s.modSlew f).notices = s.notices ∧ (s.modSlew f).intake = s.intake ∧ (s.modSlew f).lift = s.lift ∧
    (s.modSlew f).queue = s.queue ∧ (s.modSlew f).tally = s.tally ∧ (s.modSlew f).sup = s.sup ∧
    (s.modSlew f).active = s.active ∧ (s.modSlew f).staging = s.staging ∧ (s.modSlew f).mgmt = s.mgmt ∧
    (s.modSlew f).trace = s.trace := by
  refine ⟨rfl, rfl, rfl, rfl, rfl, rfl, rfl, rfl, rfl, rfl, rfl, rfl, rfl, rfl, rfl, rfl, rfl, rfl, rfl⟩

/-- What `State.modIntake` leaves as it was. -/
@[simp] theorem State.modIntake_keeps (f : Intake → Intake) (s : State) :
    (s.modIntake f).pending = s.pending ∧ (s.modIntake f).choices = s.choices ∧ (s.modIntake f).inReset = s.inReset ∧
    (s.modIntake f).clock = s.clock ∧ (s.modIntake f).strapValue = s.strapValue ∧
    (s.modIntake f).station = s.station ∧ (s.modIntake f).cab = s.cab ∧ (s.modIntake f).crane = s.crane ∧
    (s.modIntake f).conditions = s.conditions ∧ (s.modIntake f).notices = s.notices ∧ (s.modIntake f).slew = s.slew ∧
    (s.modIntake f).lift = s.lift ∧ (s.modIntake f).queue = s.queue ∧ (s.modIntake f).tally = s.tally ∧
    (s.modIntake f).sup = s.sup ∧ (s.modIntake f).active = s.active ∧ (s.modIntake f).staging = s.staging ∧
    (s.modIntake f).mgmt = s.mgmt ∧ (s.modIntake f).trace = s.trace := by
  refine ⟨rfl, rfl, rfl, rfl, rfl, rfl, rfl, rfl, rfl, rfl, rfl, rfl, rfl, rfl, rfl, rfl, rfl, rfl, rfl⟩

/-- What `State.modSnapshot` leaves as it was. -/
@[simp] theorem State.modSnapshot_keeps (f : Snapshot → Snapshot) (s : State) :
    (s.modSnapshot f).pending = s.pending ∧ (s.modSnapshot f).choices = s.choices ∧
    (s.modSnapshot f).inReset = s.inReset ∧ (s.modSnapshot f).clock = s.clock ∧
    (s.modSnapshot f).strapValue = s.strapValue ∧ (s.modSnapshot f).station = s.station ∧
    (s.modSnapshot f).cab = s.cab ∧ (s.modSnapshot f).crane = s.crane ∧ (s.modSnapshot f).conditions = s.conditions ∧
    (s.modSnapshot f).notices = s.notices ∧ (s.modSnapshot f).slew = s.slew ∧ (s.modSnapshot f).lift = s.lift ∧
    (s.modSnapshot f).queue = s.queue ∧ (s.modSnapshot f).tally = s.tally ∧ (s.modSnapshot f).sup = s.sup ∧
    (s.modSnapshot f).active = s.active ∧ (s.modSnapshot f).staging = s.staging ∧ (s.modSnapshot f).mgmt = s.mgmt ∧
    (s.modSnapshot f).trace = s.trace := by
  refine ⟨rfl, rfl, rfl, rfl, rfl, rfl, rfl, rfl, rfl, rfl, rfl, rfl, rfl, rfl, rfl, rfl, rfl, rfl, rfl⟩

/-- What `State.modMgmt` leaves as it was. -/
@[simp] theorem State.modMgmt_keeps (f : Management → Management) (s : State) :
    (s.modMgmt f).pending = s.pending ∧ (s.modMgmt f).choices = s.choices ∧ (s.modMgmt f).inReset = s.inReset ∧
    (s.modMgmt f).clock = s.clock ∧ (s.modMgmt f).strapValue = s.strapValue ∧ (s.modMgmt f).station = s.station ∧
    (s.modMgmt f).cab = s.cab ∧ (s.modMgmt f).crane = s.crane ∧ (s.modMgmt f).conditions = s.conditions ∧
    (s.modMgmt f).notices = s.notices ∧ (s.modMgmt f).intake = s.intake ∧ (s.modMgmt f).slew = s.slew ∧
    (s.modMgmt f).lift = s.lift ∧ (s.modMgmt f).queue = s.queue ∧ (s.modMgmt f).tally = s.tally ∧
    (s.modMgmt f).sup = s.sup ∧ (s.modMgmt f).active = s.active ∧ (s.modMgmt f).staging = s.staging ∧
    (s.modMgmt f).trace = s.trace := by
  refine ⟨rfl, rfl, rfl, rfl, rfl, rfl, rfl, rfl, rfl, rfl, rfl, rfl, rfl, rfl, rfl, rfl, rfl, rfl, rfl⟩

/-- What `State.choose` leaves as it was. -/
@[simp] theorem State.choose_keeps (n : Nat) (s : State) :
    ((s.choose n).2).pending = s.pending ∧ ((s.choose n).2).inReset = s.inReset ∧ ((s.choose n).2).clock = s.clock ∧
    ((s.choose n).2).strapValue = s.strapValue ∧ ((s.choose n).2).station = s.station ∧
    ((s.choose n).2).cab = s.cab ∧ ((s.choose n).2).crane = s.crane ∧ ((s.choose n).2).conditions = s.conditions ∧
    ((s.choose n).2).notices = s.notices ∧ ((s.choose n).2).intake = s.intake ∧ ((s.choose n).2).slew = s.slew ∧
    ((s.choose n).2).lift = s.lift ∧ ((s.choose n).2).queue = s.queue ∧ ((s.choose n).2).tally = s.tally ∧
    ((s.choose n).2).sup = s.sup ∧ ((s.choose n).2).active = s.active ∧ ((s.choose n).2).staging = s.staging ∧
    ((s.choose n).2).mgmt = s.mgmt ∧ ((s.choose n).2).trace = s.trace := by
  refine ⟨rfl, rfl, rfl, rfl, rfl, rfl, rfl, rfl, rfl, rfl, rfl, rfl, rfl, rfl, rfl, rfl, rfl, rfl, rfl⟩

/-! ## The field that each update writes -/

@[simp] theorem State.raise_conditions (c : Condition) (s : State) :
    (s.raise c).conditions = s.conditions ||| BitVec.twoPow 32 c.bit := rfl

@[simp] theorem State.markPending_notices (k : NoticeKind) (s : State) :
    (s.markPending k).notices = s.notices ||| BitVec.twoPow 16 k.bit := rfl

@[simp] theorem State.modLift_lift (f : LiftController → LiftController) (s : State) : (s.modLift f).lift = f s.lift := rfl

@[simp] theorem State.modSlew_slew (f : Slew → Slew) (s : State) : (s.modSlew f).slew = f s.slew := rfl

@[simp] theorem State.modIntake_intake (f : Intake → Intake) (s : State) : (s.modIntake f).intake = f s.intake := rfl

@[simp] theorem State.modMgmt_mgmt (f : Management → Management) (s : State) : (s.modMgmt f).mgmt = f s.mgmt := rfl

@[simp] theorem State.modOpenLift_lift (f : OpenLift → OpenLift) (s : State) :
    (s.modOpenLift f).lift = { s.lift with openLift := s.lift.openLift.map f } := rfl

@[simp] theorem State.modSnapshot_snapshot (f : Snapshot → Snapshot) (s : State) :
    (s.modSnapshot f).intake.snapshot = f s.intake.snapshot := rfl

@[simp] theorem State.choose_choices (n : Nat) (s : State) : (s.choose n).2.choices = s.choices + 1 := rfl

/-! ## Ports and measurands by name -/

@[simp] theorem PortId.other_other (p : PortId) : p.other.other = p := by cases p <;> rfl

@[simp] theorem PortId.other_ne (p : PortId) : p.other ≠ p := by cases p <;> decide

@[simp] theorem State.modPort_port (p : PortId) (f : Port → Port) (s : State) : (s.modPort p f).port p = f (s.port p) := by
  cases p <;> rfl

@[simp] theorem State.modPort_port_other (p : PortId) (f : Port → Port) (s : State) :
    (s.modPort p f).port p.other = s.port p.other := by
  cases p <;> rfl

@[simp] theorem State.modPort_other_port (p : PortId) (f : Port → Port) (s : State) :
    (s.modPort p.other f).port p = s.port p := by
  cases p <;> rfl

/-- Changing a port writes the two ports alone. -/
theorem State.modPort_frame (p : PortId) (f : Port → Port) (s : State) :
    s.modPort p f = { s with cab := (s.modPort p f).cab, crane := (s.modPort p f).crane } := by
  cases p <;> rfl

@[simp] theorem State.raise_port (p : PortId) (c : Condition) (s : State) : (s.raise c).port p = s.port p := by
  cases p <;> rfl

@[simp] theorem State.notify_port_crane (k : NoticeKind) (s : State) : (s.notify k).port .crane = s.port .crane := by
  simp [State.port]

@[simp] theorem Intake.get_set (m : Measurand) (r : MeasurandRecord) (i : Intake) : (i.set m r).get m = r := by
  cases m <;> rfl

@[simp] theorem Intake.get_set_other (m n : Measurand) (r : MeasurandRecord) (i : Intake) (h : n ≠ m) :
    (i.set m r).get n = i.get n := by
  cases m <;> cases n <;> first | rfl | exact absurd rfl h

@[simp] theorem Intake.set_snapshot (m : Measurand) (r : MeasurandRecord) (i : Intake) :
    (i.set m r).snapshot = i.snapshot := by
  cases m <;> rfl

/-- While the reset input is released a meaning is its effect. -/
theorem State.unlessReset_running (f : State → State) (s : State) (h : s.inReset = false) : s.unlessReset f = .next (f s) := by
  simp [State.unlessReset, h]

/-- While the reset input is asserted a meaning changes nothing. -/
theorem State.unlessReset_inReset (f : State → State) (s : State) (h : s.inReset = true) : s.unlessReset f = .next s := by
  simp [State.unlessReset, h]

end Sys2Proof.Machine
end

