-- ==== Sys2Proof/Laws/Shared.lean ====
section
/-! SUPPORT. What each shared operation over ports and the trace leaves as it was. -/

namespace Sys2Proof.Machine

/-- What `State.offer` leaves as it was. -/
@[simp] theorem State.offer_keeps (p : PortId) (frame : List Byte) (s : State) :
    (s.offer p frame).pending = s.pending ∧ (s.offer p frame).choices = s.choices ∧
    (s.offer p frame).inReset = s.inReset ∧ (s.offer p frame).clock = s.clock ∧
    (s.offer p frame).strapValue = s.strapValue ∧ (s.offer p frame).station = s.station ∧
    (s.offer p frame).conditions = s.conditions ∧ (s.offer p frame).notices = s.notices ∧
    (s.offer p frame).intake = s.intake ∧ (s.offer p frame).slew = s.slew ∧ (s.offer p frame).lift = s.lift ∧
    (s.offer p frame).queue = s.queue ∧ (s.offer p frame).tally = s.tally ∧ (s.offer p frame).sup = s.sup ∧
    (s.offer p frame).active = s.active ∧ (s.offer p frame).staging = s.staging ∧ (s.offer p frame).mgmt = s.mgmt ∧
    (s.offer p frame).trace = s.trace := by
  generalize h : s.offer p frame = r
  unfold State.offer at h
  try dsimp only at h
  (repeat' split at h) <;> subst h <;> simp

/-- What `writeBlock` leaves as it was. -/
@[simp] theorem writeBlock_keeps (e : ClockEvent) (kept : List (List TraceElement)) (s : State) :
    (writeBlock e kept s).pending = s.pending ∧ (writeBlock e kept s).choices = s.choices ∧
    (writeBlock e kept s).inReset = s.inReset ∧ (writeBlock e kept s).clock = s.clock ∧
    (writeBlock e kept s).strapValue = s.strapValue ∧ (writeBlock e kept s).station = s.station ∧
    (writeBlock e kept s).cab = s.cab ∧ (writeBlock e kept s).crane = s.crane ∧
    (writeBlock e kept s).conditions = s.conditions ∧ (writeBlock e kept s).notices = s.notices ∧
    (writeBlock e kept s).intake = s.intake ∧ (writeBlock e kept s).slew = s.slew ∧
    (writeBlock e kept s).lift = s.lift ∧ (writeBlock e kept s).queue = s.queue ∧
    (writeBlock e kept s).tally = s.tally ∧ (writeBlock e kept s).sup = s.sup ∧
    (writeBlock e kept s).active = s.active ∧ (writeBlock e kept s).staging = s.staging ∧
    (writeBlock e kept s).mgmt = s.mgmt := by
  refine ⟨rfl, rfl, rfl, rfl, rfl, rfl, rfl, rfl, rfl, rfl, rfl, rfl, rfl, rfl, rfl, rfl, rfl, rfl, rfl⟩

/-- What `capture` leaves as it was. -/
@[simp] theorem capture_keeps (e : ClockEvent) (s : State) :
    (capture e s).pending = s.pending ∧ (capture e s).choices = s.choices ∧ (capture e s).inReset = s.inReset ∧
    (capture e s).clock = s.clock ∧ (capture e s).strapValue = s.strapValue ∧ (capture e s).station = s.station ∧
    (capture e s).cab = s.cab ∧ (capture e s).crane = s.crane ∧ (capture e s).notices = s.notices ∧
    (capture e s).intake = s.intake ∧ (capture e s).slew = s.slew ∧ (capture e s).lift = s.lift ∧
    (capture e s).queue = s.queue ∧ (capture e s).tally = s.tally ∧ (capture e s).sup = s.sup ∧
    (capture e s).active = s.active ∧ (capture e s).staging = s.staging ∧ (capture e s).mgmt = s.mgmt := by
  generalize h : capture e s = r
  unfold capture at h
  try dsimp only at h
  (repeat' split at h) <;> subst h <;> simp

/-- What `clockEvent` leaves as it was. -/
@[simp] theorem clockEvent_keeps (e : ClockEvent) (s : State) :
    (clockEvent e s).pending = s.pending ∧ (clockEvent e s).choices = s.choices ∧
    (clockEvent e s).inReset = s.inReset ∧ (clockEvent e s).clock = s.clock ∧
    (clockEvent e s).strapValue = s.strapValue ∧ (clockEvent e s).station = s.station ∧
    (clockEvent e s).cab = s.cab ∧ (clockEvent e s).crane = s.crane ∧ (clockEvent e s).notices = s.notices ∧
    (clockEvent e s).intake = s.intake ∧ (clockEvent e s).slew = s.slew ∧ (clockEvent e s).lift = s.lift ∧
    (clockEvent e s).queue = s.queue ∧ (clockEvent e s).tally = s.tally ∧ (clockEvent e s).sup = s.sup ∧
    (clockEvent e s).active = s.active ∧ (clockEvent e s).staging = s.staging ∧ (clockEvent e s).mgmt = s.mgmt := by
  generalize h : clockEvent e s = r
  unfold clockEvent at h
  try dsimp only at h
  (repeat' split at h) <;> subst h <;> simp

/-- What `traceConfigure` leaves as it was. -/
@[simp] theorem traceConfigure_keeps (c : TraceConfig) (s : State) :
    (traceConfigure c s).pending = s.pending ∧ (traceConfigure c s).choices = s.choices ∧
    (traceConfigure c s).inReset = s.inReset ∧ (traceConfigure c s).clock = s.clock ∧
    (traceConfigure c s).strapValue = s.strapValue ∧ (traceConfigure c s).station = s.station ∧
    (traceConfigure c s).cab = s.cab ∧ (traceConfigure c s).crane = s.crane ∧
    (traceConfigure c s).conditions = s.conditions ∧ (traceConfigure c s).notices = s.notices ∧
    (traceConfigure c s).intake = s.intake ∧ (traceConfigure c s).lift = s.lift ∧
    (traceConfigure c s).queue = s.queue ∧ (traceConfigure c s).tally = s.tally ∧ (traceConfigure c s).sup = s.sup ∧
    (traceConfigure c s).active = s.active ∧ (traceConfigure c s).staging = s.staging ∧
    (traceConfigure c s).mgmt = s.mgmt := by
  refine ⟨rfl, rfl, rfl, rfl, rfl, rfl, rfl, rfl, rfl, rfl, rfl, rfl, rfl, rfl, rfl, rfl, rfl, rfl⟩

/-- What `traceEnable` leaves as it was. -/
@[simp] theorem traceEnable_keeps (s : State) :
    (traceEnable s).pending = s.pending ∧ (traceEnable s).choices = s.choices ∧ (traceEnable s).inReset = s.inReset ∧
    (traceEnable s).clock = s.clock ∧ (traceEnable s).strapValue = s.strapValue ∧
    (traceEnable s).station = s.station ∧ (traceEnable s).cab = s.cab ∧ (traceEnable s).crane = s.crane ∧
    (traceEnable s).conditions = s.conditions ∧ (traceEnable s).notices = s.notices ∧
    (traceEnable s).intake = s.intake ∧ (traceEnable s).slew = s.slew ∧ (traceEnable s).lift = s.lift ∧
    (traceEnable s).queue = s.queue ∧ (traceEnable s).tally = s.tally ∧ (traceEnable s).sup = s.sup ∧
    (traceEnable s).active = s.active ∧ (traceEnable s).staging = s.staging ∧ (traceEnable s).mgmt = s.mgmt := by
  generalize h : traceEnable s = r
  unfold traceEnable at h
  try dsimp only at h
  (repeat' split at h) <;> subst h <;> simp

/-- What `traceDisable` leaves as it was. -/
@[simp] theorem traceDisable_keeps (s : State) :
    (traceDisable s).pending = s.pending ∧ (traceDisable s).choices = s.choices ∧
    (traceDisable s).inReset = s.inReset ∧ (traceDisable s).clock = s.clock ∧
    (traceDisable s).strapValue = s.strapValue ∧ (traceDisable s).station = s.station ∧
    (traceDisable s).cab = s.cab ∧ (traceDisable s).crane = s.crane ∧ (traceDisable s).conditions = s.conditions ∧
    (traceDisable s).notices = s.notices ∧ (traceDisable s).intake = s.intake ∧ (traceDisable s).slew = s.slew ∧
    (traceDisable s).lift = s.lift ∧ (traceDisable s).queue = s.queue ∧ (traceDisable s).tally = s.tally ∧
    (traceDisable s).sup = s.sup ∧ (traceDisable s).active = s.active ∧ (traceDisable s).staging = s.staging ∧
    (traceDisable s).mgmt = s.mgmt := by
  refine ⟨rfl, rfl, rfl, rfl, rfl, rfl, rfl, rfl, rfl, rfl, rfl, rfl, rfl, rfl, rfl, rfl, rfl, rfl, rfl⟩

/-- What `traceFlush` leaves as it was. -/
@[simp] theorem traceFlush_keeps (s : State) :
    (traceFlush s).pending = s.pending ∧ (traceFlush s).choices = s.choices ∧ (traceFlush s).inReset = s.inReset ∧
    (traceFlush s).clock = s.clock ∧ (traceFlush s).strapValue = s.strapValue ∧ (traceFlush s).station = s.station ∧
    (traceFlush s).cab = s.cab ∧ (traceFlush s).crane = s.crane ∧ (traceFlush s).conditions = s.conditions ∧
    (traceFlush s).notices = s.notices ∧ (traceFlush s).intake = s.intake ∧ (traceFlush s).slew = s.slew ∧
    (traceFlush s).lift = s.lift ∧ (traceFlush s).queue = s.queue ∧ (traceFlush s).tally = s.tally ∧
    (traceFlush s).sup = s.sup ∧ (traceFlush s).active = s.active ∧ (traceFlush s).staging = s.staging ∧
    (traceFlush s).mgmt = s.mgmt := by
  refine ⟨rfl, rfl, rfl, rfl, rfl, rfl, rfl, rfl, rfl, rfl, rfl, rfl, rfl, rfl, rfl, rfl, rfl, rfl, rfl⟩

/-- What `traceRead` leaves as it was. -/
@[simp] theorem traceRead_keeps (max : Nat) (s : State) :
    ((traceRead max s).2).pending = s.pending ∧ ((traceRead max s).2).choices = s.choices ∧
    ((traceRead max s).2).inReset = s.inReset ∧ ((traceRead max s).2).clock = s.clock ∧
    ((traceRead max s).2).strapValue = s.strapValue ∧ ((traceRead max s).2).station = s.station ∧
    ((traceRead max s).2).cab = s.cab ∧ ((traceRead max s).2).crane = s.crane ∧
    ((traceRead max s).2).conditions = s.conditions ∧ ((traceRead max s).2).notices = s.notices ∧
    ((traceRead max s).2).intake = s.intake ∧ ((traceRead max s).2).slew = s.slew ∧
    ((traceRead max s).2).lift = s.lift ∧ ((traceRead max s).2).queue = s.queue ∧
    ((traceRead max s).2).tally = s.tally ∧ ((traceRead max s).2).sup = s.sup ∧
    ((traceRead max s).2).active = s.active ∧ ((traceRead max s).2).staging = s.staging ∧
    ((traceRead max s).2).mgmt = s.mgmt := by
  refine ⟨rfl, rfl, rfl, rfl, rfl, rfl, rfl, rfl, rfl, rfl, rfl, rfl, rfl, rfl, rfl, rfl, rfl, rfl, rfl⟩

end Sys2Proof.Machine
end

