-- ==== Sys2Proof/Laws/Supervision.lean ====
section
/-! SUPPORT. What each operation of supervision leaves as it was. -/

namespace Sys2Proof.Machine

/-- What `computeFigures` leaves as it was. -/
@[simp] theorem computeFigures_keeps (s : State) :
    (computeFigures s).pending = s.pending ∧ (computeFigures s).choices = s.choices ∧
    (computeFigures s).inReset = s.inReset ∧ (computeFigures s).clock = s.clock ∧
    (computeFigures s).strapValue = s.strapValue ∧ (computeFigures s).station = s.station ∧
    (computeFigures s).cab = s.cab ∧ (computeFigures s).crane = s.crane ∧ (computeFigures s).notices = s.notices ∧
    (computeFigures s).intake = s.intake ∧ (computeFigures s).slew = s.slew ∧ (computeFigures s).lift = s.lift ∧
    (computeFigures s).queue = s.queue ∧ (computeFigures s).tally = s.tally ∧ (computeFigures s).active = s.active ∧
    (computeFigures s).staging = s.staging ∧ (computeFigures s).mgmt = s.mgmt ∧ (computeFigures s).trace = s.trace := by
  generalize h : computeFigures s = r
  unfold computeFigures at h
  try dsimp only at h
  (repeat' split at h) <;> subst h <;> simp

/-- What `setAlert` leaves as it was. -/
@[simp] theorem setAlert_keeps (st : SupState) (s : State) :
    (setAlert st s).pending = s.pending ∧ (setAlert st s).choices = s.choices ∧ (setAlert st s).inReset = s.inReset ∧
    (setAlert st s).clock = s.clock ∧ (setAlert st s).strapValue = s.strapValue ∧
    (setAlert st s).station = s.station ∧ (setAlert st s).cab = s.cab ∧ (setAlert st s).crane = s.crane ∧
    (setAlert st s).conditions = s.conditions ∧ (setAlert st s).notices = s.notices ∧
    (setAlert st s).intake = s.intake ∧ (setAlert st s).slew = s.slew ∧ (setAlert st s).lift = s.lift ∧
    (setAlert st s).queue = s.queue ∧ (setAlert st s).tally = s.tally ∧ (setAlert st s).active = s.active ∧
    (setAlert st s).staging = s.staging ∧ (setAlert st s).mgmt = s.mgmt ∧ (setAlert st s).trace = s.trace := by
  refine ⟨rfl, rfl, rfl, rfl, rfl, rfl, rfl, rfl, rfl, rfl, rfl, rfl, rfl, rfl, rfl, rfl, rfl, rfl, rfl⟩

/-- What `trackChange` leaves as it was. -/
@[simp] theorem trackChange_keeps (st : SupState) (s : State) :
    (trackChange st s).pending = s.pending ∧ (trackChange st s).choices = s.choices ∧
    (trackChange st s).inReset = s.inReset ∧ (trackChange st s).clock = s.clock ∧
    (trackChange st s).strapValue = s.strapValue ∧ (trackChange st s).station = s.station ∧
    (trackChange st s).cab = s.cab ∧ (trackChange st s).crane = s.crane ∧
    (trackChange st s).conditions = s.conditions ∧ (trackChange st s).notices = s.notices ∧
    (trackChange st s).intake = s.intake ∧ (trackChange st s).slew = s.slew ∧ (trackChange st s).queue = s.queue ∧
    (trackChange st s).tally = s.tally ∧ (trackChange st s).sup = s.sup ∧ (trackChange st s).active = s.active ∧
    (trackChange st s).staging = s.staging ∧ (trackChange st s).mgmt = s.mgmt ∧ (trackChange st s).trace = s.trace := by
  generalize h : trackChange st s = r
  unfold trackChange at h
  try dsimp only at h
  (repeat' split at h) <;> subst h <;> simp

/-- What `trackPeak` leaves as it was. -/
@[simp] theorem trackPeak_keeps (s : State) :
    (trackPeak s).pending = s.pending ∧ (trackPeak s).choices = s.choices ∧ (trackPeak s).inReset = s.inReset ∧
    (trackPeak s).clock = s.clock ∧ (trackPeak s).strapValue = s.strapValue ∧ (trackPeak s).station = s.station ∧
    (trackPeak s).cab = s.cab ∧ (trackPeak s).crane = s.crane ∧ (trackPeak s).conditions = s.conditions ∧
    (trackPeak s).notices = s.notices ∧ (trackPeak s).intake = s.intake ∧ (trackPeak s).slew = s.slew ∧
    (trackPeak s).queue = s.queue ∧ (trackPeak s).tally = s.tally ∧ (trackPeak s).sup = s.sup ∧
    (trackPeak s).active = s.active ∧ (trackPeak s).staging = s.staging ∧ (trackPeak s).mgmt = s.mgmt ∧
    (trackPeak s).trace = s.trace := by
  generalize h : trackPeak s = r
  unfold trackPeak at h
  try dsimp only at h
  (repeat' split at h) <;> subst h <;> simp

/-- What `notifyAll` leaves as it was. -/
@[simp] theorem notifyAll_keeps (ks : List NoticeKind) (s : State) :
    ((ks.foldl (fun s k => s.notify k) s)).pending = s.pending ∧
    ((ks.foldl (fun s k => s.notify k) s)).choices = s.choices ∧
    ((ks.foldl (fun s k => s.notify k) s)).inReset = s.inReset ∧
    ((ks.foldl (fun s k => s.notify k) s)).clock = s.clock ∧
    ((ks.foldl (fun s k => s.notify k) s)).strapValue = s.strapValue ∧
    ((ks.foldl (fun s k => s.notify k) s)).station = s.station ∧
    ((ks.foldl (fun s k => s.notify k) s)).crane = s.crane ∧
    ((ks.foldl (fun s k => s.notify k) s)).conditions = s.conditions ∧
    ((ks.foldl (fun s k => s.notify k) s)).intake = s.intake ∧ ((ks.foldl (fun s k => s.notify k) s)).slew = s.slew ∧
    ((ks.foldl (fun s k => s.notify k) s)).lift = s.lift ∧ ((ks.foldl (fun s k => s.notify k) s)).queue = s.queue ∧
    ((ks.foldl (fun s k => s.notify k) s)).tally = s.tally ∧ ((ks.foldl (fun s k => s.notify k) s)).sup = s.sup ∧
    ((ks.foldl (fun s k => s.notify k) s)).active = s.active ∧
    ((ks.foldl (fun s k => s.notify k) s)).staging = s.staging ∧
    ((ks.foldl (fun s k => s.notify k) s)).mgmt = s.mgmt ∧ ((ks.foldl (fun s k => s.notify k) s)).trace = s.trace := by
  induction ks generalizing s with
  | nil => simp
  | cons k ks ih => simp [ih]

/-- What `changeState` leaves as it was. -/
@[simp] theorem changeState_keeps (st : SupState) (s : State) :
    (changeState st s).pending = s.pending ∧ (changeState st s).choices = s.choices ∧
    (changeState st s).inReset = s.inReset ∧ (changeState st s).clock = s.clock ∧
    (changeState st s).strapValue = s.strapValue ∧ (changeState st s).station = s.station ∧
    (changeState st s).crane = s.crane ∧ (changeState st s).intake = s.intake ∧ (changeState st s).slew = s.slew ∧
    (changeState st s).queue = s.queue ∧ (changeState st s).tally = s.tally ∧ (changeState st s).active = s.active ∧
    (changeState st s).staging = s.staging ∧ (changeState st s).mgmt = s.mgmt := by
  generalize h : changeState st s = r
  unfold changeState at h
  try dsimp only at h
  (repeat' split at h) <;> subst h <;> simp

/-- What `evaluate` leaves as it was. -/
@[simp] theorem evaluate_keeps (s : State) :
    (evaluate s).pending = s.pending ∧ (evaluate s).choices = s.choices ∧ (evaluate s).inReset = s.inReset ∧
    (evaluate s).clock = s.clock ∧ (evaluate s).strapValue = s.strapValue ∧ (evaluate s).station = s.station ∧
    (evaluate s).crane = s.crane ∧ (evaluate s).intake = s.intake ∧ (evaluate s).slew = s.slew ∧
    (evaluate s).queue = s.queue ∧ (evaluate s).tally = s.tally ∧ (evaluate s).active = s.active ∧
    (evaluate s).staging = s.staging ∧ (evaluate s).mgmt = s.mgmt := by
  simp [evaluate]

/-- What `supFSample` leaves as it was. -/
@[simp] theorem supFSample_keeps (v : Int) (s : State) :
    (supFSample v s).pending = s.pending ∧ (supFSample v s).choices = s.choices ∧
    (supFSample v s).inReset = s.inReset ∧ (supFSample v s).clock = s.clock ∧
    (supFSample v s).strapValue = s.strapValue ∧ (supFSample v s).station = s.station ∧
    (supFSample v s).crane = s.crane ∧ (supFSample v s).intake = s.intake ∧ (supFSample v s).slew = s.slew ∧
    (supFSample v s).queue = s.queue ∧ (supFSample v s).tally = s.tally ∧ (supFSample v s).active = s.active ∧
    (supFSample v s).staging = s.staging ∧ (supFSample v s).mgmt = s.mgmt := by
  simp [supFSample]

/-- What `supFExpiry` leaves as it was. -/
@[simp] theorem supFExpiry_keeps (s : State) :
    (supFExpiry s).pending = s.pending ∧ (supFExpiry s).choices = s.choices ∧ (supFExpiry s).inReset = s.inReset ∧
    (supFExpiry s).clock = s.clock ∧ (supFExpiry s).strapValue = s.strapValue ∧ (supFExpiry s).station = s.station ∧
    (supFExpiry s).crane = s.crane ∧ (supFExpiry s).intake = s.intake ∧ (supFExpiry s).slew = s.slew ∧
    (supFExpiry s).queue = s.queue ∧ (supFExpiry s).tally = s.tally ∧ (supFExpiry s).active = s.active ∧
    (supFExpiry s).staging = s.staging ∧ (supFExpiry s).mgmt = s.mgmt := by
  simp [supFExpiry]

/-- What `supSectorChange` leaves as it was. -/
@[simp] theorem supSectorChange_keeps (i : Option Nat) (s : State) :
    (supSectorChange i s).pending = s.pending ∧ (supSectorChange i s).choices = s.choices ∧
    (supSectorChange i s).inReset = s.inReset ∧ (supSectorChange i s).clock = s.clock ∧
    (supSectorChange i s).strapValue = s.strapValue ∧ (supSectorChange i s).station = s.station ∧
    (supSectorChange i s).crane = s.crane ∧ (supSectorChange i s).intake = s.intake ∧
    (supSectorChange i s).slew = s.slew ∧ (supSectorChange i s).queue = s.queue ∧
    (supSectorChange i s).tally = s.tally ∧ (supSectorChange i s).active = s.active ∧
    (supSectorChange i s).staging = s.staging ∧ (supSectorChange i s).mgmt = s.mgmt := by
  simp [supSectorChange]

/-- What `supClassChange` leaves as it was. -/
@[simp] theorem supClassChange_keeps (c : Nat) (s : State) :
    (supClassChange c s).pending = s.pending ∧ (supClassChange c s).choices = s.choices ∧
    (supClassChange c s).inReset = s.inReset ∧ (supClassChange c s).clock = s.clock ∧
    (supClassChange c s).strapValue = s.strapValue ∧ (supClassChange c s).station = s.station ∧
    (supClassChange c s).crane = s.crane ∧ (supClassChange c s).intake = s.intake ∧
    (supClassChange c s).slew = s.slew ∧ (supClassChange c s).queue = s.queue ∧
    (supClassChange c s).tally = s.tally ∧ (supClassChange c s).active = s.active ∧
    (supClassChange c s).staging = s.staging ∧ (supClassChange c s).mgmt = s.mgmt := by
  simp [supClassChange]

/-- What `supActivation` leaves as it was. -/
@[simp] theorem supActivation_keeps (s : State) :
    (supActivation s).pending = s.pending ∧ (supActivation s).choices = s.choices ∧
    (supActivation s).inReset = s.inReset ∧ (supActivation s).clock = s.clock ∧
    (supActivation s).strapValue = s.strapValue ∧ (supActivation s).station = s.station ∧
    (supActivation s).crane = s.crane ∧ (supActivation s).intake = s.intake ∧ (supActivation s).slew = s.slew ∧
    (supActivation s).queue = s.queue ∧ (supActivation s).tally = s.tally ∧ (supActivation s).active = s.active ∧
    (supActivation s).staging = s.staging ∧ (supActivation s).mgmt = s.mgmt := by
  simp [supActivation]

/-- What `supServiceChange` leaves as it was. -/
@[simp] theorem supServiceChange_keeps (b : Bool) (s : State) :
    (supServiceChange b s).pending = s.pending ∧ (supServiceChange b s).choices = s.choices ∧
    (supServiceChange b s).inReset = s.inReset ∧ (supServiceChange b s).clock = s.clock ∧
    (supServiceChange b s).strapValue = s.strapValue ∧ (supServiceChange b s).station = s.station ∧
    (supServiceChange b s).crane = s.crane ∧ (supServiceChange b s).intake = s.intake ∧
    (supServiceChange b s).slew = s.slew ∧ (supServiceChange b s).queue = s.queue ∧
    (supServiceChange b s).tally = s.tally ∧ (supServiceChange b s).active = s.active ∧
    (supServiceChange b s).staging = s.staging ∧ (supServiceChange b s).mgmt = s.mgmt := by
  generalize h : supServiceChange b s = r
  unfold supServiceChange at h
  try dsimp only at h
  (repeat' split at h) <;> subst h <;> simp

/-- What `trackStart` leaves as it was. -/
@[simp] theorem trackStart_keeps (s : State) :
    (trackStart s).pending = s.pending ∧ (trackStart s).choices = s.choices ∧ (trackStart s).inReset = s.inReset ∧
    (trackStart s).clock = s.clock ∧ (trackStart s).strapValue = s.strapValue ∧ (trackStart s).station = s.station ∧
    (trackStart s).cab = s.cab ∧ (trackStart s).crane = s.crane ∧ (trackStart s).conditions = s.conditions ∧
    (trackStart s).notices = s.notices ∧ (trackStart s).intake = s.intake ∧ (trackStart s).slew = s.slew ∧
    (trackStart s).queue = s.queue ∧ (trackStart s).tally = s.tally ∧ (trackStart s).active = s.active ∧
    (trackStart s).staging = s.staging ∧ (trackStart s).mgmt = s.mgmt ∧ (trackStart s).trace = s.trace := by
  simp [trackStart]

/-- What `trackStop` leaves as it was. -/
@[simp] theorem trackStop_keeps (s : State) :
    (trackStop s).pending = s.pending ∧ (trackStop s).choices = s.choices ∧ (trackStop s).inReset = s.inReset ∧
    (trackStop s).clock = s.clock ∧ (trackStop s).strapValue = s.strapValue ∧ (trackStop s).station = s.station ∧
    (trackStop s).cab = s.cab ∧ (trackStop s).crane = s.crane ∧ (trackStop s).conditions = s.conditions ∧
    (trackStop s).notices = s.notices ∧ (trackStop s).intake = s.intake ∧ (trackStop s).slew = s.slew ∧
    (trackStop s).lift = s.lift ∧ (trackStop s).queue = s.queue ∧ (trackStop s).tally = s.tally ∧
    (trackStop s).active = s.active ∧ (trackStop s).staging = s.staging ∧ (trackStop s).mgmt = s.mgmt ∧
    (trackStop s).trace = s.trace := by
  refine ⟨rfl, rfl, rfl, rfl, rfl, rfl, rfl, rfl, rfl, rfl, rfl, rfl, rfl, rfl, rfl, rfl, rfl, rfl, rfl⟩

/-- What `alertToggle` leaves as it was. -/
@[simp] theorem alertToggle_keeps (s : State) :
    (alertToggle s).pending = s.pending ∧ (alertToggle s).choices = s.choices ∧ (alertToggle s).inReset = s.inReset ∧
    (alertToggle s).clock = s.clock ∧ (alertToggle s).strapValue = s.strapValue ∧
    (alertToggle s).station = s.station ∧ (alertToggle s).cab = s.cab ∧ (alertToggle s).crane = s.crane ∧
    (alertToggle s).conditions = s.conditions ∧ (alertToggle s).notices = s.notices ∧
    (alertToggle s).intake = s.intake ∧ (alertToggle s).slew = s.slew ∧ (alertToggle s).lift = s.lift ∧
    (alertToggle s).queue = s.queue ∧ (alertToggle s).tally = s.tally ∧ (alertToggle s).active = s.active ∧
    (alertToggle s).staging = s.staging ∧ (alertToggle s).mgmt = s.mgmt ∧ (alertToggle s).trace = s.trace := by
  generalize h : alertToggle s = r
  unfold alertToggle at h
  try dsimp only at h
  (repeat' split at h) <;> subst h <;> simp

end Sys2Proof.Machine
end

