-- ==== Sys2Proof/Laws/Tally.lean ====
section
/-! SUPPORT. What each operation of the lift queue and the tally leaves as it was. -/

namespace Sys2Proof.Machine

/-- What `judgeClass` leaves as it was. -/
@[simp] theorem judgeClass_keeps (s : State) :
    (judgeClass s).pending = s.pending ∧ (judgeClass s).choices = s.choices ∧ (judgeClass s).inReset = s.inReset ∧
    (judgeClass s).clock = s.clock ∧ (judgeClass s).strapValue = s.strapValue ∧ (judgeClass s).station = s.station ∧
    (judgeClass s).crane = s.crane ∧ (judgeClass s).intake = s.intake ∧ (judgeClass s).slew = s.slew ∧
    (judgeClass s).queue = s.queue ∧ (judgeClass s).active = s.active ∧ (judgeClass s).staging = s.staging ∧
    (judgeClass s).mgmt = s.mgmt := by
  generalize h : judgeClass s = r
  unfold judgeClass at h
  try dsimp only at h
  (repeat' split at h) <;> subst h <;> simp

/-- What `raiseBunkNotices` leaves as it was. -/
@[simp] theorem raiseBunkNotices_keeps (m : MachineRecord) (s : State) :
    (raiseBunkNotices m s).pending = s.pending ∧ (raiseBunkNotices m s).choices = s.choices ∧
    (raiseBunkNotices m s).inReset = s.inReset ∧ (raiseBunkNotices m s).clock = s.clock ∧
    (raiseBunkNotices m s).strapValue = s.strapValue ∧ (raiseBunkNotices m s).station = s.station ∧
    (raiseBunkNotices m s).crane = s.crane ∧ (raiseBunkNotices m s).conditions = s.conditions ∧
    (raiseBunkNotices m s).intake = s.intake ∧ (raiseBunkNotices m s).slew = s.slew ∧
    (raiseBunkNotices m s).lift = s.lift ∧ (raiseBunkNotices m s).queue = s.queue ∧
    (raiseBunkNotices m s).sup = s.sup ∧ (raiseBunkNotices m s).active = s.active ∧
    (raiseBunkNotices m s).staging = s.staging ∧ (raiseBunkNotices m s).mgmt = s.mgmt ∧
    (raiseBunkNotices m s).trace = s.trace := by
  generalize h : raiseBunkNotices m s = r
  unfold raiseBunkNotices at h
  try dsimp only at h
  (repeat' split at h) <;> subst h <;> simp

/-- What `setBunkArms` leaves as it was. -/
@[simp] theorem setBunkArms_keeps (m : MachineRecord) (s : State) :
    (setBunkArms m s).pending = s.pending ∧ (setBunkArms m s).choices = s.choices ∧
    (setBunkArms m s).inReset = s.inReset ∧ (setBunkArms m s).clock = s.clock ∧
    (setBunkArms m s).strapValue = s.strapValue ∧ (setBunkArms m s).station = s.station ∧
    (setBunkArms m s).cab = s.cab ∧ (setBunkArms m s).crane = s.crane ∧ (setBunkArms m s).conditions = s.conditions ∧
    (setBunkArms m s).notices = s.notices ∧ (setBunkArms m s).intake = s.intake ∧ (setBunkArms m s).slew = s.slew ∧
    (setBunkArms m s).lift = s.lift ∧ (setBunkArms m s).queue = s.queue ∧ (setBunkArms m s).sup = s.sup ∧
    (setBunkArms m s).active = s.active ∧ (setBunkArms m s).staging = s.staging ∧ (setBunkArms m s).mgmt = s.mgmt ∧
    (setBunkArms m s).trace = s.trace := by
  refine ⟨rfl, rfl, rfl, rfl, rfl, rfl, rfl, rfl, rfl, rfl, rfl, rfl, rfl, rfl, rfl, rfl, rfl, rfl, rfl⟩

/-- What `afterBooking` leaves as it was. -/
@[simp] theorem afterBooking_keeps (n : Nat) (s : State) :
    (afterBooking n s).pending = s.pending ∧ (afterBooking n s).choices = s.choices ∧
    (afterBooking n s).inReset = s.inReset ∧ (afterBooking n s).clock = s.clock ∧
    (afterBooking n s).strapValue = s.strapValue ∧ (afterBooking n s).station = s.station ∧
    (afterBooking n s).crane = s.crane ∧ (afterBooking n s).intake = s.intake ∧ (afterBooking n s).slew = s.slew ∧
    (afterBooking n s).queue = s.queue ∧ (afterBooking n s).active = s.active ∧
    (afterBooking n s).staging = s.staging ∧ (afterBooking n s).mgmt = s.mgmt := by
  generalize h : afterBooking n s = r
  unfold afterBooking at h
  try dsimp only at h
  (repeat' split at h) <;> subst h <;> simp

/-- What `book` leaves as it was. -/
@[simp] theorem book_keeps (r : LiftRecord) (s : State) :
    (book r s).pending = s.pending ∧ (book r s).choices = s.choices ∧ (book r s).inReset = s.inReset ∧
    (book r s).clock = s.clock ∧ (book r s).strapValue = s.strapValue ∧ (book r s).station = s.station ∧
    (book r s).crane = s.crane ∧ (book r s).intake = s.intake ∧ (book r s).slew = s.slew ∧
    (book r s).queue = s.queue ∧ (book r s).active = s.active ∧ (book r s).staging = s.staging ∧
    (book r s).mgmt = s.mgmt := by
  simp [book]

/-- What `fileRecord` leaves as it was. -/
@[simp] theorem fileRecord_keeps (r : LiftRecord) (s : State) :
    (fileRecord r s).pending = s.pending ∧ (fileRecord r s).choices = s.choices ∧
    (fileRecord r s).inReset = s.inReset ∧ (fileRecord r s).clock = s.clock ∧
    (fileRecord r s).strapValue = s.strapValue ∧ (fileRecord r s).station = s.station ∧
    (fileRecord r s).crane = s.crane ∧ (fileRecord r s).intake = s.intake ∧ (fileRecord r s).slew = s.slew ∧
    (fileRecord r s).lift = s.lift ∧ (fileRecord r s).tally = s.tally ∧ (fileRecord r s).sup = s.sup ∧
    (fileRecord r s).active = s.active ∧ (fileRecord r s).staging = s.staging ∧ (fileRecord r s).mgmt = s.mgmt ∧
    (fileRecord r s).trace = s.trace := by
  generalize h : fileRecord r s = r
  unfold fileRecord at h
  try dsimp only at h
  (repeat' split at h) <;> subst h <;> simp

/-- What `handOver` leaves as it was. -/
@[simp] theorem handOver_keeps (e : LiftEnding) (l : OpenLift) (n : BitVec 16 × BitVec 16) (s : State) :
    (handOver e l n s).pending = s.pending ∧ (handOver e l n s).choices = s.choices ∧
    (handOver e l n s).inReset = s.inReset ∧ (handOver e l n s).clock = s.clock ∧
    (handOver e l n s).strapValue = s.strapValue ∧ (handOver e l n s).station = s.station ∧
    (handOver e l n s).crane = s.crane ∧ (handOver e l n s).intake = s.intake ∧ (handOver e l n s).slew = s.slew ∧
    (handOver e l n s).active = s.active ∧ (handOver e l n s).staging = s.staging ∧
    (handOver e l n s).mgmt = s.mgmt := by
  simp [handOver]

/-- What `armAfterRemoval` leaves as it was. -/
@[simp] theorem armAfterRemoval_keeps (s : State) :
    (armAfterRemoval s).pending = s.pending ∧ (armAfterRemoval s).choices = s.choices ∧
    (armAfterRemoval s).inReset = s.inReset ∧ (armAfterRemoval s).clock = s.clock ∧
    (armAfterRemoval s).strapValue = s.strapValue ∧ (armAfterRemoval s).station = s.station ∧
    (armAfterRemoval s).cab = s.cab ∧ (armAfterRemoval s).crane = s.crane ∧
    (armAfterRemoval s).conditions = s.conditions ∧ (armAfterRemoval s).notices = s.notices ∧
    (armAfterRemoval s).intake = s.intake ∧ (armAfterRemoval s).slew = s.slew ∧ (armAfterRemoval s).lift = s.lift ∧
    (armAfterRemoval s).tally = s.tally ∧ (armAfterRemoval s).sup = s.sup ∧ (armAfterRemoval s).active = s.active ∧
    (armAfterRemoval s).staging = s.staging ∧ (armAfterRemoval s).mgmt = s.mgmt ∧
    (armAfterRemoval s).trace = s.trace := by
  generalize h : armAfterRemoval s = r
  unfold armAfterRemoval at h
  try dsimp only at h
  (repeat' split at h) <;> subst h <;> simp

/-- What `removeLifts` leaves as it was. -/
@[simp] theorem removeLifts_keeps (rs : List LiftRecord) (s : State) :
    (removeLifts rs s).pending = s.pending ∧ (removeLifts rs s).choices = s.choices ∧
    (removeLifts rs s).inReset = s.inReset ∧ (removeLifts rs s).clock = s.clock ∧
    (removeLifts rs s).strapValue = s.strapValue ∧ (removeLifts rs s).station = s.station ∧
    (removeLifts rs s).cab = s.cab ∧ (removeLifts rs s).crane = s.crane ∧
    (removeLifts rs s).conditions = s.conditions ∧ (removeLifts rs s).notices = s.notices ∧
    (removeLifts rs s).intake = s.intake ∧ (removeLifts rs s).slew = s.slew ∧ (removeLifts rs s).lift = s.lift ∧
    (removeLifts rs s).tally = s.tally ∧ (removeLifts rs s).sup = s.sup ∧ (removeLifts rs s).active = s.active ∧
    (removeLifts rs s).staging = s.staging ∧ (removeLifts rs s).mgmt = s.mgmt ∧ (removeLifts rs s).trace = s.trace := by
  simp [removeLifts]

/-- What `clearBunk` leaves as it was. -/
@[simp] theorem clearBunk_keeps (s : State) :
    (clearBunk s).pending = s.pending ∧ (clearBunk s).choices = s.choices ∧ (clearBunk s).inReset = s.inReset ∧
    (clearBunk s).clock = s.clock ∧ (clearBunk s).strapValue = s.strapValue ∧ (clearBunk s).station = s.station ∧
    (clearBunk s).crane = s.crane ∧ (clearBunk s).intake = s.intake ∧ (clearBunk s).slew = s.slew ∧
    (clearBunk s).queue = s.queue ∧ (clearBunk s).active = s.active ∧ (clearBunk s).staging = s.staging ∧
    (clearBunk s).mgmt = s.mgmt := by
  generalize h : clearBunk s = r
  unfold clearBunk at h
  try dsimp only at h
  (repeat' split at h) <;> subst h <;> simp

/-- What `queueActivation` leaves as it was. -/
@[simp] theorem queueActivation_keeps (m : MachineRecord) (s : State) :
    (queueActivation m s).pending = s.pending ∧ (queueActivation m s).choices = s.choices ∧
    (queueActivation m s).inReset = s.inReset ∧ (queueActivation m s).clock = s.clock ∧
    (queueActivation m s).strapValue = s.strapValue ∧ (queueActivation m s).station = s.station ∧
    (queueActivation m s).crane = s.crane ∧ (queueActivation m s).conditions = s.conditions ∧
    (queueActivation m s).intake = s.intake ∧ (queueActivation m s).slew = s.slew ∧
    (queueActivation m s).lift = s.lift ∧ (queueActivation m s).tally = s.tally ∧ (queueActivation m s).sup = s.sup ∧
    (queueActivation m s).active = s.active ∧ (queueActivation m s).staging = s.staging ∧
    (queueActivation m s).mgmt = s.mgmt ∧ (queueActivation m s).trace = s.trace := by
  generalize h : queueActivation m s = r
  unfold queueActivation at h
  try dsimp only at h
  (repeat' split at h) <;> subst h <;> simp

/-- What `tallyActivation` leaves as it was. -/
@[simp] theorem tallyActivation_keeps (m : MachineRecord) (s : State) :
    (tallyActivation m s).pending = s.pending ∧ (tallyActivation m s).choices = s.choices ∧
    (tallyActivation m s).inReset = s.inReset ∧ (tallyActivation m s).clock = s.clock ∧
    (tallyActivation m s).strapValue = s.strapValue ∧ (tallyActivation m s).station = s.station ∧
    (tallyActivation m s).crane = s.crane ∧ (tallyActivation m s).intake = s.intake ∧
    (tallyActivation m s).slew = s.slew ∧ (tallyActivation m s).queue = s.queue ∧
    (tallyActivation m s).active = s.active ∧ (tallyActivation m s).staging = s.staging ∧
    (tallyActivation m s).mgmt = s.mgmt := by
  simp [tallyActivation]

end Sys2Proof.Machine
end

