-- ==== Sys2Proof/Laws/Lift.lean ====
section
/-! SUPPORT. What each operation of the lift controller leaves as it was. -/

namespace Sys2Proof.Machine

/-- What `enterLiftState` leaves as it was. -/
@[simp] theorem enterLiftState_keeps (st : LiftState) (s : State) :
    (enterLiftState st s).pending = s.pending ∧ (enterLiftState st s).choices = s.choices ∧
    (enterLiftState st s).inReset = s.inReset ∧ (enterLiftState st s).clock = s.clock ∧
    (enterLiftState st s).strapValue = s.strapValue ∧ (enterLiftState st s).station = s.station ∧
    (enterLiftState st s).cab = s.cab ∧ (enterLiftState st s).crane = s.crane ∧
    (enterLiftState st s).notices = s.notices ∧ (enterLiftState st s).intake = s.intake ∧
    (enterLiftState st s).slew = s.slew ∧ (enterLiftState st s).queue = s.queue ∧
    (enterLiftState st s).tally = s.tally ∧ (enterLiftState st s).sup = s.sup ∧
    (enterLiftState st s).active = s.active ∧ (enterLiftState st s).staging = s.staging ∧
    (enterLiftState st s).mgmt = s.mgmt := by
  simp [enterLiftState]

/-- What `applyPendingTool` leaves as it was. -/
@[simp] theorem applyPendingTool_keeps (s : State) :
    (applyPendingTool s).pending = s.pending ∧ (applyPendingTool s).choices = s.choices ∧
    (applyPendingTool s).inReset = s.inReset ∧ (applyPendingTool s).clock = s.clock ∧
    (applyPendingTool s).strapValue = s.strapValue ∧ (applyPendingTool s).station = s.station ∧
    (applyPendingTool s).cab = s.cab ∧ (applyPendingTool s).crane = s.crane ∧
    (applyPendingTool s).conditions = s.conditions ∧ (applyPendingTool s).notices = s.notices ∧
    (applyPendingTool s).intake = s.intake ∧ (applyPendingTool s).slew = s.slew ∧
    (applyPendingTool s).queue = s.queue ∧ (applyPendingTool s).tally = s.tally ∧ (applyPendingTool s).sup = s.sup ∧
    (applyPendingTool s).active = s.active ∧ (applyPendingTool s).staging = s.staging ∧
    (applyPendingTool s).mgmt = s.mgmt ∧ (applyPendingTool s).trace = s.trace := by
  generalize h : applyPendingTool s = r
  unfold applyPendingTool at h
  try dsimp only at h
  (repeat' split at h) <;> subst h <;> simp

/-- What `enterEmpty` leaves as it was. -/
@[simp] theorem enterEmpty_keeps (s : State) :
    (enterEmpty s).pending = s.pending ∧ (enterEmpty s).choices = s.choices ∧ (enterEmpty s).inReset = s.inReset ∧
    (enterEmpty s).clock = s.clock ∧ (enterEmpty s).strapValue = s.strapValue ∧ (enterEmpty s).station = s.station ∧
    (enterEmpty s).cab = s.cab ∧ (enterEmpty s).crane = s.crane ∧ (enterEmpty s).notices = s.notices ∧
    (enterEmpty s).intake = s.intake ∧ (enterEmpty s).slew = s.slew ∧ (enterEmpty s).queue = s.queue ∧
    (enterEmpty s).tally = s.tally ∧ (enterEmpty s).sup = s.sup ∧ (enterEmpty s).active = s.active ∧
    (enterEmpty s).staging = s.staging ∧ (enterEmpty s).mgmt = s.mgmt := by
  simp [enterEmpty]

/-- What `noteMass` leaves as it was. -/
@[simp] theorem noteMass_keeps (x : Sample) (s : State) :
    (noteMass x s).pending = s.pending ∧ (noteMass x s).choices = s.choices ∧ (noteMass x s).inReset = s.inReset ∧
    (noteMass x s).clock = s.clock ∧ (noteMass x s).strapValue = s.strapValue ∧ (noteMass x s).station = s.station ∧
    (noteMass x s).cab = s.cab ∧ (noteMass x s).crane = s.crane ∧ (noteMass x s).conditions = s.conditions ∧
    (noteMass x s).notices = s.notices ∧ (noteMass x s).intake = s.intake ∧ (noteMass x s).slew = s.slew ∧
    (noteMass x s).queue = s.queue ∧ (noteMass x s).tally = s.tally ∧ (noteMass x s).sup = s.sup ∧
    (noteMass x s).active = s.active ∧ (noteMass x s).staging = s.staging ∧ (noteMass x s).mgmt = s.mgmt ∧
    (noteMass x s).trace = s.trace := by
  generalize h : noteMass x s = r
  unfold noteMass at h
  try dsimp only at h
  (repeat' split at h) <;> subst h <;> simp

/-- What `noteStatic` leaves as it was. -/
@[simp] theorem noteStatic_keeps (x : Sample) (s : State) :
    (noteStatic x s).pending = s.pending ∧ (noteStatic x s).choices = s.choices ∧
    (noteStatic x s).inReset = s.inReset ∧ (noteStatic x s).clock = s.clock ∧
    (noteStatic x s).strapValue = s.strapValue ∧ (noteStatic x s).station = s.station ∧
    (noteStatic x s).cab = s.cab ∧ (noteStatic x s).crane = s.crane ∧ (noteStatic x s).conditions = s.conditions ∧
    (noteStatic x s).notices = s.notices ∧ (noteStatic x s).intake = s.intake ∧ (noteStatic x s).slew = s.slew ∧
    (noteStatic x s).queue = s.queue ∧ (noteStatic x s).tally = s.tally ∧ (noteStatic x s).sup = s.sup ∧
    (noteStatic x s).active = s.active ∧ (noteStatic x s).staging = s.staging ∧ (noteStatic x s).mgmt = s.mgmt ∧
    (noteStatic x s).trace = s.trace := by
  generalize h : noteStatic x s = r
  unfold noteStatic at h
  try dsimp only at h
  (repeat' split at h) <;> subst h <;> simp

/-- What `clearWindow` leaves as it was. -/
@[simp] theorem clearWindow_keeps (s : State) :
    (clearWindow s).pending = s.pending ∧ (clearWindow s).choices = s.choices ∧ (clearWindow s).inReset = s.inReset ∧
    (clearWindow s).clock = s.clock ∧ (clearWindow s).strapValue = s.strapValue ∧
    (clearWindow s).station = s.station ∧ (clearWindow s).cab = s.cab ∧ (clearWindow s).crane = s.crane ∧
    (clearWindow s).conditions = s.conditions ∧ (clearWindow s).notices = s.notices ∧
    (clearWindow s).intake = s.intake ∧ (clearWindow s).slew = s.slew ∧ (clearWindow s).queue = s.queue ∧
    (clearWindow s).tally = s.tally ∧ (clearWindow s).sup = s.sup ∧ (clearWindow s).active = s.active ∧
    (clearWindow s).staging = s.staging ∧ (clearWindow s).mgmt = s.mgmt ∧ (clearWindow s).trace = s.trace := by
  refine ⟨rfl, rfl, rfl, rfl, rfl, rfl, rfl, rfl, rfl, rfl, rfl, rfl, rfl, rfl, rfl, rfl, rfl, rfl, rfl⟩

/-- What `countAttempt` leaves as it was. -/
@[simp] theorem countAttempt_keeps (s : State) :
    (countAttempt s).pending = s.pending ∧ (countAttempt s).choices = s.choices ∧
    (countAttempt s).inReset = s.inReset ∧ (countAttempt s).clock = s.clock ∧
    (countAttempt s).strapValue = s.strapValue ∧ (countAttempt s).station = s.station ∧
    (countAttempt s).cab = s.cab ∧ (countAttempt s).crane = s.crane ∧ (countAttempt s).conditions = s.conditions ∧
    (countAttempt s).notices = s.notices ∧ (countAttempt s).intake = s.intake ∧ (countAttempt s).slew = s.slew ∧
    (countAttempt s).queue = s.queue ∧ (countAttempt s).tally = s.tally ∧ (countAttempt s).sup = s.sup ∧
    (countAttempt s).active = s.active ∧ (countAttempt s).staging = s.staging ∧ (countAttempt s).mgmt = s.mgmt ∧
    (countAttempt s).trace = s.trace := by
  refine ⟨rfl, rfl, rfl, rfl, rfl, rfl, rfl, rfl, rfl, rfl, rfl, rfl, rfl, rfl, rfl, rfl, rfl, rfl, rfl⟩

/-- What `tareAccepted` leaves as it was. -/
@[simp] theorem tareAccepted_keeps (e : ToolEntry) (m : Nat) (s : State) :
    (tareAccepted e m s).pending = s.pending ∧ (tareAccepted e m s).choices = s.choices ∧
    (tareAccepted e m s).inReset = s.inReset ∧ (tareAccepted e m s).clock = s.clock ∧
    (tareAccepted e m s).strapValue = s.strapValue ∧ (tareAccepted e m s).station = s.station ∧
    (tareAccepted e m s).crane = s.crane ∧ (tareAccepted e m s).intake = s.intake ∧
    (tareAccepted e m s).slew = s.slew ∧ (tareAccepted e m s).queue = s.queue ∧
    (tareAccepted e m s).tally = s.tally ∧ (tareAccepted e m s).sup = s.sup ∧
    (tareAccepted e m s).active = s.active ∧ (tareAccepted e m s).staging = s.staging ∧
    (tareAccepted e m s).mgmt = s.mgmt := by
  generalize h : tareAccepted e m s = r
  unfold tareAccepted at h
  try dsimp only at h
  (repeat' split at h) <;> subst h <;> simp

/-- What `liftWeighed` leaves as it was. -/
@[simp] theorem liftWeighed_keeps (m : Nat) (s : State) :
    (liftWeighed m s).pending = s.pending ∧ (liftWeighed m s).choices = s.choices ∧
    (liftWeighed m s).inReset = s.inReset ∧ (liftWeighed m s).clock = s.clock ∧
    (liftWeighed m s).strapValue = s.strapValue ∧ (liftWeighed m s).station = s.station ∧
    (liftWeighed m s).cab = s.cab ∧ (liftWeighed m s).crane = s.crane ∧ (liftWeighed m s).notices = s.notices ∧
    (liftWeighed m s).intake = s.intake ∧ (liftWeighed m s).slew = s.slew ∧ (liftWeighed m s).queue = s.queue ∧
    (liftWeighed m s).tally = s.tally ∧ (liftWeighed m s).sup = s.sup ∧ (liftWeighed m s).active = s.active ∧
    (liftWeighed m s).staging = s.staging ∧ (liftWeighed m s).mgmt = s.mgmt := by
  simp [liftWeighed]

/-- What `evaluateWindow` leaves as it was. -/
@[simp] theorem evaluateWindow_keeps (s : State) :
    (evaluateWindow s).pending = s.pending ∧ (evaluateWindow s).choices = s.choices ∧
    (evaluateWindow s).inReset = s.inReset ∧ (evaluateWindow s).clock = s.clock ∧
    (evaluateWindow s).strapValue = s.strapValue ∧ (evaluateWindow s).station = s.station ∧
    (evaluateWindow s).crane = s.crane ∧ (evaluateWindow s).intake = s.intake ∧ (evaluateWindow s).slew = s.slew ∧
    (evaluateWindow s).queue = s.queue ∧ (evaluateWindow s).tally = s.tally ∧ (evaluateWindow s).sup = s.sup ∧
    (evaluateWindow s).active = s.active ∧ (evaluateWindow s).staging = s.staging ∧
    (evaluateWindow s).mgmt = s.mgmt := by
  generalize h : evaluateWindow s = r
  unfold evaluateWindow at h
  try dsimp only at h
  (repeat' split at h) <;> subst h <;> simp

/-- What `feedWindow` leaves as it was. -/
@[simp] theorem feedWindow_keeps (x : Sample) (s : State) :
    (feedWindow x s).pending = s.pending ∧ (feedWindow x s).choices = s.choices ∧
    (feedWindow x s).inReset = s.inReset ∧ (feedWindow x s).clock = s.clock ∧
    (feedWindow x s).strapValue = s.strapValue ∧ (feedWindow x s).station = s.station ∧
    (feedWindow x s).crane = s.crane ∧ (feedWindow x s).intake = s.intake ∧ (feedWindow x s).slew = s.slew ∧
    (feedWindow x s).queue = s.queue ∧ (feedWindow x s).tally = s.tally ∧ (feedWindow x s).sup = s.sup ∧
    (feedWindow x s).active = s.active ∧ (feedWindow x s).staging = s.staging ∧ (feedWindow x s).mgmt = s.mgmt := by
  generalize h : feedWindow x s = r
  unfold feedWindow at h
  try dsimp only at h
  (repeat' split at h) <;> subst h <;> simp

/-- What `takeNumber` leaves as it was. -/
@[simp] theorem takeNumber_keeps (s : State) :
    (takeNumber s).pending = s.pending ∧ (takeNumber s).choices = s.choices ∧ (takeNumber s).inReset = s.inReset ∧
    (takeNumber s).clock = s.clock ∧ (takeNumber s).strapValue = s.strapValue ∧ (takeNumber s).station = s.station ∧
    (takeNumber s).cab = s.cab ∧ (takeNumber s).crane = s.crane ∧ (takeNumber s).conditions = s.conditions ∧
    (takeNumber s).notices = s.notices ∧ (takeNumber s).intake = s.intake ∧ (takeNumber s).slew = s.slew ∧
    (takeNumber s).tally = s.tally ∧ (takeNumber s).active = s.active ∧ (takeNumber s).staging = s.staging ∧
    (takeNumber s).mgmt = s.mgmt ∧ (takeNumber s).trace = s.trace := by
  generalize h : takeNumber s = r
  unfold takeNumber at h
  try dsimp only at h
  (repeat' split at h) <;> subst h <;> simp

/-- What `enterLifting` leaves as it was. -/
@[simp] theorem enterLifting_keeps (s : State) :
    (enterLifting s).pending = s.pending ∧ (enterLifting s).choices = s.choices ∧
    (enterLifting s).inReset = s.inReset ∧ (enterLifting s).clock = s.clock ∧
    (enterLifting s).strapValue = s.strapValue ∧ (enterLifting s).station = s.station ∧
    (enterLifting s).cab = s.cab ∧ (enterLifting s).crane = s.crane ∧ (enterLifting s).notices = s.notices ∧
    (enterLifting s).intake = s.intake ∧ (enterLifting s).slew = s.slew ∧ (enterLifting s).tally = s.tally ∧
    (enterLifting s).active = s.active ∧ (enterLifting s).staging = s.staging ∧ (enterLifting s).mgmt = s.mgmt := by
  simp [enterLifting]

/-- What `takeSetDown` leaves as it was. -/
@[simp] theorem takeSetDown_keeps (s : State) :
    (takeSetDown s).pending = s.pending ∧ (takeSetDown s).choices = s.choices ∧ (takeSetDown s).inReset = s.inReset ∧
    (takeSetDown s).clock = s.clock ∧ (takeSetDown s).strapValue = s.strapValue ∧
    (takeSetDown s).station = s.station ∧ (takeSetDown s).cab = s.cab ∧ (takeSetDown s).crane = s.crane ∧
    (takeSetDown s).notices = s.notices ∧ (takeSetDown s).intake = s.intake ∧ (takeSetDown s).slew = s.slew ∧
    (takeSetDown s).queue = s.queue ∧ (takeSetDown s).tally = s.tally ∧ (takeSetDown s).sup = s.sup ∧
    (takeSetDown s).active = s.active ∧ (takeSetDown s).staging = s.staging ∧ (takeSetDown s).mgmt = s.mgmt := by
  simp [takeSetDown]

/-- What `liftingSample` leaves as it was. -/
@[simp] theorem liftingSample_keeps (e : ToolEntry) (x : Sample) (s : State) :
    (liftingSample e x s).pending = s.pending ∧ (liftingSample e x s).choices = s.choices ∧
    (liftingSample e x s).inReset = s.inReset ∧ (liftingSample e x s).clock = s.clock ∧
    (liftingSample e x s).strapValue = s.strapValue ∧ (liftingSample e x s).station = s.station ∧
    (liftingSample e x s).crane = s.crane ∧ (liftingSample e x s).intake = s.intake ∧
    (liftingSample e x s).slew = s.slew ∧ (liftingSample e x s).queue = s.queue ∧
    (liftingSample e x s).tally = s.tally ∧ (liftingSample e x s).sup = s.sup ∧
    (liftingSample e x s).active = s.active ∧ (liftingSample e x s).staging = s.staging ∧
    (liftingSample e x s).mgmt = s.mgmt := by
  generalize h : liftingSample e x s = r
  unfold liftingSample at h
  try dsimp only at h
  (repeat' split at h) <;> subst h <;> simp

/-- What `liftFSample` leaves as it was. -/
@[simp] theorem liftFSample_keeps (v : Int) (a : Option Int) (s : State) :
    (liftFSample v a s).pending = s.pending ∧ (liftFSample v a s).choices = s.choices ∧
    (liftFSample v a s).inReset = s.inReset ∧ (liftFSample v a s).clock = s.clock ∧
    (liftFSample v a s).strapValue = s.strapValue ∧ (liftFSample v a s).station = s.station ∧
    (liftFSample v a s).crane = s.crane ∧ (liftFSample v a s).intake = s.intake ∧ (liftFSample v a s).slew = s.slew ∧
    (liftFSample v a s).tally = s.tally ∧ (liftFSample v a s).active = s.active ∧
    (liftFSample v a s).staging = s.staging ∧ (liftFSample v a s).mgmt = s.mgmt := by
  generalize h : liftFSample v a s = r
  unfold liftFSample at h
  try dsimp only at h
  (repeat' split at h) <;> subst h <;> simp

/-- What `startGripTimer` leaves as it was. -/
@[simp] theorem startGripTimer_keeps (e : ToolEntry) (s : State) :
    (startGripTimer e s).pending = s.pending ∧ (startGripTimer e s).choices = s.choices ∧
    (startGripTimer e s).inReset = s.inReset ∧ (startGripTimer e s).clock = s.clock ∧
    (startGripTimer e s).strapValue = s.strapValue ∧ (startGripTimer e s).station = s.station ∧
    (startGripTimer e s).cab = s.cab ∧ (startGripTimer e s).crane = s.crane ∧
    (startGripTimer e s).conditions = s.conditions ∧ (startGripTimer e s).notices = s.notices ∧
    (startGripTimer e s).intake = s.intake ∧ (startGripTimer e s).slew = s.slew ∧
    (startGripTimer e s).queue = s.queue ∧ (startGripTimer e s).tally = s.tally ∧ (startGripTimer e s).sup = s.sup ∧
    (startGripTimer e s).active = s.active ∧ (startGripTimer e s).staging = s.staging ∧
    (startGripTimer e s).mgmt = s.mgmt ∧ (startGripTimer e s).trace = s.trace := by
  refine ⟨rfl, rfl, rfl, rfl, rfl, rfl, rfl, rfl, rfl, rfl, rfl, rfl, rfl, rfl, rfl, rfl, rfl, rfl, rfl⟩

/-- What `gripPressure` leaves as it was. -/
@[simp] theorem gripPressure_keeps (v : Int) (s : State) :
    (gripPressure v s).pending = s.pending ∧ (gripPressure v s).choices = s.choices ∧
    (gripPressure v s).inReset = s.inReset ∧ (gripPressure v s).clock = s.clock ∧
    (gripPressure v s).strapValue = s.strapValue ∧ (gripPressure v s).station = s.station ∧
    (gripPressure v s).cab = s.cab ∧ (gripPressure v s).crane = s.crane ∧
    (gripPressure v s).conditions = s.conditions ∧ (gripPressure v s).notices = s.notices ∧
    (gripPressure v s).intake = s.intake ∧ (gripPressure v s).slew = s.slew ∧ (gripPressure v s).queue = s.queue ∧
    (gripPressure v s).tally = s.tally ∧ (gripPressure v s).sup = s.sup ∧ (gripPressure v s).active = s.active ∧
    (gripPressure v s).staging = s.staging ∧ (gripPressure v s).mgmt = s.mgmt ∧ (gripPressure v s).trace = s.trace := by
  generalize h : gripPressure v s = r
  unfold gripPressure at h
  try dsimp only at h
  (repeat' split at h) <;> subst h <;> simp

/-- What `failTare` leaves as it was. -/
@[simp] theorem failTare_keeps (s : State) :
    (failTare s).pending = s.pending ∧ (failTare s).choices = s.choices ∧ (failTare s).inReset = s.inReset ∧
    (failTare s).clock = s.clock ∧ (failTare s).strapValue = s.strapValue ∧ (failTare s).station = s.station ∧
    (failTare s).crane = s.crane ∧ (failTare s).intake = s.intake ∧ (failTare s).slew = s.slew ∧
    (failTare s).queue = s.queue ∧ (failTare s).tally = s.tally ∧ (failTare s).sup = s.sup ∧
    (failTare s).active = s.active ∧ (failTare s).staging = s.staging ∧ (failTare s).mgmt = s.mgmt := by
  simp [failTare]

/-- What `taringPressure` leaves as it was. -/
@[simp] theorem taringPressure_keeps (v : Int) (s : State) :
    (taringPressure v s).pending = s.pending ∧ (taringPressure v s).choices = s.choices ∧
    (taringPressure v s).inReset = s.inReset ∧ (taringPressure v s).clock = s.clock ∧
    (taringPressure v s).strapValue = s.strapValue ∧ (taringPressure v s).station = s.station ∧
    (taringPressure v s).crane = s.crane ∧ (taringPressure v s).intake = s.intake ∧
    (taringPressure v s).slew = s.slew ∧ (taringPressure v s).queue = s.queue ∧
    (taringPressure v s).tally = s.tally ∧ (taringPressure v s).sup = s.sup ∧
    (taringPressure v s).active = s.active ∧ (taringPressure v s).staging = s.staging ∧
    (taringPressure v s).mgmt = s.mgmt := by
  generalize h : taringPressure v s = r
  unfold taringPressure at h
  try dsimp only at h
  (repeat' split at h) <;> subst h <;> simp

/-- What `openGrapple` leaves as it was. -/
@[simp] theorem openGrapple_keeps (e : ToolEntry) (s : State) :
    (openGrapple e s).pending = s.pending ∧ (openGrapple e s).choices = s.choices ∧
    (openGrapple e s).inReset = s.inReset ∧ (openGrapple e s).clock = s.clock ∧
    (openGrapple e s).strapValue = s.strapValue ∧ (openGrapple e s).station = s.station ∧
    (openGrapple e s).cab = s.cab ∧ (openGrapple e s).crane = s.crane ∧ (openGrapple e s).notices = s.notices ∧
    (openGrapple e s).intake = s.intake ∧ (openGrapple e s).slew = s.slew ∧ (openGrapple e s).queue = s.queue ∧
    (openGrapple e s).tally = s.tally ∧ (openGrapple e s).sup = s.sup ∧ (openGrapple e s).active = s.active ∧
    (openGrapple e s).staging = s.staging ∧ (openGrapple e s).mgmt = s.mgmt := by
  simp [openGrapple]

/-- What `heldPressure` leaves as it was. -/
@[simp] theorem heldPressure_keeps (v : Int) (s : State) :
    (heldPressure v s).pending = s.pending ∧ (heldPressure v s).choices = s.choices ∧
    (heldPressure v s).inReset = s.inReset ∧ (heldPressure v s).clock = s.clock ∧
    (heldPressure v s).strapValue = s.strapValue ∧ (heldPressure v s).station = s.station ∧
    (heldPressure v s).cab = s.cab ∧ (heldPressure v s).crane = s.crane ∧ (heldPressure v s).notices = s.notices ∧
    (heldPressure v s).intake = s.intake ∧ (heldPressure v s).slew = s.slew ∧ (heldPressure v s).queue = s.queue ∧
    (heldPressure v s).tally = s.tally ∧ (heldPressure v s).sup = s.sup ∧ (heldPressure v s).active = s.active ∧
    (heldPressure v s).staging = s.staging ∧ (heldPressure v s).mgmt = s.mgmt := by
  generalize h : heldPressure v s = r
  unfold heldPressure at h
  try dsimp only at h
  (repeat' split at h) <;> subst h <;> simp

/-- What `regrip` leaves as it was. -/
@[simp] theorem regrip_keeps (s : State) :
    (regrip s).pending = s.pending ∧ (regrip s).choices = s.choices ∧ (regrip s).inReset = s.inReset ∧
    (regrip s).clock = s.clock ∧ (regrip s).strapValue = s.strapValue ∧ (regrip s).station = s.station ∧
    (regrip s).cab = s.cab ∧ (regrip s).crane = s.crane ∧ (regrip s).notices = s.notices ∧
    (regrip s).intake = s.intake ∧ (regrip s).slew = s.slew ∧ (regrip s).tally = s.tally ∧
    (regrip s).active = s.active ∧ (regrip s).staging = s.staging ∧ (regrip s).mgmt = s.mgmt := by
  generalize h : regrip s = r
  unfold regrip at h
  try dsimp only at h
  (repeat' split at h) <;> subst h <;> simp

/-- What `releasingPressure` leaves as it was. -/
@[simp] theorem releasingPressure_keeps (v : Int) (s : State) :
    (releasingPressure v s).pending = s.pending ∧ (releasingPressure v s).choices = s.choices ∧
    (releasingPressure v s).inReset = s.inReset ∧ (releasingPressure v s).clock = s.clock ∧
    (releasingPressure v s).strapValue = s.strapValue ∧ (releasingPressure v s).station = s.station ∧
    (releasingPressure v s).cab = s.cab ∧ (releasingPressure v s).crane = s.crane ∧
    (releasingPressure v s).notices = s.notices ∧ (releasingPressure v s).intake = s.intake ∧
    (releasingPressure v s).slew = s.slew ∧ (releasingPressure v s).tally = s.tally ∧
    (releasingPressure v s).active = s.active ∧ (releasingPressure v s).staging = s.staging ∧
    (releasingPressure v s).mgmt = s.mgmt := by
  generalize h : releasingPressure v s = r
  unfold releasingPressure at h
  try dsimp only at h
  (repeat' split at h) <;> subst h <;> simp

/-- What `liftGpress` leaves as it was. -/
@[simp] theorem liftGpress_keeps (v : Int) (s : State) :
    (liftGpress v s).pending = s.pending ∧ (liftGpress v s).choices = s.choices ∧
    (liftGpress v s).inReset = s.inReset ∧ (liftGpress v s).clock = s.clock ∧
    (liftGpress v s).strapValue = s.strapValue ∧ (liftGpress v s).station = s.station ∧
    (liftGpress v s).crane = s.crane ∧ (liftGpress v s).intake = s.intake ∧ (liftGpress v s).slew = s.slew ∧
    (liftGpress v s).tally = s.tally ∧ (liftGpress v s).active = s.active ∧ (liftGpress v s).staging = s.staging ∧
    (liftGpress v s).mgmt = s.mgmt := by
  generalize h : liftGpress v s = r
  unfold liftGpress at h
  try dsimp only at h
  (repeat' split at h) <;> subst h <;> simp

/-- What `confirmGrip` leaves as it was. -/
@[simp] theorem confirmGrip_keeps (s : State) :
    (confirmGrip s).pending = s.pending ∧ (confirmGrip s).choices = s.choices ∧ (confirmGrip s).inReset = s.inReset ∧
    (confirmGrip s).clock = s.clock ∧ (confirmGrip s).strapValue = s.strapValue ∧
    (confirmGrip s).station = s.station ∧ (confirmGrip s).cab = s.cab ∧ (confirmGrip s).crane = s.crane ∧
    (confirmGrip s).notices = s.notices ∧ (confirmGrip s).intake = s.intake ∧ (confirmGrip s).slew = s.slew ∧
    (confirmGrip s).tally = s.tally ∧ (confirmGrip s).active = s.active ∧ (confirmGrip s).staging = s.staging ∧
    (confirmGrip s).mgmt = s.mgmt := by
  generalize h : confirmGrip s = r
  unfold confirmGrip at h
  try dsimp only at h
  (repeat' split at h) <;> subst h <;> simp

/-- What `endLift` leaves as it was. -/
@[simp] theorem endLift_keeps (e : LiftEnding) (s : State) :
    (endLift e s).pending = s.pending ∧ (endLift e s).choices = s.choices ∧ (endLift e s).inReset = s.inReset ∧
    (endLift e s).clock = s.clock ∧ (endLift e s).strapValue = s.strapValue ∧ (endLift e s).station = s.station ∧
    (endLift e s).crane = s.crane ∧ (endLift e s).intake = s.intake ∧ (endLift e s).slew = s.slew ∧
    (endLift e s).active = s.active ∧ (endLift e s).staging = s.staging ∧ (endLift e s).mgmt = s.mgmt := by
  generalize h : endLift e s = r
  unfold endLift at h
  try dsimp only at h
  (repeat' split at h) <;> subst h <;> simp

/-- What `liftGpressExpiry` leaves as it was. -/
@[simp] theorem liftGpressExpiry_keeps (s : State) :
    (liftGpressExpiry s).pending = s.pending ∧ (liftGpressExpiry s).choices = s.choices ∧
    (liftGpressExpiry s).inReset = s.inReset ∧ (liftGpressExpiry s).clock = s.clock ∧
    (liftGpressExpiry s).strapValue = s.strapValue ∧ (liftGpressExpiry s).station = s.station ∧
    (liftGpressExpiry s).crane = s.crane ∧ (liftGpressExpiry s).intake = s.intake ∧
    (liftGpressExpiry s).slew = s.slew ∧ (liftGpressExpiry s).active = s.active ∧
    (liftGpressExpiry s).staging = s.staging ∧ (liftGpressExpiry s).mgmt = s.mgmt := by
  generalize h : liftGpressExpiry s = r
  unfold liftGpressExpiry at h
  try dsimp only at h
  (repeat' split at h) <;> subst h <;> simp

/-- What `liftAExpiry` leaves as it was. -/
@[simp] theorem liftAExpiry_keeps (s : State) :
    (liftAExpiry s).pending = s.pending ∧ (liftAExpiry s).choices = s.choices ∧ (liftAExpiry s).inReset = s.inReset ∧
    (liftAExpiry s).clock = s.clock ∧ (liftAExpiry s).strapValue = s.strapValue ∧
    (liftAExpiry s).station = s.station ∧ (liftAExpiry s).cab = s.cab ∧ (liftAExpiry s).crane = s.crane ∧
    (liftAExpiry s).conditions = s.conditions ∧ (liftAExpiry s).notices = s.notices ∧
    (liftAExpiry s).intake = s.intake ∧ (liftAExpiry s).slew = s.slew ∧ (liftAExpiry s).queue = s.queue ∧
    (liftAExpiry s).tally = s.tally ∧ (liftAExpiry s).sup = s.sup ∧ (liftAExpiry s).active = s.active ∧
    (liftAExpiry s).staging = s.staging ∧ (liftAExpiry s).mgmt = s.mgmt ∧ (liftAExpiry s).trace = s.trace := by
  generalize h : liftAExpiry s = r
  unfold liftAExpiry at h
  try dsimp only at h
  (repeat' split at h) <;> subst h <;> simp

/-- What `liftFExpiry` leaves as it was. -/
@[simp] theorem liftFExpiry_keeps (s : State) :
    (liftFExpiry s).pending = s.pending ∧ (liftFExpiry s).choices = s.choices ∧ (liftFExpiry s).inReset = s.inReset ∧
    (liftFExpiry s).clock = s.clock ∧ (liftFExpiry s).strapValue = s.strapValue ∧
    (liftFExpiry s).station = s.station ∧ (liftFExpiry s).cab = s.cab ∧ (liftFExpiry s).crane = s.crane ∧
    (liftFExpiry s).conditions = s.conditions ∧ (liftFExpiry s).notices = s.notices ∧
    (liftFExpiry s).intake = s.intake ∧ (liftFExpiry s).slew = s.slew ∧ (liftFExpiry s).queue = s.queue ∧
    (liftFExpiry s).tally = s.tally ∧ (liftFExpiry s).sup = s.sup ∧ (liftFExpiry s).active = s.active ∧
    (liftFExpiry s).staging = s.staging ∧ (liftFExpiry s).mgmt = s.mgmt ∧ (liftFExpiry s).trace = s.trace := by
  generalize h : liftFExpiry s = r
  unfold liftFExpiry at h
  try dsimp only at h
  (repeat' split at h) <;> subst h <;> simp

/-- What `liftToolChange` leaves as it was. -/
@[simp] theorem liftToolChange_keeps (id : Nat) (s : State) :
    (liftToolChange id s).pending = s.pending ∧ (liftToolChange id s).choices = s.choices ∧
    (liftToolChange id s).inReset = s.inReset ∧ (liftToolChange id s).clock = s.clock ∧
    (liftToolChange id s).strapValue = s.strapValue ∧ (liftToolChange id s).station = s.station ∧
    (liftToolChange id s).cab = s.cab ∧ (liftToolChange id s).crane = s.crane ∧
    (liftToolChange id s).conditions = s.conditions ∧ (liftToolChange id s).notices = s.notices ∧
    (liftToolChange id s).intake = s.intake ∧ (liftToolChange id s).slew = s.slew ∧
    (liftToolChange id s).queue = s.queue ∧ (liftToolChange id s).tally = s.tally ∧
    (liftToolChange id s).sup = s.sup ∧ (liftToolChange id s).active = s.active ∧
    (liftToolChange id s).staging = s.staging ∧ (liftToolChange id s).mgmt = s.mgmt ∧
    (liftToolChange id s).trace = s.trace := by
  generalize h : liftToolChange id s = r
  unfold liftToolChange at h
  try dsimp only at h
  (repeat' split at h) <;> subst h <;> simp

/-- What `liftTareRequest` leaves as it was. -/
@[simp] theorem liftTareRequest_keeps (s : State) :
    (liftTareRequest s).pending = s.pending ∧ (liftTareRequest s).choices = s.choices ∧
    (liftTareRequest s).inReset = s.inReset ∧ (liftTareRequest s).clock = s.clock ∧
    (liftTareRequest s).strapValue = s.strapValue ∧ (liftTareRequest s).station = s.station ∧
    (liftTareRequest s).crane = s.crane ∧ (liftTareRequest s).intake = s.intake ∧ (liftTareRequest s).slew = s.slew ∧
    (liftTareRequest s).queue = s.queue ∧ (liftTareRequest s).tally = s.tally ∧ (liftTareRequest s).sup = s.sup ∧
    (liftTareRequest s).active = s.active ∧ (liftTareRequest s).staging = s.staging ∧
    (liftTareRequest s).mgmt = s.mgmt := by
  generalize h : liftTareRequest s = r
  unfold liftTareRequest at h
  try dsimp only at h
  (repeat' split at h) <;> subst h <;> simp

/-- What `liftSectorChange` leaves as it was. -/
@[simp] theorem liftSectorChange_keeps (i : Option Nat) (s : State) :
    (liftSectorChange i s).pending = s.pending ∧ (liftSectorChange i s).choices = s.choices ∧
    (liftSectorChange i s).inReset = s.inReset ∧ (liftSectorChange i s).clock = s.clock ∧
    (liftSectorChange i s).strapValue = s.strapValue ∧ (liftSectorChange i s).station = s.station ∧
    (liftSectorChange i s).cab = s.cab ∧ (liftSectorChange i s).crane = s.crane ∧
    (liftSectorChange i s).conditions = s.conditions ∧ (liftSectorChange i s).notices = s.notices ∧
    (liftSectorChange i s).intake = s.intake ∧ (liftSectorChange i s).slew = s.slew ∧
    (liftSectorChange i s).queue = s.queue ∧ (liftSectorChange i s).tally = s.tally ∧
    (liftSectorChange i s).sup = s.sup ∧ (liftSectorChange i s).active = s.active ∧
    (liftSectorChange i s).staging = s.staging ∧ (liftSectorChange i s).mgmt = s.mgmt ∧
    (liftSectorChange i s).trace = s.trace := by
  refine ⟨rfl, rfl, rfl, rfl, rfl, rfl, rfl, rfl, rfl, rfl, rfl, rfl, rfl, rfl, rfl, rfl, rfl, rfl, rfl⟩

/-- What `liftActivation` leaves as it was. -/
@[simp] theorem liftActivation_keeps (s : State) :
    (liftActivation s).pending = s.pending ∧ (liftActivation s).choices = s.choices ∧
    (liftActivation s).inReset = s.inReset ∧ (liftActivation s).clock = s.clock ∧
    (liftActivation s).strapValue = s.strapValue ∧ (liftActivation s).station = s.station ∧
    (liftActivation s).crane = s.crane ∧ (liftActivation s).intake = s.intake ∧ (liftActivation s).slew = s.slew ∧
    (liftActivation s).queue = s.queue ∧ (liftActivation s).tally = s.tally ∧ (liftActivation s).sup = s.sup ∧
    (liftActivation s).active = s.active ∧ (liftActivation s).staging = s.staging ∧
    (liftActivation s).mgmt = s.mgmt := by
  generalize h : liftActivation s = r
  unfold liftActivation at h
  try dsimp only at h
  (repeat' split at h) <;> subst h <;> simp

end Sys2Proof.Machine
end

