-- ==== Sys2Proof/Laws/Slew.lean ====
section
/-! SUPPORT. What each operation of the slew counter leaves as it was, and what a change of the current sector does. -/

namespace Sys2Proof.Machine

/-- What `sectorEvent` leaves as it was. -/
@[simp] theorem sectorEvent_keeps (i : Option Nat) (s : State) :
    (sectorEvent i s).pending = s.pending ∧ (sectorEvent i s).inReset = s.inReset ∧
    (sectorEvent i s).clock = s.clock ∧ (sectorEvent i s).strapValue = s.strapValue ∧
    (sectorEvent i s).station = s.station ∧ (sectorEvent i s).crane = s.crane ∧ (sectorEvent i s).intake = s.intake ∧
    (sectorEvent i s).queue = s.queue ∧ (sectorEvent i s).tally = s.tally ∧ (sectorEvent i s).active = s.active ∧
    (sectorEvent i s).staging = s.staging ∧ (sectorEvent i s).mgmt = s.mgmt := by
  generalize h : sectorEvent i s = r
  unfold sectorEvent at h
  try dsimp only at h
  (repeat' split at h) <;> subst h <;> simp

/-- What `setSector` leaves as it was. -/
@[simp] theorem setSector_keeps (i : Option Nat) (s : State) :
    (setSector i s).pending = s.pending ∧ (setSector i s).inReset = s.inReset ∧ (setSector i s).clock = s.clock ∧
    (setSector i s).strapValue = s.strapValue ∧ (setSector i s).station = s.station ∧
    (setSector i s).crane = s.crane ∧ (setSector i s).intake = s.intake ∧ (setSector i s).queue = s.queue ∧
    (setSector i s).tally = s.tally ∧ (setSector i s).active = s.active ∧ (setSector i s).staging = s.staging ∧
    (setSector i s).mgmt = s.mgmt := by
  generalize h : setSector i s = r
  unfold setSector at h
  try dsimp only at h
  (repeat' split at h) <;> subst h <;> simp

/-- What `trackSector` leaves as it was. -/
@[simp] theorem trackSector_keeps (s : State) :
    (trackSector s).pending = s.pending ∧ (trackSector s).inReset = s.inReset ∧ (trackSector s).clock = s.clock ∧
    (trackSector s).strapValue = s.strapValue ∧ (trackSector s).station = s.station ∧
    (trackSector s).crane = s.crane ∧ (trackSector s).intake = s.intake ∧ (trackSector s).queue = s.queue ∧
    (trackSector s).tally = s.tally ∧ (trackSector s).active = s.active ∧ (trackSector s).staging = s.staging ∧
    (trackSector s).mgmt = s.mgmt := by
  generalize h : trackSector s = r
  unfold trackSector at h
  try dsimp only at h
  (repeat' split at h) <;> subst h <;> simp

/-- When a position lies inside the pacing window (R52; notes/assumptions/33.md). -/
theorem Pacing.inside_iff (c : Pacing) (modulus p : Nat) :
    c.inside modulus p = true ↔ c.windowEnabled = false ∨
      (¬(modulus ≤ c.windowStart ∧ modulus ≤ c.windowEnd) ∧
        if c.windowStart ≤ c.windowEnd then c.windowStart ≤ p ∧ p ≤ c.windowEnd
        else c.windowStart ≤ p ∨ p ≤ c.windowEnd) := by
  unfold Pacing.inside
  (repeat' split) <;> simp_all

/-- What `paceCount` leaves as it was. -/
@[simp] theorem paceCount_keeps (s : State) :
    (paceCount s).pending = s.pending ∧ (paceCount s).choices = s.choices ∧ (paceCount s).inReset = s.inReset ∧
    (paceCount s).clock = s.clock ∧ (paceCount s).strapValue = s.strapValue ∧ (paceCount s).station = s.station ∧
    (paceCount s).cab = s.cab ∧ (paceCount s).crane = s.crane ∧ (paceCount s).notices = s.notices ∧
    (paceCount s).intake = s.intake ∧ (paceCount s).lift = s.lift ∧ (paceCount s).queue = s.queue ∧
    (paceCount s).tally = s.tally ∧ (paceCount s).sup = s.sup ∧ (paceCount s).active = s.active ∧
    (paceCount s).staging = s.staging ∧ (paceCount s).mgmt = s.mgmt := by
  generalize h : paceCount s = r
  unfold paceCount at h
  try dsimp only at h
  (repeat' split at h) <;> subst h <;> simp

/-- What `takeCount` leaves as it was. -/
@[simp] theorem takeCount_keeps (up : Bool) (s : State) :
    (takeCount up s).pending = s.pending ∧ (takeCount up s).inReset = s.inReset ∧ (takeCount up s).clock = s.clock ∧
    (takeCount up s).strapValue = s.strapValue ∧ (takeCount up s).station = s.station ∧
    (takeCount up s).crane = s.crane ∧ (takeCount up s).intake = s.intake ∧ (takeCount up s).queue = s.queue ∧
    (takeCount up s).tally = s.tally ∧ (takeCount up s).active = s.active ∧ (takeCount up s).staging = s.staging ∧
    (takeCount up s).mgmt = s.mgmt := by
  generalize h : takeCount up s = r
  unfold takeCount at h
  try dsimp only at h
  (repeat' split at h) <;> subst h <;> simp

/-- What `countError` leaves as it was. -/
@[simp] theorem countError_keeps (s : State) :
    (countError s).pending = s.pending ∧ (countError s).inReset = s.inReset ∧ (countError s).clock = s.clock ∧
    (countError s).strapValue = s.strapValue ∧ (countError s).station = s.station ∧ (countError s).crane = s.crane ∧
    (countError s).intake = s.intake ∧ (countError s).queue = s.queue ∧ (countError s).tally = s.tally ∧
    (countError s).active = s.active ∧ (countError s).staging = s.staging ∧ (countError s).mgmt = s.mgmt := by
  simp [countError]

/-- What `indexReferenced` leaves as it was. -/
@[simp] theorem indexReferenced_keeps (t : TableSet) (s : State) :
    (indexReferenced t s).pending = s.pending ∧ (indexReferenced t s).inReset = s.inReset ∧
    (indexReferenced t s).clock = s.clock ∧ (indexReferenced t s).strapValue = s.strapValue ∧
    (indexReferenced t s).station = s.station ∧ (indexReferenced t s).crane = s.crane ∧
    (indexReferenced t s).intake = s.intake ∧ (indexReferenced t s).queue = s.queue ∧
    (indexReferenced t s).tally = s.tally ∧ (indexReferenced t s).active = s.active ∧
    (indexReferenced t s).staging = s.staging ∧ (indexReferenced t s).mgmt = s.mgmt := by
  generalize h : indexReferenced t s = r
  unfold indexReferenced at h
  try dsimp only at h
  (repeat' split at h) <;> subst h <;> simp

/-- What `takeIndex` leaves as it was. -/
@[simp] theorem takeIndex_keeps (s : State) :
    (takeIndex s).pending = s.pending ∧ (takeIndex s).inReset = s.inReset ∧ (takeIndex s).clock = s.clock ∧
    (takeIndex s).strapValue = s.strapValue ∧ (takeIndex s).station = s.station ∧ (takeIndex s).crane = s.crane ∧
    (takeIndex s).intake = s.intake ∧ (takeIndex s).queue = s.queue ∧ (takeIndex s).tally = s.tally ∧
    (takeIndex s).active = s.active ∧ (takeIndex s).staging = s.staging ∧ (takeIndex s).mgmt = s.mgmt := by
  generalize h : takeIndex s = r
  unfold takeIndex at h
  try dsimp only at h
  (repeat' split at h) <;> subst h <;> simp

/-- What `observe` leaves as it was. -/
@[simp] theorem observe_keeps (a b z : Bool) (s : State) :
    (observe a b z s).pending = s.pending ∧ (observe a b z s).inReset = s.inReset ∧
    (observe a b z s).clock = s.clock ∧ (observe a b z s).strapValue = s.strapValue ∧
    (observe a b z s).station = s.station ∧ (observe a b z s).crane = s.crane ∧ (observe a b z s).intake = s.intake ∧
    (observe a b z s).queue = s.queue ∧ (observe a b z s).tally = s.tally ∧ (observe a b z s).active = s.active ∧
    (observe a b z s).staging = s.staging ∧ (observe a b z s).mgmt = s.mgmt := by
  generalize h : observe a b z s = r
  unfold observe at h
  try dsimp only at h
  (repeat' split at h) <;> subst h <;> simp

/-- What `slewActivation` leaves as it was. -/
@[simp] theorem slewActivation_keeps (o : Option TableSet) (t : TableSet) (s : State) :
    (slewActivation o t s).pending = s.pending ∧ (slewActivation o t s).inReset = s.inReset ∧
    (slewActivation o t s).clock = s.clock ∧ (slewActivation o t s).strapValue = s.strapValue ∧
    (slewActivation o t s).station = s.station ∧ (slewActivation o t s).crane = s.crane ∧
    (slewActivation o t s).intake = s.intake ∧ (slewActivation o t s).queue = s.queue ∧
    (slewActivation o t s).tally = s.tally ∧ (slewActivation o t s).active = s.active ∧
    (slewActivation o t s).staging = s.staging ∧ (slewActivation o t s).mgmt = s.mgmt := by
  generalize h : slewActivation o t s = r
  unfold slewActivation at h
  try dsimp only at h
  (repeat' split at h) <;> subst h <;> simp

/-! ## The current sector -/

/-- All that `setSector` can do (R51). -/
theorem setSector_becomes (sector : Option Nat) (s : State) : SectorBecomes sector s (setSector sector s) := by
  unfold SectorBecomes setSector
  split
  · rfl
  · unfold sectorEvent State.choose
    dsimp only
    split
    · exact .inl rfl
    · exact .inr rfl

/-- The current sector after `setSector`. -/
theorem setSector_sector (sector : Option Nat) (s : State) : (setSector sector s).slew.sector = sector := by
  unfold setSector
  split
  · next h => exact h.symm
  · unfold sectorEvent State.choose
    dsimp only
    split <;> simp [supSectorChange, liftSectorChange, State.modSlew, State.modLift]

/-- Sector tracking sets the sector that it leaves (R50). -/
theorem trackSector_sets (s : State) : trackSector s = setSector (trackSector s).slew.sector s := by
  have same : setSector s.slew.sector s = s := if_pos rfl
  have sets : trackSector s = s ∨ ∃ sector, trackSector s = setSector sector s := by
    unfold trackSector
    cases s.active <;> cases s.slew.sector <;> dsimp only <;> try exact .inl rfl
    split
    · exact .inl rfl
    · split
      · split
        · exact .inr ⟨_, rfl⟩
        · exact .inl rfl
      · exact .inl rfl
  rcases sets with h | ⟨sector, h⟩
  · rw [h, same]
  · rw [h, setSector_sector]

end Sys2Proof.Machine
end

