-- ==== Sys2Proof/Laws/Intake.lean ====
section
/-! SUPPORT. What each operation of intake and of the snapshot leaves as it was. -/

namespace Sys2Proof.Machine

/-- What `deliverForce` leaves as it was. -/
@[simp] theorem deliverForce_keeps (v : Int) (a : Option Int) (s : State) :
    (deliverForce v a s).pending = s.pending ∧ (deliverForce v a s).inReset = s.inReset ∧
    (deliverForce v a s).clock = s.clock ∧ (deliverForce v a s).strapValue = s.strapValue ∧
    (deliverForce v a s).station = s.station ∧ (deliverForce v a s).crane = s.crane ∧
    (deliverForce v a s).intake = s.intake ∧ (deliverForce v a s).slew = s.slew ∧
    (deliverForce v a s).tally = s.tally ∧ (deliverForce v a s).active = s.active ∧
    (deliverForce v a s).staging = s.staging ∧ (deliverForce v a s).mgmt = s.mgmt := by
  generalize h : deliverForce v a s = r
  unfold deliverForce at h
  try dsimp only at h
  (repeat' split at h) <;> subst h <;> simp

/-- What `deliverSample` leaves as it was. -/
@[simp] theorem deliverSample_keeps (m : Measurand) (v : Int) (a : Option Int) (s : State) :
    (deliverSample m v a s).pending = s.pending ∧ (deliverSample m v a s).inReset = s.inReset ∧
    (deliverSample m v a s).clock = s.clock ∧ (deliverSample m v a s).strapValue = s.strapValue ∧
    (deliverSample m v a s).station = s.station ∧ (deliverSample m v a s).crane = s.crane ∧
    (deliverSample m v a s).intake = s.intake ∧ (deliverSample m v a s).slew = s.slew ∧
    (deliverSample m v a s).tally = s.tally ∧ (deliverSample m v a s).active = s.active ∧
    (deliverSample m v a s).staging = s.staging ∧ (deliverSample m v a s).mgmt = s.mgmt := by
  generalize h : deliverSample m v a s = r
  unfold deliverSample at h
  try dsimp only at h
  (repeat' split at h) <;> subst h <;> simp

/-- What `acceptSample` leaves as it was. -/
@[simp] theorem acceptSample_keeps (m : Measurand) (e : ChannelEntry) (v : Int) (a : Option Int) (s : State) :
    (acceptSample m e v a s).pending = s.pending ∧ (acceptSample m e v a s).inReset = s.inReset ∧
    (acceptSample m e v a s).clock = s.clock ∧ (acceptSample m e v a s).strapValue = s.strapValue ∧
    (acceptSample m e v a s).station = s.station ∧ (acceptSample m e v a s).crane = s.crane ∧
    (acceptSample m e v a s).slew = s.slew ∧ (acceptSample m e v a s).tally = s.tally ∧
    (acceptSample m e v a s).active = s.active ∧ (acceptSample m e v a s).staging = s.staging ∧
    (acceptSample m e v a s).mgmt = s.mgmt := by
  simp [acceptSample]

/-- What `judgeRecord` leaves as it was. -/
@[simp] theorem judgeRecord_keeps (x : State × Option Int) (r : MatchedRecord) :
    ((judgeRecord x r).1).pending = x.1.pending ∧ ((judgeRecord x r).1).inReset = x.1.inReset ∧
    ((judgeRecord x r).1).clock = x.1.clock ∧ ((judgeRecord x r).1).strapValue = x.1.strapValue ∧
    ((judgeRecord x r).1).station = x.1.station ∧ ((judgeRecord x r).1).crane = x.1.crane ∧
    ((judgeRecord x r).1).slew = x.1.slew ∧ ((judgeRecord x r).1).tally = x.1.tally ∧
    ((judgeRecord x r).1).active = x.1.active ∧ ((judgeRecord x r).1).staging = x.1.staging ∧
    ((judgeRecord x r).1).mgmt = x.1.mgmt := by
  generalize h : (judgeRecord x r).1 = r
  unfold judgeRecord at h
  try dsimp only at h
  (repeat' split at h) <;> subst h <;> simp

/-- What `judgeRecords` leaves as it was. -/
@[simp] theorem judgeRecords_keeps (rs : List MatchedRecord) (x : State × Option Int) :
    ((rs.foldl judgeRecord x).1).pending = x.1.pending ∧ ((rs.foldl judgeRecord x).1).inReset = x.1.inReset ∧
    ((rs.foldl judgeRecord x).1).clock = x.1.clock ∧ ((rs.foldl judgeRecord x).1).strapValue = x.1.strapValue ∧
    ((rs.foldl judgeRecord x).1).station = x.1.station ∧ ((rs.foldl judgeRecord x).1).crane = x.1.crane ∧
    ((rs.foldl judgeRecord x).1).slew = x.1.slew ∧ ((rs.foldl judgeRecord x).1).tally = x.1.tally ∧
    ((rs.foldl judgeRecord x).1).active = x.1.active ∧ ((rs.foldl judgeRecord x).1).staging = x.1.staging ∧
    ((rs.foldl judgeRecord x).1).mgmt = x.1.mgmt := by
  induction rs generalizing x with
  | nil => simp
  | cons r rs ih => simp [ih]

/-- What `readReport` leaves as it was. -/
@[simp] theorem readReport_keeps (src : Byte) (payload : List Byte) (s : State) :
    (readReport src payload s).pending = s.pending ∧ (readReport src payload s).inReset = s.inReset ∧
    (readReport src payload s).clock = s.clock ∧ (readReport src payload s).strapValue = s.strapValue ∧
    (readReport src payload s).station = s.station ∧ (readReport src payload s).crane = s.crane ∧
    (readReport src payload s).slew = s.slew ∧ (readReport src payload s).tally = s.tally ∧
    (readReport src payload s).active = s.active ∧ (readReport src payload s).staging = s.staging ∧
    (readReport src payload s).mgmt = s.mgmt := by
  generalize h : readReport src payload s = r
  unfold readReport at h
  try dsimp only at h
  (repeat' split at h) <;> subst h <;> simp

/-- What `deliverExpiry` leaves as it was. -/
@[simp] theorem deliverExpiry_keeps (m : Measurand) (s : State) :
    (deliverExpiry m s).pending = s.pending ∧ (deliverExpiry m s).choices = s.choices ∧
    (deliverExpiry m s).inReset = s.inReset ∧ (deliverExpiry m s).clock = s.clock ∧
    (deliverExpiry m s).strapValue = s.strapValue ∧ (deliverExpiry m s).station = s.station ∧
    (deliverExpiry m s).crane = s.crane ∧ (deliverExpiry m s).intake = s.intake ∧ (deliverExpiry m s).slew = s.slew ∧
    (deliverExpiry m s).active = s.active ∧ (deliverExpiry m s).staging = s.staging ∧
    (deliverExpiry m s).mgmt = s.mgmt := by
  generalize h : deliverExpiry m s = r
  unfold deliverExpiry at h
  try dsimp only at h
  (repeat' split at h) <;> subst h <;> simp

/-- What `expireMeasurand` leaves as it was. -/
@[simp] theorem expireMeasurand_keeps (m : Measurand) (s : State) :
    (expireMeasurand m s).pending = s.pending ∧ (expireMeasurand m s).choices = s.choices ∧
    (expireMeasurand m s).inReset = s.inReset ∧ (expireMeasurand m s).clock = s.clock ∧
    (expireMeasurand m s).strapValue = s.strapValue ∧ (expireMeasurand m s).station = s.station ∧
    (expireMeasurand m s).crane = s.crane ∧ (expireMeasurand m s).slew = s.slew ∧
    (expireMeasurand m s).active = s.active ∧ (expireMeasurand m s).staging = s.staging ∧
    (expireMeasurand m s).mgmt = s.mgmt := by
  generalize h : expireMeasurand m s = r
  unfold expireMeasurand at h
  try dsimp only at h
  (repeat' split at h) <;> subst h <;> simp

/-- What `takeTool` leaves as it was. -/
@[simp] theorem takeTool_keeps (id : Nat) (s : State) :
    (takeTool id s).pending = s.pending ∧ (takeTool id s).choices = s.choices ∧ (takeTool id s).inReset = s.inReset ∧
    (takeTool id s).clock = s.clock ∧ (takeTool id s).strapValue = s.strapValue ∧
    (takeTool id s).station = s.station ∧ (takeTool id s).cab = s.cab ∧ (takeTool id s).crane = s.crane ∧
    (takeTool id s).conditions = s.conditions ∧ (takeTool id s).notices = s.notices ∧ (takeTool id s).slew = s.slew ∧
    (takeTool id s).queue = s.queue ∧ (takeTool id s).tally = s.tally ∧ (takeTool id s).sup = s.sup ∧
    (takeTool id s).active = s.active ∧ (takeTool id s).staging = s.staging ∧ (takeTool id s).mgmt = s.mgmt ∧
    (takeTool id s).trace = s.trace := by
  generalize h : takeTool id s = r
  unfold takeTool at h
  try dsimp only at h
  (repeat' split at h) <;> subst h <;> simp

/-- What `takeTareNumber` leaves as it was. -/
@[simp] theorem takeTareNumber_keeps (n : Byte) (s : State) :
    (takeTareNumber n s).pending = s.pending ∧ (takeTareNumber n s).choices = s.choices ∧
    (takeTareNumber n s).inReset = s.inReset ∧ (takeTareNumber n s).clock = s.clock ∧
    (takeTareNumber n s).strapValue = s.strapValue ∧ (takeTareNumber n s).station = s.station ∧
    (takeTareNumber n s).crane = s.crane ∧ (takeTareNumber n s).slew = s.slew ∧
    (takeTareNumber n s).queue = s.queue ∧ (takeTareNumber n s).tally = s.tally ∧ (takeTareNumber n s).sup = s.sup ∧
    (takeTareNumber n s).active = s.active ∧ (takeTareNumber n s).staging = s.staging ∧
    (takeTareNumber n s).mgmt = s.mgmt := by
  generalize h : takeTareNumber n s = r
  unfold takeTareNumber at h
  try dsimp only at h
  (repeat' split at h) <;> subst h <;> simp

/-- What `readOperatorState` leaves as it was. -/
@[simp] theorem readOperatorState_keeps (payload : List Byte) (s : State) :
    (readOperatorState payload s).pending = s.pending ∧ (readOperatorState payload s).choices = s.choices ∧
    (readOperatorState payload s).inReset = s.inReset ∧ (readOperatorState payload s).clock = s.clock ∧
    (readOperatorState payload s).strapValue = s.strapValue ∧ (readOperatorState payload s).station = s.station ∧
    (readOperatorState payload s).crane = s.crane ∧ (readOperatorState payload s).slew = s.slew ∧
    (readOperatorState payload s).queue = s.queue ∧ (readOperatorState payload s).tally = s.tally ∧
    (readOperatorState payload s).sup = s.sup ∧ (readOperatorState payload s).active = s.active ∧
    (readOperatorState payload s).staging = s.staging ∧ (readOperatorState payload s).mgmt = s.mgmt := by
  generalize h : readOperatorState payload s = r
  unfold readOperatorState at h
  try dsimp only at h
  (repeat' split at h) <;> subst h <;> simp

/-- What `intakeActivation` leaves as it was. -/
@[simp] theorem intakeActivation_keeps (t : TableSet) (s : State) :
    (intakeActivation t s).pending = s.pending ∧ (intakeActivation t s).choices = s.choices ∧
    (intakeActivation t s).inReset = s.inReset ∧ (intakeActivation t s).clock = s.clock ∧
    (intakeActivation t s).strapValue = s.strapValue ∧ (intakeActivation t s).station = s.station ∧
    (intakeActivation t s).cab = s.cab ∧ (intakeActivation t s).crane = s.crane ∧
    (intakeActivation t s).conditions = s.conditions ∧ (intakeActivation t s).notices = s.notices ∧
    (intakeActivation t s).slew = s.slew ∧ (intakeActivation t s).lift = s.lift ∧
    (intakeActivation t s).queue = s.queue ∧ (intakeActivation t s).tally = s.tally ∧
    (intakeActivation t s).sup = s.sup ∧ (intakeActivation t s).active = s.active ∧
    (intakeActivation t s).staging = s.staging ∧ (intakeActivation t s).mgmt = s.mgmt ∧
    (intakeActivation t s).trace = s.trace := by
  refine ⟨rfl, rfl, rfl, rfl, rfl, rfl, rfl, rfl, rfl, rfl, rfl, rfl, rfl, rfl, rfl, rfl, rfl, rfl, rfl⟩

end Sys2Proof.Machine
end

