-- ==== Sys2Proof/Laws/Tables.lean ====
section
/-! SUPPORT. What each operation of the shaper and of the table store leaves as it was. -/

namespace Sys2Proof.Machine

/-- What `placeShaped` leaves as it was. -/
@[simp] theorem placeShaped_keeps (frame : List Byte) (s : State) :
    (placeShaped frame s).pending = s.pending ∧ (placeShaped frame s).choices = s.choices ∧
    (placeShaped frame s).inReset = s.inReset ∧ (placeShaped frame s).clock = s.clock ∧
    (placeShaped frame s).strapValue = s.strapValue ∧ (placeShaped frame s).station = s.station ∧
    (placeShaped frame s).notices = s.notices ∧ (placeShaped frame s).intake = s.intake ∧
    (placeShaped frame s).slew = s.slew ∧ (placeShaped frame s).lift = s.lift ∧
    (placeShaped frame s).queue = s.queue ∧ (placeShaped frame s).tally = s.tally ∧
    (placeShaped frame s).sup = s.sup ∧ (placeShaped frame s).active = s.active ∧
    (placeShaped frame s).staging = s.staging ∧ (placeShaped frame s).mgmt = s.mgmt ∧
    (placeShaped frame s).trace = s.trace := by
  generalize h : placeShaped frame s = r
  unfold placeShaped at h
  try dsimp only at h
  (repeat' split at h) <;> subst h <;> simp

/-- What `shapeFrame` leaves as it was. -/
@[simp] theorem shapeFrame_keeps (d src : Byte) (payload : List Byte) (s : State) :
    (shapeFrame d src payload s).pending = s.pending ∧ (shapeFrame d src payload s).choices = s.choices ∧
    (shapeFrame d src payload s).inReset = s.inReset ∧ (shapeFrame d src payload s).clock = s.clock ∧
    (shapeFrame d src payload s).strapValue = s.strapValue ∧ (shapeFrame d src payload s).station = s.station ∧
    (shapeFrame d src payload s).notices = s.notices ∧ (shapeFrame d src payload s).intake = s.intake ∧
    (shapeFrame d src payload s).slew = s.slew ∧ (shapeFrame d src payload s).lift = s.lift ∧
    (shapeFrame d src payload s).queue = s.queue ∧ (shapeFrame d src payload s).tally = s.tally ∧
    (shapeFrame d src payload s).sup = s.sup ∧ (shapeFrame d src payload s).active = s.active ∧
    (shapeFrame d src payload s).staging = s.staging ∧ (shapeFrame d src payload s).mgmt = s.mgmt := by
  generalize h : shapeFrame d src payload s = r
  unfold shapeFrame at h
  try dsimp only at h
  (repeat' split at h) <;> subst h <;> simp

/-- What `openStaging` leaves as it was. -/
@[simp] theorem openStaging_keeps (s : State) :
    (openStaging s).pending = s.pending ∧ (openStaging s).choices = s.choices ∧ (openStaging s).inReset = s.inReset ∧
    (openStaging s).clock = s.clock ∧ (openStaging s).strapValue = s.strapValue ∧
    (openStaging s).station = s.station ∧ (openStaging s).cab = s.cab ∧ (openStaging s).crane = s.crane ∧
    (openStaging s).conditions = s.conditions ∧ (openStaging s).notices = s.notices ∧
    (openStaging s).intake = s.intake ∧ (openStaging s).slew = s.slew ∧ (openStaging s).lift = s.lift ∧
    (openStaging s).queue = s.queue ∧ (openStaging s).tally = s.tally ∧ (openStaging s).sup = s.sup ∧
    (openStaging s).active = s.active ∧ (openStaging s).mgmt = s.mgmt ∧ (openStaging s).trace = s.trace := by
  refine ⟨rfl, rfl, rfl, rfl, rfl, rfl, rfl, rfl, rfl, rfl, rfl, rfl, rfl, rfl, rfl, rfl, rfl, rfl, rfl⟩

/-- What `writeStaging` leaves as it was. -/
@[simp] theorem writeStaging_keeps (t : TableSet) (g : Target) (i : Nat) (r : List Byte) (s : State) :
    (writeStaging t g i r s).pending = s.pending ∧ (writeStaging t g i r s).choices = s.choices ∧
    (writeStaging t g i r s).inReset = s.inReset ∧ (writeStaging t g i r s).clock = s.clock ∧
    (writeStaging t g i r s).strapValue = s.strapValue ∧ (writeStaging t g i r s).station = s.station ∧
    (writeStaging t g i r s).cab = s.cab ∧ (writeStaging t g i r s).crane = s.crane ∧
    (writeStaging t g i r s).conditions = s.conditions ∧ (writeStaging t g i r s).notices = s.notices ∧
    (writeStaging t g i r s).intake = s.intake ∧ (writeStaging t g i r s).slew = s.slew ∧
    (writeStaging t g i r s).lift = s.lift ∧ (writeStaging t g i r s).queue = s.queue ∧
    (writeStaging t g i r s).tally = s.tally ∧ (writeStaging t g i r s).sup = s.sup ∧
    (writeStaging t g i r s).active = s.active ∧ (writeStaging t g i r s).mgmt = s.mgmt ∧
    (writeStaging t g i r s).trace = s.trace := by
  refine ⟨rfl, rfl, rfl, rfl, rfl, rfl, rfl, rfl, rfl, rfl, rfl, rfl, rfl, rfl, rfl, rfl, rfl, rfl, rfl⟩

/-- What `activateSet` leaves as it was. -/
@[simp] theorem activateSet_keeps (t : TableSet) (s : State) :
    (activateSet t s).pending = s.pending ∧ (activateSet t s).inReset = s.inReset ∧
    (activateSet t s).clock = s.clock ∧ (activateSet t s).strapValue = s.strapValue ∧
    (activateSet t s).station = s.station ∧ (activateSet t s).crane = s.crane ∧ (activateSet t s).mgmt = s.mgmt := by
  simp [activateSet]

end Sys2Proof.Machine
end

