-- ==== Sys2Proof/Laws/Management.lean ====
section
/-! SUPPORT. What each start and each operation of management leaves as it was. -/

namespace Sys2Proof.Machine

/-- What `assertReset` leaves as it was. -/
@[simp] theorem assertReset_keeps (s : State) :
    (assertReset s).pending = s.pending ∧ (assertReset s).choices = s.choices ∧ (assertReset s).clock = s.clock ∧
    (assertReset s).strapValue = s.strapValue ∧ (assertReset s).station = s.station ∧
    (assertReset s).conditions = s.conditions ∧ (assertReset s).notices = s.notices ∧
    (assertReset s).intake = s.intake ∧ (assertReset s).slew = s.slew ∧ (assertReset s).lift = s.lift ∧
    (assertReset s).queue = s.queue ∧ (assertReset s).tally = s.tally ∧ (assertReset s).active = s.active ∧
    (assertReset s).staging = s.staging ∧ (assertReset s).mgmt = s.mgmt ∧ (assertReset s).trace = s.trace := by
  refine ⟨rfl, rfl, rfl, rfl, rfl, rfl, rfl, rfl, rfl, rfl, rfl, rfl, rfl, rfl, rfl, rfl⟩

/-- What `warmRestart` leaves as it was. -/
@[simp] theorem warmRestart_keeps (s : State) :
    (warmRestart s).pending = s.pending ∧ (warmRestart s).choices = s.choices ∧ (warmRestart s).inReset = s.inReset ∧
    (warmRestart s).clock = s.clock ∧ (warmRestart s).strapValue = s.strapValue ∧
    (warmRestart s).station = s.station ∧ (warmRestart s).cab = s.cab ∧ (warmRestart s).crane = s.crane ∧
    (warmRestart s).tally = s.tally ∧ (warmRestart s).active = s.active ∧ (warmRestart s).staging = s.staging := by
  refine ⟨rfl, rfl, rfl, rfl, rfl, rfl, rfl, rfl, rfl, rfl, rfl⟩

/-- What `dropHead` leaves as it was. -/
@[simp] theorem dropHead_keeps (s : State) :
    (dropHead s).pending = s.pending ∧ (dropHead s).choices = s.choices ∧ (dropHead s).inReset = s.inReset ∧
    (dropHead s).clock = s.clock ∧ (dropHead s).strapValue = s.strapValue ∧ (dropHead s).station = s.station ∧
    (dropHead s).cab = s.cab ∧ (dropHead s).crane = s.crane ∧ (dropHead s).conditions = s.conditions ∧
    (dropHead s).notices = s.notices ∧ (dropHead s).intake = s.intake ∧ (dropHead s).slew = s.slew ∧
    (dropHead s).lift = s.lift ∧ (dropHead s).queue = s.queue ∧ (dropHead s).tally = s.tally ∧
    (dropHead s).sup = s.sup ∧ (dropHead s).active = s.active ∧ (dropHead s).staging = s.staging ∧
    (dropHead s).trace = s.trace := by
  refine ⟨rfl, rfl, rfl, rfl, rfl, rfl, rfl, rfl, rfl, rfl, rfl, rfl, rfl, rfl, rfl, rfl, rfl, rfl, rfl⟩

/-- What `offerHeld` leaves as it was. -/
@[simp] theorem offerHeld_keeps (s : State) :
    (offerHeld s).pending = s.pending ∧ (offerHeld s).choices = s.choices ∧ (offerHeld s).inReset = s.inReset ∧
    (offerHeld s).clock = s.clock ∧ (offerHeld s).strapValue = s.strapValue ∧ (offerHeld s).station = s.station ∧
    (offerHeld s).tally = s.tally ∧ (offerHeld s).active = s.active ∧ (offerHeld s).staging = s.staging := by
  generalize h : offerHeld s = r
  unfold offerHeld at h
  try dsimp only at h
  (repeat' split at h) <;> subst h <;> simp

/-- What `holdReply` leaves as it was. -/
@[simp] theorem holdReply_keeps (st : Status) (b : Bool) (c : Chain) (s : State) :
    (holdReply st b c s).pending = s.pending ∧ (holdReply st b c s).choices = s.choices ∧
    (holdReply st b c s).inReset = s.inReset ∧ (holdReply st b c s).clock = s.clock ∧
    (holdReply st b c s).strapValue = s.strapValue ∧ (holdReply st b c s).station = s.station ∧
    (holdReply st b c s).cab = s.cab ∧ (holdReply st b c s).crane = s.crane ∧
    (holdReply st b c s).conditions = s.conditions ∧ (holdReply st b c s).notices = s.notices ∧
    (holdReply st b c s).intake = s.intake ∧ (holdReply st b c s).slew = s.slew ∧
    (holdReply st b c s).lift = s.lift ∧ (holdReply st b c s).queue = s.queue ∧
    (holdReply st b c s).tally = s.tally ∧ (holdReply st b c s).sup = s.sup ∧
    (holdReply st b c s).active = s.active ∧ (holdReply st b c s).staging = s.staging ∧
    (holdReply st b c s).trace = s.trace := by
  generalize h : holdReply st b c s = r
  unfold holdReply at h
  try dsimp only at h
  (repeat' split at h) <;> subst h <;> simp

/-- What `endChain` leaves as it was. -/
@[simp] theorem endChain_keeps (st : Status) (c : Chain) (s : State) :
    (endChain st c s).pending = s.pending ∧ (endChain st c s).choices = s.choices ∧
    (endChain st c s).inReset = s.inReset ∧ (endChain st c s).clock = s.clock ∧
    (endChain st c s).strapValue = s.strapValue ∧ (endChain st c s).station = s.station ∧
    (endChain st c s).tally = s.tally ∧ (endChain st c s).active = s.active ∧ (endChain st c s).staging = s.staging := by
  simp [endChain]

/-- What `makeOffer` leaves as it was. -/
@[simp] theorem makeOffer_keeps (p : PortId) (o : Offer) (s : State) :
    (makeOffer p o s).pending = s.pending ∧ (makeOffer p o s).choices = s.choices ∧
    (makeOffer p o s).inReset = s.inReset ∧ (makeOffer p o s).clock = s.clock ∧
    (makeOffer p o s).strapValue = s.strapValue ∧ (makeOffer p o s).station = s.station ∧
    (makeOffer p o s).tally = s.tally ∧ (makeOffer p o s).active = s.active ∧
    (makeOffer p o s).staging = s.staging := by
  cases o
  · by_cases h : heldFor p s <;> simp [makeOffer, h]
  · simp [makeOffer]

/-- What `makeOffers` leaves as it was. -/
@[simp] theorem makeOffers_keeps (p : PortId) (offers : List Offer) (s : State) :
    (makeOffers p offers s).pending = s.pending ∧ (makeOffers p offers s).choices = s.choices ∧
    (makeOffers p offers s).inReset = s.inReset ∧ (makeOffers p offers s).clock = s.clock ∧
    (makeOffers p offers s).strapValue = s.strapValue ∧ (makeOffers p offers s).station = s.station ∧
    (makeOffers p offers s).tally = s.tally ∧ (makeOffers p offers s).active = s.active ∧
    (makeOffers p offers s).staging = s.staging := by
  unfold makeOffers
  induction offers generalizing s with
  | nil => simp
  | cons o offers ih => simp [ih]

/-- What `State.owe` leaves as it was. -/
@[simp] theorem State.owe_keeps (p : PortId) (offers : List Offer) (s : State) :
    (s.owe p offers).pending = s.pending ∧ (s.owe p offers).choices = s.choices ∧
    (s.owe p offers).inReset = s.inReset ∧ (s.owe p offers).clock = s.clock ∧
    (s.owe p offers).strapValue = s.strapValue ∧ (s.owe p offers).station = s.station ∧
    (s.owe p offers).tally = s.tally ∧ (s.owe p offers).active = s.active ∧
    (s.owe p offers).staging = s.staging ∧ (s.owe p offers).conditions = s.conditions ∧
    (s.owe p offers).notices = s.notices ∧ (s.owe p offers).intake = s.intake ∧
    (s.owe p offers).slew = s.slew ∧ (s.owe p offers).lift = s.lift ∧
    (s.owe p offers).queue = s.queue ∧ (s.owe p offers).sup = s.sup ∧
    (s.owe p offers).mgmt = s.mgmt ∧ (s.owe p offers).trace = s.trace := by
  simp [State.owe]

/-- The offers a port owes after `State.owe`. -/
@[simp] theorem State.owe_owed (p : PortId) (offers : List Offer) (s : State) : ((s.owe p offers).port p).owed = offers := by
  simp [State.owe]

/-- All that `settleOffers` can do (R16, R21): with nothing waiting, nothing; on a port that is not UP every offer is made; on
a port that is UP what waits is, in one order or another, offered at once or owed, whatever the free values are. -/
theorem settleOffers_offers (p : PortId) (s : State) :
    (waitingOffers p s = [] → settleOffers p s = s) ∧
    ((s.port p).link ≠ .up → settleOffers p s = makeOffers p (waitingOffers p s) s) ∧
    ((s.port p).link = .up → waitingOffers p s ≠ [] → ∃ atOnce later, (atOnce ++ later).Perm (waitingOffers p s) ∧
      settleOffers p s = makeOffers p atOnce ({ s with choices := s.choices + 2 }.owe p later)) := by
  refine ⟨fun h => ?_, fun h => ?_, fun up h => ?_⟩
  · simp [settleOffers, h, makeOffers]
  · simp [settleOffers, h]
  · unfold settleOffers State.choose
    dsimp only
    rw [if_neg (by simp [up, h])]
    split
    · exact ⟨_, _, by rw [List.take_append_drop], rfl⟩
    · exact ⟨_, _, by rw [List.take_append_drop]; exact List.reverse_perm _, rfl⟩

/-- What `settleOffers` leaves as it was. -/
@[simp] theorem settleOffers_keeps (p : PortId) (s : State) :
    (settleOffers p s).pending = s.pending ∧ (settleOffers p s).inReset = s.inReset ∧
    (settleOffers p s).clock = s.clock ∧ (settleOffers p s).strapValue = s.strapValue ∧
    (settleOffers p s).station = s.station ∧ (settleOffers p s).tally = s.tally ∧
    (settleOffers p s).active = s.active ∧ (settleOffers p s).staging = s.staging := by
  by_cases none : waitingOffers p s = []
  · simp [(settleOffers_offers p s).1 none]
  · by_cases up : (s.port p).link = .up
    · obtain ⟨atOnce, later, -, h⟩ := (settleOffers_offers p s).2.2 up none
      simp [h]
    · simp [(settleOffers_offers p s).2.1 up]

/-- What `offerOwed` leaves as it was. -/
@[simp] theorem offerOwed_keeps (p : PortId) (s : State) :
    (offerOwed p s).pending = s.pending ∧ (offerOwed p s).choices = s.choices ∧
    (offerOwed p s).inReset = s.inReset ∧ (offerOwed p s).clock = s.clock ∧
    (offerOwed p s).strapValue = s.strapValue ∧ (offerOwed p s).station = s.station ∧
    (offerOwed p s).tally = s.tally ∧ (offerOwed p s).active = s.active ∧
    (offerOwed p s).staging = s.staging := by
  simp [offerOwed]

/-- With no offers owed there are none to make. -/
theorem offerOwed_none (p : PortId) (s : State) (h : (s.port p).owed = []) : offerOwed p s = s := by
  have same : s.owe p [] = s := by
    unfold State.owe State.modPort
    cases p <;> simp only [State.port] at h <;> rw [← h]
  simp [offerOwed, h, makeOffers, same]

/-- What `settleIfLeft` leaves as it was. -/
@[simp] theorem settleIfLeft_keeps (p : PortId) (before : State) (s : State) :
    (settleIfLeft p before s).pending = s.pending ∧ (settleIfLeft p before s).inReset = s.inReset ∧
    (settleIfLeft p before s).clock = s.clock ∧ (settleIfLeft p before s).strapValue = s.strapValue ∧
    (settleIfLeft p before s).station = s.station ∧ (settleIfLeft p before s).tally = s.tally ∧
    (settleIfLeft p before s).active = s.active ∧ (settleIfLeft p before s).staging = s.staging := by
  generalize h : settleIfLeft p before s = r
  unfold settleIfLeft at h
  try dsimp only at h
  (repeat' split at h) <;> subst h <;> simp

/-- What `takeRequest` leaves as it was. -/
@[simp] theorem takeRequest_keeps (p : PortId) (src : Byte) (payload : List Byte) (s : State) :
    (takeRequest p src payload s).pending = s.pending ∧ (takeRequest p src payload s).choices = s.choices ∧
    (takeRequest p src payload s).inReset = s.inReset ∧ (takeRequest p src payload s).clock = s.clock ∧
    (takeRequest p src payload s).strapValue = s.strapValue ∧ (takeRequest p src payload s).station = s.station ∧
    (takeRequest p src payload s).conditions = s.conditions ∧ (takeRequest p src payload s).notices = s.notices ∧
    (takeRequest p src payload s).intake = s.intake ∧ (takeRequest p src payload s).slew = s.slew ∧
    (takeRequest p src payload s).lift = s.lift ∧ (takeRequest p src payload s).queue = s.queue ∧
    (takeRequest p src payload s).tally = s.tally ∧ (takeRequest p src payload s).sup = s.sup ∧
    (takeRequest p src payload s).active = s.active ∧ (takeRequest p src payload s).staging = s.staging ∧
    (takeRequest p src payload s).trace = s.trace := by
  generalize h : takeRequest p src payload s = r
  unfold takeRequest at h
  try dsimp only at h
  (repeat' split at h) <;> subst h <;> simp

/-- What `skipNext` leaves as it was. -/
@[simp] theorem skipNext_keeps (payload : List Byte) (c : Chain) (s : State) :
    (skipNext payload c s).pending = s.pending ∧ (skipNext payload c s).choices = s.choices ∧
    (skipNext payload c s).inReset = s.inReset ∧ (skipNext payload c s).clock = s.clock ∧
    (skipNext payload c s).strapValue = s.strapValue ∧ (skipNext payload c s).station = s.station ∧
    (skipNext payload c s).tally = s.tally ∧ (skipNext payload c s).active = s.active ∧
    (skipNext payload c s).staging = s.staging := by
  generalize h : skipNext payload c s = r
  unfold skipNext at h
  try dsimp only at h
  (repeat' split at h) <;> subst h <;> simp

/-- What `concludeOp` leaves as it was. -/
@[simp] theorem concludeOp_keeps (payload : List Byte) (code : Byte) (more : Bool) (next : Nat) (c : Chain) (x : State × OpResult) :
    (concludeOp payload code more next c x).pending = x.1.pending ∧
    (concludeOp payload code more next c x).choices = x.1.choices ∧
    (concludeOp payload code more next c x).inReset = x.1.inReset ∧
    (concludeOp payload code more next c x).clock = x.1.clock ∧
    (concludeOp payload code more next c x).strapValue = x.1.strapValue ∧
    (concludeOp payload code more next c x).station = x.1.station ∧
    (concludeOp payload code more next c x).tally = x.1.tally ∧
    (concludeOp payload code more next c x).active = x.1.active ∧
    (concludeOp payload code more next c x).staging = x.1.staging := by
  generalize h : concludeOp payload code more next c x = r
  unfold concludeOp at h
  try dsimp only at h
  (repeat' split at h) <;> subst h <;> simp

/-- `opTest` changes nothing. -/
@[simp] theorem opTest_keeps (operands : List Byte) (free : Nat) (s : State) : (opTest operands free s).1 = s := by
  generalize h : (opTest operands free s).1 = r
  unfold opTest at h
  simp only [performIf, refuse] at h
  (repeat' split at h) <;> subst h <;> rfl

/-- `opReadIdentity` changes nothing. -/
@[simp] theorem opReadIdentity_keeps (operands : List Byte) (free : Nat) (s : State) : (opReadIdentity operands free s).1 = s := by
  generalize h : (opReadIdentity operands free s).1 = r
  unfold opReadIdentity at h
  simp only [performIf, refuse] at h
  (repeat' split at h) <;> subst h <;> rfl

/-- What `opReadStatus` leaves as it was. -/
@[simp] theorem opReadStatus_keeps (operands : List Byte) (free : Nat) (s : State) :
    ((opReadStatus operands free s).1).pending = s.pending ∧ ((opReadStatus operands free s).1).inReset = s.inReset ∧
    ((opReadStatus operands free s).1).clock = s.clock ∧
    ((opReadStatus operands free s).1).strapValue = s.strapValue ∧
    ((opReadStatus operands free s).1).station = s.station ∧ ((opReadStatus operands free s).1).cab = s.cab ∧
    ((opReadStatus operands free s).1).crane = s.crane ∧
    ((opReadStatus operands free s).1).conditions = s.conditions ∧
    ((opReadStatus operands free s).1).notices = s.notices ∧ ((opReadStatus operands free s).1).intake = s.intake ∧
    ((opReadStatus operands free s).1).slew = s.slew ∧ ((opReadStatus operands free s).1).lift = s.lift ∧
    ((opReadStatus operands free s).1).queue = s.queue ∧ ((opReadStatus operands free s).1).tally = s.tally ∧
    ((opReadStatus operands free s).1).sup = s.sup ∧ ((opReadStatus operands free s).1).active = s.active ∧
    ((opReadStatus operands free s).1).staging = s.staging ∧ ((opReadStatus operands free s).1).mgmt = s.mgmt ∧
    ((opReadStatus operands free s).1).trace = s.trace := by
  generalize h : (opReadStatus operands free s).1 = r
  unfold opReadStatus at h
  simp only [traceResult, performIf, refuse] at h
  (repeat' split at h) <;> subst h <;> simp

/-- `opReadMeasurands` changes nothing. -/
@[simp] theorem opReadMeasurands_keeps (operands : List Byte) (free : Nat) (s : State) : (opReadMeasurands operands free s).1 = s := by
  generalize h : (opReadMeasurands operands free s).1 = r
  unfold opReadMeasurands at h
  simp only [performIf, refuse] at h
  (repeat' split at h) <;> subst h <;> rfl

/-- `opReadTally` changes nothing. -/
@[simp] theorem opReadTally_keeps (operands : List Byte) (free : Nat) (s : State) : (opReadTally operands free s).1 = s := by
  generalize h : (opReadTally operands free s).1 = r
  unfold opReadTally at h
  simp only [performIf, refuse] at h
  (repeat' split at h) <;> subst h <;> rfl

/-- `opPeekLifts` changes nothing. -/
@[simp] theorem opPeekLifts_keeps (operands : List Byte) (free : Nat) (s : State) : (opPeekLifts operands free s).1 = s := by
  generalize h : (opPeekLifts operands free s).1 = r
  unfold opPeekLifts at h
  simp only [performIf, refuse] at h
  (repeat' split at h) <;> subst h <;> rfl

/-- What `opDropLifts` leaves as it was. -/
@[simp] theorem opDropLifts_keeps (operands : List Byte) (free : Nat) (s : State) :
    ((opDropLifts operands free s).1).pending = s.pending ∧ ((opDropLifts operands free s).1).choices = s.choices ∧
    ((opDropLifts operands free s).1).inReset = s.inReset ∧ ((opDropLifts operands free s).1).clock = s.clock ∧
    ((opDropLifts operands free s).1).strapValue = s.strapValue ∧
    ((opDropLifts operands free s).1).station = s.station ∧ ((opDropLifts operands free s).1).cab = s.cab ∧
    ((opDropLifts operands free s).1).crane = s.crane ∧ ((opDropLifts operands free s).1).conditions = s.conditions ∧
    ((opDropLifts operands free s).1).notices = s.notices ∧ ((opDropLifts operands free s).1).intake = s.intake ∧
    ((opDropLifts operands free s).1).slew = s.slew ∧ ((opDropLifts operands free s).1).lift = s.lift ∧
    ((opDropLifts operands free s).1).tally = s.tally ∧ ((opDropLifts operands free s).1).sup = s.sup ∧
    ((opDropLifts operands free s).1).active = s.active ∧ ((opDropLifts operands free s).1).staging = s.staging ∧
    ((opDropLifts operands free s).1).mgmt = s.mgmt ∧ ((opDropLifts operands free s).1).trace = s.trace := by
  generalize h : (opDropLifts operands free s).1 = r
  unfold opDropLifts at h
  simp only [traceResult, performIf, refuse] at h
  (repeat' split at h) <;> subst h <;> simp

/-- What `opClearBunk` leaves as it was. -/
@[simp] theorem opClearBunk_keeps (operands : List Byte) (free : Nat) (s : State) :
    ((opClearBunk operands free s).1).pending = s.pending ∧ ((opClearBunk operands free s).1).choices = s.choices ∧
    ((opClearBunk operands free s).1).inReset = s.inReset ∧ ((opClearBunk operands free s).1).clock = s.clock ∧
    ((opClearBunk operands free s).1).strapValue = s.strapValue ∧
    ((opClearBunk operands free s).1).station = s.station ∧ ((opClearBunk operands free s).1).crane = s.crane ∧
    ((opClearBunk operands free s).1).intake = s.intake ∧ ((opClearBunk operands free s).1).slew = s.slew ∧
    ((opClearBunk operands free s).1).queue = s.queue ∧ ((opClearBunk operands free s).1).active = s.active ∧
    ((opClearBunk operands free s).1).staging = s.staging ∧ ((opClearBunk operands free s).1).mgmt = s.mgmt := by
  generalize h : (opClearBunk operands free s).1 = r
  unfold opClearBunk at h
  simp only [traceResult, performIf, refuse] at h
  (repeat' split at h) <;> subst h <;> simp

/-- What `opClearConditions` leaves as it was. -/
@[simp] theorem opClearConditions_keeps (operands : List Byte) (free : Nat) (s : State) :
    ((opClearConditions operands free s).1).pending = s.pending ∧
    ((opClearConditions operands free s).1).choices = s.choices ∧
    ((opClearConditions operands free s).1).inReset = s.inReset ∧
    ((opClearConditions operands free s).1).clock = s.clock ∧
    ((opClearConditions operands free s).1).strapValue = s.strapValue ∧
    ((opClearConditions operands free s).1).station = s.station ∧
    ((opClearConditions operands free s).1).cab = s.cab ∧ ((opClearConditions operands free s).1).crane = s.crane ∧
    ((opClearConditions operands free s).1).notices = s.notices ∧
    ((opClearConditions operands free s).1).intake = s.intake ∧
    ((opClearConditions operands free s).1).slew = s.slew ∧ ((opClearConditions operands free s).1).lift = s.lift ∧
    ((opClearConditions operands free s).1).queue = s.queue ∧
    ((opClearConditions operands free s).1).tally = s.tally ∧ ((opClearConditions operands free s).1).sup = s.sup ∧
    ((opClearConditions operands free s).1).active = s.active ∧
    ((opClearConditions operands free s).1).staging = s.staging ∧
    ((opClearConditions operands free s).1).mgmt = s.mgmt ∧ ((opClearConditions operands free s).1).trace = s.trace := by
  generalize h : (opClearConditions operands free s).1 = r
  unfold opClearConditions at h
  simp only [traceResult, performIf, refuse] at h
  (repeat' split at h) <;> subst h <;> simp

/-- What `opOpenStaging` leaves as it was. -/
@[simp] theorem opOpenStaging_keeps (operands : List Byte) (free : Nat) (s : State) :
    ((opOpenStaging operands free s).1).pending = s.pending ∧
    ((opOpenStaging operands free s).1).choices = s.choices ∧
    ((opOpenStaging operands free s).1).inReset = s.inReset ∧ ((opOpenStaging operands free s).1).clock = s.clock ∧
    ((opOpenStaging operands free s).1).strapValue = s.strapValue ∧
    ((opOpenStaging operands free s).1).station = s.station ∧ ((opOpenStaging operands free s).1).cab = s.cab ∧
    ((opOpenStaging operands free s).1).crane = s.crane ∧
    ((opOpenStaging operands free s).1).conditions = s.conditions ∧
    ((opOpenStaging operands free s).1).notices = s.notices ∧ ((opOpenStaging operands free s).1).intake = s.intake ∧
    ((opOpenStaging operands free s).1).slew = s.slew ∧ ((opOpenStaging operands free s).1).lift = s.lift ∧
    ((opOpenStaging operands free s).1).queue = s.queue ∧ ((opOpenStaging operands free s).1).tally = s.tally ∧
    ((opOpenStaging operands free s).1).sup = s.sup ∧ ((opOpenStaging operands free s).1).active = s.active ∧
    ((opOpenStaging operands free s).1).mgmt = s.mgmt ∧ ((opOpenStaging operands free s).1).trace = s.trace := by
  generalize h : (opOpenStaging operands free s).1 = r
  unfold opOpenStaging at h
  simp only [traceResult, performIf, refuse] at h
  (repeat' split at h) <;> subst h <;> simp

/-- What `opWriteEntry` leaves as it was. -/
@[simp] theorem opWriteEntry_keeps (operands : List Byte) (free : Nat) (s : State) :
    ((opWriteEntry operands free s).1).pending = s.pending ∧ ((opWriteEntry operands free s).1).choices = s.choices ∧
    ((opWriteEntry operands free s).1).inReset = s.inReset ∧ ((opWriteEntry operands free s).1).clock = s.clock ∧
    ((opWriteEntry operands free s).1).strapValue = s.strapValue ∧
    ((opWriteEntry operands free s).1).station = s.station ∧ ((opWriteEntry operands free s).1).cab = s.cab ∧
    ((opWriteEntry operands free s).1).crane = s.crane ∧
    ((opWriteEntry operands free s).1).conditions = s.conditions ∧
    ((opWriteEntry operands free s).1).notices = s.notices ∧ ((opWriteEntry operands free s).1).intake = s.intake ∧
    ((opWriteEntry operands free s).1).slew = s.slew ∧ ((opWriteEntry operands free s).1).lift = s.lift ∧
    ((opWriteEntry operands free s).1).queue = s.queue ∧ ((opWriteEntry operands free s).1).tally = s.tally ∧
    ((opWriteEntry operands free s).1).sup = s.sup ∧ ((opWriteEntry operands free s).1).active = s.active ∧
    ((opWriteEntry operands free s).1).mgmt = s.mgmt ∧ ((opWriteEntry operands free s).1).trace = s.trace := by
  generalize h : (opWriteEntry operands free s).1 = r
  unfold opWriteEntry at h
  simp only [traceResult, performIf, refuse] at h
  (repeat' split at h) <;> subst h <;> simp

/-- `opReadEntry` changes nothing. -/
@[simp] theorem opReadEntry_keeps (operands : List Byte) (free : Nat) (s : State) : (opReadEntry operands free s).1 = s := by
  generalize h : (opReadEntry operands free s).1 = r
  unfold opReadEntry at h
  simp only [performIf, refuse] at h
  (repeat' split at h) <;> subst h <;> rfl

/-- `opCheckStaging` changes nothing. -/
@[simp] theorem opCheckStaging_keeps (operands : List Byte) (free : Nat) (s : State) : (opCheckStaging operands free s).1 = s := by
  generalize h : (opCheckStaging operands free s).1 = r
  unfold opCheckStaging at h
  simp only [performIf, refuse] at h
  (repeat' split at h) <;> subst h <;> rfl

/-- What `opActivate` leaves as it was. -/
@[simp] theorem opActivate_keeps (operands : List Byte) (free : Nat) (s : State) :
    ((opActivate operands free s).1).pending = s.pending ∧ ((opActivate operands free s).1).inReset = s.inReset ∧
    ((opActivate operands free s).1).clock = s.clock ∧ ((opActivate operands free s).1).strapValue = s.strapValue ∧
    ((opActivate operands free s).1).station = s.station ∧ ((opActivate operands free s).1).crane = s.crane ∧
    ((opActivate operands free s).1).mgmt = s.mgmt := by
  generalize h : (opActivate operands free s).1 = r
  unfold opActivate at h
  simp only [traceResult, performIf, refuse] at h
  (repeat' split at h) <;> subst h <;> simp

/-- What `opTraceConfigure` leaves as it was. -/
@[simp] theorem opTraceConfigure_keeps (operands : List Byte) (free : Nat) (s : State) :
    ((opTraceConfigure operands free s).1).pending = s.pending ∧
    ((opTraceConfigure operands free s).1).choices = s.choices ∧
    ((opTraceConfigure operands free s).1).inReset = s.inReset ∧
    ((opTraceConfigure operands free s).1).clock = s.clock ∧
    ((opTraceConfigure operands free s).1).strapValue = s.strapValue ∧
    ((opTraceConfigure operands free s).1).station = s.station ∧ ((opTraceConfigure operands free s).1).cab = s.cab ∧
    ((opTraceConfigure operands free s).1).crane = s.crane ∧
    ((opTraceConfigure operands free s).1).conditions = s.conditions ∧
    ((opTraceConfigure operands free s).1).notices = s.notices ∧
    ((opTraceConfigure operands free s).1).intake = s.intake ∧ ((opTraceConfigure operands free s).1).lift = s.lift ∧
    ((opTraceConfigure operands free s).1).queue = s.queue ∧ ((opTraceConfigure operands free s).1).tally = s.tally ∧
    ((opTraceConfigure operands free s).1).sup = s.sup ∧ ((opTraceConfigure operands free s).1).active = s.active ∧
    ((opTraceConfigure operands free s).1).staging = s.staging ∧
    ((opTraceConfigure operands free s).1).mgmt = s.mgmt := by
  generalize h : (opTraceConfigure operands free s).1 = r
  unfold opTraceConfigure at h
  simp only [traceResult, performIf, refuse] at h
  (repeat' split at h) <;> subst h <;> simp

/-- What `opTraceEnable` leaves as it was. -/
@[simp] theorem opTraceEnable_keeps (operands : List Byte) (free : Nat) (s : State) :
    ((opTraceEnable operands free s).1).pending = s.pending ∧
    ((opTraceEnable operands free s).1).choices = s.choices ∧
    ((opTraceEnable operands free s).1).inReset = s.inReset ∧ ((opTraceEnable operands free s).1).clock = s.clock ∧
    ((opTraceEnable operands free s).1).strapValue = s.strapValue ∧
    ((opTraceEnable operands free s).1).station = s.station ∧ ((opTraceEnable operands free s).1).cab = s.cab ∧
    ((opTraceEnable operands free s).1).crane = s.crane ∧
    ((opTraceEnable operands free s).1).conditions = s.conditions ∧
    ((opTraceEnable operands free s).1).notices = s.notices ∧ ((opTraceEnable operands free s).1).intake = s.intake ∧
    ((opTraceEnable operands free s).1).slew = s.slew ∧ ((opTraceEnable operands free s).1).lift = s.lift ∧
    ((opTraceEnable operands free s).1).queue = s.queue ∧ ((opTraceEnable operands free s).1).tally = s.tally ∧
    ((opTraceEnable operands free s).1).sup = s.sup ∧ ((opTraceEnable operands free s).1).active = s.active ∧
    ((opTraceEnable operands free s).1).staging = s.staging ∧ ((opTraceEnable operands free s).1).mgmt = s.mgmt := by
  generalize h : (opTraceEnable operands free s).1 = r
  unfold opTraceEnable at h
  simp only [traceResult, performIf, refuse] at h
  (repeat' split at h) <;> subst h <;> simp

/-- What `opTraceDisable` leaves as it was. -/
@[simp] theorem opTraceDisable_keeps (operands : List Byte) (free : Nat) (s : State) :
    ((opTraceDisable operands free s).1).pending = s.pending ∧
    ((opTraceDisable operands free s).1).choices = s.choices ∧
    ((opTraceDisable operands free s).1).inReset = s.inReset ∧ ((opTraceDisable operands free s).1).clock = s.clock ∧
    ((opTraceDisable operands free s).1).strapValue = s.strapValue ∧
    ((opTraceDisable operands free s).1).station = s.station ∧ ((opTraceDisable operands free s).1).cab = s.cab ∧
    ((opTraceDisable operands free s).1).crane = s.crane ∧
    ((opTraceDisable operands free s).1).conditions = s.conditions ∧
    ((opTraceDisable operands free s).1).notices = s.notices ∧
    ((opTraceDisable operands free s).1).intake = s.intake ∧ ((opTraceDisable operands free s).1).slew = s.slew ∧
    ((opTraceDisable operands free s).1).lift = s.lift ∧ ((opTraceDisable operands free s).1).queue = s.queue ∧
    ((opTraceDisable operands free s).1).tally = s.tally ∧ ((opTraceDisable operands free s).1).sup = s.sup ∧
    ((opTraceDisable operands free s).1).active = s.active ∧
    ((opTraceDisable operands free s).1).staging = s.staging ∧ ((opTraceDisable operands free s).1).mgmt = s.mgmt := by
  generalize h : (opTraceDisable operands free s).1 = r
  unfold opTraceDisable at h
  simp only [traceResult, performIf, refuse] at h
  (repeat' split at h) <;> subst h <;> simp

/-- What `opTraceFlush` leaves as it was. -/
@[simp] theorem opTraceFlush_keeps (operands : List Byte) (free : Nat) (s : State) :
    ((opTraceFlush operands free s).1).pending = s.pending ∧ ((opTraceFlush operands free s).1).choices = s.choices ∧
    ((opTraceFlush operands free s).1).inReset = s.inReset ∧ ((opTraceFlush operands free s).1).clock = s.clock ∧
    ((opTraceFlush operands free s).1).strapValue = s.strapValue ∧
    ((opTraceFlush operands free s).1).station = s.station ∧ ((opTraceFlush operands free s).1).cab = s.cab ∧
    ((opTraceFlush operands free s).1).crane = s.crane ∧
    ((opTraceFlush operands free s).1).conditions = s.conditions ∧
    ((opTraceFlush operands free s).1).notices = s.notices ∧ ((opTraceFlush operands free s).1).intake = s.intake ∧
    ((opTraceFlush operands free s).1).slew = s.slew ∧ ((opTraceFlush operands free s).1).lift = s.lift ∧
    ((opTraceFlush operands free s).1).queue = s.queue ∧ ((opTraceFlush operands free s).1).tally = s.tally ∧
    ((opTraceFlush operands free s).1).sup = s.sup ∧ ((opTraceFlush operands free s).1).active = s.active ∧
    ((opTraceFlush operands free s).1).staging = s.staging ∧ ((opTraceFlush operands free s).1).mgmt = s.mgmt := by
  generalize h : (opTraceFlush operands free s).1 = r
  unfold opTraceFlush at h
  simp only [traceResult, performIf, refuse] at h
  (repeat' split at h) <;> subst h <;> simp

/-- What `opTraceControl` leaves as it was. -/
@[simp] theorem opTraceControl_keeps (operands : List Byte) (free : Nat) (s : State) :
    ((opTraceControl operands free s).1).pending = s.pending ∧
    ((opTraceControl operands free s).1).choices = s.choices ∧
    ((opTraceControl operands free s).1).inReset = s.inReset ∧ ((opTraceControl operands free s).1).clock = s.clock ∧
    ((opTraceControl operands free s).1).strapValue = s.strapValue ∧
    ((opTraceControl operands free s).1).station = s.station ∧ ((opTraceControl operands free s).1).cab = s.cab ∧
    ((opTraceControl operands free s).1).crane = s.crane ∧
    ((opTraceControl operands free s).1).conditions = s.conditions ∧
    ((opTraceControl operands free s).1).notices = s.notices ∧
    ((opTraceControl operands free s).1).intake = s.intake ∧ ((opTraceControl operands free s).1).lift = s.lift ∧
    ((opTraceControl operands free s).1).queue = s.queue ∧ ((opTraceControl operands free s).1).tally = s.tally ∧
    ((opTraceControl operands free s).1).sup = s.sup ∧ ((opTraceControl operands free s).1).active = s.active ∧
    ((opTraceControl operands free s).1).staging = s.staging ∧ ((opTraceControl operands free s).1).mgmt = s.mgmt := by
  generalize h : (opTraceControl operands free s).1 = r
  unfold opTraceControl at h
  simp only [traceResult, performIf, refuse] at h
  (repeat' split at h) <;> subst h <;> simp

/-- What `opTraceRead` leaves as it was. -/
@[simp] theorem opTraceRead_keeps (operands : List Byte) (free : Nat) (s : State) :
    ((opTraceRead operands free s).1).pending = s.pending ∧ ((opTraceRead operands free s).1).choices = s.choices ∧
    ((opTraceRead operands free s).1).inReset = s.inReset ∧ ((opTraceRead operands free s).1).clock = s.clock ∧
    ((opTraceRead operands free s).1).strapValue = s.strapValue ∧
    ((opTraceRead operands free s).1).station = s.station ∧ ((opTraceRead operands free s).1).cab = s.cab ∧
    ((opTraceRead operands free s).1).crane = s.crane ∧ ((opTraceRead operands free s).1).conditions = s.conditions ∧
    ((opTraceRead operands free s).1).notices = s.notices ∧ ((opTraceRead operands free s).1).intake = s.intake ∧
    ((opTraceRead operands free s).1).slew = s.slew ∧ ((opTraceRead operands free s).1).lift = s.lift ∧
    ((opTraceRead operands free s).1).queue = s.queue ∧ ((opTraceRead operands free s).1).tally = s.tally ∧
    ((opTraceRead operands free s).1).sup = s.sup ∧ ((opTraceRead operands free s).1).active = s.active ∧
    ((opTraceRead operands free s).1).staging = s.staging ∧ ((opTraceRead operands free s).1).mgmt = s.mgmt := by
  generalize h : (opTraceRead operands free s).1 = r
  unfold opTraceRead at h
  simp only [traceResult, performIf, refuse] at h
  (repeat' split at h) <;> subst h <;> simp

/-- `opWarmRestart` changes nothing. -/
@[simp] theorem opWarmRestart_keeps (operands : List Byte) (free : Nat) (s : State) : (opWarmRestart operands free s).1 = s := by
  generalize h : (opWarmRestart operands free s).1 = r
  unfold opWarmRestart at h
  simp only [performIf, refuse] at h
  (repeat' split at h) <;> subst h <;> rfl

/-- What `performCode` leaves as it was. -/
@[simp] theorem performCode_keeps (code : Byte) (operands : List Byte) (free : Nat) (s : State) :
    ((performCode code operands free s).1).pending = s.pending ∧
    ((performCode code operands free s).1).inReset = s.inReset ∧
    ((performCode code operands free s).1).clock = s.clock ∧
    ((performCode code operands free s).1).strapValue = s.strapValue ∧
    ((performCode code operands free s).1).station = s.station ∧
    ((performCode code operands free s).1).crane = s.crane ∧ ((performCode code operands free s).1).mgmt = s.mgmt := by
  generalize h : (performCode code operands free s).1 = r
  unfold performCode judged refuse at h
  (repeat' split at h) <;> subst h <;> simp

/-- What `performNext` leaves as it was. -/
@[simp] theorem performNext_keeps (s : State) :
    (performNext s).pending = s.pending ∧ (performNext s).inReset = s.inReset ∧ (performNext s).clock = s.clock ∧
    (performNext s).strapValue = s.strapValue ∧ (performNext s).station = s.station := by
  generalize h : performNext s = r
  unfold performNext at h
  try dsimp only at h
  (repeat' split at h) <;> subst h <;> simp

/-- What `runChain` leaves as it was. -/
@[simp] theorem runChain_keeps (n : Nat) (s : State) :
    (runChain n s).pending = s.pending ∧ (runChain n s).inReset = s.inReset ∧ (runChain n s).clock = s.clock ∧
    (runChain n s).strapValue = s.strapValue ∧ (runChain n s).station = s.station := by
  induction n generalizing s with
  | zero => simp [runChain]
  | succ n ih =>
    unfold runChain
    dsimp only
    split <;> simp [ih]

/-- What `performRequest` leaves as it was. -/
@[simp] theorem performRequest_keeps (s : State) :
    (performRequest s).pending = s.pending ∧ (performRequest s).inReset = s.inReset ∧
    (performRequest s).clock = s.clock ∧ (performRequest s).strapValue = s.strapValue ∧
    (performRequest s).station = s.station := by
  generalize h : performRequest s = r
  unfold performRequest at h
  try dsimp only at h
  (repeat' split at h) <;> subst h <;> simp

/-- What `completeCheck` leaves as it was. -/
@[simp] theorem completeCheck_keeps (s : State) :
    (completeCheck s).pending = s.pending ∧ (completeCheck s).choices = s.choices ∧
    (completeCheck s).inReset = s.inReset ∧ (completeCheck s).clock = s.clock ∧
    (completeCheck s).strapValue = s.strapValue ∧ (completeCheck s).station = s.station ∧
    (completeCheck s).tally = s.tally ∧ (completeCheck s).active = s.active := by
  generalize h : completeCheck s = r
  unfold completeCheck at h
  try dsimp only at h
  (repeat' split at h) <;> subst h <;> simp

end Sys2Proof.Machine
end

