-- ==== Sys2Proof/Laws/Link.lean ====
section
/-! SUPPORT. What each operation of the link ports leaves as it was. -/

namespace Sys2Proof.Machine

/-- What `goDown` leaves as it was. -/
@[simp] theorem goDown_keeps (p : PortId) (s : State) :
    (goDown p s).pending = s.pending ∧ (goDown p s).inReset = s.inReset ∧
    (goDown p s).clock = s.clock ∧ (goDown p s).strapValue = s.strapValue ∧ (goDown p s).station = s.station ∧
    (goDown p s).tally = s.tally ∧ (goDown p s).active = s.active ∧ (goDown p s).staging = s.staging := by
  simp [goDown]

/-- What `badFrame` leaves as it was. -/
@[simp] theorem badFrame_keeps (p : PortId) (n : Framing) (s : State) :
    (badFrame p n s).pending = s.pending ∧
    (badFrame p n s).inReset = s.inReset ∧ (badFrame p n s).clock = s.clock ∧
    (badFrame p n s).strapValue = s.strapValue ∧ (badFrame p n s).station = s.station ∧
    (badFrame p n s).tally = s.tally ∧ (badFrame p n s).active = s.active ∧ (badFrame p n s).staging = s.staging := by
  simp [badFrame]

/-- What `forwardReady` leaves as it was. -/
@[simp] theorem forwardReady_keeps (q : PortId) (h : List Byte) (s : State) :
    (forwardReady q h s).pending = s.pending ∧ (forwardReady q h s).choices = s.choices ∧
    (forwardReady q h s).inReset = s.inReset ∧ (forwardReady q h s).clock = s.clock ∧
    (forwardReady q h s).strapValue = s.strapValue ∧ (forwardReady q h s).station = s.station ∧
    (forwardReady q h s).notices = s.notices ∧ (forwardReady q h s).intake = s.intake ∧
    (forwardReady q h s).slew = s.slew ∧ (forwardReady q h s).lift = s.lift ∧ (forwardReady q h s).queue = s.queue ∧
    (forwardReady q h s).tally = s.tally ∧ (forwardReady q h s).sup = s.sup ∧
    (forwardReady q h s).active = s.active ∧ (forwardReady q h s).staging = s.staging ∧
    (forwardReady q h s).mgmt = s.mgmt ∧ (forwardReady q h s).trace = s.trace := by
  generalize h : forwardReady q h s = r
  unfold forwardReady at h
  try dsimp only at h
  (repeat' split at h) <;> subst h <;> simp

/-- What `headerComplete` leaves as it was. -/
@[simp] theorem headerComplete_keeps (p : PortId) (h : List Byte) (s : State) :
    (headerComplete p h s).pending = s.pending ∧
    (headerComplete p h s).inReset = s.inReset ∧ (headerComplete p h s).clock = s.clock ∧
    (headerComplete p h s).strapValue = s.strapValue ∧ (headerComplete p h s).station = s.station ∧
    (headerComplete p h s).tally = s.tally ∧ (headerComplete p h s).active = s.active ∧
    (headerComplete p h s).staging = s.staging := by
  generalize h : headerComplete p h s = r
  unfold headerComplete at h
  try dsimp only at h
  (repeat' split at h) <;> subst h <;> simp

/-- What `frameByte` leaves as it was. -/
@[simp] theorem frameByte_keeps (p : PortId) (b : Byte) (s : State) :
    (frameByte p b s).pending = s.pending ∧
    (frameByte p b s).inReset = s.inReset ∧ (frameByte p b s).clock = s.clock ∧
    (frameByte p b s).strapValue = s.strapValue ∧ (frameByte p b s).station = s.station ∧
    (frameByte p b s).tally = s.tally ∧ (frameByte p b s).active = s.active ∧ (frameByte p b s).staging = s.staging := by
  generalize h : frameByte p b s = r
  unfold frameByte at h
  try dsimp only at h
  (repeat' split at h) <;> subst h <;> simp

/-- What `handOn` leaves as it was. -/
@[simp] theorem handOn_keeps (p : PortId) (t : Treatment) (bytes : List Byte) (s : State) :
    (handOn p t bytes s).pending = s.pending ∧ (handOn p t bytes s).inReset = s.inReset ∧
    (handOn p t bytes s).clock = s.clock ∧ (handOn p t bytes s).strapValue = s.strapValue ∧
    (handOn p t bytes s).station = s.station ∧ (handOn p t bytes s).slew = s.slew ∧
    (handOn p t bytes s).tally = s.tally ∧ (handOn p t bytes s).active = s.active ∧
    (handOn p t bytes s).staging = s.staging := by
  generalize h : handOn p t bytes s = r
  unfold handOn at h
  try dsimp only at h
  (repeat' split at h) <;> subst h <;> simp

/-- What `frameEnd` leaves as it was. -/
@[simp] theorem frameEnd_keeps (p : PortId) (s : State) :
    (frameEnd p s).pending = s.pending ∧ (frameEnd p s).inReset = s.inReset ∧ (frameEnd p s).clock = s.clock ∧
    (frameEnd p s).strapValue = s.strapValue ∧ (frameEnd p s).station = s.station ∧ (frameEnd p s).tally = s.tally ∧
    (frameEnd p s).active = s.active ∧ (frameEnd p s).staging = s.staging := by
  generalize h : frameEnd p s = r
  unfold frameEnd at h
  try dsimp only at h
  (repeat' split at h) <;> subst h <;> simp

/-- What `waitingSymbol` leaves as it was. -/
@[simp] theorem waitingSymbol_keeps (p : PortId) (y : LineSymbol) (s : State) :
    (waitingSymbol p y s).pending = s.pending ∧ (waitingSymbol p y s).choices = s.choices ∧
    (waitingSymbol p y s).inReset = s.inReset ∧ (waitingSymbol p y s).clock = s.clock ∧
    (waitingSymbol p y s).strapValue = s.strapValue ∧ (waitingSymbol p y s).station = s.station ∧
    (waitingSymbol p y s).conditions = s.conditions ∧ (waitingSymbol p y s).notices = s.notices ∧
    (waitingSymbol p y s).intake = s.intake ∧ (waitingSymbol p y s).slew = s.slew ∧
    (waitingSymbol p y s).lift = s.lift ∧ (waitingSymbol p y s).queue = s.queue ∧
    (waitingSymbol p y s).tally = s.tally ∧ (waitingSymbol p y s).sup = s.sup ∧
    (waitingSymbol p y s).active = s.active ∧ (waitingSymbol p y s).staging = s.staging ∧
    (waitingSymbol p y s).mgmt = s.mgmt ∧ (waitingSymbol p y s).trace = s.trace := by
  generalize h : waitingSymbol p y s = r
  unfold waitingSymbol at h
  try dsimp only at h
  (repeat' split at h) <;> subst h <;> simp

/-- What `inFrameSymbol` leaves as it was. -/
@[simp] theorem inFrameSymbol_keeps (p : PortId) (y : LineSymbol) (s : State) :
    (inFrameSymbol p y s).pending = s.pending ∧ (inFrameSymbol p y s).inReset = s.inReset ∧
    (inFrameSymbol p y s).clock = s.clock ∧ (inFrameSymbol p y s).strapValue = s.strapValue ∧
    (inFrameSymbol p y s).station = s.station ∧ (inFrameSymbol p y s).tally = s.tally ∧
    (inFrameSymbol p y s).active = s.active ∧ (inFrameSymbol p y s).staging = s.staging := by
  generalize h : inFrameSymbol p y s = r
  unfold inFrameSymbol at h
  try dsimp only at h
  (repeat' split at h) <;> subst h <;> simp

/-- What `discardingSymbol` leaves as it was. -/
@[simp] theorem discardingSymbol_keeps (p : PortId) (y : LineSymbol) (s : State) :
    (discardingSymbol p y s).pending = s.pending ∧ (discardingSymbol p y s).choices = s.choices ∧
    (discardingSymbol p y s).inReset = s.inReset ∧ (discardingSymbol p y s).clock = s.clock ∧
    (discardingSymbol p y s).strapValue = s.strapValue ∧ (discardingSymbol p y s).station = s.station ∧
    (discardingSymbol p y s).conditions = s.conditions ∧ (discardingSymbol p y s).notices = s.notices ∧
    (discardingSymbol p y s).intake = s.intake ∧ (discardingSymbol p y s).slew = s.slew ∧
    (discardingSymbol p y s).lift = s.lift ∧ (discardingSymbol p y s).queue = s.queue ∧
    (discardingSymbol p y s).tally = s.tally ∧ (discardingSymbol p y s).sup = s.sup ∧
    (discardingSymbol p y s).active = s.active ∧ (discardingSymbol p y s).staging = s.staging ∧
    (discardingSymbol p y s).mgmt = s.mgmt ∧ (discardingSymbol p y s).trace = s.trace := by
  generalize h : discardingSymbol p y s = r
  unfold discardingSymbol at h
  try dsimp only at h
  (repeat' split at h) <;> subst h <;> simp

/-- What `frameSymbol` leaves as it was. -/
@[simp] theorem frameSymbol_keeps (p : PortId) (y : LineSymbol) (s : State) :
    (frameSymbol p y s).pending = s.pending ∧ (frameSymbol p y s).inReset = s.inReset ∧
    (frameSymbol p y s).clock = s.clock ∧ (frameSymbol p y s).strapValue = s.strapValue ∧
    (frameSymbol p y s).station = s.station ∧ (frameSymbol p y s).tally = s.tally ∧
    (frameSymbol p y s).active = s.active ∧ (frameSymbol p y s).staging = s.staging := by
  generalize h : frameSymbol p y s = r
  unfold frameSymbol at h
  try dsimp only at h
  (repeat' split at h) <;> subst h <;> simp

/-- What `receive` leaves as it was. -/
@[simp] theorem receive_keeps (p : PortId) (y : LineSymbol) (s : State) :
    (receive p y s).pending = s.pending ∧ (receive p y s).inReset = s.inReset ∧ (receive p y s).clock = s.clock ∧
    (receive p y s).strapValue = s.strapValue ∧ (receive p y s).station = s.station ∧
    (receive p y s).tally = s.tally ∧ (receive p y s).active = s.active ∧ (receive p y s).staging = s.staging := by
  generalize h : receive p y s = r
  unfold receive at h
  try dsimp only at h
  (repeat' split at h) <;> subst h <;> simp

/-- What `transmit` leaves as it was. -/
@[simp] theorem transmit_keeps (p : PortId) (s : State) :
    (transmit p s).pending = s.pending ∧ (transmit p s).inReset = s.inReset ∧
    (transmit p s).clock = s.clock ∧ (transmit p s).strapValue = s.strapValue ∧ (transmit p s).station = s.station ∧
    (transmit p s).tally = s.tally ∧ (transmit p s).active = s.active ∧ (transmit p s).staging = s.staging := by
  generalize h : transmit p s = r
  unfold transmit at h
  try dsimp only at h
  (repeat' split at h) <;> subst h <;> simp

end Sys2Proof.Machine
end

