-- ==== Sys2Proof/Laws/Notices.lean ====
section
/-! SUPPORT. What an attempt to send a NOTICE and a raise can do: the frame that leaves is good, and the kinds that were
raised are pending or given by it. -/

namespace Sys2Proof.Machine

/-- A 16-bit field that was appended is read back (R174). -/
theorem field16_append (l : List Byte) (x : BitVec 16) : field16 (l ++ bytes16 x) l.length = x := by
  have h1 : byteAt (l ++ bytes16 x) l.length = x.extractLsb' 8 8 := by simp [byteAt, bytes16]
  have h2 : byteAt (l ++ bytes16 x) (l.length + 1) = x.extractLsb' 0 8 := by simp [byteAt, bytes16]
  rw [field16, h1, h2]
  ext i hi
  simp only [BitVec.getElem_append, BitVec.getElem_extractLsb']
  split
  · rw [Nat.zero_add, BitVec.getLsbD_eq_getElem (by omega)]
  · rw [BitVec.getLsbD_eq_getElem (by omega)]
    congr 1; omega

/-- A frame that the part makes of at most 120 payload bytes passes the checks made at END (R9, R11). -/
theorem goodAtEnd_frameOf (dest source kind flags : Byte) (payload : List Byte) (h : payload.length ≤ 120) :
    goodAtEnd (frameOf dest source kind flags payload) = true := by
  have hlen : (byteAt (frameOf dest source kind flags payload) 4).toNat = payload.length := by
    show (sendByte payload.length).toNat = _
    simp [sendByte]; omega
  have hf : frameOf dest source kind flags payload =
      ([dest, source, kind, flags, sendByte payload.length] ++ payload) ++
        bytes16 (check ([dest, source, kind, flags, sendByte payload.length] ++ payload)) := rfl
  simp only [goodAtEnd, hlen]
  rw [hf]
  generalize hb : [dest, source, kind, flags, sendByte payload.length] ++ payload = body
  have hl : body.length = 5 + payload.length := by rw [← hb]; simp; omega
  have h2 : (body ++ bytes16 (check body)).length - 2 = body.length := by simp [bytes16]
  rw [h2, field16_append]
  simp [bytes16, hl]
  omega

/-- No kind raised: nothing is sent (R173). -/
theorem NoticesRaised.none (s : State) : NoticesRaised (fun _ => False) s s := ⟨[], by simp⟩

/-- What is raised over two stretches is raised over both together (R172, R173). -/
theorem NoticesRaised.trans {a b : NoticeKind → Prop} {s t u : State} (h : NoticesRaised a s t) (g : NoticesRaised b t u) :
    NoticesRaised (fun k => a k ∨ b k) s u := by
  obtain ⟨x, hx, gx, kx⟩ := h
  obtain ⟨y, hy, gy, ky⟩ := g
  refine ⟨x ++ y, by rw [hy, hx]; simp, ?_, ?_⟩
  · intro e he
    rcases List.mem_append.mp he with he | he
    · exact gx e he
    · exact gy e he
  · intro k
    have p := kx k
    have q := ky k
    simp only [List.mem_append]
    constructor
    · rintro (h | ⟨e, he | he, hk⟩)
      · rcases q.mp (.inl h) with h | h
        · rcases p.mp (.inl h) with h | h
          · exact .inl h
          · exact .inr (.inl h)
        · exact .inr (.inr h)
      · rcases p.mp (.inr ⟨e, he, hk⟩) with h | h
        · exact .inl h
        · exact .inr (.inl h)
      · rcases q.mp (.inr ⟨e, he, hk⟩) with h | h
        · rcases p.mp (.inl h) with h | h
          · exact .inl h
          · exact .inr (.inl h)
        · exact .inr (.inr h)
    · have both : (t.notices.getLsbD k.bit = true ∨ ∃ e ∈ x, (field16 e.bytes 5).getLsbD k.bit = true) →
          u.notices.getLsbD k.bit = true ∨ ∃ e, (e ∈ x ∨ e ∈ y) ∧ (field16 e.bytes 5).getLsbD k.bit = true := by
        rintro (h | ⟨e, he, hk⟩)
        · rcases q.mpr (.inl h) with h | ⟨e, he, hk⟩
          · exact .inl h
          · exact .inr ⟨e, .inr he, hk⟩
        · exact .inr ⟨e, .inl he, hk⟩
      rintro (h | h | h)
      · exact both (p.mpr (.inl h))
      · exact both (p.mpr (.inr h))
      · rcases q.mpr (.inr h) with h | ⟨e, he, hk⟩
        · exact .inl h
        · exact .inr ⟨e, .inr he, hk⟩

/-- An attempt sends all pending kinds in one good NOTICE, or does nothing (R173). -/
theorem attemptNotice_cases (s : State) :
    attemptNotice s = s ∨
      (attemptNotice s = { s with
          notices := 0, cab := { s.cab with list := s.cab.list ++ [{ bytes := noticeFrame s, status := .whole }] } } ∧
        goodAtEnd (noticeFrame s) = true ∧ byteAt (noticeFrame s) 2 = kindNotice ∧ field16 (noticeFrame s) 5 = s.notices) := by
  unfold attemptNotice
  split
  · rename_i h
    refine .inr ⟨?_, goodAtEnd_frameOf _ _ _ _ _ (by simp [noticePayload, bytes16, send16, send32, bytes32]), rfl, ?_⟩
    · simp only [State.offer, State.port, h.2.2, if_true]; rfl
    · have read : ∀ (a b c d e : Byte) (x : BitVec 16) (l : List Byte), field16 ([a, b, c, d, e] ++ (bytes16 x ++ l)) 5 = x :=
        fun a b c d e x l => by
          have := field16_append [a, b, c, d, e] x
          simpa [field16, byteAt, bytes16] using this
      simp only [noticeFrame, frameOf, noticePayload, List.append_assoc]
      exact read _ _ _ _ _ _ _
  · exact .inl rfl

/-- An attempt raises no kind (R173). -/
theorem attemptNotice_raises_none (s : State) : NoticesRaised (fun _ => False) s (attemptNotice s) := by
  rcases attemptNotice_cases s with h | ⟨h, good, kind, kinds⟩
  · rw [h]; exact .none s
  · rw [h]
    refine ⟨[{ bytes := noticeFrame s, status := .whole }], rfl, ?_, ?_⟩
    · simp [good, kind, kindNotice]
    · intro k; simp [kinds]

/-- A raise raises its own kind and no other (R172, R173). -/
theorem State.notify_raises (k : NoticeKind) (s : State) : NoticesRaised (· = k) s (s.notify k) := by
  have marked : NoticesRaised (· = k) s (s.markPending k) := by
    refine ⟨[], by simp [State.markPending], by simp, ?_⟩
    intro j
    have hk : k.bit < 16 := by cases k <;> decide
    have hj : j.bit = k.bit ↔ j = k := by cases j <;> cases k <;> decide
    show ((s.notices ||| BitVec.twoPow 16 k.bit).getLsbD j.bit = true ∨ _) ↔ s.notices.getLsbD j.bit = true ∨ j = k
    rw [BitVec.getLsbD_or, BitVec.getLsbD_twoPow, ← hj, decide_eq_true hk, Bool.true_and, Bool.or_eq_true, decide_eq_true_eq,
      eq_comm (a := k.bit)]
    simp only [List.not_mem_nil, false_and, exists_false, or_false]
  obtain ⟨x, hx, gx, kx⟩ := marked.trans (attemptNotice_raises_none (s.markPending k))
  exact ⟨x, hx, gx, fun j => (kx j).trans (or_congr_right (Iff.of_eq (or_false _)))⟩

end Sys2Proof.Machine
end

