-- ==== Sys2Proof/WellFormed.lean ====
section
/-! DEFINITION. Which commands can come about: the checks on their operands. A payload handed over by a good frame has
0 to 120 bytes (01, "Frames"); a carried value lies in its owner's range. -/

namespace Sys2Proof

/-- A good frame's payload has at most 120 bytes (R10, R11). -/
def PayloadOk (payload : List Byte) : Bool := decide (payload.length ≤ 120)

/-- The values a clock event may carry: an accepted F value (R22) or a slew position (R42). -/
def ClockEvent.wellFormed : ClockEvent → Bool
  | .fSample v => decide (0 ≤ v) && decide (v ≤ 120000)
  | .slewPace p => decide (p < 65536)
  | .sectorChange => true
  | .liftEvent _ => true
  | .supChange _ => true
  | .vdShaped => true

/-- The operands of a command lie in the ranges the manual gives them. -/
def Instr.wellFormed : Instr → Bool
  | .sensorReport _ payload => PayloadOk payload
  | .operatorState payload => PayloadOk payload
  | .shapeValveDemand _ _ _ payload => PayloadOk payload
  | .takeRequest _ _ payload => PayloadOk payload
  | .traceCapture event => event.wellFormed
  | .powerOn _ => true
  | .resetAsserted => true
  | .resetReleased _ => true
  | .receiveSymbol _ _ => true
  | .polarityFlip _ => true
  | .linkUp _ => true
  | .lossOfSignal _ => true
  | .violationWindowFull _ => true
  | .transmitSymbol _ => true
  | .heldReplyOffer => true
  | .noticeAttempt => true
  | .freshnessExpiry _ => true
  | .gapRunLimit => true
  | .setDown => true
  | .windowEvaluation => true
  | .gripConfirmed => true
  | .release => true
  | .tareTimerExpiry => true
  | .encoderObservation _ _ _ => true
  | .serviceInputChange _ => true
  | .alertFlashToggle => true
  | .performRequest => true
  | .test => true
  | .readIdentity => true
  | .readStatus => true
  | .readMeasurands => true
  | .readTally => true
  | .peekLifts => true
  | .dropLifts => true
  | .clearBunk => true
  | .clearConditions => true
  | .openStaging => true
  | .writeEntry => true
  | .readEntry => true
  | .checkStaging => true
  | .checkStagingComplete => true
  | .activate => true
  | .traceConfigure => true
  | .traceEnable => true
  | .traceDisable => true
  | .traceFlush => true
  | .traceRead => true
  | .warmRestart => true
  | .warmRestartPerformed => true

end Sys2Proof
end

