-- ==== Sys2Proof/Tests/Slice0.lean ====
section
/-! SUPPORT. Tests. The expected results come from the manual's worked examples and tables, named at each test; then, for
every statement of the certificate that has hypotheses, a state and operands that meet them. -/

namespace Sys2Proof.Tests

open Sys2Proof Sys2Proof.Machine

/-! ## Helpers -/

/-- The state after a command; a command that answered no next state would give the state after reset. -/
def run (c : Instr) (s : State) : State :=
  match exec c s with
  | .next t => t
  | .fault _ => State.reset
  | .refused _ => State.reset

/-- The tables of the manual's worked examples: channels (02), tool 2 (04), sectors (03), capacities (06), functions (07) and
the machine table (05, 06) with generation 5. Capacity rows that the examples leave out repeat the row before. -/
def row (l : List Nat) : CapacityRow := rowOfBytes (l.flatMap send16)

/-- A channel entry by its numbers. -/
def channel (source slot measurand c0 v0 c1 v1 low high timeout : Int) : ChannelEntry :=
  { source := BitVec.ofInt 8 source, slot := BitVec.ofInt 8 slot, measurand := BitVec.ofInt 8 measurand,
    c0 := BitVec.ofInt 24 c0, v0 := BitVec.ofInt 32 v0, c1 := BitVec.ofInt 24 c1, v1 := BitVec.ofInt 32 v1,
    low := BitVec.ofInt 32 low, high := BitVec.ofInt 32 high, timeout := BitVec.ofInt 16 timeout }

def channelF : ChannelEntry := channel 12 0 1 0 0 800000 100000 0 115000 50
def channelA : ChannelEntry := channel 12 1 2 (-200000) (-2000) 200000 2000 (-1500) 1500 50
def channelG : ChannelEntry := channel 12 2 6 0 0 1000000 3500 0 3400 100
def channelP : ChannelEntry := channel 14 0 4 2000 0 12000 450 (-400) 400 200
def channelR : ChannelEntry := channel 14 1 5 2000 0 12000 (-450) (-400) 400 200
def channelReach : ChannelEntry := channel 13 0 3 0 0 60000 1500 100 1450 100

/-- Tool 2 of the lift example (04). -/
def tool2 : ToolEntry :=
  { toolId := 2, tare := 4200, closeThreshold := 900, openThreshold := 400, gripConfirmTime := 300, regripTime := 800,
    liftoffNet := 1500, accelGate := 150, windowLength := 16, tolerance := 20, spreadFloor := 50, gapLimit := 4 }

/-- The sectors of the wrap-boundary example (03). -/
def sectors : List SectorEntry :=
  [{ start := 800, kind := 2, column := 0, cosWeight := 1000, sinWeight := 0, towardLesser := 1 },
    { start := 3000, kind := 2, column := 1, cosWeight := 500, sinWeight := 866, towardLesser := 1 },
    { start := 6200, kind := 1, column := 2, cosWeight := BitVec.ofInt 16 (-1000), sinWeight := 0, towardLesser := 0 },
    { start := 10200, kind := 2, column := 1, cosWeight := 500, sinWeight := BitVec.ofInt 16 (-866), towardLesser := 2 },
    { start := 13400, kind := 3, column := 0, cosWeight := 1000, sinWeight := 0, towardLesser := 2 }]

/-- The capacity rows of the evaluations (06). -/
def rows : List CapacityRow :=
  let column0 := row [1900, 1840, 1780, 1720, 1650, 1540, 1430, 1320, 1200]
  let column1 := row [1740, 1680, 1620, 1560, 1500, 1380, 1260, 1140, 1020]
  let loaded1 := row [1800, 1740, 1680, 1620, 1560, 1440, 1320, 1200, 1080]
  let column2 := row [2000, 2000, 1980, 1960, 1940, 1900, 1860, 1820, 1780]
  [column0, column0, column0, column1, loaded1, loaded1, column2, column2, column2]

/-- The functions of the worked frames (07). -/
def functions : List FunctionEntry :=
  [{ functionId := 1, role := 0, effect := 0, sense := 1, warnScale := 600 },
    { functionId := 2, role := 1, effect := 1, sense := 0, warnScale := 700 },
    { functionId := 3, role := 2, effect := 1, sense := 0, warnScale := 500 },
    { functionId := 4, role := 3, effect := 1, sense := 0, warnScale := 400 },
    { functionId := 5, role := 4, effect := 0, sense := 0, warnScale := 1000 },
    { functionId := 6, role := 5, effect := 0, sense := 0, warnScale := 1000 }]

/-- The machine table of the examples (05, 06). -/
def machine : MachineRecord :=
  { generation := 5, warnOn := 850, warnOff := 800, limitOff := 950, classThreshold1 := 60000, classThreshold2 := 120000,
    bunkWarn := 150000, bunkLimit := 180000, queueThreshold := 3, overflowMode := 1, noticeStation := 3 }

/-- The whole set. -/
def tables : TableSet :=
  { channels := [channelF, channelA, channelG, channelP, channelR, channelReach], tools := [tool2],
    sectorHeader := { cpr := 16384, indexOffset := 2100, driftLimit := 40, hysteresis := 48, count := 5 },
    sectors, columnCount := 3, rows, functions, machine }

/-- The part at work: the tables active, tool 2 selected, supervision in HOLD, at time 40,000. -/
def working : State :=
  { active := some tables, clock := 40000, lift := { selectedTool := 2 },
    sup := { state := .hold, tilt := 160, capacity := 1020, alert := true } }

/-- A request of the cab computer (station 3) with tag 0x2A. -/
def request (operations : List Byte) : Request := { port := .cab, source := 3, payload := 0x2A :: operations }

/-- The state with a request at the head of the queue. -/
def asked (operations : List Byte) (s : State) : State := { s with mgmt := { requests := [request operations] } }

/-- A measurand that is FRESH with a value. -/
def freshAt (v : Int) : MeasurandRecord := { value := v, state := .fresh, lastAccepted := 39990, timer := some 50000 }

/-- The evaluation in full (06): force history of mean 16480, REACH 720, PITCH 85, ROLL −40, sector 1, class 0, NORMAL. -/
def evaluated : State :=
  { working with
    intake := { f := freshAt 16480, reach := freshAt 720, pitch := freshAt 85, roll := freshAt (-40) },
    slew := { p := 3100, referenced := true, sector := some 1 },
    lift := { selectedTool := 2, notedSector := some 1 },
    sup := { state := .normal, history := [16480, 16480, 16480, 16480], sector := some 1, tilt := 8, capacity := 1476,
             moment := 1187, utilisation := 805, alert := false } }

/-- The open lift of the example from grip to hand-over (04), in LIFTING. -/
def openLift17 : OpenLift :=
  { tool := 2, snapshot := some tool2, tareInUse := some 4200, workingTare := false, gripTime := 52300,
    pickSector := some 0, number := some (17, 5), sampleCount := 33, windowAttempts := 1 }

/-- The state of that lift with its second window full (04). -/
def lifting : State :=
  { evaluated with
    clock := 52960,
    lift := { state := .lifting, selectedTool := 2, notedSector := some 1, openLift := some openLift17,
              lastSampleMass := 16219,
              window := { n := 16, sum := 259537, least := some 16181, greatest := some 16262 } },
    queue := { nextSequence := 18 },
    sup := { evaluated.sup with tracking := true } }

/-- That lift in GRIPPED before its liftoff, with the next sequence number 17 (04). -/
def gripped : State :=
  { lifting with
    clock := 52640,
    lift := { state := .gripped, selectedTool := 2, notedSector := some 1, openLift := some { openLift17 with number := none } },
    queue := { nextSequence := 17 },
    sup := { evaluated.sup with tracking := false } }

/-- That lift in RELEASING with its regrip timer run out (04). -/
def releasing : State :=
  { lifting with
    clock := 59200, intake := { lifting.intake with snapshot := { tool := 2, assortment := 11 } },
    lift := { lifting.lift with
      state := .releasing, remembered := some .weighed, regripTimer := some 59200,
      openLift := some { openLift17 with
        weighing := some { gross := 16221, net := 12021, belowTare := false },
        opened := some { sector := some 2, assortment := 9, time := 58400 } } } }

/-- A port that is UP. -/
def upPort : Port := { link := .up }

/-- The part at work with both ports UP. -/
def linked : State := { working with cab := upPort, crane := upPort }

/-- A tare with a full window. -/
def taring : State :=
  { working with lift := { working.lift with
      state := .taring, tareTimer := some 45000,
      window := { n := 16, sum := 70256, least := some 4380, greatest := some 4400 } } }

/-- A reply is held for the cab port, whose list is so long. -/
def replyHeld (n : Nat) (link : LinkState) : State :=
  { working with
    cab := { link, list := List.replicate n { bytes := [1], status := .whole } }, notices := 1,
    mgmt := { requests := [request [], request []], phase := .held [1, 2, 3] false } }

/-! ## Well-formed commands: an ill-formed term for each check, refused -/

theorem test_wellformed_sensor_report : (Instr.sensorReport 12 (List.replicate 121 0)).wellFormed = false := by decide
theorem test_wellformed_operator_state : (Instr.operatorState (List.replicate 121 0)).wellFormed = false := by decide
theorem test_wellformed_valve_demand : (Instr.shapeValveDemand 1 2 0 (List.replicate 121 0)).wellFormed = false := by decide
theorem test_wellformed_request : (Instr.takeRequest .cab 3 (List.replicate 121 0)).wellFormed = false := by decide
theorem test_wellformed_f_sample :
    (Instr.traceCapture (.fSample 120001)).wellFormed = false ∧ (Instr.traceCapture (.fSample (-1))).wellFormed = false := by
  decide
theorem test_wellformed_slew_pace : (Instr.traceCapture (.slewPace 65536)).wellFormed = false := by decide
theorem test_wellformed_accepts :
    (Instr.sensorReport 12 (List.replicate 120 0)).wellFormed = true ∧
      (Instr.traceCapture (.fSample 120000)).wellFormed = true := by decide

/-! ## The link (01) -/

/-- No row of the opcode table has bits. -/
theorem test_no_word_spells_a_command : decodeTableWord 8 0x51 = none := by decide

/-- The published check value of this CRC-16 (generator 0x1021, from 0xFFFF) for the digits 1 to 9 is 0x29B1. -/
theorem test_check_of_nine_digits : check [0x31, 0x32, 0x33, 0x34, 0x35, 0x36, 0x37, 0x38, 0x39] = 0x29B1 := by decide +kernel

/-- 01, "bringing up a cab port": the 8th INVERTED IDLE flips the polarity, and the next IDLE begins training. -/
theorem test_receive_eighth_inverted_idle :
    let s := run (.receiveSymbol .cab .invertedIdle) { State.reset with cab := { invertedRun := 7 } }
    (s.cab.polarity, s.cab.invertedRun, s.cab.flipped, s.cab.link) = (.swapped, 0, true, .down) ∧
      (run (.receiveSymbol .cab .idle) s).cab.link = .training := by decide

/-- 01, the same example: the 2048th valid symbol leads UP, DISCARDING. -/
theorem test_receive_last_clean_symbol :
    let s := run (.receiveSymbol .cab (.data 7)) { State.reset with cab := { link := .training, cleanCount := 2047 } }
    (s.cab.link, s.cab.rx.framing) = (.up, .discarding) := by decide

/-- 01, "the crane port goes DOWN": the 32nd violation ends the frame S streaming out of the cab port, without
CHECK_ERROR_SEEN. -/
def crossing : State :=
  { linked with
    crane := { link := .up, violations := List.range 31,
               rx := { framing := .inFrame, bytes := [1, 2, 0x21, 0, 9, 5], treatment := some .cutThroughAndSnoop } },
    cab := { link := .up, sending := some 3,
             list := [{ bytes := [1, 2, 0x21, 0, 9, 5], status := .arriving }, { bytes := [9], status := .whole }] } }

theorem test_receive_window_fills :
    let s := run (.receiveSymbol .crane .violation) crossing
    (s.crane.link, s.conditions.toNat, s.cab.list.map (·.status)) = (.down, 8, [.broken, .whole]) := by decide

theorem test_transmit_aborts_the_broken_frame :
    let s := run (.transmitSymbol .cab) (run (.receiveSymbol .crane .violation) crossing)
    (s.cab.lastSent, s.cab.list.length, s.cab.owesIdle) = (.abortFrame, 1, true) := by decide

theorem test_polarity_flip : (run (.polarityFlip .cab) { State.reset with cab := { invertedRun := 8 } }).cab.polarity = .swapped := by
  decide

theorem test_link_up : (run (.linkUp .crane) { State.reset with crane := { link := .training, cleanCount := 2048 } }).crane.link = .up := by
  decide

theorem test_loss_of_signal :
    let s := run (.lossOfSignal .cab) { linked with cab := { link := .up, lossCount := 256 } }
    (s.cab.link, s.conditions.toNat) = (.down, 4) := by decide

theorem test_violation_window_full :
    (run (.violationWindowFull .crane) { linked with crane := { link := .up, violations := List.range 32 } }).crane.link = .down := by
  decide

/-! ## Intake (02) -/

/-- 02, "conversions". -/
theorem test_convert_ties_away_from_zero :
    convert channelP (measurandRange .pitch) (-2500) = -203 ∧ convert channelP (measurandRange .pitch) 2100 = 5 := by decide

/-- 02, "conversions": a clamped F, and the mirrored ROLL sensor. -/
theorem test_convert_clamps_and_mirrors :
    convert channelF (measurandRange .f) 980000 = 120000 ∧ convert channelF (measurandRange .f) (-4000) = 0 ∧
      convert channelR (measurandRange .roll) 2889 = -40 := by decide

/-- 02, report 1 at 40,000 from station 12: slots 2 and 1 with 500000 and 3500 (its F sample is taken in an open order). -/
theorem test_sensor_report_one :
    let s := run (.sensorReport 12 ([2] ++ bytes24 500000 ++ [1] ++ bytes24 3500)) working
    (s.intake.a, s.intake.gpress) =
      ({ value := 35, state := .fresh, lastAccepted := 40000, timer := some 40050 },
        { value := 1750, state := .fresh, lastAccepted := 40000, timer := some 40100 }) := by decide

/-- 02, report 2: an F of 980000 is implausible, and slot 7 matches no entry. -/
theorem test_sensor_report_implausible :
    let s := run (.sensorReport 12 ([0] ++ bytes24 980000 ++ [7] ++ bytes24 12345)) working
    (s.intake, s.conditions.toNat) = (working.intake, 256) := by decide

/-- 02, "snapshot updates": the fourth frame changes the tool and asks for a tare, which fails for tool 3 (no entry). -/
theorem test_operator_state :
    let before := { working with intake := { snapshot := { tool := 2, assortment := 9, tareNumber := some 118 } } }
    let s := run (.operatorState [3, 9, 120]) before
    (s.intake.snapshot, s.lift.selectedTool, s.notices.toNat) =
      ({ tool := 3, assortment := 9, tareNumber := some 120 }, 3, 2048) ∧
    run (.operatorState [9, 9, 121]) s = s := by decide

theorem test_freshness_expiry :
    let s := run (.freshnessExpiry .f) { evaluated with clock := 50000 }
    (s.intake.f.state, s.sup.state, s.sup.history, s.notices.toNat) = (.stale, .hold, [], 4) := by decide

/-! ## The slew counter (03) -/

/-- 03, "index events": the first index, and one with 57 counts lost. -/
theorem test_index_drift : wrappedDrift 16384 15000 2100 = -3484 ∧ wrappedDrift 16384 10300 2100 = -8184 := by decide

theorem test_encoder_index_suspect :
    let s := run (.encoderObservation true true true)
      { evaluated with slew := { p := 2043, referenced := true, sector := some 0, levelA := true, levelB := true } }
    (s.slew.p, s.slew.lastDrift, s.conditions.toNat, s.notices.toNat) = (2100, -57, 128, 512) := by decide

/-- 03, "the wrap boundary": 751 is 48 past the boundary of sectors 0 and 4, 760 is 39, and 13351 is 48 into sector 3. -/
theorem test_wrap_boundary :
    tables.sectorAt 751 = 4 ∧ tables.distancePast 0 4 751 = some 48 ∧ tables.distancePast 0 4 760 = some 39 ∧
      tables.distancePast 4 0 847 = some 47 ∧ tables.distancePast 4 3 13351 = some 48 := by decide

/-- 03, the same example: the count down from 1 wraps below 0 inside sector 4. -/
theorem test_encoder_counts_through_zero :
    let s := run (.encoderObservation false false false)
      { working with slew := { p := 0, referenced := true, sector := some 4, levelA := true } }
    (s.slew.p, s.slew.sector) = (16383, some 4) := by decide

/-- 03, "pacing across the bunk": 6400 is paced once. -/
theorem test_pacing :
    let c : Pacing := { windowEnabled := true, windowStart := 6200, windowEnd := 10199, deglitch := true }
    let at_ (last : Option Nat) : State := { working with
      slew := { p := 6400, lastPace := last },
      trace := { state := .running, config := { clock := .slewPace, block := [.slewPos], pacing := c } } }
    (paceCount (at_ none)).trace.captureNumber = 1 ∧ (paceCount (at_ (some 6400))).trace.captureNumber = 0 := by decide

/-- 03, R52: a window that lies at or above the modulus holds no position, wrapping or not; one that starts there and ends
below holds the positions up to its end. -/
theorem test_window_above_the_modulus :
    let window (first last : Nat) : Pacing := { windowEnabled := true, windowStart := first, windowEnd := last }
    (window 16385 16384).inside 16384 0 = false ∧ (window 16384 16385).inside 16384 16383 = false ∧
      (window 16385 100).inside 16384 100 = true ∧ (window 16385 100).inside 16384 101 = false := by decide

/-! ## The lift controller (04) -/

/-- 04, "one sample mass". -/
theorem test_sample_mass : massOf 16480 35 = some 16220 ∧ massOf 17100 180 = some 14729 ∧ massOf 9000 (-700) = none := by
  decide

/-- 04, the second window: mean 16221, net 12021. -/
theorem test_window_evaluation_weighs :
    let s := run .windowEvaluation lifting
    (s.lift.state, s.lift.openLift.bind (·.weighing)) =
      (.weighed, some { gross := 16221, net := 12021, belowTare := false }) := by decide

/-- 04, the first window: spread 1239 above 324. -/
theorem test_window_evaluation_refuses :
    let s := run .windowEvaluation { lifting with lift := { lifting.lift with
      openLift := some { openLift17 with windowAttempts := 0 },
      window := { n := 16, sum := 259040, least := some 15274, greatest := some 16513 } } }
    (s.lift.state, s.lift.window, s.lift.openLift.map (·.windowAttempts)) = (.lifting, {}, some 1) := by decide

/-- 04: F 15900 with a 60 lifts off with mass 15274, takes number 17, and is the first sample of the window. -/
theorem test_liftoff :
    let s := liftFSample 15900 (some 60) gripped
    (s.lift.state, s.lift.lastSampleMass, s.lift.window.sum) = (.lifting, 15274, 15274) ∧
      (s.queue.nextSequence, s.sup.tracking) = (18, true) ∧ s.lift.openLift.bind (·.number) = some (17, 5) := by decide

/-- 04, "a tare request": 70,256 over 16 gives 4391. -/
theorem test_tare_capture :
    let s := run .windowEvaluation { working with lift := { working.lift with
      state := .taring, tareTimer := some 45000,
      window := { n := 16, sum := 70256, least := some 4380, greatest := some 4400 } } }
    (s.lift.state, s.lift.workingTare, s.lift.tareTimer, s.notices.toNat) = (.empty, some 4391, none, 1024) := by decide

theorem test_tare_timer_expiry :
    let s := run .tareTimerExpiry { working with clock := 45000, lift := { working.lift with
      state := .taring, tareTimer := some 45000 } }
    (s.lift.state, s.lift.workingTare, s.notices.toNat) = (.empty, none, 2048) := by decide

/-- 04, "a regrip and a set-down": the run reaches 4. -/
theorem test_set_down :
    let s := run .setDown { lifting with lift := { lifting.lift with setDownRun := 4 } }
    (s.lift.state, s.lift.setDownRun, s.lift.window, openNumber s) = (.gripped, 0, {}, some 17) := by decide

theorem test_gap_run_limit :
    (run .gapRunLimit { lifting with lift := { lifting.lift with window := { n := 3, sum := 48000, gapRun := 4 } } }).lift.window = {} := by
  decide

/-- 04: the grip at 52,300. -/
theorem test_grip_confirmed :
    let s := run .gripConfirmed { evaluated with
      clock := 52300, lift := { selectedTool := 2, notedSector := some 0, gripTimer := some 52300 } }
    s.lift.state = .gripped ∧ s.lift.openLift = some { openLift17 with number := none, sampleCount := 0, windowAttempts := 0 } := by
  decide

/-- 04 and 05: lift 17 handed over, DELIVERED, duration 610. -/
theorem test_release :
    let s := run .release releasing
    (s.lift.state, s.queue.records.map fun r => (r.sequence, r.outcome, r.assortment, r.duration), s.tally.bunkTotal) =
      (.empty, [(17, .delivered, 9, 610)], 12021) := by decide

/-! ## The account of lifts (05) -/

/-- 05, lift 24: an unload of 30500 takes 64051 to 33551 and the class from 1 to 0. -/
theorem test_booking_unload :
    let r := buildRecord releasing .released
      { openLift17 with pickSector := some 2, weighing := some { gross := 34700, net := 30500, belowTare := false },
                        opened := some { sector := some 4, assortment := 9, time := 58400 } } (24, 5)
    let s := book r { evaluated with
      tally := { bunkTotal := 64051, totalDelivered := 64051, bunkClass := 1 }, sup := { evaluated.sup with bunkClass := 1 } }
    (r.outcome, s.tally.bunkTotal, s.tally.totalDelivered, s.tally.bunkClass, s.sup.bunkClass) =
      (.unloaded, 33551, 64051, 0, 0) := by decide

/-! ## Supervision (06) -/

/-- 06, "one evaluation in full", and the two rounding cases of the effective force. -/
theorem test_figures :
    momentOf 16480 720 = 1187 ∧ utilisationOf 1187 1476 = 805 ∧ effectiveForce [15900, 16101] = 16001 ∧
      effectiveForce [15900, 16101, 16205, 16480] = 16172 := by decide

/-- 06, "tilt and capacity in several sectors": sectors 3, 2 and UNKNOWN. -/
theorem test_capacities :
    rowCapacity (tables.rowOf 1 0) 77 = 1269 ∧ rowCapacity (tables.rowOf 2 0) (-85) = 1982 ∧
      leastCapacity tables 0 125 = 1125 ∧ roundAway (3 * -500) 1000 = -2 := by decide

/-- 06, "a load swung out and brought back": REACH 770 gives U 860 and WARN; 900 gives U 1005 and LIMIT. -/
theorem test_evaluate_to_warn_and_limit :
    let at_ (reach : Int) : State := evaluate { evaluated with intake := { evaluated.intake with reach := freshAt reach } }
    ((at_ 770).sup.utilisation, (at_ 770).sup.state, (at_ 770).sup.alertNext) = (860, .warn, some 40200) ∧
      ((at_ 900).sup.utilisation, (at_ 900).sup.state, (at_ 900).notices.toNat) = (1005, .limit, 1) := by decide

/-- 06, the same table: from LIMIT, 972 stays and 938 gives WARN. -/
theorem test_hysteresis_from_limit :
    hysteresisState machine .limit 972 = .limit ∧ hysteresisState machine .limit 938 = .warn ∧
      hysteresisState machine .warn 782 = .normal := by decide

theorem test_service_input :
    let s := run (.serviceInputChange true) evaluated
    (s.sup.state, s.sup.alert, s.notices.toNat) = (.bypass, false, 16) := by decide

theorem test_alert_flash :
    let s := run .alertFlashToggle { evaluated with sup := { evaluated.sup with state := .warn, alert := true, alertNext := some 40000 } }
    (s.sup.alert, s.sup.alertNext) = (false, some 40200) := by decide

/-! ## The shaper (07) -/

/-- 07, "one frame in WARN", records 1, 2, 4 and 3. -/
theorem test_shape_in_warn :
    let s := { evaluated with sup := { evaluated.sup with state := .warn } }
    shapeDemand s 1 400 = 240 ∧ shapeDemand s 3 700 = 350 ∧ shapeDemand s 2 1250 = 700 ∧ shapeDemand s 4 (-300) = -300 ∧
      shapeDemand s 12 500 = 500 := by decide

/-- 07, "slew demands in three sectors": −199.8 is truncated to −199. -/
theorem test_shape_slew_in_sector_three :
    let s := { evaluated with sup := { evaluated.sup with state := .warn, sector := some 3 } }
    shapeDemand s 1 (-333) = -199 ∧ shapeDemand s 1 200 = 200 ∧ shapeDemand s 3 1 = 0 := by decide

/-- 07, "clamping in NORMAL": function 6 at −1500 and function 4 at 900 go out as −1000 and 900 with SHAPED alone. -/
theorem test_shape_valve_demand :
    let s := run (.shapeValveDemand 20 1 0xF0 [6, 0xFA, 0x24, 4, 0x03, 0x84]) { evaluated with crane := upPort }
    s.crane.list.map (fun e => (e.bytes.take 11, goodAtEnd e.bytes)) =
      [([20, 1, 0x31, 1, 6, 6, 0xFC, 0x18, 4, 0x03, 0x84], true)] := by decide +kernel

/-! ## The table store (08) -/

/-- 08, "loading and activating": capacity row 8 missing, and function entry 6 left all zero. -/
theorem test_check_codes :
    validate { tables with rows := rows.take 8 } = some ⟨.capacityRow, 8, 0x32⟩ ∧
      validate (tables.write .functionEntry 7 (functionBytes { functionId := 12, role := 6, warnScale := 1000 })) =
        some ⟨.functionEntry, 6, 0x51⟩ := by decide

theorem test_activate :
    let s := run .activate (asked ([0x24, 0, 2, 0, 6]) { evaluated with
      staging := .checked { tables with machine := { machine with generation := 6 } } })
    (s.activeGeneration, s.staging.code, s.sup.state, s.slew.sector, s.notices.toNat) = (6, 4, .hold, some 1, 4096 + 4) := by
  decide

theorem test_open_staging : (run .openStaging (asked [0x20, 1, 0] working)).staging = .loading {} := by decide

theorem test_write_entry :
    (run .writeEntry (asked [0x21, 1, 3, 5, 0, 7] { working with staging := .checked tables })).staging =
      .loading { tables with columnCount := 7 } := by decide

theorem test_read_entry :
    (run .readEntry (asked [0x22, 1, 3, 0, 5, 0] working)).mgmt.phase =
      .reading { offset := 7, results := [0x22, 0, 1, 3], resultCount := 1, performedCount := 1 } := by decide

theorem test_check_staging_complete :
    let s := run .checkStagingComplete (run .checkStaging (asked [0x23, 1, 0] { working with staging := .loading tables }))
    (s.staging, s.mgmt.phase) = (.checked tables,
      .reading { offset := 4, results := [0x23, 0, 6, 0, 0, 5, 0, 0, 0], resultCount := 1, performedCount := 1 }) := by decide

/-! ## Management (09) -/

/-- 09, "a guarded activation": a false TEST skips ACTIVATE 6. -/
theorem test_false_test_skips :
    let s := run .test (asked [0x01, 1, 2, 1, 2, 0x24, 1, 2, 0, 6] { working with staging := .failed tables })
    s.mgmt.phase = .reading { offset := 11, results := [0x01, 0, 1, 0, 0x24, 1, 0], resultCount := 2, performedCount := 1 } := by
  decide

/-- The queue of 09's "three requests": lifts 20 to 22 weighed and 23 unweighed. -/
def queued (sequence : BitVec 16) (weighed : Bool) : LiftRecord :=
  { sequence, outcome := .delivered, weighing := if weighed then some { gross := 20000, net := 15800, belowTare := false } else none,
    tool := 2, assortment := 9, pickSector := some 1, releaseSector := some 2, generation := 5, sampleCount := 40,
    windowAttempts := 1, regripCount := 0, static := false, workingTare := false, limitDuring := false, bypassed := false,
    peak := 805, gripTime := 52300, duration := 610 }

/-- Those four in the queue. -/
def fourQueued : State :=
  { linked with
    queue := { nextSequence := 24, waitingArm := false,
               records := [queued 20 true, queued 21 true, queued 22 true, queued 23 false] } }

/-- 09, "three requests": with 72 bytes free after READ STATUS two whole records fit, and NO_ROOM ends the chain. -/
theorem test_peek_lifts_no_room :
    (opPeekLifts [4] 72 fourQueued).2 = .gives .noRoom (recordBytes (queued 20 true) ++ recordBytes (queued 21 true)) := by
  decide

/-- 09, "three requests": DROP LIFTS 21 leaves 22 and 23. -/
theorem test_drop_lifts :
    let s := run .dropLifts (asked [0x11, 1, 2, 0, 21] fourQueued)
    (s.queue.records.map (·.sequence), s.queue.waitingArm, s.mgmt.phase) =
      ([22, 23], true, .reading { offset := 6, results := [0x11, 0, 2, 2, 2], resultCount := 1, performedCount := 1 }) := by
  decide

theorem test_peek_lifts :
    (run .peekLifts (asked [0x10, 1, 1, 1] fourQueued)).mgmt.phase =
      .reading { offset := 5, results := [0x10, 0, 30] ++ recordBytes (queued 20 true), resultCount := 1, performedCount := 1 } := by
  decide

/-- 09, "three requests": a request that finds two waiting is answered BUSY. -/
theorem test_take_request_busy :
    let waiting := { linked with mgmt := { requests := [request [0x02, 0, 0], request [0x02, 0, 0]] } }
    (run (.takeRequest .cab 3 [0x2C, 0x02, 0, 0]) waiting).cab.list.map (·.bytes.take 9) =
      [[3, 40, 0x52, 2, 4, 0x2C, 0, 0, 10]] := by decide

theorem test_take_request : (run (.takeRequest .cab 3 [0x2A]) linked).mgmt.requests = [request []] := by decide

theorem test_clear_bunk :
    let s := run .clearBunk (asked [0x12, 0, 0] { evaluated with
      tally := { bunkTotal := 64051, totalDelivered := 64051, bunkClass := 1, incomplete := true },
      sup := { evaluated.sup with bunkClass := 1 } })
    (s.tally, s.sup.bunkClass) = ({}, 0) := by decide

theorem test_clear_conditions :
    (run .clearConditions (asked [0x13, 1, 4, 0, 0, 0, 6] { working with conditions := 7 })).conditions = 1 := by decide

theorem test_read_identity :
    (run .readIdentity (asked [0x02, 1, 0] working)).mgmt.phase =
      .reading { offset := 4, results := [0x02, 0, 5, 4, 0x20, 1, 40, 0], resultCount := 1, performedCount := 1 } := by decide

theorem test_read_tally_out_of_range :
    (opReadTally [29, 4] 116 working).2 = .gives .rangeError [] ∧ (opReadTally [28, 4] 62 working).2 = .gives .noRoom [] := by
  decide

theorem test_read_measurands :
    let s := run .performRequest (asked [0x04, 0, 0] { evaluated with cab := upPort })
    s.cab.list.map (·.bytes.drop 9 |>.take 12) = [[0x04, 0, 54, 0, 0, 0x40, 0x60, 1, 0, 0, 0x9C, 0x36]] := by decide +kernel

theorem test_notice_attempt :
    let s := run .noticeAttempt { linked with notices := 1 }
    (s.notices.toNat, s.cab.list.map (·.bytes.take 9)) = (0, [[3, 40, 0x53, 0, 10, 0, 1, 4, 0]]) := by decide

/-- R173: a raise is itself an attempt: a tare that fails sends TARE_FAILED in its own step. -/
theorem test_raise_sends_at_once :
    let s := run .tareTimerExpiry { taring with clock := 45000, cab := upPort }
    (s.notices.toNat, s.cab.list.map (·.bytes.take 8)) = (0, [[3, 40, 0x53, 0, 10, 0x08, 0, 4]]) := by decide

/-- R155 and R173: ACTIVATE's TABLES_ACTIVE leaves before the reply to the request that asked for it. -/
theorem test_activate_sends_before_its_reply :
    let s := run .activate (asked [0x24, 0, 2, 0, 5] { evaluated with cab := upPort, staging := .checked tables })
    (s.notices.toNat, s.cab.list.map (·.bytes.take 7)) =
      (0, [[3, 40, 0x53, 0, 10, 0x10, 0], [3, 40, 0x53, 0, 10, 0, 0x04], [3, 40, 0x52, 0, 10, 0x2A, 1]]) := by decide +kernel

/-- R16, R21 and R173: of a reply and a NOTICE that are owed with one place free, the first offered gets it. -/
theorem test_owed_offers_share_one_place :
    let owing (offers : List Offer) : State := (replyHeld 5 .up).owe .cab offers
    (∀ s ∈ [run (.transmitSymbol .cab) (owing [.reply, .notice])],
      s.notices.toNat = 1 ∧ s.mgmt.requests.length = 1 ∧ s.cab.owed = [] ∧ (s.cab.list.drop 5).map (·.bytes) = [[1, 2, 3]]) ∧
    (∀ s ∈ [run (.transmitSymbol .cab) (owing [.notice, .reply])],
      s.notices.toNat = 0 ∧ s.mgmt.requests.length = 2 ∧ (s.cab.list.drop 5).map (·.bytes.take 3) = [[3, 40, 0x53]]) := by
  decide +kernel

/-- R16 and R21: while the offer is owed, a forwarded frame becomes ready and takes the last place; the reply meets NO ROOM. -/
theorem test_forwarded_frame_before_the_reply :
    let s := (replyHeld 5 .up).owe .cab [.reply]
    let ready := { s with crane := { link := .up, rx := { framing := .inFrame, bytes := [1, 2, 0x44, 0] } } }
    let t := run (.transmitSymbol .cab) (run (.receiveSymbol .crane (.data 9)) ready)
    ((t.cab.list.drop 5).map (·.bytes), t.mgmt.requests.length, t.cab.owed, t.conditions) =
      ([[1, 2, 0x44, 0, 9]], 2, [], 0) := by decide +kernel

theorem test_held_reply_offer :
    let s := run .heldReplyOffer { asked [] linked with mgmt := { requests := [request []], phase := .held [1, 2, 3] false } }
    (s.mgmt, s.cab.list) = ({}, [{ bytes := [1, 2, 3], status := .whole }]) := by decide

theorem test_warm_restart :
    let s := run .warmRestartPerformed (run .warmRestart (asked [0x3F, 0, 0] { lifting with cab := upPort }))
    (s.cab.list.map (·.bytes.take 4), s.lift, s.sup.state, s.sup.capacity, s.active) =
      ([[3, 40, 0x52, 1]], {}, .hold, 1020, some tables) := by decide

/-! ## Trace capture (10) -/

/-- 10, "one lift, traced by its lift events": the block of the grip. -/
def tracing : State :=
  { working with
    clock := 52300, lift := { working.lift with lastSampleMass := 2950 },
    trace := { state := .running,
               config := { clock := .liftEvent, block := [.time, .liftState, .sampleMass, .captureNumber] } } }

theorem test_trace_capture :
    (run (.traceCapture (.liftEvent .gripped)) tracing).trace.buffer =
      [[⟨.time, 52300⟩, ⟨.liftState, 2⟩, ⟨.sampleMass, 2950⟩, ⟨.captureNumber, 1⟩]] := by decide

theorem test_trace_capture_full :
    let s := run (.traceCapture (.liftEvent .gripped))
      { tracing with trace := { tracing.trace with buffer := List.replicate 256 (List.replicate 4 ⟨.time, 0⟩) } }
    (s.trace.state, s.conditions.toNat, s.trace.captureNumber) = (.full, 65536, 0) := by decide +kernel

/-- 10, the same example: TRACE READ 10 returns 8 elements of the 20. -/
theorem test_trace_read :
    let s := run .traceRead (asked [0x31, 1, 1, 10]
      { tracing with trace := { tracing.trace with buffer := List.replicate 5 (List.replicate 4 ⟨.time, 0⟩) } })
    (s.trace.held, s.trace.state) = (12, .running) := by decide

theorem test_trace_configure :
    let s := run .traceConfigure (asked ([0x30, 1, 19, 1, 4, 1, 4, 1, 11, 8, 13, 0, 0, 1, 1, 0, 0, 0, 0, 0, 0, 0]) working)
    s.trace.config = { clock := .liftEvent, block := [.time, .liftState, .sampleMass, .captureNumber] } := by decide

theorem test_trace_enable : (run .traceEnable (asked [0x30, 1, 1, 2] working)).trace.state = .running := by decide

theorem test_trace_disable : (run .traceDisable (asked [0x30, 1, 1, 3] tracing)).trace.state = .disabled := by decide

theorem test_trace_flush :
    (run .traceFlush (asked [0x30, 1, 1, 4] { tracing with trace := { tracing.trace with
      state := .full, captureNumber := 7, buffer := [[⟨.time, 0⟩]] } })).trace =
      { tracing.trace with buffer := [] } := by decide

/-! ## The starts (00) -/

theorem test_power_on :
    let s := run (.powerOn { straps := 17, a := true, b := true, z := true, service := true }) working
    (s.station, s.sup.state, s.sup.alert, s.slew.indexHeld, s.active) = (17, .bypass, false, true, none) := by decide

theorem test_reset_released :
    (run (.resetReleased { straps := 63, a := false, b := false, z := false, service := false }) working).station = 40 := by
  decide

theorem test_reset_asserted :
    let s := run .resetAsserted { linked with cab := { link := .up, sending := some 2, list := [{ bytes := [1, 2], status := .whole }] } }
    (run (.transmitSymbol .cab) s).cab.lastSent = .abortFrame ∧ run .setDown s = s := by decide

/-! ## Witnesses: for every statement with hypotheses, states and operands that meet them, clause by clause -/

/-- The tables of the examples pass validation. -/
theorem tables_valid : SetValid tables := by unfold SetValid SetFits; decide

theorem witness_StepRunsTheFrontCommand :
    { working with pending := [.test] }.pending = .test :: [] ∧
    (({ working with inReset := true } : State).pending = [] ∧ ({ working with inReset := true } : State).inReset = true) ∧
    ((internalEvents { evaluated with clock := 50000 }).find? InternalEvent.due).isSome = true ∧
    (∀ e ∈ internalEvents working, e.due = false) := by decide

theorem witness_EveryCommandAnswersANextState :
    (∀ pins, Instr.setDown ≠ .powerOn pins ∧ Instr.setDown ≠ .resetReleased pins) ∧ Instr.setDown ≠ .resetAsserted := by
  simp

theorem witness_ResetInputHoldsThePart :
    ({ working with inReset := true } : State).inReset = true ∧
    (∀ pins, Instr.setDown ≠ .powerOn pins ∧ Instr.setDown ≠ .resetReleased pins) ∧ Instr.setDown ≠ .resetAsserted ∧
    (∀ port, Instr.setDown ≠ .transmitSymbol port) := by
  refine ⟨rfl, ?_⟩; simp

/-- A reply that announces a warm restart is held. -/
def restartHeld (s : State) : State := { s with mgmt := { requests := [request []], phase := .held [1, 2, 3] true } }

theorem witness_WarmRestartKeepsAndClears :
    ∀ s ∈ [restartHeld linked, restartHeld evaluated, restartHeld State.reset],
      s.inReset = false ∧ s.mgmt.phase = .held [1, 2, 3] true ∧ s.mgmt.requests.head? = some (request []) ∧
        (s.port (request []).port).answer ≠ .noRoom := by decide

theorem witness_CheckIsTheBitSerialCrc :
    5 ≤ [(1 : Byte), 2, 3, 4, 0].length ∧ [(1 : Byte), 2, 3, 4, 0].length = 5 + (byteAt [1, 2, 3, 4, 0] 4).toNat ∧
    ([1, 2, 3, 4, 120] ++ List.replicate 120 (7 : Byte)).length =
      5 + (byteAt ([1, 2, 3, 4, 120] ++ List.replicate 120 7) 4).toNat := by decide +kernel

/-- A state whose cab port is this one. -/
def withCab (p : Port) (s : State) : State := { s with cab := p }

theorem witness_SymbolOutsideUp :
    (∀ p ∈ [{ invertedRun := 7 }, { link := .training, cleanCount := 2046, lossCount := 254 },
        { link := .training, cleanCount := 2047 }, { link := .training, lossCount := 255 },
        ({ link := .training, invertedRun := 7, cleanCount := 5, lossCount := 7 } : Port)],
      (withCab p working).inReset = false ∧ PortSettled ((withCab p working).port .cab) ∧
        ((withCab p working).port .cab).link ≠ .up) ∧
    (∀ p ∈ [({ link := .training, cleanCount := 2046, lossCount := 254 } : Port)],
      p.cleanCount + 1 < 2048 ∧ p.lossCount + 1 < 256) ∧
    (∀ p ∈ [({ link := .training, cleanCount := 2047 } : Port)],
      (if LineSymbol.idle = .violation ∨ LineSymbol.idle = .invertedIdle then 0
        else if LineSymbol.idle = .noSymbol then p.cleanCount else p.cleanCount + 1) = 2048) ∧
    (∀ p ∈ [({ link := .training, lossCount := 255 } : Port)],
      (if LineSymbol.noSymbol = .violation ∨ LineSymbol.noSymbol = .invertedIdle ∨ LineSymbol.noSymbol = .noSymbol
        then p.lossCount + 1 else 0) = 256) := by
  unfold PortSettled; decide

theorem witness_LinkStateCommandsFollowTheCounts :
    (withCab {} working).inReset = false ∧
    (((withCab { invertedRun := 8 } working).port .cab).link ≠ .up ∧
      8 ≤ ((withCab { invertedRun := 8 } working).port .cab).invertedRun) ∧
    ¬(((withCab { invertedRun := 7 } working).port .cab).link ≠ .up ∧
      8 ≤ ((withCab { invertedRun := 7 } working).port .cab).invertedRun) ∧
    (∀ p ∈ [({ link := .training, cleanCount := 2048, lossCount := 256 } : Port)],
      p.link = .training ∧ 2048 ≤ p.cleanCount ∧ p.link ≠ .down ∧ 256 ≤ p.lossCount) ∧
    (∀ p ∈ [({ link := .training, cleanCount := 2047, lossCount := 255 } : Port)],
      ¬(p.link = .training ∧ 2048 ≤ p.cleanCount) ∧ ¬(p.link ≠ .down ∧ 256 ≤ p.lossCount)) ∧
    (∀ p ∈ [({ link := .up, violations := List.range 32 } : Port)], p.link = .up ∧ 32 ≤ p.violations.length) ∧
    (∀ p ∈ [({ link := .up, violations := List.range 31 } : Port)], ¬(p.link = .up ∧ 32 ≤ p.violations.length)) := by
  decide

theorem witness_ForwardedCopyIsFinished :
    let front : Entry := { bytes := [1], status := .whole }
    let copy : Entry := { bytes := [2], status := .arriving }
    (∀ e ∈ ([] : List Entry) ++ [front], e.status ≠ .arriving) ∧
    ({ sending := some 0, list := copy :: [front] } : Port).list = [] ++ copy :: [front] ∧
    ({ sending := some 0, list := copy :: [front] } : Port).sending.isSome = true ∧
    ({ list := copy :: [front] } : Port).sending = none ∧
    (∀ e ∈ [front] ++ [], e.status ≠ .arriving) ∧ [front] ≠ [] := by decide

/-- An UP port near its limits, with a receiver. -/
def nearLimits (rx : Receiver) : State :=
  { linked with crane := { link := .up, violations := List.range 31, lossCount := 254, rx } }

theorem witness_FramingStatesInUp :
    (∀ rx ∈ [({ framing := .waiting } : Receiver), { framing := .discarding },
        { framing := .inFrame, bytes := List.replicate 126 1, treatment := some .cutThrough },
        { framing := .inFrame, bytes := List.replicate 127 1 }, { framing := .inFrame, bytes := [1, 2, 3, 4] }],
      (nearLimits rx).inReset = false ∧ ((nearLimits rx).port .crane).link = .up ∧
        (∀ y ∈ [LineSymbol.data 121, .idle, .startFrame, .endFrame, .abortFrame, .noSymbol],
          let q := (nearLimits rx).port .crane
          ((q.violations.map (· + 1)).filter (· < 1024) ++
              if y = LineSymbol.violation ∨ y = LineSymbol.invertedIdle then [0] else []).length < 32 ∧
            (if (y = LineSymbol.violation ∨ y = LineSymbol.invertedIdle) ∨ y = LineSymbol.noSymbol then q.lossCount + 1 else 0) < 256)) ∧
    (let q := (nearLimits {}).port .crane
     32 ≤ ((q.violations.map (· + 1)).filter (· < 1024) ++
       if LineSymbol.violation = LineSymbol.violation ∨ LineSymbol.violation = LineSymbol.invertedIdle then [0] else []).length) ∧
    (((List.range 31).map (· + 993)).map (· + 1)).filter (· < 1024) = (List.range 30).map (· + 994) ∧
    256 ≤ 255 + 1 ∧ (List.replicate 126 (1 : Byte)).length < 127 ∧ (List.replicate 126 (1 : Byte)).length ≠ 4 := by
  decide +kernel

/-- A header that wants its last byte, with the other port's list so long. -/
def header4 (n : Nat) : State :=
  { nearLimits { framing := .inFrame, bytes := [40, 3, 0x51, 0] } with
    cab := { link := .up, list := List.replicate n { bytes := [1], status := .whole } } }

theorem witness_HeaderDecidesTheTreatment :
    ∀ n ∈ [0, 5, 6], (header4 n).inReset = false ∧ ((header4 n).port .crane).link = .up ∧
      (windowAfter ((header4 n).port .crane).violations false).length < 32 ∧
      ((header4 n).port .crane).rx.framing = .inFrame ∧ ((header4 n).port .crane).rx.bytes = [40, 3, 0x51, 0] ∧
      (120 : Byte).toNat ≤ 120 := by decide

/-- A whole frame inside an UP port's receiver. -/
def wholeFrame (t : Treatment) : State :=
  nearLimits { framing := .inFrame, bytes := frameOf 40 3 0x51 0 [1, 2, 3], treatment := some t }

theorem witness_GoodEndHandsTheFrameOn :
    goodAtEnd (frameOf 40 3 0x51 0 [1, 2, 3]) = true ∧
    (∀ t ∈ [Treatment.cutThrough, .cutThroughAndSnoop, .storeAndShape, .take],
      (wholeFrame t).inReset = false ∧ ((wholeFrame t).port .crane).link = .up ∧
        (windowAfter ((wholeFrame t).port .crane).violations false).length < 32 ∧
        ((wholeFrame t).port .crane).rx =
          { framing := .inFrame, bytes := frameOf 40 3 0x51 0 [1, 2, 3], treatment := some t }) := by decide +kernel

theorem witness_BadFrameReachesNoBlock :
    ∀ x ∈ ([([40, 3, 0x51, 0, 0, 1, 2], .endFrame), ([], .startFrame), ([40], .abortFrame), ([40, 3], .idle),
        ([40, 3], .violation), ([40, 3], .invertedIdle), ([40], .noSymbol), ([40, 3, 0x51, 0], .data 121),
        (List.replicate 127 1, .data 0)] : List (List Byte × LineSymbol)),
      let s := { linked with crane := { link := .up, violations := List.range 30, lossCount := 254,
                                        rx := { framing := .inFrame, bytes := x.1 } } }
      s.inReset = false ∧ (s.port .crane).link = .up ∧ (s.port .crane).rx.framing = .inFrame ∧
      (windowAfter (s.port .crane).violations (isViolation x.2)).length < 32 ∧
      lossAfter (s.port .crane).lossCount x.2 < 256 ∧
      (x.2 = .data 121 → (s.port .crane).rx.bytes.length = 4 ∧ 120 < (121 : Byte).toNat) ∧
      (x.2 = .data 0 → (s.port .crane).rx.bytes.length = 127) ∧
      (x.2 = .endFrame → goodAtEnd (s.port .crane).rx.bytes = false) := by
  decide +kernel

theorem witness_WholeEntryIsSentWhole :
    let s := withCab { link := .up, list := [{ bytes := [1, 2, 3], status := .whole }] } working
    s.inReset = false ∧ (s.port .cab).link = .up ∧ (s.port .cab).abortNext = false ∧ (s.port .cab).owesIdle = false ∧
      (s.port .cab).sending = none ∧ (s.port .cab).list = { bytes := [1, 2, 3], status := .whole } :: [] ∧
      s.notices = 0 ∧ s.mgmt = {} := by decide

theorem witness_TransmitterSendsAbortOrIdle :
    ((withCab { abortNext := true } working).port .cab).abortNext = true ∧
    (((withCab { link := .up, owesIdle := true } working).port .cab).abortNext = false ∧
      ((withCab { link := .up, owesIdle := true } working).port .cab).owesIdle = true) ∧
    ((withCab upPort working).port .cab).list = [] ∧
    (∀ x ∈ [(none, EntryStatus.whole), (some 0, .arriving), (some 2, .arriving), (some 1, .whole), (some 2, .whole),
        (some 2, .broken)],
      let s := withCab { link := .up, sending := x.1, list := [{ bytes := [1, 2], status := x.2 }] } (replyHeld 6 .up)
      let q := s.port .cab
      q.abortNext = false ∧ s.inReset = false ∧ q.link = .up ∧ q.owesIdle = false ∧ q.sending = x.1 ∧
        q.list = { bytes := [1, 2], status := x.2 } :: [] ∧ q.owed = []) ∧
    [(1 : Byte), 2][1]? = some 2 ∧ [(1 : Byte), 2].length ≤ 2 := by decide

theorem witness_HeldReplyAndNoticeAreOffered :
    (∀ s ∈ [replyHeld 5 .up, replyHeld 6 .up, replyHeld 0 .down], s.inReset = false ∧
      s.mgmt.phase = .held [1, 2, 3] false ∧ s.mgmt.requests = request [] :: [request []] ∧ s.notices ≠ 0) ∧
    (((replyHeld 6 .up).port .cab).link = .up ∧ 6 ≤ ((replyHeld 6 .up).port .cab).list.length) ∧
    ((replyHeld 0 .down).port .cab).link ≠ .up ∧
    (((replyHeld 5 .up).port .cab).link = .up ∧ ((replyHeld 5 .up).port .cab).list.length < 6) ∧
    (tables.machine.noticeStation ≠ 0 ∧ (replyHeld 5 .up).cab.link = .up ∧ (replyHeld 5 .up).cab.list.length < 6) ∧
    (request []).port = .cab ∧ (linked.inReset = false ∧ linked.mgmt.phase = .reading {}) ∧
    ((replyHeld 5 .up).port .cab).list.length < ((replyHeld 6 .up).port .cab).list.length ∧
    ¬((replyHeld 5 .up).port .crane).list.length < ((replyHeld 6 .up).port .crane).list.length ∧
    (let s := (replyHeld 5 .up).owe .cab [.notice]
     s.pending = [] ∧ (s.port .cab).owed ≠ []) ∧
    (let s := linked.owe .crane [.reply]
     s.pending = [] ∧ (s.port .crane).owed ≠ [] ∧ s.cab.owed = [] ∧ s.notices = 0) := by
  decide

theorem witness_held_none : ∀ reply restart, working.mgmt.phase ≠ .held reply restart := by
  intro reply restart h; cases h

/-! ### Invariants: the lifting part keeps every one of them, and steps -/

/-- The part with a lift in LIFTING, both ports UP and a command waiting. -/
def busy : State := { lifting with cab := upPort, crane := upPort, pending := [.windowEvaluation] }

theorem busy_steps : ∃ t, step busy = .next t := ⟨_, rfl⟩

theorem busy_trace : TraceSafe busy := by unfold TraceSafe; decide

theorem busy_management : ManagementSafe busy := by
  refine ⟨busy_trace, by decide, ?_⟩
  show ChainSafe {}
  unfold ChainSafe; decide

theorem witness_EveryStepKeepsFramesSafe : FramesSafe busy ∧ ∃ t, step busy = .next t := by
  refine ⟨⟨?_, busy_management, ?_, ?_⟩, busy_steps⟩
  · unfold LinkSafe PortSafe PortSettled; decide
  · intro e h; cases h
  · intro e h; cases h

theorem busy_tables : TablesSafe busy := by
  refine ⟨?_, trivial⟩
  intro t h; cases h; exact tables_valid

theorem witness_EveryStepKeepsTablesSafe : TablesSafe busy ∧ ∃ t, step busy = .next t := ⟨busy_tables, busy_steps⟩

theorem witness_EveryStepKeepsSlewSafe : SlewSafe busy ∧ ∃ t, step busy = .next t := by
  refine ⟨⟨busy_tables, by decide, by decide, ?_, by decide, by decide⟩, busy_steps⟩
  intro i h; cases h; exact ⟨tables, rfl, by decide⟩

theorem busy_intake : IntakeSafe busy.intake := by
  refine ⟨?_, by decide, by decide⟩
  intro m; cases m <;> (unfold RecordSafe; decide)

theorem witness_EveryStepKeepsFiguresAndMode :
    SupervisionSafe busy ∧ ModeSafe busy ∧ ∃ t, step busy = .next t := by
  refine ⟨⟨busy_tables, busy_intake, ?_, ?_⟩, ?_, busy_steps⟩
  · unfold HistorySafe; decide
  · unfold FiguresSafe; decide
  · unfold ModeSafe; decide

theorem witness_EveryStepKeepsLiftAndAccount :
    LiftSafe busy ∧ AccountSafe busy ∧ (∃ t, step busy = .next t) ∧
    (let s := { busy with queue := { nextSequence := 18, records := [queued 15 true, queued 16 false] } }
     SequenceSafe s ∧ (∀ r ∈ s.queue.records, sequenceAge s r.sequence < 65535) ∧ ∃ t, step s = .next t) := by
  refine ⟨⟨by decide, by decide, by decide, ?_, by decide, by decide, ?_⟩, ?_, busy_steps, ?_⟩
  · intro l w hl hw; cases hl; cases hw
  · intro r h; cases h
  · unfold AccountSafe AssortmentSafe; decide
  · refine ⟨by unfold SequenceSafe; decide, by decide, ⟨_, rfl⟩⟩

theorem witness_EveryStepKeepsTraceAndSetsSafe : TraceSafe busy ∧ SetsSafe busy ∧ ∃ t, step busy = .next t :=
  ⟨busy_trace, by unfold SetsSafe; decide, busy_steps⟩

/-! ### Intake, slew, lift -/

theorem witness_ConversionFollowsTheCalibrationLine :
    channelP.c1 ≠ channelP.c0 ∧ (-450 : Int) ≤ 450 ∧
    ((-8388608 : Int) ≤ -8388608 ∧ (-8388608 : Int) ≤ 8388607 ∧ -120000 ≤ channelP.v0.toInt ∧ channelP.v0.toInt ≤ 120000 ∧
      -120000 ≤ channelP.v1.toInt ∧ channelP.v1.toInt ≤ 120000) := by decide

theorem witness_SensorReportIsJudged :
    State.reset.inReset = false ∧ State.reset.active = none ∧ working.inReset = false ∧ working.active = some tables ∧
    (∀ r ∈ [(⟨0, 0, 9, 0, some (channelF, .f)⟩ : SlotReading), ⟨7, 0, 0, 0, none⟩, ⟨1, 0x02, 0x49, 0xF0, some (channelA, .a)⟩,
        ⟨1, 0x02, 0x4A, 0x54, some (channelA, .a)⟩], r.MatchesIn tables 12) ∧
    [(9 : Byte), 9, 9].length < 4 ∧
    (let v := convert channelA (measurandRange .a) ((0x02 : Byte) ++ (0x49 : Byte) ++ (0xF0 : Byte)).toInt
     v = 1500 ∧ channelA.low.toInt ≤ v ∧ v ≤ channelA.high.toInt) ∧
    (let v := convert channelA (measurandRange .a) ((0x02 : Byte) ++ (0x4A : Byte) ++ (0x54 : Byte)).toInt
     ¬(channelA.low.toInt ≤ v ∧ v ≤ channelA.high.toInt)) ∧
    evaluated.sup.history.length ≤ 4 ∧ working.sup.history.length ≤ 4 := by
  refine ⟨rfl, rfl, rfl, rfl, ?_, by decide, by decide, by decide, by decide, by decide⟩
  intro r h
  simp only [List.mem_cons, List.not_mem_nil, or_false] at h
  rcases h with rfl | rfl | rfl | rfl
  · exact ⟨by decide, by decide, by decide, [], _, rfl, by decide⟩
  · show ∀ e ∈ tables.channels, ¬(e.source = 12 ∧ e.slot = 7); decide
  · exact ⟨by decide, by decide, by decide, [channelF], _, rfl, by decide⟩
  · exact ⟨by decide, by decide, by decide, [channelF], _, rfl, by decide⟩

theorem witness_FreshnessExpires :
    evaluated.inReset = false ∧
    (∀ m ∈ [Measurand.f, .reach, .pitch, .roll], expired ({ evaluated with clock := 50000 } : State).clock (evaluated.intake.get m).timer = true) ∧
    expired ({ evaluated with clock := 49999 } : State).clock (evaluated.intake.get .f).timer = false ∧
    evaluated.sup.service = false ∧ evaluated.active.isSome = true ∧
    (let i := { lifting.intake with a := freshAt 35, gpress := freshAt 1750 }
     (∀ m ∈ [Measurand.a, .gpress], expired 50000 (i.get m).timer = true) ∧
     (let s := { lifting with clock := 50000, intake := i }
      holdsLift s.lift.state = true ∧ s.lift.openLift = some openLift17 ∧ openLift17.number = some (17, 5)) ∧
     (let s := { gripped with clock := 50000, intake := i }
      holdsLift s.lift.state = true ∧ s.lift.openLift = some { openLift17 with number := none }) ∧
     ({ working with clock := 50000, intake := i } : State).lift.state = .empty ∧
     ({ taring with clock := 50000, intake := i } : State).lift.state = .taring) := by decide

theorem witness_OperatorStateIsRead :
    working.inReset = false ∧ 7 < (8 : Byte).toNat ∧ 31 < (32 : Byte).toNat ∧ (7 : Byte).toNat ≤ 7 ∧ (31 : Byte).toNat ≤ 31 ∧
      working.intake.snapshot.tareNumber = none ∧
    (let s := { working with intake := { snapshot := { tool := 2, assortment := 9, tareNumber := some 118 } } }
     s.intake.snapshot.tareNumber = some 118 ∧ (118 : Byte) ≠ 119 ∧ s.lift.state = .empty ∧ s.lift.gripTimer = none ∧
       s.active = some tables ∧ tables.toolOf s.lift.selectedTool = some tool2 ∧ tables.toolOf 7 = none) := by decide

theorem witness_EncoderCounts :
    evaluated.inReset = false ∧
    (∀ y ∈ [(false, false), (true, false), (false, true), (true, true)],
      ¬((false && y.1 && y.2) = true ∧ evaluated.slew.indexHeld = false)) ∧
    (false = evaluated.slew.levelA ∧ false = evaluated.slew.levelB) ∧
    (true ≠ evaluated.slew.levelA ∧ true ≠ evaluated.slew.levelB ∧ evaluated.slew.sector ≠ none ∧
      State.reset.slew.sector = none) ∧
    (true ≠ evaluated.slew.levelA ∧ false = evaluated.slew.levelB) ∧ State.reset.slew.referenced = false ∧
    (let c : Pacing := { interval := 4, windowEnabled := true, windowStart := 3104, windowEnd := 3000, deglitch := true }
     3104 % c.interval = 0 ∧ ¬c.windowStart ≤ c.windowEnd ∧ (c.windowStart ≤ 3104 ∨ 3104 ≤ c.windowEnd) ∧
       ¬(c.windowStart ≤ 3100 ∨ 3100 ≤ c.windowEnd) ∧ ¬3102 % c.interval = 0) ∧
    (evaluated.modulus = 16384 ∧ (let above : Pacing := { windowEnabled := true, windowStart := 16385, windowEnd := 16384 }
      16384 ≤ above.windowStart ∧ 16384 ≤ above.windowEnd) ∧ ¬(16384 ≤ 16385 ∧ 16384 ≤ 16383)) ∧
    (evaluated.slew.referenced = true ∧ evaluated.slew.sector = some 1 ∧ tables.sectorAt 3101 = 1 ∧ tables.sectorAt 751 ≠ 0) := by
  decide

/-- A slew with both levels high at a position. -/
def atIndex (p : Nat) (s : State) : State :=
  { s with slew := { p, referenced := s.active.isSome, sector := s.active.map fun _ => 0, levelA := true, levelB := true } }

theorem witness_QualifiedIndexSetsThePosition :
    (∀ s ∈ [atIndex 5 State.reset, atIndex 2140 working, atIndex 2141 working],
      s.inReset = false ∧ s.slew.levelA = true ∧ s.slew.levelB = true ∧ s.slew.indexHeld = false) ∧
    (atIndex 5 State.reset).active = none ∧ (atIndex 2141 working).active = some tables ∧ tables.sectorHeader.cpr ≠ 0 ∧
    (atIndex 2141 working).slew.referenced = true ∧
    tables.sectorHeader.driftLimit.toNat < (2141 - 2100 : Int).natAbs ∧
    ¬tables.sectorHeader.driftLimit.toNat < (2140 - 2100 : Int).natAbs ∧ some 0 ≠ working.slew.sector ∧
    some (tables.sectorAt tables.sectorHeader.indexOffset.toNat) = (atIndex 2141 working).slew.sector ∧
    (∀ levels ∈ [(false, false), (true, false), (false, true), (true, true)],
      let s := { evaluated with slew := { evaluated.slew with levelA := levels.1, levelB := levels.2 } }
      s.inReset = false ∧ s.slew.indexHeld = false) := by decide

theorem witness_SectorFollowsWithHysteresis :
    let s := { working with slew := { p := 752, referenced := true, sector := some 0, levelA := true } }
    SetValid tables ∧ 16383 < tables.sectorHeader.cpr.toNat ∧ s.inReset = false ∧ s.active = some tables ∧
      s.slew.referenced = true ∧ s.slew.sector = some 0 ∧ 0 < tables.sectors.length ∧
      s.slew.p < tables.sectorHeader.cpr.toNat ∧ (false ≠ s.slew.levelA ∧ false = s.slew.levelB) ∧
      ¬((true && false && false) = true ∧ s.slew.indexHeld = false) :=
  ⟨tables_valid, by decide⟩

theorem witness_SampleMassIsFormed :
    981 + (-682 : Int) < 300 ∧ 300 ≤ 981 + (-681 : Int) ∧ (0 : Int) ≤ 120000 ∧ working.active = some tables ∧
    tables.channelOf .a = some channelA ∧ working.fresh .a = false ∧
    (let s := { working with intake := { a := freshAt 150 } }
     s.fresh .a = true ∧ s.intake.a.value = 150) ∧
    (∀ set, some { tables with channels := [channelF] } = some set → set.channelOf .a = none) ∧
    (gripped.lift.state = .gripped ∧ gripped.lift.openLift = some { openLift17 with number := none } ∧
      openLift17.snapshot = some tool2 ∧ (sampleOf 150 15900 none gripped).mass = none ∧
      (sampleOf 150 5934 (some 60) gripped).mass = some 5700 ∧ (5700 : Int) - 4200 ≥ tool2.liftoffNet.toNat ∧
      (sampleOf 150 5933 (some 60) gripped).mass = some 5699 ∧ (5699 : Int) - 4200 < tool2.liftoffNet.toNat) := by
  refine ⟨by decide, by decide, by decide, rfl, by decide, by decide, by decide, ?_, by decide⟩
  intro set h; cases h; decide

theorem witness_SetDownAndTheGapRun :
    lifting.lift.state = .lifting ∧ lifting.lift.openLift = some openLift17 ∧ openLift17.snapshot = some tool2 ∧
    (5699 : Int) - ((openLift17.tareInUse.getD 0 : Nat) : Int) < tool2.liftoffNet.toNat ∧
    ¬(5700 : Int) - ((openLift17.tareInUse.getD 0 : Nat) : Int) < tool2.liftoffNet.toNat ∧
    (tool2.gapLimit.toNat ≤ 3 + 1 ∧ ¬tool2.gapLimit.toNat ≤ 2 + 1) ∧ tool2.windowLength ≠ 0 ∧
    15 + 1 = tool2.windowLength.toNat ∧ lifting.inReset = false ∧ windowTool lifting = some tool2 ∧
    windowTool working = none ∧ lifting.lift.setDownRun < tool2.gapLimit.toNat ∧
    (∃ m, (sampleOf 150 16500 (some 60) lifting).mass = some m ∧ (sampleOf 150 16500 (some 60) lifting).suitable = true) ∧
    (working.lift.state = .empty ∧ releasing.lift.state = .releasing) ∧
    ({ openLift17 with snapshot := none } : OpenLift).snapshot = none ∧ gripped.lift.state = .gripped := by
  refine ⟨by decide, by decide, by decide, by decide, by decide, by decide, by decide, by decide, by decide, by decide,
    by decide, by decide, ⟨15850, by decide, by decide⟩, by decide, by decide, by decide⟩

/-- 04, R64: the 16th suitable sample fills the window of tool 2, which is evaluated at once. -/
theorem test_lifting_sample_fills_the_window :
    let w : Window := { n := 15, sum := 243318, least := some 16181, greatest := some 16262 }
    (liftFSample 16500 (some 36) { lifting with lift := { lifting.lift with window := w } }).lift.state = .weighed := by decide

theorem witness_PressureGripsOpensAndRegrips :
    working.lift.state = .empty ∧ gripParams working = some tool2 ∧
    lifting.lift.openLift = some openLift17 ∧ liftParams lifting openLift17 = some tool2 ∧ lifting.lift.state = .lifting ∧
    ((tool2.openThreshold.toNat : Int) < 401 ∧ (400 : Int) ≤ tool2.openThreshold.toNat) ∧
    releasing.lift.state = .releasing ∧ ((899 : Int) < tool2.closeThreshold.toNat ∧ (tool2.closeThreshold.toNat : Int) ≤ 900) ∧
    (∃ l, releasing.lift.openLift = some l ∧ liftParams releasing l = some tool2 ∧ l.number.isSome = true) ∧
    releasing.lift.remembered = some .weighed ∧
    (let l := { openLift17 with number := none }
     let s := { releasing with lift := { releasing.lift with remembered := some .gripped, openLift := some l } }
     s.lift.openLift = some l ∧ liftParams s l = some tool2 ∧ s.lift.remembered = some .gripped) ∧
    (let tool (id : Byte) : ToolEntry := { tool2 with toolId := id }
     let set := { tables with tools := [tool 5, tool 2, tool 7] }
     set.tools = [tool 5] ++ tool 2 :: [tool 7] ∧ (∀ d ∈ [tool 5], (tool 2).toolId.toNat < d.toolId.toNat) ∧
       (∀ d ∈ [tool 7], (tool 2).toolId.toNat ≤ d.toolId.toNat) ∧ (∀ d ∈ set.tools, d.toolId.toNat ≠ 3) ∧
       (∀ d ∈ [tool 5, tool 2], d.toolId.toNat ≠ 7)) := by
  refine ⟨by decide, by decide, by decide, by decide, by decide, by decide, by decide, by decide, ?_, by decide, by decide,
    by decide⟩
  exact ⟨_, rfl, by decide, by decide⟩

theorem witness_WindowEvaluationInLifting :
    let w := lifting.lift.window
    lifting.inReset = false ∧ lifting.lift.state = .lifting ∧ lifting.lift.openLift = some openLift17 ∧
      openLift17.snapshot = some tool2 ∧ w.n = tool2.windowLength.toNat ∧ w.n ≠ 0 ∧ w.least = some 16181 ∧
      w.greatest = some 16262 ∧ 16262 ≤ 16181 + w.tolerance tool2 ∧ 16181 + w.tolerance tool2 < 16181 + 325 ∧
      15 ≠ tool2.windowLength.toNat := by decide

theorem witness_TaringEnds :
    let w := taring.lift.window
    let sampling (n gap : Nat) : State := { taring with lift := { taring.lift with window := { w with n, gapRun := gap } } }
    taring.inReset = false ∧ taring.lift.state = .taring ∧ selectedEntry taring = some tool2 ∧
      w.n = tool2.windowLength.toNat ∧ w.n ≠ 0 ∧ w.least = some 4380 ∧ w.greatest = some 4400 ∧
      4400 ≤ 4380 + w.tolerance tool2 ∧ 4380 + w.tolerance tool2 < 4380 + 89 ∧ 15 ≠ tool2.windowLength.toNat ∧
      expired taring.clock taring.lift.tareTimer = false ∧ expired 45000 taring.lift.tareTimer = true ∧
      ((899 : Int) < tool2.closeThreshold.toNat ∧ (tool2.closeThreshold.toNat : Int) ≤ 900) ∧
      gripParams (enterEmpty (State.notify .tareFailed { taring with lift := { taring.lift with tareTimer := none } })) =
        some tool2 ∧
      (sampleOf 150 4308 (some 0) (sampling 14 0)).mass = some 4391 ∧
      (sampleOf 150 4308 (some 0) (sampling 14 0)).suitable = true ∧ 14 + 1 ≠ tool2.windowLength.toNat ∧
      15 + 1 = tool2.windowLength.toNat ∧ tool2.gapLimit.toNat ≠ 0 ∧
      (sampleOf 150 4308 (some 151) (sampling 15 2)).suitable = false ∧ 2 + 1 < tool2.gapLimit.toNat ∧
      tool2.gapLimit.toNat ≤ 3 + 1 := by decide

theorem witness_GripConfirmedOpensALift :
    let s := { evaluated with clock := 52300, lift := { selectedTool := 2, notedSector := some 1, gripTimer := some 52300 } }
    let unknown := { s with lift := { s.lift with selectedTool := 3 } }
    s.inReset = false ∧ s.lift.state = .empty ∧ expired s.clock s.lift.gripTimer = true ∧ selectedEntry s = some tool2 ∧
      selectedEntry unknown = none ∧ expired 52299 s.lift.gripTimer = false := by decide

theorem witness_ReleaseHandsTheLiftOver :
    releasing.inReset = false ∧ releasing.lift.state = .releasing ∧ expired releasing.clock releasing.lift.regripTimer = true ∧
    expired 59199 releasing.lift.regripTimer = false ∧
    (∃ l o, releasing.lift.openLift = some l ∧ l.number = some (17, 5) ∧ l.opened = some o) ∧
    releasing.active = some tables ∧
    (let s := { releasing with lift := { releasing.lift with openLift := some { openLift17 with number := none } } }
     s.lift.openLift = some { openLift17 with number := none }) ∧
    (let holding (n : Nat) : State := { releasing with queue := { nextSequence := 18, records := List.replicate n (queued 16 true) } }
     (holding 3).queue.records.length = tables.machine.queueThreshold.toNat ∧ (holding 3).queue.waitingArm = true ∧
       (holding 31).queue.records.length < 32 ∧ (holding 31).queue.records.length ≠ tables.machine.queueThreshold.toNat ∧
       32 ≤ (holding 32).queue.records.length) := by
  refine ⟨rfl, rfl, by decide, by decide, ⟨_, _, rfl, rfl, rfl⟩, rfl, rfl, by decide⟩

theorem witness_OutcomeFollowsTheSectors :
    (∃ set i e, working.active = some set ∧ some 2 = some i ∧ i < set.sectorHeader.count.toNat ∧
      set.sectors[i]? = some e ∧ e.kind = 1) ∧
    ¬(∃ set i e, working.active = some set ∧ some 4 = some i ∧ i < set.sectorHeader.count.toNat ∧
      set.sectors[i]? = some e ∧ e.kind = 1) ∧ (some 2 : Option Nat) ≠ none := by
  refine ⟨⟨tables, 2, _, rfl, rfl, by decide, rfl, rfl⟩, ?_, by decide⟩
  rintro ⟨set, i, e, hs, hi, -, he, hk⟩
  cases hs; cases hi; cases he; exact absurd hk (by decide)

theorem witness_BookingKeepsTheAccount :
    evaluated.active = some tables ∧
    (∀ a ∈ [0, 31], ({ buildRecord releasing .released openLift17 (17, 5) with assortment := a } : LiftRecord).assortment < 32) ∧
    (let s := { evaluated with tally := { bunkTotal := 59000 } }
     let weighed := { openLift17 with weighing := some { gross := 16221, net := 12021, belowTare := false } }
     let t := book { buildRecord releasing .released weighed (17, 5) with outcome := .delivered } s
     s.tally.bunkTotal < t.tally.bunkTotal ∧ t.tally.bunkClass ≠ s.tally.bunkClass) := by
  decide

/-! ### Supervision and the shaper -/

theorem witness_FiguresOfTheLoadMoment :
    [(16480 : Int)] ≠ [] ∧ (∀ v ∈ [(16480 : Int), 0], 0 ≤ v) ∧ nonIncreasing (tables.rowOf 1 0).capacities.toList = true ∧
    (0 < 8 ∧ -160 + 40 * ((0 : Nat) : Int) ≤ -160 ∧ (-160 : Int) < -160 + 40 * (((0 : Nat) : Int) + 1)) ∧
    (7 < 8 ∧ -160 + 40 * ((7 : Nat) : Int) ≤ 159 ∧ (159 : Int) < -160 + 40 * (((7 : Nat) : Int) + 1)) := by decide

theorem witness_EvaluationComputesTheFigures :
    State.reset.active = none ∧ evaluated.active = some tables ∧ working.fresh .pitch = false ∧
    evaluated.fresh .pitch = true ∧ evaluated.fresh .roll = true ∧ (sectorInUse tables evaluated.sup.sector).isSome = true ∧
    sectorInUse tables none = none ∧ 1 ≤ tables.columnCount.toNat ∧ evaluated.fresh .f = true ∧
    evaluated.fresh .reach = true := by decide

theorem witness_StateFollowsTheUtilisation :
    SetValid tables ∧ (∀ st ∈ [SupState.normal, .warn, .limit, .hold],
      let s := { evaluated with sup := { evaluated.sup with state := st } }
      s.active = some tables ∧ s.sup.service = false ∧ s.fresh .f = true ∧ s.fresh .reach = true) :=
  ⟨tables_valid, by decide⟩

theorem witness_ChangeOfSupervisionState :
    SupState.warn ≠ evaluated.sup.state ∧ evaluated.sup.tracking = false ∧ SupState.limit ≠ lifting.sup.state ∧
      lifting.sup.tracking = true ∧ lifting.lift.openLift = some openLift17 ∧
      (lifting.active.isSome = true ∧ lifting.fresh .f = true ∧ lifting.fresh .reach = true) := by decide

/-- 06, R127: an evaluation at which U is current brings the open lift's peak up to U. -/
theorem test_evaluation_keeps_the_peak :
    (evaluate lifting).lift.openLift.map (·.peak) = some 805 := by decide

/-- The service input is asserted. -/
def serviced (s : State) : State := { s with sup := { s.sup with state := .bypass, service := true } }

theorem witness_ServiceInputAndAlert :
    evaluated.inReset = false ∧ true ≠ evaluated.sup.service ∧ ModeSafe evaluated ∧
    (ModeSafe (serviced evaluated) ∧ false ≠ (serviced evaluated).sup.service ∧
      (serviced evaluated).fresh .f = true ∧ (serviced evaluated).fresh .reach = true) ∧
    (ModeSafe (serviced working) ∧ (serviced working).active = some tables ∧ (serviced working).fresh .f = false) ∧
    (ModeSafe (serviced State.reset) ∧ (serviced State.reset).active = none) ∧
    (expired 40000 (some 40000) = true ∧ expired 39999 (some 40000) = false) := by
  refine ⟨rfl, by decide, ?_, ⟨?_, by decide⟩, ⟨?_, by decide⟩, ⟨?_, by decide⟩, by decide⟩ <;> unfold ModeSafe <;> decide

/-- 06, R124 and R128: a release with F and REACH FRESH decides from U = 805 alone, NORMAL, and turns the alert output off. -/
theorem test_service_release_evaluates :
    let t := run (.serviceInputChange false) (serviced { evaluated with sup := { evaluated.sup with utilisation := 0 } })
    (t.sup.state, t.sup.utilisation, t.sup.alert, t.sup.alertNext) = (.normal, 805, false, none) := by decide

theorem witness_ClassOfADemand :
    (5 : Int) ≠ 0 ∧ State.reset.active = none ∧ evaluated.active = some tables ∧
    (∀ e ∈ tables.functions, e.functionId ≠ 12) ∧
    (∃ e, tables.functionOf 1 = some e ∧ e.role.toNat = 0 ∧ e.sense.toNat = 1) ∧
    (∃ e, tables.functionOf 3 = some e ∧ e.role.toNat ≠ 0 ∧ e.effect.toNat = 1) ∧
    (∃ e, tables.functionOf 6 = some e ∧ e.role.toNat ≠ 0 ∧ e.effect.toNat = 0) ∧
    (∃ x, sectorInUse tables (some 3) = some x ∧ x.towardLesser.toNat = 2) ∧
    (∃ x, sectorInUse tables (some 2) = some x ∧ x.towardLesser.toNat = 0) ∧ sectorInUse tables (some 5) = none := by
  refine ⟨by decide, rfl, rfl, by decide, ⟨_, rfl, by decide⟩, ⟨_, rfl, by decide⟩, ⟨_, rfl, by decide⟩, ⟨_, rfl, by decide⟩,
    ⟨_, rfl, by decide⟩, by decide⟩

/-- The evaluation's state in another supervision state. -/
def inState (st : SupState) : State := { evaluated with sup := { evaluated.sup with state := st } }

theorem witness_ShapingNeverStrengthensADemand :
    (∀ set, evaluated.active = some set → SetValid set) ∧
    (classify (inState .warn) 3 1000 = .increasing ∧ (inState .warn).sup.state = .warn) ∧
    classify (inState .limit) 3 (-1000) = .decreasing ∧ classify (inState .hold) 1 1 = .increasing ∧
    (∃ e, tables.functionOf 3 = some e) := by
  refine ⟨?_, by decide, by decide, by decide, ⟨_, rfl⟩⟩
  intro set h; cases h; exact tables_valid

theorem witness_ValveDemandIsShapedAndPlaced :
    linked.inReset = false ∧ (∀ set, linked.active = some set → SetValid set) ∧
    36 < (List.replicate 39 (0 : Byte)).length ∧ (List.replicate 35 (0 : Byte)).length % 3 ≠ 0 ∧
    (List.replicate 12 ((3 : Byte), (700 : BitVec 16))).length ≤ 12 := by
  refine ⟨rfl, ?_, by decide, by decide, by decide⟩
  intro set h; cases h; exact tables_valid

/-! ### The table store, management and trace capture -/

theorem witness_EntryRecordsReadBack :
    (15 < Target.channelEntry.indices ∧ (List.replicate 27 (9 : Byte)).length = Target.channelEntry.recordLength) ∧
    TableSet.read .channelEntry 5 tables = some (channelBytes channelReach) ∧
    TableSet.read .channelEntry 6 tables = none ∧ 6 < 15 ∧ 15 < 16 := by decide

/-- The next operation of a chain of one operation after the tag. -/
def nextIs (s : State) (code : Byte) (more : Bool) (operands : List Byte) : Prop :=
  NextOperation s (request (code :: (if more then 1 else 0) :: sendByte operands.length :: operands)) {} code more operands
    (4 + operands.length)

/-- The state in which that operation is asked for. -/
def asking (code : Byte) (more : Bool) (operands : List Byte) (s : State) : State :=
  asked (code :: (if more then 1 else 0) :: sendByte operands.length :: operands) s

/-- A chain that has this many bytes of results. -/
def filled (n : Nat) : Chain := { offset := 1, results := List.replicate n 0 }

theorem witness_StagingIsOpenedWrittenAndRead :
    nextIs (asking 0x20 true [] working) 0x20 true [] ∧ nextIs (asking 0x20 false [9] working) 0x20 false [9] ∧
    nextIs (asking 0x21 false [5] working) 0x21 false [5] ∧ [(5 : Byte)].length < 2 ∧
    nextIs (asking 0x22 false [0, 6] working) 0x22 false [0, 6] ∧ [(0 : Byte), 6].length ≠ 3 ∧
    nextIs (asking 0x21 false [5, 0, 7] { working with staging := .loading tables }) 0x21 false [5, 0, 7] ∧
    (Target.capacityHeader.code = (5 : Byte).toNat ∧ (0 : Byte).toNat < Target.capacityHeader.indices ∧
      [(7 : Byte)].length = Target.capacityHeader.recordLength) ∧
    nextIs (asking 0x22 false [0, 6, 8] working) 0x22 false [0, 6, 8] ∧
    TableSet.read .capacityRow 8 tables = some (rowBytes (tables.rowOf 2 2)) ∧
    TableSet.read .capacityRow 9 tables = none ∧ RoomFor (filled 110) 0 ∧ ¬RoomFor (filled 111) 0 ∧
    RoomFor (filled 92) Target.capacityRow.recordLength ∧ ¬RoomFor (filled 93) Target.capacityRow.recordLength := by
  unfold nextIs NextOperation RoomFor; decide

theorem witness_CheckStagingJudgesTheSet :
    nextIs (asking 0x23 true [] { working with staging := .loading tables }) 0x23 true [] ∧ RoomFor (filled 104) 6 ∧
    ¬RoomFor (filled 105) 6 ∧
    (let s := { working with
        staging := .checked tables,
        mgmt := { requests := [request []], phase := .checking (filled 9) 39980 true } }
     s.inReset = false ∧ s.mgmt.phase = .checking (filled 9) 39980 true ∧ s.mgmt.requests = request [] :: []) ∧
    validate tables = none ∧ (∃ failure, validate { tables with tools := [] } = some failure) ∧
    (∀ c started more, working.mgmt.phase ≠ .checking c started more) := by
  refine ⟨by unfold nextIs NextOperation; decide, by unfold RoomFor; decide, by unfold RoomFor; decide, by decide,
    tables_valid.1, ⟨_, rfl⟩, ?_⟩
  intro c started more h; cases h

theorem witness_ActivateSwapsTheBanks :
    nextIs (asking 0x24 false (bytes16 5) { taring with staging := .checked tables }) 0x24 false (bytes16 5) ∧
    tables.machine.generation = 5 ∧ RoomFor (filled 107) 3 ∧ ¬RoomFor (filled 108) 3 ∧
    ({ taring with staging := .checked tables } : State).staging = .checked tables ∧
    (∃ old, taring.active = some old ∧ old.sectorHeader.cpr = tables.sectorHeader.cpr ∧
      old.sectorHeader.indexOffset = tables.sectorHeader.indexOffset) ∧
    ¬(∃ old, State.reset.active = some old ∧ old.sectorHeader.cpr = tables.sectorHeader.cpr ∧
      old.sectorHeader.indexOffset = tables.sectorHeader.indexOffset) ∧
    (∀ set, working.staging ≠ .checked set ∧ working.staging ≠ .previous set) ∧
    (tables.machine.noticeStation ≠ 0 ∧ (replyHeld 5 .up).cab.link = .up ∧ (replyHeld 5 .up).cab.list.length < 6) ∧
    (evaluated.sup.sector = evaluated.slew.sector ∧ evaluated.sup.bunkClass = evaluated.tally.bunkClass ∧
      (sectorInUse tables evaluated.sup.sector).isSome = true ∧ sectorInUse tables none = none ∧
      1 ≤ tables.columnCount.toNat ∧ taring.lift.openLift = none ∧ lifting.lift.openLift = some openLift17 ∧
      lifting.lift.state ≠ .taring) := by
  refine ⟨by unfold nextIs NextOperation; decide, rfl, by unfold RoomFor; decide, by unfold RoomFor; decide, rfl,
    ⟨_, rfl, rfl, rfl⟩, ?_, ?_, by decide, by decide⟩
  · rintro ⟨old, h, -⟩; cases h
  · intro set
    constructor <;> (intro h; cases h)

theorem witness_RequestIsTakenOrAnsweredBusy :
    working.inReset = false ∧ (asked [] working).mgmt.requests.length < 2 ∧
    2 ≤ ({ requests := [request [], request []] } : Management).requests.length ∧
    (linked.port .cab).link = .up ∧ (linked.port .cab).list.length < 6 := by decide

theorem witness_OperationsAreConcluded :
    (asked [] working).mgmt.requests = request [] :: [] ∧ (filled 109).results.length + 3 + [(1 : Byte), 2, 3, 4].length ≤ 116 ∧
    (∃ operands, readOp [0x2A, 0x01, 1, 2, 1, 2, 0x24, 1, 2, 0, 6] 6 = .op 0x24 true operands 11) ∧
    (∃ operands, readOp [0x2A, 0x01, 1, 2, 1, 2, 0x24, 0, 2, 0, 6] 6 = .op 0x24 false operands 11) ∧
    readOp [0x2A, 0x01, 1, 2, 1, 2, 0x24, 1, 2, 0] 6 = .short 0x24 ∧
    ((filled 106).results ++ [0x01, 0, 1, 0]).length + 6 ≤ 116 ∧
    116 < ((filled 107).results ++ [0x01, 0, 1, 0]).length + 6 ∧ ((filled 109).results ++ [0x01, 0, 1, 0]).length + 3 ≤ 116 ∧
    Status.noRoom ≠ .ok := by
  refine ⟨rfl, by decide, ⟨_, rfl⟩, ⟨_, rfl⟩, by decide, by decide, by decide, by decide, by decide⟩

theorem witness_PerformRequestRunsTheChain :
    working.inReset = false ∧ working.mgmt.requests = [] ∧
    nextIs (asking 0x02 false [] working) 0x02 false [] ∧ nextIs (asking 0x02 true [] working) 0x02 true [] ∧
    nextIs (asking 0x30 true [4] working) 0x30 true [4] ∧ nextIs (asking 0x77 false [] working) 0x77 false [] ∧
    nextIs (asking 0x02 true [9] working) 0x02 true [9] ∧ nextIs (asking 0x21 false [5] working) 0x21 false [5] ∧
    nextIs (asking 0x30 true [5] working) 0x30 true [5] ∧
    nextIs (asking 0x3F false [] working) 0x3F false [] ∧
    (∃ t c', exec .readIdentity (asking 0x02 true [] working) = .next t ∧ t.mgmt.phase = .reading c' ∧
      t.mgmt.requests = (asking 0x02 true [] working).mgmt.requests ∧ t.inReset = false) ∧
    (∃ t, exec .readIdentity (asking 0x02 true [9] working) = .next t ∧ t.mgmt.requests = []) ∧
    ((asked [] working).mgmt.phase = .reading {} ∧ (request []).payload = [0x2A]) ∧
    (2 ≤ (request [0x02, 0]).payload.length ∧ readOp (request [0x02, 0]).payload 1 = .short 0x02 ∧
      (filled 113).results.length + 3 ≤ 116) := by
  refine ⟨rfl, rfl, ?_, ?_, ?_, ?_, ?_, ?_, ?_, ?_, ⟨_, _, rfl, rfl, rfl, rfl⟩, ⟨_, rfl, by decide⟩, by decide, by decide⟩ <;>
    (unfold nextIs NextOperation; decide)

theorem witness_TestAndReadOperations :
    nextIs (asking 0x01 false [3, 32] working) 0x01 false [3, 32] ∧ nextIs (asking 0x02 false [] working) 0x02 false [] ∧
    nextIs (asking 0x04 false [] working) 0x04 false [] ∧ nextIs (asking 0x05 false [28, 4] working) 0x05 false [28, 4] ∧
    RoomFor (filled 109) 1 ∧ ¬RoomFor (filled 110) 1 ∧ RoomFor (filled 105) 5 ∧ ¬RoomFor (filled 106) 5 ∧
    RoomFor (filled 56) 54 ∧ ¬RoomFor (filled 57) 54 ∧ RoomFor (filled 48) (6 + 14 * 4) ∧ ¬RoomFor (filled 49) (6 + 14 * 4) := by
  unfold nextIs NextOperation RoomFor; decide

theorem witness_StatusIsRead :
    nextIs (asking 0x03 false [] lifting) 0x03 false [] ∧ RoomFor (filled 69) 41 ∧ ¬RoomFor (filled 70) 41 := by
  unfold nextIs NextOperation RoomFor; decide

theorem witness_LiftsTallyAndConditionsOperations :
    nextIs (asking 0x10 false [4] fourQueued) 0x10 false [4] ∧
    ¬RoomFor {} ((fourQueued.queue.records.take 4).flatMap recordBytes).length ∧
    RoomFor {} ((fourQueued.queue.records.take 1).flatMap recordBytes).length ∧
    nextIs (asking 0x11 false (bytes16 21) fourQueued) 0x11 false (bytes16 21) ∧
    fourQueued.queue.records = [queued 20 true] ++ queued 21 true :: [queued 22 true, queued 23 false] ∧
    (∀ y ∈ [queued 20 true], y.sequence ≠ 21) ∧ (∀ x ∈ fourQueued.queue.records, x.sequence ≠ 24) ∧
    nextIs (asking 0x12 false [] fourQueued) 0x12 false [] ∧
    nextIs (asking 0x13 false (bytes32 6) fourQueued) 0x13 false (bytes32 6) ∧ RoomFor (filled 106) 4 ∧ ¬RoomFor (filled 107) 4 ∧
    nextIs (asking 0x3F false [] fourQueued) 0x3F false [] ∧ RoomFor (filled 110) 0 ∧ ¬RoomFor (filled 111) 0 := by
  unfold nextIs NextOperation RoomFor; decide

theorem witness_CaptureFollowsTheClockEvent :
    (∀ mode ∈ [TraceMode.stopWhenFull, .overwriteOldest],
      TraceSafe { tracing with trace := { tracing.trace with
        config := { tracing.trace.config with mode }, buffer := List.replicate 256 (List.replicate 4 ⟨.time, 0⟩) } }) ∧
    ¬elementsOf (List.replicate 256 (List.replicate 4 ⟨.time, 0⟩)) + 4 ≤ 1024 ∧
    elementsOf (List.replicate 255 (List.replicate 4 ⟨.time, 0⟩)) + 4 ≤ 1024 ∧
    (tracing.inReset = false ∧ tracing.trace.state = .running ∧ tracing.trace.config.clock = clockKind (.liftEvent .gripped) ∧
      tracing.trace.dividerCount + 1 = tracing.trace.config.divider) ∧
    ¬(tracing.trace.config.clock = clockKind .vdShaped) := by
  unfold TraceSafe; decide +kernel

theorem witness_TraceIsControlled :
    let record : List Byte := [1, 255, 6, 4, 1, 11, 8, 13, 13, 1, 0x10, 0, 1, 0, 0, 0, 0, 1]
    record.length = 18 ∧ nextIs (asking 0x30 false (1 :: record) working) 0x30 false (1 :: record) ∧
    working.trace.state = .disabled ∧ (traceConfigOfBytes record).isSome = true ∧
    traceConfigOfBytes (record.set 1 0) = none ∧ tracing.trace.state ≠ .disabled ∧ RoomFor (filled 109) 1 ∧
    ¬RoomFor (filled 110) 1 ∧
    nextIs (asking 0x30 false [2] working) 0x30 false [2] ∧ nextIs (asking 0x30 false [3] tracing) 0x30 false [3] ∧
    nextIs (asking 0x30 false [4] tracing) 0x30 false [4] ∧ [(7 : Byte)].length ≠ 18 ∧
    (∀ action ∈ [(1 : Byte), 2, 3, 4], nextIs (asking 0x30 false [action, 7] working) 0x30 false [action, 7]) := by
  unfold nextIs NextOperation RoomFor; decide

theorem witness_TraceIsReadInWholeBlocks :
    let oldest : List TraceElement := List.replicate 4 ⟨.time, 0⟩
    nextIs (asking 0x31 false [20] { tracing with trace := { tracing.trace with buffer := [oldest, oldest] } }) 0x31 false [20] ∧
    nextIs (asking 0x31 false [3] tracing) 0x31 false [3] ∧ tracing.trace.buffer = [] ∧ oldest ≠ [] ∧
    (3 : Byte).toNat < oldest.length ∧ oldest.length ≤ (4 : Byte).toNat ∧ RoomFor (filled 89) (1 + 5 * oldest.length) ∧
    ¬RoomFor (filled 90) (1 + 5 * oldest.length) ∧ RoomFor (filled 109) 1 ∧ ¬RoomFor (filled 110) 1 := by
  unfold nextIs NextOperation RoomFor; decide


end Sys2Proof.Tests
end

