-- ==== Sys2Proof/Proofs/PortsGood.lean ====
section
/-! PROOFS. The part of the link's promise that speaks of the two ports and of the trace, as one predicate; every operation of
the blocks outside the link keeps it, since it touches the ports only by sending a NOTICE and the trace only by a clock
event. -/

namespace Sys2Proof.Machine

-- One theorem after another: side by side, so many small ones need more threads than the memory limit admits.
set_option Elab.async false

/-- Two ports that are safe and settled, each list good for the receiver of the other port. -/
def PairGood (a b : Port) : Prop :=
  PortSafe a ∧ PortSettled a ∧ PortSafe b ∧ PortSettled b ∧ EntriesGood a.list b.rx ∧ EntriesGood b.list a.rx

/-- The copies in one port's list are of the frame that arrives at the other. -/
theorem PairGood.copies {a b : Port} (h : PairGood a b) : EntriesGood b.list a.rx := by
  obtain ⟨-, -, -, -, -, goodB⟩ := h
  exact goodB

/-- The ports and the trace keep the link's promise. -/
def PortsGood (s : State) : Prop := PairGood s.cab s.crane ∧ TraceSafe s

theorem PairGood.symm {a b : Port} : PairGood a b → PairGood b a
  | ⟨safeA, setA, safeB, setB, goodA, goodB⟩ => ⟨safeB, setB, safeA, setA, goodB, goodA⟩

/-- The promise of two ports, read from either of them. -/
theorem portsGood_iff (p : PortId) (s : State) :
    PortsGood s ↔ PairGood (s.port p) (s.port p.other) ∧ TraceSafe s := by
  cases p
  · exact Iff.rfl
  · exact and_congr_left' ⟨PairGood.symm, PairGood.symm⟩

/-- The promise speaks of the two ports and of the trace alone. -/
theorem PortsGood.of_same {s t : State} (h : PortsGood s) (cab : t.cab = s.cab := by simp)
    (crane : t.crane = s.crane := by simp) (trace : t.trace = s.trace := by simp) : PortsGood t := by
  unfold PortsGood TraceSafe at h ⊢
  rwa [cab, crane, trace]

/-! ## A frame joins a list -/

/-- A whole good frame joins a list that has a place (R16). -/
theorem PairGood.append {a b : Port} (h : PairGood a b) (place : a.hasPlace = true) {frame : List Byte}
    (good : goodAtEnd frame = true) : PairGood (a.append { bytes := frame, status := .whole }) b := by
  obtain ⟨⟨_, down, sending⟩, setA, safeB, setB, goodA, goodB⟩ := h
  simp only [Port.hasPlace, listPlaces, Bool.and_eq_true, decide_eq_true_eq] at place
  obtain ⟨up, room⟩ := place
  refine ⟨⟨?_, fun notUp => absurd up notUp, ?_⟩, setA, safeB, setB, ?_, goodB⟩
  · rw [Port.append, List.length_append]; exact Nat.succ_le_of_lt (of_decide_eq_true room)
  · simp [Port.append]
  · intro e he
    rcases List.mem_append.mp he with old | new
    · exact goodA e old
    · obtain rfl := List.mem_singleton.mp new
      exact ⟨fun _ => good, fun arriving => by cases arriving⟩

/-- One of the part's own good frames is offered to a list (R21). -/
theorem PortsGood.offer {s : State} (h : PortsGood s) (p : PortId) {frame : List Byte}
    (good : goodAtEnd frame = true) : PortsGood (s.offer p frame) := by
  unfold State.offer
  split
  · rename_i place
    obtain ⟨pair, trace⟩ := (portsGood_iff p s).mp h
    refine (portsGood_iff p _).mpr ⟨?_, ?_⟩
    · rw [State.modPort_port, State.modPort_port_other]
      exact pair.append place good
    · simpa [TraceSafe] using trace
  · exact h

/-- An attempt to send a NOTICE (R173). -/
theorem PortsGood.attemptNotice {s : State} (h : PortsGood s) : PortsGood (attemptNotice s) := by
  unfold Machine.attemptNotice
  split
  · exact h.offer .cab (frame := noticeFrame s)
      (goodAtEnd_frameOf _ _ _ _ _ (by simp [noticePayload, bytes16, send16, send32, bytes32]))
  · exact h

/-- A raise of a notice kind (R172). -/
theorem PortsGood.notify {s : State} (h : PortsGood s) (k : NoticeKind) : PortsGood (s.notify k) :=
  PortsGood.attemptNotice h.of_same

theorem PortsGood.modLift {s : State} (h : PortsGood s) (f : LiftController → LiftController) :
    PortsGood (s.modLift f) := h.of_same

theorem PortsGood.modSlew {s : State} (h : PortsGood s) (f : Slew → Slew) : PortsGood (s.modSlew f) := h.of_same

theorem PortsGood.raise {s : State} (h : PortsGood s) (c : Condition) : PortsGood (s.raise c) := h

/-! ## Trace capture -/

theorem elementsOf_append (a b : List (List TraceElement)) : elementsOf (a ++ b) = elementsOf a + elementsOf b := by
  simp [elementsOf]

theorem elementsOf_singleton (b : List TraceElement) : elementsOf [b] = b.length := by simp [elementsOf]

/-- The blocks kept are blocks of the buffer, and with a block that is no longer than the buffer they fit (R178). -/
theorem dropToFit_spec (b : Nat) (room : b ≤ traceRoom) (blocks : List (List TraceElement)) :
    (∀ x ∈ dropToFit b blocks, x ∈ blocks) ∧ elementsOf (dropToFit b blocks) + b ≤ traceRoom := by
  induction blocks with
  | nil => simpa [dropToFit, elementsOf] using room
  | cons blk rest ih =>
    unfold dropToFit
    split
    · exact ⟨fun x hx => hx, by assumption⟩
    · exact ⟨fun x hx => List.mem_cons_of_mem _ (ih.1 x hx), ih.2⟩

/-- A block written behind blocks of the buffer that leave room for it (R178). -/
theorem TraceSafe.writeBlock {s : State} (h : TraceSafe s) (event : ClockEvent) {kept : List (List TraceElement)}
    (fromBuffer : ∀ b ∈ kept, b ∈ s.trace.buffer) (fit : elementsOf kept + s.trace.config.block.length ≤ traceRoom) :
    TraceSafe (writeBlock event kept s) := by
  obtain ⟨_, whole, config⟩ := h
  refine ⟨?_, ?_, config⟩
  · simpa [Machine.writeBlock, elementsOf_append, elementsOf_singleton, traceRoom] using fit
  · intro b hb
    rcases List.mem_append.mp hb with old | new
    · exact whole b (fromBuffer b old)
    · rw [List.mem_singleton.mp new]; simp [Machine.writeBlock]

/-- A capture (R178). -/
theorem TraceSafe.capture {s : State} (h : TraceSafe s) (event : ClockEvent) : TraceSafe (capture event s) := by
  have ⟨_, _, _, atMostSix, _⟩ := h
  have short : s.trace.config.block.length ≤ traceRoom := Nat.le_trans atMostSix (by decide)
  unfold Machine.capture
  dsimp only
  split
  · exact h.writeBlock event (fun _ hb => hb) (by assumption)
  · split
    · exact h
    · obtain ⟨sub, fit⟩ := dropToFit_spec _ short s.trace.buffer
      exact TraceSafe.writeBlock h event sub fit

/-- A clock event (R177). -/
theorem TraceSafe.clockEvent {s : State} (h : TraceSafe s) (event : ClockEvent) : TraceSafe (clockEvent event s) := by
  obtain ⟨room, whole, low, high, count, divider⟩ := id h
  unfold Machine.clockEvent
  split
  · split
    · exact TraceSafe.capture (s := { s with trace := { s.trace with dividerCount := 0 } })
        ⟨room, whole, low, high, by dsimp only; omega, divider⟩ event
    · exact ⟨room, whole, low, high, by dsimp only; omega, divider⟩
  · exact h

theorem PortsGood.clockEvent {s : State} (h : PortsGood s) (event : ClockEvent) : PortsGood (clockEvent event s) := by
  refine ⟨?_, h.2.clockEvent event⟩
  simpa using h.1

/-! ## Supervision -/

theorem PortsGood.computeFigures {s : State} (h : PortsGood s) : PortsGood (computeFigures s) :=
  h.of_same

theorem PortsGood.trackPeak {s : State} (h : PortsGood s) : PortsGood (trackPeak s) :=
  h.of_same

theorem PortsGood.setAlert {s : State} (h : PortsGood s) (st : SupState) : PortsGood (setAlert st s) := h.of_same

theorem PortsGood.trackChange {s : State} (h : PortsGood s) (st : SupState) : PortsGood (trackChange st s) :=
  h.of_same

theorem PortsGood.notifyAll {s : State} (h : PortsGood s) (ks : List NoticeKind) :
    PortsGood (ks.foldl (fun s k => s.notify k) s) := by
  induction ks generalizing s with
  | nil => exact h
  | cons k ks ih => exact ih (h.notify k)

theorem PortsGood.changeState {s : State} (h : PortsGood s) (st : SupState) : PortsGood (changeState st s) := by
  unfold Machine.changeState
  split
  · exact h
  · have entered : PortsGood { s with sup := { s.sup with state := st } } := h.of_same
    exact (((entered.notifyAll (stateNotices s.sup.state st)).setAlert st).trackChange st).clockEvent _

/-- An evaluation (R119). -/
theorem PortsGood.evaluate {s : State} (h : PortsGood s) : PortsGood (evaluate s) :=
  (h.computeFigures.changeState _).trackPeak

theorem PortsGood.supServiceChange {s : State} (h : PortsGood s) (level : Bool) :
    PortsGood (supServiceChange level s) := by
  unfold Machine.supServiceChange
  split
  · exact h
  · exact PortsGood.evaluate h.of_same

theorem PortsGood.supSectorChange {s : State} (h : PortsGood s) (sector : Option Nat) :
    PortsGood (supSectorChange sector s) :=
  PortsGood.evaluate h.of_same

theorem PortsGood.supFSample {s : State} (h : PortsGood s) (v : Int) : PortsGood (supFSample v s) :=
  PortsGood.evaluate h.of_same

theorem PortsGood.supFExpiry {s : State} (h : PortsGood s) : PortsGood (supFExpiry s) :=
  PortsGood.evaluate h.of_same

theorem PortsGood.trackStart {s : State} (h : PortsGood s) : PortsGood (trackStart s) :=
  h.of_same

theorem PortsGood.alertToggle {s : State} (h : PortsGood s) : PortsGood (alertToggle s) :=
  h.of_same

/-! ## Lift queue and tally -/

theorem PortsGood.judgeClass {s : State} (h : PortsGood s) : PortsGood (judgeClass s) := by
  unfold Machine.judgeClass
  dsimp only
  split
  · exact h
  · exact PortsGood.evaluate h.of_same

theorem PortsGood.raiseBunkNotices {s : State} (h : PortsGood s) (m : MachineRecord) :
    PortsGood (raiseBunkNotices m s) := by
  unfold Machine.raiseBunkNotices
  dsimp only
  have warned : PortsGood (if s.tally.warnArm && decide (m.bunkWarn.toNat ≤ s.tally.bunkTotal) then
      State.notify .bunkWarn { s with tally := { s.tally with warnArm := false } } else s) := by
    split
    · exact PortsGood.notify h.of_same _
    · exact h
  split
  · exact PortsGood.notify (warned.of_same) _
  · exact warned

theorem PortsGood.setBunkArms {s : State} (h : PortsGood s) (m : MachineRecord) : PortsGood (setBunkArms m s) := h

theorem PortsGood.book {s : State} (h : PortsGood s) (r : LiftRecord) : PortsGood (book r s) := by
  have booked : PortsGood { s with tally := bookOutcome r.outcome r.assortment r.weighing s.tally } := h
  unfold Machine.book afterBooking
  split
  · exact h
  · dsimp only
    split
    · exact booked.judgeClass
    · split
      · exact booked.judgeClass.raiseBunkNotices _
      · exact booked.judgeClass.setBunkArms _

theorem PortsGood.fileRecord {s : State} (h : PortsGood s) (r : LiftRecord) : PortsGood (fileRecord r s) := by
  unfold Machine.fileRecord
  dsimp only
  split
  · split <;> exact h
  · split
    · exact PortsGood.notify h.of_same _
    · exact h

theorem PortsGood.handOver {s : State} (h : PortsGood s) (ending : LiftEnding) (l : OpenLift)
    (number : BitVec 16 × BitVec 16) : PortsGood (handOver ending l number s) :=
  PortsGood.fileRecord (PortsGood.book h.of_same _) _

theorem PortsGood.clearBunk {s : State} (h : PortsGood s) : PortsGood (clearBunk s) := by
  unfold Machine.clearBunk
  dsimp only
  split <;> exact PortsGood.judgeClass h.of_same

theorem PortsGood.queueActivation {s : State} (h : PortsGood s) (m : MachineRecord) :
    PortsGood (queueActivation m s) := by
  unfold Machine.queueActivation
  split
  · exact h
  · split
    · exact PortsGood.notify h.of_same _
    · exact h

theorem PortsGood.tallyActivation {s : State} (h : PortsGood s) (m : MachineRecord) :
    PortsGood (tallyActivation m s) :=
  (h.judgeClass.raiseBunkNotices m).setBunkArms m

/-! ## The lift controller -/

theorem PortsGood.enterLiftState {s : State} (h : PortsGood s) (st : LiftState) : PortsGood (enterLiftState st s) :=
  PortsGood.clockEvent h.of_same _

theorem PortsGood.enterEmpty {s : State} (h : PortsGood s) : PortsGood (enterEmpty s) :=
  (h.enterLiftState .empty).of_same (by simp [Machine.enterEmpty]) (by simp [Machine.enterEmpty])
    (by simp [Machine.enterEmpty])

theorem PortsGood.tareAccepted {s : State} (h : PortsGood s) (e : ToolEntry) (mean : Nat) :
    PortsGood (tareAccepted e mean s) := by
  unfold Machine.tareAccepted
  dsimp only
  split
  · exact (((h.modLift _).notify .tareDone).modLift _).enterEmpty
  · exact ((h.notify .tareFailed).modLift _).enterEmpty

theorem PortsGood.liftWeighed {s : State} (h : PortsGood s) (mean : Nat) : PortsGood (liftWeighed mean s) :=
  PortsGood.enterLiftState h.of_same _

theorem PortsGood.evaluateWindow {s : State} (h : PortsGood s) : PortsGood (evaluateWindow s) := by
  unfold Machine.evaluateWindow
  split
  · exact h
  · dsimp only
    split
    · split
      · exact h.tareAccepted _ _
      · exact h
    · split
      · exact h.liftWeighed _
      · exact h

theorem PortsGood.feedWindow {s : State} (h : PortsGood s) (x : Sample) : PortsGood (feedWindow x s) := by
  unfold Machine.feedWindow
  dsimp only
  split <;> split
  · exact PortsGood.evaluateWindow h.of_same
  · exact h
  · exact PortsGood.evaluateWindow h.of_same
  · exact h

theorem PortsGood.takeNumber {s : State} (h : PortsGood s) : PortsGood (takeNumber s) := by
  unfold Machine.takeNumber
  split
  · exact h
  · split
    · exact h
    · exact PortsGood.trackStart h.of_same

theorem PortsGood.enterLifting {s : State} (h : PortsGood s) : PortsGood (enterLifting s) :=
  (h.enterLiftState .lifting).takeNumber

theorem PortsGood.takeSetDown {s : State} (h : PortsGood s) : PortsGood (takeSetDown s) :=
  PortsGood.enterLiftState h.of_same _

theorem PortsGood.liftingSample {s : State} (h : PortsGood s) (e : ToolEntry) (x : Sample) :
    PortsGood (liftingSample e x s) := by
  unfold Machine.liftingSample
  split
  · exact h
  · dsimp only
    split
    · exact PortsGood.takeSetDown h.of_same
    · exact PortsGood.feedWindow h.of_same x

theorem PortsGood.noteStatic_noteMass {s : State} (h : PortsGood s) (x : Sample) :
    PortsGood (noteStatic x (noteMass x s)) :=
  h.of_same

theorem PortsGood.liftFSample {s : State} (h : PortsGood s) (v : Int) (a : Option Int) :
    PortsGood (liftFSample v a s) := by
  unfold Machine.liftFSample
  split
  · split
    · exact h
    · exact PortsGood.feedWindow h.of_same _
  · split
    · exact h
    · split
      · exact h
      · dsimp only
        split
        · exact (h.noteStatic_noteMass _).enterLifting.liftingSample _ _
        · exact h.noteStatic_noteMass _
  · split
    · exact h
    · exact (h.noteStatic_noteMass _).liftingSample _ _
  all_goals exact h

theorem PortsGood.failTare {s : State} (h : PortsGood s) : PortsGood (failTare s) :=
  ((h.modLift _).notify .tareFailed).enterEmpty

theorem PortsGood.taringPressure {s : State} (h : PortsGood s) (v : Int) : PortsGood (taringPressure v s) := by
  unfold Machine.taringPressure
  split
  · exact h
  · split
    · dsimp only
      split <;> exact h.failTare
    · exact h

theorem PortsGood.openGrapple {s : State} (h : PortsGood s) (e : ToolEntry) : PortsGood (openGrapple e s) :=
  PortsGood.enterLiftState h.of_same _

theorem PortsGood.regrip {s : State} (h : PortsGood s) : PortsGood (regrip s) := by
  unfold Machine.regrip
  dsimp only
  split
  · exact PortsGood.enterLifting h.of_same
  · exact PortsGood.enterLifting h.of_same
  · exact PortsGood.enterLiftState h.of_same _

theorem PortsGood.heldPressure {s : State} (h : PortsGood s) (v : Int) : PortsGood (heldPressure v s) := by
  unfold Machine.heldPressure
  split
  · exact h
  · split
    · exact h.openGrapple _
    · exact h

theorem PortsGood.releasingPressure {s : State} (h : PortsGood s) (v : Int) :
    PortsGood (releasingPressure v s) := by
  unfold Machine.releasingPressure
  split
  · exact h
  · split
    · exact h.regrip
    · exact h

theorem PortsGood.gripPressure {s : State} (h : PortsGood s) (v : Int) : PortsGood (gripPressure v s) :=
  h.of_same

theorem PortsGood.liftGpress {s : State} (h : PortsGood s) (v : Int) : PortsGood (liftGpress v s) := by
  unfold Machine.liftGpress
  split
  · exact h.gripPressure v
  · exact h.taringPressure v
  · exact h.heldPressure v
  · exact h.heldPressure v
  · exact h.heldPressure v
  · exact h.releasingPressure v

theorem PortsGood.confirmGrip {s : State} (h : PortsGood s) : PortsGood (confirmGrip s) := by
  unfold Machine.confirmGrip
  dsimp only
  split
  · exact PortsGood.enterLifting (PortsGood.enterLiftState h.of_same _)
  · exact PortsGood.enterLiftState h.of_same _

theorem PortsGood.endLift {s : State} (h : PortsGood s) (ending : LiftEnding) : PortsGood (endLift ending s) := by
  unfold Machine.endLift
  dsimp only
  split
  · exact PortsGood.enterEmpty h.of_same
  · split
    · exact ((h.handOver _ _ _).modLift _).enterEmpty
    · exact PortsGood.enterEmpty h.of_same

theorem PortsGood.liftGpressExpiry {s : State} (h : PortsGood s) : PortsGood (liftGpressExpiry s) := by
  unfold Machine.liftGpressExpiry
  split
  · exact h
  · exact h
  all_goals exact h.endLift _

theorem PortsGood.liftTareRequest {s : State} (h : PortsGood s) : PortsGood (liftTareRequest s) := by
  unfold Machine.liftTareRequest
  split
  · exact PortsGood.enterLiftState h.of_same _
  · exact h.notify _

theorem PortsGood.liftActivation {s : State} (h : PortsGood s) : PortsGood (liftActivation s) := by
  unfold Machine.liftActivation
  dsimp only
  split
  · exact h.failTare
  · exact h

/-! ## The slew counter -/

theorem PortsGood.setSector {s : State} (h : PortsGood s) (sector : Option Nat) : PortsGood (setSector sector s) := by
  unfold Machine.setSector sectorEvent State.choose
  dsimp only
  split
  · exact h
  · split
    · exact PortsGood.clockEvent (PortsGood.supSectorChange h.of_same sector) _
    · exact PortsGood.supSectorChange (PortsGood.clockEvent h.of_same _) sector

theorem PortsGood.trackSector {s : State} (h : PortsGood s) : PortsGood (trackSector s) := by
  rw [trackSector_sets]
  exact h.setSector _

theorem PortsGood.paceCount {s : State} (h : PortsGood s) : PortsGood (paceCount s) := by
  unfold Machine.paceCount
  dsimp only
  split
  · exact PortsGood.clockEvent h.of_same _
  · exact h

theorem PortsGood.takeCount {s : State} (h : PortsGood s) (up : Bool) : PortsGood (takeCount up s) := by
  unfold Machine.takeCount
  dsimp only
  split
  · exact PortsGood.paceCount (PortsGood.trackSector h.of_same)
  · exact PortsGood.paceCount h.of_same

theorem PortsGood.countError {s : State} (h : PortsGood s) : PortsGood (countError s) :=
  PortsGood.setSector h.of_same none

theorem PortsGood.takeIndex {s : State} (h : PortsGood s) : PortsGood (takeIndex s) := by
  unfold Machine.takeIndex indexReferenced
  split
  · dsimp only
    split
    · exact (((h.raise .slewSuspect).notify .slewSuspect).modSlew _).setSector _
    · exact PortsGood.setSector h.of_same _
  · exact h

theorem PortsGood.observe {s : State} (h : PortsGood s) (a b z : Bool) : PortsGood (observe a b z s) := by
  have levels : ∀ f, PortsGood (s.modSlew f) := fun _ => h
  unfold Machine.observe
  dsimp only
  clear * - levels
  split <;> split
  · exact (levels _).countError.takeIndex
  · split
    · exact ((levels _).takeCount _).takeIndex
    · exact (levels _).takeIndex
  · exact (levels _).countError
  · split
    · exact (levels _).takeCount _
    · exact levels _

theorem PortsGood.slewActivation {s : State} (h : PortsGood s) (old : Option TableSet) (new : TableSet) :
    PortsGood (slewActivation old new s) := by
  unfold Machine.slewActivation
  dsimp only
  split
  · split
    · exact PortsGood.setSector h.of_same _
    · exact h
  · exact PortsGood.setSector h.of_same none

/-! ## Intake -/

/-- An F sample to its receivers, in any of the six orders (R34). -/
theorem PortsGood.deliverForce {s : State} (h : PortsGood s) (v : Int) (a : Option Int) :
    PortsGood (deliverForce v a s) := by
  have chosen : PortsGood (s.choose 6).2 := h
  unfold Machine.deliverForce
  dsimp only
  split
  · exact ((chosen.liftFSample v a).supFSample v).clockEvent _
  · exact ((chosen.liftFSample v a).clockEvent _).supFSample v
  · exact ((chosen.supFSample v).liftFSample v a).clockEvent _
  · exact ((chosen.supFSample v).clockEvent _).liftFSample v a
  · exact ((chosen.clockEvent _).liftFSample v a).supFSample v
  · exact ((chosen.clockEvent _).supFSample v).liftFSample v a

theorem PortsGood.deliverSample {s : State} (h : PortsGood s) (m : Measurand) (v : Int) (a : Option Int) :
    PortsGood (deliverSample m v a s) := by
  cases m
  · exact h.deliverForce v a
  · exact h
  · exact h.evaluate
  · exact h.evaluate
  · exact h.evaluate
  · exact h.liftGpress v

theorem PortsGood.judgeRecord {x : State × Option Int} (h : PortsGood x.1) (r : MatchedRecord) :
    PortsGood (judgeRecord x r).1 := by
  unfold Machine.judgeRecord
  dsimp only
  split
  · exact PortsGood.deliverSample h.of_same _ _ _
  · exact h

theorem PortsGood.judgeRecords (rs : List MatchedRecord) {x : State × Option Int} (h : PortsGood x.1) :
    PortsGood (rs.foldl Machine.judgeRecord x).1 := by
  induction rs generalizing x with
  | nil => exact h
  | cons r rs ih => exact ih (h.judgeRecord r)

theorem PortsGood.readReport {s : State} (h : PortsGood s) (source : Byte) (payload : List Byte) :
    PortsGood (readReport source payload s) := by
  unfold Machine.readReport
  split
  · exact h
  · exact PortsGood.judgeRecords _ h

theorem PortsGood.deliverExpiry {s : State} (h : PortsGood s) (m : Measurand) : PortsGood (deliverExpiry m s) := by
  cases m
  · exact PortsGood.supFExpiry h.of_same
  · exact h.of_same (by simp [Machine.deliverExpiry]) (by simp) (by simp [Machine.deliverExpiry])
  · exact h.evaluate
  · exact h.evaluate
  · exact h.evaluate
  · exact h.liftGpressExpiry

theorem PortsGood.expireMeasurand {s : State} (h : PortsGood s) (m : Measurand) :
    PortsGood (expireMeasurand m s) := by
  unfold Machine.expireMeasurand
  split
  · exact PortsGood.deliverExpiry h.of_same m
  · exact h

theorem PortsGood.takeTareNumber {s : State} (h : PortsGood s) (number : Byte) :
    PortsGood (takeTareNumber number s) := by
  unfold Machine.takeTareNumber
  dsimp only
  split
  · exact h
  · split
    · exact h
    · exact PortsGood.liftTareRequest h.of_same

theorem PortsGood.readOperatorState {s : State} (h : PortsGood s) (payload : List Byte) :
    PortsGood (readOperatorState payload s) := by
  unfold Machine.readOperatorState
  split
  · split
    · exact PortsGood.takeTareNumber h.of_same _
    · exact h
  · exact h

/-! ## Activation (R154, R155) -/

theorem PortsGood.intakeActivation {s : State} (h : PortsGood s) (t : TableSet) :
    PortsGood (intakeActivation t s) := h.of_same

theorem PortsGood.activateSet {s : State} (h : PortsGood s) (t : TableSet) : PortsGood (activateSet t s) := by
  have swapped : PortsGood { s with active := some t, staging := stagingAfterSwap s.active } := h.of_same
  have evaluated := ((swapped.notify .tablesActive).intakeActivation t).supFExpiry
  exact ((evaluated.slewActivation s.active t).liftActivation.queueActivation t.machine).tallyActivation t.machine

end Sys2Proof.Machine
end

