-- ==== Sys2Proof/Proofs/PairGood.lean ====
section
/-! PROOFS. What each operation on a port of the link does to the promise of the two ports (R2 to R7, R16 to R19). -/

namespace Sys2Proof.Machine

-- One theorem after another: side by side, so many small ones need more threads than the memory limit admits.
set_option Elab.async false

/-! ## Entries that still arrive -/

/-- No entry of a list is still arriving. -/
def NoneArriving (list : List Entry) : Prop := ∀ e ∈ list, e.status ≠ .arriving

/-- The copy of a frame goes with its frame: a receiver that is in no forwarded frame has none (R16). -/
theorem EntriesGood.noneArriving {list : List Entry} {rx : Receiver} (h : EntriesGood list rx)
    (outside : ¬(rx.framing = .inFrame ∧ rx.treatment.elim false Treatment.forwards = true ∧ 5 ≤ rx.bytes.length)) :
    NoneArriving list := by
  intro e he arriving
  obtain ⟨inside, forwards, long, same⟩ := (h e he).2 arriving
  exact outside ⟨inside, forwards, same ▸ long⟩

/-- With no entry arriving, the receiver does not matter. -/
theorem EntriesGood.anyReceiver {list : List Entry} {rx : Receiver} (h : EntriesGood list rx)
    (none : NoneArriving list) (rx' : Receiver) : EntriesGood list rx' :=
  fun e he => ⟨(h e he).1, fun arriving => absurd arriving (none e he)⟩

theorem EntriesGood.nil (rx : Receiver) : EntriesGood [] rx := fun _ he => absurd he List.not_mem_nil

/-! ## Finishing a copy (R19) -/

/-- Finishing a copy writes the list alone. -/
theorem finishCopy_frame (good : Bool) (q : Port) : finishCopy good q = { q with list := (finishCopy good q).list } := by
  unfold finishCopy
  split
  · rfl
  · split
    · rfl
    · split <;> rfl

@[simp] theorem finishCopy_true_list (q : Port) :
    (finishCopy true q).list = q.list.map fun e => if e.status = .arriving then { e with status := .whole } else e := rfl

/-- The list after a copy was found bad: while its head is being sent, the head stays and is broken if it is the copy. -/
theorem finishCopy_false_list (q : Port) :
    (finishCopy false q).list =
      if q.sending.isSome then
        q.list.head?.toList.map (fun e => if e.status = .arriving then { e with status := .broken } else e) ++
          q.list.tail.filter (fun x => decide (x.status ≠ .arriving))
      else q.list.filter (fun x => decide (x.status ≠ .arriving)) := by
  unfold finishCopy
  simp only [Bool.false_eq_true, if_false]
  split
  · rename_i empty; simp [empty]
  · rename_i e rest full
    rw [full]
    split <;> rfl

/-- After a copy was found bad nothing arrives, and the entries that are not broken are entries of the list before. -/
theorem finishCopy_false_mem {q : Port} {e : Entry} (h : e ∈ (finishCopy false q).list) :
    e.status ≠ .arriving ∧ (e.status ≠ .broken → e ∈ q.list) := by
  rw [finishCopy_false_list] at h
  split at h
  · rcases List.mem_append.mp h with head | tail
    · obtain ⟨x, hx, rfl⟩ := List.mem_map.mp head
      have old : x ∈ q.list := List.mem_of_mem_head? (by simpa using hx)
      split
      · exact ⟨by simp, fun notBroken => absurd rfl notBroken⟩
      · exact ⟨by assumption, fun _ => old⟩
    · obtain ⟨old, kept⟩ := List.mem_filter.mp tail
      exact ⟨of_decide_eq_true kept, fun _ => List.mem_of_mem_tail old⟩
  · obtain ⟨old, kept⟩ := List.mem_filter.mp h
    exact ⟨of_decide_eq_true kept, fun _ => old⟩

theorem finishCopy_false_length (q : Port) : (finishCopy false q).list.length ≤ q.list.length := by
  rw [finishCopy_false_list]
  split
  · cases q.list with
    | nil => simp
    | cons e rest => simpa using List.length_filter_le _ rest
  · exact List.length_filter_le _ _

/-- While an entry is being sent, a head stays in the list. -/
theorem finishCopy_false_ne_nil {q : Port} (sending : q.sending.isSome) (h : q.list ≠ []) :
    (finishCopy false q).list ≠ [] := by
  rw [finishCopy_false_list, if_pos sending]
  cases full : q.list with
  | nil => exact absurd full h
  | cons e rest => simp

theorem EntriesGood.finishBad {q : Port} {rx : Receiver} (h : EntriesGood q.list rx) (rx' : Receiver) :
    EntriesGood (finishCopy false q).list rx' := by
  intro e he
  obtain ⟨notArriving, old⟩ := finishCopy_false_mem he
  exact ⟨fun whole => (h e (old (by simp [whole]))).1 whole, fun arriving => absurd arriving notArriving⟩

/-- A list that loses entries, or keeps its length, is as safe as before. -/
theorem PortSafe.setList {q : Port} (h : PortSafe q) {list : List Entry} (short : list.length ≤ q.list.length)
    (head : q.sending.isSome → q.list ≠ [] → list ≠ []) : PortSafe { q with list } := by
  obtain ⟨room, down, sent⟩ := h
  refine ⟨short.trans room, fun notUp => ?_, fun sending => head sending (sent sending)⟩
  obtain ⟨empty, rest⟩ := down notUp
  exact ⟨List.eq_nil_of_length_eq_zero (by simpa [empty] using short), rest⟩

theorem PortSafe.finishBad {q : Port} (h : PortSafe q) : PortSafe (finishCopy false q) := by
  rw [finishCopy_frame]
  exact h.setList (finishCopy_false_length q) finishCopy_false_ne_nil

theorem PortSafe.finishGood {q : Port} (h : PortSafe q) : PortSafe (finishCopy true q) := by
  rw [finishCopy_frame]
  exact h.setList (by simp) (by simp)

/-! ## What happens to the frame in progress -/

/-- A frame in progress is dropped, with its copy on the other port (R7, R11, R19). -/
theorem PairGood.drop {a b : Port} (h : PairGood a b) {rx : Receiver} (ok : a.link ≠ .up → rx.framing ≠ .inFrame) :
    PairGood { a with rx } (finishCopy false b) := by
  obtain ⟨⟨room, down, sending⟩, setA, safeB, setB, goodA, goodB⟩ := h
  refine ⟨⟨room, fun notUp => ?_, sending⟩, setA, safeB.finishBad, ?_, ?_, goodB.finishBad rx⟩
  · obtain ⟨empty, notSending, -⟩ := down notUp
    exact ⟨empty, notSending, ok notUp⟩
  · rw [finishCopy_frame]; exact setB
  · rw [finishCopy_frame]; exact goodA

/-- A port goes DOWN (R7), whatever its counts are. -/
theorem PairGood.down {a b : Port} (h : PairGood a b) (a' : Port) : PairGood (downPort a') (finishCopy false b) := by
  obtain ⟨-, -, safeB, setB, -, goodB⟩ := h.drop (rx := {}) (by simp)
  refine ⟨⟨by simp [downPort], by simp [downPort, cutOff], by simp [downPort, cutOff]⟩,
    ⟨by simp [downPort], by simp [downPort], by simp [downPort], by simp [downPort]⟩, safeB, setB, .nil _, goodB⟩

/-- A good frame's copy becomes a good whole entry (R19). -/
theorem PairGood.finish {a b : Port} (h : PairGood a b) (good : goodAtEnd a.rx.bytes = true) :
    PairGood { a with rx := {} } (finishCopy true b) := by
  obtain ⟨⟨room, down, sending⟩, setA, safeB, setB, goodA, goodB⟩ := h
  refine ⟨⟨room, fun notUp => ⟨(down notUp).1, (down notUp).2.1, by simp⟩, sending⟩, setA, safeB.finishGood, setB, goodA, ?_⟩
  intro e he
  obtain ⟨x, hx, rfl⟩ := List.mem_map.mp he
  obtain ⟨whole, arriving⟩ := goodB x hx
  split
  · rename_i is
    obtain ⟨-, -, -, same⟩ := arriving is
    exact ⟨fun _ => same ▸ good, by simp⟩
  · exact ⟨whole, fun is => absurd is (by assumption)⟩

/-- The receiver goes on where no copy of its frame is in the other list. -/
theorem PairGood.setRx {a b : Port} (h : PairGood a b) (none : NoneArriving b.list) {rx : Receiver}
    (ok : a.link ≠ .up → rx.framing ≠ .inFrame) : PairGood { a with rx } b := by
  obtain ⟨⟨room, down, sending⟩, setA, safeB, setB, goodA, goodB⟩ := h
  exact ⟨⟨room, fun notUp => ⟨(down notUp).1, (down notUp).2.1, ok notUp⟩, sending⟩, setA, safeB, setB, goodA,
    goodB.anyReceiver none rx⟩

/-- A byte of a forwarded frame joins the frame and its copy (R16). -/
theorem PairGood.extend {a b : Port} (h : PairGood a b) (x : Byte) :
    PairGood { a with rx := { a.rx with bytes := a.rx.bytes ++ [x] } } (extendCopy x b) := by
  obtain ⟨safeA, setA, safeB, setB, goodA, goodB⟩ := h
  refine ⟨safeA, setA, ?_, setB, goodA, ?_⟩
  · exact safeB.setList (by simp) (by simp)
  · intro e he
    obtain ⟨y, hy, rfl⟩ := List.mem_map.mp he
    obtain ⟨whole, arriving⟩ := goodB y hy
    split
    · rename_i is
      obtain ⟨inside, forwards, long, same⟩ := arriving is
      refine ⟨fun isWhole => ?_, fun _ => ⟨inside, forwards, ?_, ?_⟩⟩
      · rw [is] at isWhole; cases isWhole
      · simp only [List.length_append]; omega
      · simp [same]
    · exact ⟨whole, fun is => absurd is (by assumption)⟩

/-- A forwarded frame takes a place in the other port's list with its header (R18). -/
theorem PairGood.forward {a b : Port} (h : PairGood a b) (up : b.link = .up) (room : b.list.length < listPlaces)
    (inside : a.rx.framing = .inFrame) (forwards : a.rx.treatment.elim false Treatment.forwards = true)
    (long : 5 ≤ a.rx.bytes.length) : PairGood a (b.append { bytes := a.rx.bytes, status := .arriving }) := by
  obtain ⟨safeA, setA, safeB, setB, goodA, goodB⟩ := h
  refine ⟨safeA, setA, ⟨?_, fun notUp => absurd up notUp, by simp [Port.append]⟩, setB, goodA, ?_⟩
  · rw [Port.append, List.length_append]; exact Nat.succ_le_of_lt room
  · intro e he
    rcases List.mem_append.mp he with old | new
    · exact goodB e old
    · obtain rfl := List.mem_singleton.mp new
      exact ⟨by simp, fun _ => ⟨inside, forwards, long, rfl⟩⟩

/-! ## Link states and counts -/

/-- A polarity flip (R4), whatever the inverted-idle run is. -/
theorem PairGood.flip {a b : Port} (h : PairGood a b) : PairGood (flipPolarity a) b := by
  obtain ⟨safeA, ⟨_, clean, loss, window⟩, rest⟩ := h
  exact ⟨safeA, ⟨fun _ => Nat.zero_lt_succ 7, fun training => by simp [flipPolarity, show a.link = .training from training],
    loss, window⟩, rest⟩

/-- What a flip that is due leaves as it was, and that no run of 8 is left outside UP (R4). -/
theorem flipIfDue_spec (q : Port) (r : Port) (h : r = if flipDue q then flipPolarity q else q) :
    r.link = q.link ∧ r.list = q.list ∧ r.sending = q.sending ∧ r.rx = q.rx ∧ r.lossCount = q.lossCount ∧
      r.violations = q.violations ∧ (q.link ≠ .up → r.invertedRun < 8) := by
  subst h
  split
  · exact ⟨rfl, rfl, rfl, rfl, rfl, rfl, fun _ => Nat.zero_lt_succ 7⟩
  · rename_i notDue
    refine ⟨rfl, rfl, rfl, rfl, rfl, rfl, fun notUp => ?_⟩
    simpa [flipDue, notUp] using notDue

/-- Entry to UP from a link state other than UP (R3), whatever the counts are. -/
theorem PairGood.up {a b : Port} (h : PairGood a b) (notUp : a.link ≠ .up) (a' : Port) : PairGood (goUp a') b := by
  obtain ⟨⟨_, down, _⟩, _, safeB, setB, _, goodB⟩ := h
  refine ⟨⟨by simp [goUp], by simp [goUp], by simp [goUp]⟩, ⟨by simp [goUp], by simp [goUp], by simp [goUp], by simp [goUp]⟩,
    safeB, setB, .nil _, goodB.anyReceiver (goodB.noneArriving fun inside => (down notUp).2.2 inside.1) _⟩

/-- New counts that stand below their limits; nothing of the list, the transmitter's progress or the frame is changed. -/
theorem PairGood.recount {a a' b : Port} (h : PairGood a b) (settled : PortSettled a') (link : a'.link ≠ .up → a.link ≠ .up)
    (list : a'.list = a.list := by rfl) (sending : a'.sending = a.sending := by rfl) (rx : a'.rx = a.rx := by rfl) :
    PairGood a' b := by
  obtain ⟨⟨room, down, sent⟩, _, safeB, setB, goodA, goodB⟩ := h
  refine ⟨⟨?_, fun notUp => ?_, ?_⟩, settled, safeB, setB, ?_, ?_⟩
  · rwa [list]
  · rw [list, sending, rx]; exact down (link notUp)
  · rwa [list, sending]
  · rwa [list]
  · rwa [rx]

/-- A symbol time of a receiver in DOWN (R2, R4). -/
theorem PairGood.receiveDown {a b : Port} (h : PairGood a b) (down : a.link = .down) (sym : LineSymbol) :
    PairGood (receiveDown sym a) b := by
  have notUp : a.link ≠ .up := by simp [down]
  unfold Machine.receiveDown
  dsimp only
  split
  · rename_i idle
    subst idle
    exact h.recount ⟨fun _ => by simp [invertedAfter], by simp, by simp, by simp⟩ fun _ => notUp
  · generalize flipped : (if flipDue { a with invertedRun := invertedAfter a.invertedRun sym } then _ else _ : Port) = q
    obtain ⟨link, list, sending, rx, -, -, run⟩ := flipIfDue_spec _ q flipped.symm
    have stays : q.link = .down := link.trans down
    exact h.recount ⟨fun _ => run notUp, by simp [stays], by simp [stays], by simp [stays]⟩ (fun _ => notUp) list sending rx

/-- A symbol time of a receiver in TRAINING that does not bring the loss of signal (R3, R4, R6). -/
theorem PairGood.receiveTraining {a b : Port} (h : PairGood a b) (training : a.link = .training) (sym : LineSymbol)
    (heard : ¬lossDue (receiveTraining sym a) = true) : PairGood (receiveTraining sym a) b := by
  have notUp : a.link ≠ .up := by simp [training]
  unfold Machine.receiveTraining at heard ⊢
  dsimp only at heard ⊢
  generalize flipped : (if flipDue { a with
      invertedRun := invertedAfter a.invertedRun sym, cleanCount := cleanAfter a.cleanCount sym,
      lossCount := lossAfter a.lossCount sym } then _ else _ : Port) = q at heard ⊢
  obtain ⟨link, list, sending, rx, -, -, run⟩ := flipIfDue_spec _ q flipped.symm
  have stays : q.link = .training := link.trans training
  split at heard
  · rename_i due
    rw [if_pos due]
    exact h.up notUp q
  · rename_i notDue
    rw [if_neg notDue]
    refine h.recount ⟨fun _ => run notUp, fun _ => ?_, fun _ => ?_, ?_⟩ (fun _ => notUp) list sending rx
    · simpa [linkUpDue, stays] using notDue
    · simpa [lossDue, stays] using heard
    · simp [stays]

/-- A symbol time of a receiver in UP that does not take it DOWN (R5, R6). -/
theorem PairGood.countUp {a b : Port} (h : PairGood a b) (up : a.link = .up) (sym : LineSymbol)
    (stays : ¬(windowFull (countUp sym a) || lossDue (countUp sym a)) = true) : PairGood (countUp sym a) b := by
  have link : (Machine.countUp sym a).link = .up := up
  simp only [windowFull, lossDue, link, Bool.or_eq_true, Bool.and_eq_true, not_or] at stays
  refine h.recount ⟨absurd link, ?_, fun _ => ?_, fun _ => ?_⟩ (absurd link)
  · simp [link]
  · simpa using stays.2
  · simpa using stays.1

/-! ## The transmitter -/

/-- A frame being sent is cut off (R8). -/
theorem PairGood.cutOff {a b : Port} (h : PairGood a b) : PairGood (cutOff a) b := by
  obtain ⟨⟨room, down, _⟩, rest⟩ := h
  exact ⟨⟨room, fun notUp => ⟨(down notUp).1, rfl, (down notUp).2.2⟩, by simp [Machine.cutOff]⟩, rest⟩

/-- The head entry leaves the list (R16). -/
theorem PairGood.leave {a b : Port} (h : PairGood a b) (sym : LineSymbol) : PairGood (leaveHead sym a) b := by
  obtain ⟨⟨room, down, _⟩, setA, safeB, setB, goodA, goodB⟩ := h
  refine ⟨⟨?_, fun notUp => ?_, by simp [leaveHead]⟩, setA, safeB, setB, fun e he => goodA e (List.mem_of_mem_drop he), goodB⟩
  · rw [leaveHead, List.length_drop]; omega
  · obtain ⟨empty, _, outside⟩ := down notUp
    exact ⟨by simp [leaveHead, empty], rfl, outside⟩

/-- One symbol time of a transmitter (R17). -/
theorem PairGood.send {a b : Port} (h : PairGood a b) (running : Bool) : PairGood (sendSymbol running a) b := by
  have starts : ∀ k sym, a.list ≠ [] → a.link = .up → PairGood { a with sending := some k, lastSent := sym } b := by
    intro k sym full up
    obtain ⟨⟨room, _, _⟩, rest⟩ := h
    exact ⟨⟨room, fun notUp => absurd up notUp, fun _ => full⟩, rest⟩
  unfold sendSymbol
  split
  · exact h
  · split
    · exact h
    · rename_i on
      have up : a.link = .up := by by_contra notUp; exact on (.inr (.inl notUp))
      split
      · exact h
      · rename_i e rest full
        have nonEmpty : a.list ≠ [] := by simp [full]
        split
        · exact starts 0 _ nonEmpty up
        · rename_i k _
          split
          · exact h.leave _
          · split
            · exact starts (k + 1) _ nonEmpty up
            · split
              · exact h.leave _
              · exact h

end Sys2Proof.Machine
end

