-- ==== Sys2Proof/Proofs/FramesManagement.lean ====
section
/-! PROOFS. Every operation of management keeps the link's promise: the results fit in the reply, so the reply is a good
frame, and it joins only a list that has a place (R159 to R162). -/

namespace Sys2Proof.Machine

-- One theorem after another: side by side, so many small ones need more threads than the memory limit admits.
set_option Elab.async false

/-! ## The promise in two parts -/

/-- What management promises of the phase it is in (R149, R161, R162). -/
def PhaseSafe (s : State) : Prop :=
  match s.mgmt.phase with
  | .reading c => ChainSafe c
  | .checking c _ _ => s.mgmt.requests ≠ [] ∧ s.staging.writable.isSome ∧ c.results.length + 9 ≤ chainRoom
  | .held reply _ => s.mgmt.requests ≠ [] ∧ goodAtEnd reply = true

theorem framesSafe_iff (s : State) : FramesSafe s ↔ PortsGood s ∧ s.mgmt.requests.length ≤ 2 ∧ PhaseSafe s := by
  constructor
  · rintro ⟨⟨safeA, safeB, setA, setB⟩, ⟨trace, two, phase⟩, goodA, goodB⟩
    exact ⟨⟨⟨safeA, setA, safeB, setB, goodA, goodB⟩, trace⟩, two, phase⟩
  · rintro ⟨⟨⟨safeA, setA, safeB, setB, goodA, goodB⟩, trace⟩, two, phase⟩
    exact ⟨⟨safeA, safeB, setA, setB⟩, ⟨trace, two, phase⟩, goodA, goodB⟩

theorem FramesSafe.ports {s : State} (h : FramesSafe s) : PortsGood s := ((framesSafe_iff s).mp h).1

theorem FramesSafe.twoRequests {s : State} (h : FramesSafe s) : s.mgmt.requests.length ≤ 2 := ((framesSafe_iff s).mp h).2.1

theorem FramesSafe.phase {s : State} (h : FramesSafe s) : PhaseSafe s := ((framesSafe_iff s).mp h).2.2

/-- An operation that leaves management and the STAGING bank as they were has to keep the ports' promise alone. -/
theorem FramesSafe.of_ports {s t : State} (h : FramesSafe s) (ports : PortsGood t) (mgmt : t.mgmt = s.mgmt := by simp)
    (staging : t.staging = s.staging := by simp) : FramesSafe t := by
  refine (framesSafe_iff t).mpr ⟨ports, mgmt ▸ h.twoRequests, ?_⟩
  have phase := h.phase
  unfold PhaseSafe at phase ⊢
  rwa [mgmt, staging]

/-- Management going on to read a chain that fits. -/
theorem FramesSafe.reading {s : State} (ports : PortsGood s) (two : s.mgmt.requests.length ≤ 2) {c : Chain}
    (phase : s.mgmt.phase = .reading c) (fit : ChainSafe c) : FramesSafe s :=
  (framesSafe_iff s).mpr ⟨ports, two, by simpa only [PhaseSafe, phase] using fit⟩

/-! ## The held reply (R162) -/

/-- The head request leaves the queue. -/
theorem PortsGood.dropHead {s : State} (h : PortsGood s) (two : s.mgmt.requests.length ≤ 2) : FramesSafe (dropHead s) :=
  .reading (s := Machine.dropHead s) h.of_same
    (by simp only [Machine.dropHead, State.modMgmt_mgmt, List.length_drop]; omega) rfl (Nat.zero_le _)

/-- A warm restart (R169). -/
theorem PortsGood.warmRestart {s : State} (h : PortsGood s) : FramesSafe (warmRestart s) := by
  obtain ⟨pair, -, -, low, high, count, divider, pacing⟩ := h
  have trace : TraceSafe (Machine.warmRestart s) :=
    ⟨Nat.zero_le _, fun _ hb => absurd hb List.not_mem_nil, low, high, Nat.zero_lt_of_lt count, divider, pacing⟩
  exact .reading (s := Machine.warmRestart s) ⟨by simpa using pair, trace⟩ (Nat.zero_le _) rfl (Nat.zero_le _)

/-- The held reply is offered (R162, R169). -/
theorem FramesSafe.offerHeld {s : State} (h : FramesSafe s) : FramesSafe (offerHeld s) := by
  unfold Machine.offerHeld
  split
  · rename_i reply restart r rest held requests
    have good : goodAtEnd reply = true := by
      have phase := h.phase
      rw [PhaseSafe, held] at phase
      exact phase.2
    have gone : ∀ t : State, PortsGood t → t.mgmt = s.mgmt →
        FramesSafe (if restart then Machine.warmRestart (Machine.dropHead t) else Machine.dropHead t) := by
      intro t ports same
      have dropped := ports.dropHead (same ▸ h.twoRequests)
      split
      · exact dropped.ports.warmRestart
      · exact dropped
    split
    · exact h
    · exact gone _ (h.ports.offer r.port good) (by simp)
    · exact gone s h.ports rfl
  · exact h

/-- The reply to a chain whose results fit is a good frame (R161, R162). -/
theorem goodAtEnd_replyFrame (station : Byte) (r : Request) (final : Status) (restart busy : Bool) {c : Chain}
    (fit : c.results.length ≤ 116) : goodAtEnd (replyFrame station r final restart busy c) = true :=
  goodAtEnd_frameOf _ _ _ _ _ (by simp only [List.length_append, List.length_cons, List.length_nil]; omega)

/-- A reply is built and held: what it was built from fits. -/
theorem PortsGood.holdReply {s : State} (h : PortsGood s) (two : s.mgmt.requests.length ≤ 2)
    (nonEmpty : s.mgmt.requests ≠ []) (final : Status) (restart : Bool) {c : Chain} (fit : c.results.length ≤ 116) :
    FramesSafe (holdReply final restart c s) := by
  unfold Machine.holdReply
  split
  · exact absurd (by assumption) nonEmpty
  · exact (framesSafe_iff _).mpr ⟨h.of_same, two, nonEmpty, goodAtEnd_replyFrame _ _ _ _ _ fit⟩

/-- The chain ends (R162). -/
theorem PortsGood.endChain {s : State} (h : PortsGood s) (two : s.mgmt.requests.length ≤ 2)
    (nonEmpty : s.mgmt.requests ≠ []) (final : Status) {c : Chain} (fit : c.results.length ≤ 116) :
    FramesSafe (endChain final c s) :=
  (h.holdReply two nonEmpty final false fit).offerHeld

/-! ## Offers (R21) -/

theorem FramesSafe.attemptNotice {s : State} (h : FramesSafe s) : FramesSafe (attemptNotice s) :=
  h.of_ports h.ports.attemptNotice

theorem FramesSafe.makeOffer {s : State} (h : FramesSafe s) (p : PortId) (o : Offer) : FramesSafe (makeOffer p o s) := by
  cases o
  · unfold Machine.makeOffer
    dsimp only
    split
    · exact h.offerHeld
    · exact h
  · exact h.attemptNotice

theorem FramesSafe.makeOffers {s : State} (h : FramesSafe s) (p : PortId) (offers : List Offer) :
    FramesSafe (makeOffers p offers s) := by
  unfold Machine.makeOffers
  induction offers generalizing s with
  | nil => exact h
  | cons o offers ih => exact ih (h.makeOffer p o)

/-- What a port owes is no part of the promise. -/
theorem FramesSafe.owe {s : State} (h : FramesSafe s) (p : PortId) (offers : List Offer) : FramesSafe (s.owe p offers) := by
  refine h.of_ports ((portsGood_iff p _).mpr ?_)
  obtain ⟨pair, trace⟩ := (portsGood_iff p s).mp h.ports
  refine ⟨?_, by simpa [TraceSafe] using trace⟩
  rw [State.owe, State.modPort_port, State.modPort_port_other]
  exact pair

theorem FramesSafe.settleOffers {s : State} (h : FramesSafe s) (p : PortId) : FramesSafe (settleOffers p s) := by
  obtain ⟨nothing, notUp, up⟩ := settleOffers_offers p s
  by_cases none : waitingOffers p s = []
  · rwa [nothing none]
  · by_cases isUp : (s.port p).link = .up
    · obtain ⟨atOnce, later, -, same⟩ := up isUp none
      rw [same]
      exact (FramesSafe.owe (s := { s with choices := s.choices + 2 }) h p later).makeOffers p atOnce
    · rw [notUp isUp]
      exact h.makeOffers p _

theorem FramesSafe.offerOwed {s : State} (h : FramesSafe s) (p : PortId) : FramesSafe (offerOwed p s) :=
  (h.owe p []).makeOffers p _

theorem FramesSafe.settleIfLeft {s : State} (h : FramesSafe s) (p : PortId) (before : State) :
    FramesSafe (settleIfLeft p before s) := by
  unfold Machine.settleIfLeft
  split
  · exact h.settleOffers p
  · exact h

/-! ## Taking a request (R158) -/

theorem FramesSafe.takeRequest {s : State} (h : FramesSafe s) (p : PortId) (source : Byte) (payload : List Byte) :
    FramesSafe (takeRequest p source payload s) := by
  unfold Machine.takeRequest
  dsimp only
  split
  · rename_i place
    refine (framesSafe_iff _).mpr ⟨h.ports.of_same, ?_, ?_⟩
    · rw [State.modMgmt_mgmt, List.length_append]; exact Nat.succ_le_of_lt place
    · have phase := h.phase
      unfold PhaseSafe at phase ⊢
      simp only [State.modMgmt_mgmt, State.modMgmt_keeps]
      split <;> simp_all
  · exact h.of_ports (h.ports.offer p (goodAtEnd_replyFrame _ _ _ _ _ (Nat.zero_le _)))

/-! ## Operations (R160, R161) -/

/-- The result of an operation leaves the chain's results within the reply (R161). -/
def OpFits (c : Chain) (x : State × OpResult) : Prop :=
  match x.2 with
  | .checking => x.1.staging.writable.isSome ∧ c.results.length + 9 ≤ chainRoom
  | .restarts => c.results.length + 3 ≤ 116
  | .gives status data => c.results.length + 3 + data.length ≤ if status = .ok then chainRoom else 116

/-- What an operation promises: the ports stay good, management is left alone, and the result fits. -/
def OpGood (s : State) (c : Chain) (x : State × OpResult) : Prop := PortsGood x.1 ∧ x.1.mgmt = s.mgmt ∧ OpFits c x

/-- An error has no data, and fits behind a chain that fits. -/
theorem OpGood.refuse {s : State} {c : Chain} (h : PortsGood s) (fit : ChainSafe c) {status : Status}
    (error : status ≠ .ok) : OpGood s c (refuse status s) := by
  refine ⟨h, rfl, ?_⟩
  unfold ChainSafe chainRoom at fit
  simp only [OpFits, Machine.refuse, error, if_false, List.length_nil]
  omega

theorem fits_iff (length free : Nat) : fits length free = true ↔ 3 + length + 3 ≤ free := decide_eq_true_iff

/-- An OK result is given only when its data fits. -/
theorem OpGood.performIf {s t : State} {c : Chain} (h : PortsGood s) (fit : ChainSafe c) (ports : PortsGood t)
    {data : List Byte} {n : Nat} (length : data.length ≤ n := by simp [bytes16, bytes32]) (mgmt : t.mgmt = s.mgmt := by simp) :
    OpGood s c (performIf c.free n (t, .gives .ok data) s) := by
  unfold Machine.performIf
  split
  · rename_i room
    refine ⟨ports, mgmt, ?_⟩
    rw [fits_iff, Chain.free] at room
    simp only [OpFits, chainRoom, if_true]
    omega
  · exact .refuse h fit (by decide)

theorem OpGood.opTest {s : State} {c : Chain} (h : PortsGood s) (fit : ChainSafe c) (operands : List Byte) :
    OpGood s c (opTest operands c.free s) := by
  unfold Machine.opTest
  split
  · exact .refuse h fit (by decide)
  · exact .performIf h fit h

theorem OpGood.opReadIdentity {s : State} {c : Chain} (h : PortsGood s) (fit : ChainSafe c) (operands : List Byte) :
    OpGood s c (opReadIdentity operands c.free s) := .performIf h fit h (by simp [identityRecord])

theorem length_bytes16 (x : BitVec 16) : (bytes16 x).length = 2 := rfl

theorem length_bytes32 (x : BitVec 32) : (bytes32 x).length = 4 := rfl

theorem length_send16 (n : Nat) : (send16 n).length = 2 := rfl

theorem length_sendSigned16 (n : Int) : (sendSigned16 n).length = 2 := rfl

theorem length_send32 (n : Nat) : (send32 n).length = 4 := rfl

theorem length_portStatus (p : Port) : (portStatus p).length = 2 := rfl

/-- The status record has 41 bytes (R174). -/
theorem length_statusRecord (seq : BitVec 16) (s : State) : (statusRecord seq s).length = 41 := by
  unfold statusRecord
  simp only [List.length_append, length_bytes16, length_bytes32, length_send16, length_sendSigned16, length_send32,
    length_portStatus, List.length_cons, List.length_nil]

theorem OpGood.opReadStatus {s : State} {c : Chain} (h : PortsGood s) (fit : ChainSafe c) (operands : List Byte) :
    OpGood s c (opReadStatus operands c.free s) := by
  unfold Machine.opReadStatus
  split
  · exact .performIf h fit h (length_statusRecord _ _).le
  · exact .performIf h fit h.of_same (length_statusRecord _ _).le

theorem OpGood.opReadMeasurands {s : State} {c : Chain} (h : PortsGood s) (fit : ChainSafe c) (operands : List Byte) :
    OpGood s c (opReadMeasurands operands c.free s) :=
  .performIf h fit h (show (measurandsRecord s.intake).length = 54 from rfl).le

theorem length_tallyRecord_le (first count : Nat) (t : Tally) : (tallyRecord first count t).length ≤ 6 + 14 * count := by
  have each : ∀ l : List AssortmentTally, (l.flatMap assortmentBytes).length = 14 * l.length := by
    intro l
    induction l with
    | nil => rfl
    | cons a l ih =>
      rw [List.flatMap_cons, List.length_append, ih, List.length_cons, show (assortmentBytes a).length = 14 from rfl]
      omega
  have taken := List.length_take_le count (t.assortments.toList.drop first)
  simp only [tallyRecord, List.length_append, each, List.length_cons, List.length_nil, send32, bytes32]
  omega

theorem OpGood.opReadTally {s : State} {c : Chain} (h : PortsGood s) (fit : ChainSafe c) (operands : List Byte) :
    OpGood s c (opReadTally operands c.free s) := by
  unfold Machine.opReadTally
  dsimp only
  split
  · exact .performIf h fit h (length_tallyRecord_le _ _ _)
  · exact .refuse h fit (by decide)

theorem length_recordsThatFit_le (space : Nat) (records : List LiftRecord) :
    (recordsThatFit space records).length ≤ space := by
  induction records generalizing space with
  | nil => exact Nat.zero_le _
  | cons r rest ih =>
    unfold recordsThatFit
    dsimp only
    split
    · have := ih (space - (recordBytes r).length)
      rw [List.length_append]
      omega
    · exact Nat.zero_le _

theorem OpGood.opPeekLifts {s : State} {c : Chain} (h : PortsGood s) (fit : ChainSafe c) (operands : List Byte) :
    OpGood s c (opPeekLifts operands c.free s) := by
  unfold ChainSafe chainRoom at fit
  unfold Machine.opPeekLifts
  dsimp only
  split
  · split
    · rename_i room
      rw [fits_iff, Chain.free] at room
      refine ⟨h, rfl, ?_⟩
      simp only [OpFits, chainRoom, if_true]
      omega
    · refine ⟨h, rfl, ?_⟩
      have short := length_recordsThatFit_le (c.free - 3) (s.queue.records.take (byteAt operands 0).toNat)
      simp only [OpFits, reduceCtorEq, if_false, Chain.free] at short ⊢
      omega
  · exact .refuse h fit (by decide)

theorem OpGood.opDropLifts {s : State} {c : Chain} (h : PortsGood s) (fit : ChainSafe c) (operands : List Byte) :
    OpGood s c (opDropLifts operands c.free s) := by
  unfold Machine.opDropLifts
  split
  · exact .refuse h fit (by decide)
  · exact .performIf h fit h.of_same

theorem OpGood.opClearBunk {s : State} {c : Chain} (h : PortsGood s) (fit : ChainSafe c) (operands : List Byte) :
    OpGood s c (opClearBunk operands c.free s) := .performIf h fit h.clearBunk

theorem OpGood.opClearConditions {s : State} {c : Chain} (h : PortsGood s) (fit : ChainSafe c) (operands : List Byte) :
    OpGood s c (opClearConditions operands c.free s) := .performIf h fit h.of_same

theorem OpGood.opOpenStaging {s : State} {c : Chain} (h : PortsGood s) (fit : ChainSafe c) (operands : List Byte) :
    OpGood s c (opOpenStaging operands c.free s) := .performIf h fit h.of_same

theorem OpGood.opWriteEntry {s : State} {c : Chain} (h : PortsGood s) (fit : ChainSafe c) (operands : List Byte) :
    OpGood s c (opWriteEntry operands c.free s) := by
  unfold Machine.opWriteEntry
  dsimp only
  split
  · exact .refuse h fit (by decide)
  · split
    · exact .refuse h fit (by decide)
    · split
      · exact .refuse h fit (by decide)
      · exact .performIf h fit h.of_same

/-- A record read from a table set has its target's length (R174). -/
theorem TableSet.length_of_read {target : Target} {i : Nat} {t : TableSet} {r : List Byte}
    (h : TableSet.read target i t = some r) : r.length = target.recordLength := by
  have row : ∀ e : CapacityRow, (rowBytes e).length = 18 := by
    intro e
    rw [rowBytes, List.length_flatMap, List.map_congr_left (fun x _ => show (bytes16 x).length = 2 from rfl)]
    simp
  cases target
  case sectorHeader => cases h; rfl
  case capacityHeader => cases h; rfl
  case machineRecord => cases h; rfl
  case capacityRow => obtain ⟨e, -, rfl⟩ := Option.map_eq_some_iff.mp h; exact row e
  all_goals obtain ⟨e, -, rfl⟩ := Option.map_eq_some_iff.mp h; rfl

theorem OpGood.opReadEntry {s : State} {c : Chain} (h : PortsGood s) (fit : ChainSafe c) (operands : List Byte) :
    OpGood s c (opReadEntry operands c.free s) := by
  unfold Machine.opReadEntry
  dsimp only
  split
  · exact .refuse h fit (by decide)
  · split
    · split
      · exact .refuse h fit (by decide)
      · rename_i found
        obtain ⟨t, -, read⟩ := Option.bind_eq_some_iff.mp found
        exact .performIf h fit h (TableSet.length_of_read read).le
    · exact .refuse h fit (by decide)

theorem OpGood.opCheckStaging {s : State} {c : Chain} (h : PortsGood s) (fit : ChainSafe c) (operands : List Byte) :
    OpGood s c (opCheckStaging operands c.free s) := by
  have started : s.staging.writable.isSome → OpGood s c (Machine.performIf c.free 6 (s, .checking) s) := by
    intro writable
    unfold Machine.performIf
    split
    · rename_i room
      refine ⟨h, rfl, writable, ?_⟩
      rw [fits_iff, Chain.free] at room
      unfold chainRoom
      omega
    · exact .refuse h fit (by decide)
  unfold Machine.opCheckStaging
  split
  · exact .refuse h fit (by decide)
  · exact .refuse h fit (by decide)
  all_goals rename_i bank; exact started (by simp [bank, Staging.writable])

theorem OpGood.opActivate {s : State} {c : Chain} (h : PortsGood s) (fit : ChainSafe c) (operands : List Byte) :
    OpGood s c (opActivate operands c.free s) := by
  unfold Machine.opActivate
  split
  · exact .refuse h fit (by decide)
  · split
    · exact .refuse h fit (by decide)
    · exact .performIf h fit (h.activateSet _)

/-! ### Trace capture (R168) -/

theorem length_elementTypes {tags : List Byte} {types : List ElementType} (h : elementTypes tags = some types) :
    types.length = tags.length := by
  induction tags generalizing types with
  | nil => cases h; rfl
  | cons tag rest ih =>
    unfold elementTypes at h
    split at h
    · rename_i found
      cases h
      simp [ih found]
    · cases h

theorem guard_eq_some {p : Prop} [Decidable p] {u : Unit} : (guard p : Option Unit) = some u ↔ p := by
  unfold guard
  split <;> simp_all

/-- A configuration record that passes its checks lies in its ranges (R176). -/
theorem traceConfigOfBytes_ranges {r : List Byte} {c : TraceConfig} (long : r.length = 18)
    (h : traceConfigOfBytes r = some c) :
    1 ≤ c.block.length ∧ c.block.length ≤ 6 ∧ 0 < c.divider ∧ c.divider ≤ 255 ∧
      1 ≤ c.pacing.interval ∧ c.pacing.interval ≤ 4096 := by
  simp only [traceConfigOfBytes, Option.bind_eq_bind, Option.bind_eq_some_iff, Option.pure_def,
    Option.some.injEq] at h
  obtain ⟨_, _, _, divider, _, length, block, types, _, _, _, interval, _, _, _, _, rfl⟩ := h
  rw [guard_eq_some] at divider length interval
  have same := length_elementTypes types
  rw [List.length_take, List.length_drop] at same
  have := (byteAt r 1).isLt
  dsimp only
  omega

theorem PortsGood.withTrace {s : State} (h : PortsGood s) {t : Trace} (trace : TraceSafe { s with trace := t }) :
    PortsGood { s with trace := t } := ⟨h.1, trace⟩

theorem OpGood.traceResult {s t : State} {c : Chain} (h : PortsGood s) (fit : ChainSafe c) (ports : PortsGood t)
    (mgmt : t.mgmt = s.mgmt := by simp) : OpGood s c (traceResult c.free t s) :=
  .performIf h fit ports (by simp) mgmt

theorem PortsGood.traceEnable {s : State} (h : PortsGood s) : PortsGood (traceEnable s) := by
  obtain ⟨room, whole, low, high, count, divider, pacing⟩ := h.2
  unfold Machine.traceEnable
  split
  · exact h.withTrace ⟨room, whole, low, high, Nat.zero_lt_of_lt count, divider, pacing⟩
  · exact h
  · exact h

theorem PortsGood.traceFlush {s : State} (h : PortsGood s) : PortsGood (traceFlush s) := by
  obtain ⟨-, -, low, high, count, divider, pacing⟩ := h.2
  exact h.withTrace ⟨Nat.zero_le _, fun _ hb => absurd hb List.not_mem_nil, low, high, Nat.zero_lt_of_lt count, divider, pacing⟩

theorem OpGood.opTraceConfigure {s : State} {c : Chain} (h : PortsGood s) (fit : ChainSafe c) (operands : List Byte) :
    OpGood s c (opTraceConfigure operands c.free s) := by
  unfold Machine.opTraceConfigure
  split
  · exact .refuse h fit (by decide)
  · rename_i long
    split
    · exact .refuse h fit (by decide)
    · split
      · exact .refuse h fit (by decide)
      · rename_i config found
        obtain ⟨low, high, positive, divider, pacing⟩ :=
          traceConfigOfBytes_ranges (by rw [List.length_drop]; omega) found
        refine .traceResult h fit (PortsGood.withTrace (s := { s with slew := { s.slew with lastPace := none } }) h ?_)
        exact ⟨Nat.zero_le _, fun _ hb => absurd hb List.not_mem_nil, low, high, positive, divider, pacing⟩

theorem OpGood.opTraceEnable {s : State} {c : Chain} (h : PortsGood s) (fit : ChainSafe c) (operands : List Byte) :
    OpGood s c (opTraceEnable operands c.free s) := by
  unfold Machine.opTraceEnable
  split
  · exact .refuse h fit (by decide)
  · exact .traceResult h fit h.traceEnable

theorem OpGood.opTraceDisable {s : State} {c : Chain} (h : PortsGood s) (fit : ChainSafe c) (operands : List Byte) :
    OpGood s c (opTraceDisable operands c.free s) := by
  unfold Machine.opTraceDisable
  split
  · exact .refuse h fit (by decide)
  · exact .traceResult h fit (t := Machine.traceDisable s) h

theorem OpGood.opTraceFlush {s : State} {c : Chain} (h : PortsGood s) (fit : ChainSafe c) (operands : List Byte) :
    OpGood s c (opTraceFlush operands c.free s) := by
  unfold Machine.opTraceFlush
  split
  · exact .refuse h fit (by decide)
  · exact .traceResult h fit h.traceFlush

theorem OpGood.opTraceControl {s : State} {c : Chain} (h : PortsGood s) (fit : ChainSafe c) (operands : List Byte) :
    OpGood s c (opTraceControl operands c.free s) := by
  unfold Machine.opTraceControl
  split
  · exact .opTraceConfigure h fit operands
  · exact .opTraceEnable h fit operands
  · exact .opTraceDisable h fit operands
  · exact .opTraceFlush h fit operands
  · exact .refuse h fit (by decide)

/-- The blocks taken and the rest make up the buffer, and those taken hold no more than the maximum (R180). -/
theorem takeBlocks_spec (max : Nat) (blocks : List (List TraceElement)) :
    (takeBlocks max blocks).1 ++ (takeBlocks max blocks).2 = blocks ∧ elementsOf (takeBlocks max blocks).1 ≤ max := by
  induction blocks generalizing max with
  | nil => simp [takeBlocks, elementsOf]
  | cons blk rest ih =>
    obtain ⟨whole, short⟩ := ih (max - blk.length)
    unfold takeBlocks
    split
    · refine ⟨by simpa using whole, ?_⟩
      simp only [elementsOf, List.map_cons, List.sum_cons] at short ⊢
      omega
    · simp [elementsOf]

theorem length_elements (l : List TraceElement) : (l.flatMap elementBytes).length = 5 * l.length := by
  induction l with
  | nil => rfl
  | cons e l ih =>
    rw [List.flatMap_cons, List.length_append, ih, List.length_cons, show (elementBytes e).length = 5 from rfl]
    omega

theorem PortsGood.traceRead {s : State} (h : PortsGood s) (max : Nat) : PortsGood (traceRead max s).2 := by
  obtain ⟨room, whole, config⟩ := h.2
  obtain ⟨parts, -⟩ := takeBlocks_spec max s.trace.buffer
  refine h.withTrace ⟨?_, fun b hb => whole b ?_, config⟩
  · rw [← parts, elementsOf_append] at room
    exact (Nat.le_add_left _ _).trans room
  · rw [← parts]; exact List.mem_append_right _ hb

theorem OpGood.opTraceRead {s : State} {c : Chain} (h : PortsGood s) (fit : ChainSafe c) (operands : List Byte) :
    OpGood s c (opTraceRead operands c.free s) := by
  unfold Machine.opTraceRead
  dsimp only
  split
  · split
    · exact .performIf h fit h
    · rename_i oldest rest buffer
      split
      · exact .refuse h fit (by decide)
      · rename_i room
        refine ⟨h.traceRead _, by simp, ?_⟩
        have ⟨_, _, whole, atLeastOne, _⟩ := h
        have block : 1 ≤ oldest.length := by
          rw [whole oldest (by rw [buffer]; exact List.mem_cons_self)]
          exact atLeastOne
        have short := (takeBlocks_spec (loweredMaximum (byteAt operands 0).toNat c.free) s.trace.buffer).2
        simp only [OpFits, Machine.traceRead, if_true, List.length_cons, length_elements, List.length_flatten]
        unfold loweredMaximum elementsOf Chain.free at *
        unfold ChainSafe chainRoom at *
        omega
  · exact .refuse h fit (by decide)

theorem OpGood.opWarmRestart {s : State} {c : Chain} (h : PortsGood s) (fit : ChainSafe c) (operands : List Byte) :
    OpGood s c (opWarmRestart operands c.free s) := by
  unfold Machine.opWarmRestart Machine.performIf
  split
  · refine ⟨h, rfl, ?_⟩
    unfold ChainSafe chainRoom at fit
    simp only [OpFits]
    omega
  · exact .refuse h fit (by decide)

end Sys2Proof.Machine
end

