-- ==== Sys2Proof/Proofs/FramesChain.lean ====
section
/-! PROOFS. Performing a chain keeps the link's promise (R159 to R163). -/

namespace Sys2Proof.Machine

-- One theorem after another: side by side, so many small ones need more threads than the memory limit admits.
set_option Elab.async false

/-- Management reads a chain that fits, of a request it has. -/
def ReadsChain (s : State) (c : Chain) : Prop :=
  FramesSafe s ∧ s.mgmt.requests ≠ [] ∧ s.mgmt.phase = .reading c ∧ ChainSafe c

/-- A chain that goes on fits (R159). -/
theorem PortsGood.readOn {s : State} (h : PortsGood s) (two : s.mgmt.requests.length ≤ 2) {c : Chain} (fit : ChainSafe c) :
    FramesSafe (s.modMgmt fun m => { m with phase := .reading c }) :=
  .reading (s := s.modMgmt _) h.of_same two rfl fit

theorem length_record (c : Chain) (code : Byte) (status : Status) (data : List Byte) :
    (c.record code status data).results.length = c.results.length + 3 + data.length := by
  simp [Chain.record]; omega

/-- A skipped operation (R163). -/
theorem PortsGood.skipNext {s : State} (h : PortsGood s) (two : s.mgmt.requests.length ≤ 2)
    (nonEmpty : s.mgmt.requests ≠ []) (payload : List Byte) {c : Chain} (fit : ChainSafe c) :
    FramesSafe (skipNext payload c s) := by
  unfold ChainSafe chainRoom at fit
  have shortRecord : ∀ code status, (c.record code status []).results.length ≤ 116 := by
    intro code status
    rw [length_record, List.length_nil]; omega
  unfold Machine.skipNext
  split
  · exact h.endChain two nonEmpty _ (shortRecord _ _)
  · split
    · rename_i room
      dsimp only
      split
      · refine h.readOn two ?_
        rw [fits_iff, Chain.free] at room
        unfold ChainSafe chainRoom
        dsimp only
        rw [length_record, List.length_nil]; omega
      · exact h.endChain two nonEmpty _ (shortRecord _ _)
    · exact h.endChain two nonEmpty _ (shortRecord _ _)

/-- What follows an operation (R159, R160): its result fits, so the chain goes on within the reply or ends in a good one. -/
theorem OpGood.concludeOp {s : State} {c : Chain} {x : State × OpResult} (h : OpGood s c x)
    (two : s.mgmt.requests.length ≤ 2) (nonEmpty : s.mgmt.requests ≠ []) (payload : List Byte) (code : Byte) (more : Bool)
    (next : Nat) : FramesSafe (concludeOp payload code more next c x) := by
  obtain ⟨t, result⟩ := x
  obtain ⟨ports, mgmt, fit⟩ := h
  dsimp only at ports mgmt
  rw [← mgmt] at two nonEmpty
  unfold Machine.concludeOp
  unfold OpFits at fit
  dsimp only at fit ⊢
  split
  · obtain ⟨writable, room⟩ := fit
    exact (framesSafe_iff _).mpr ⟨ports.of_same, two, nonEmpty, writable, room⟩
  · exact ports.holdReply two nonEmpty _ _ (by rw [length_record]; exact fit)
  · rename_i data
    replace fit : c.results.length + 3 + data.length ≤ chainRoom := by simpa using fit
    have safe : ChainSafe { c.record code .ok data with offset := next } := by
      unfold ChainSafe; dsimp only; rw [length_record]; exact fit
    split
    · split
      · exact ports.skipNext two nonEmpty _ safe
      · exact ports.readOn two safe
    · exact ports.endChain two nonEmpty _ (Nat.le_trans safe (by decide))
  · rename_i status data error
    replace fit : c.results.length + 3 + data.length ≤ 116 := by simpa [show status ≠ .ok from error] using fit
    exact ports.endChain two nonEmpty _ (by rw [length_record]; exact fit)

/-! ## The next operation -/

/-- What the next operation is taken from (R159). -/
theorem nextOp_some {s : State} {n : NextOp} (h : nextOp s = some n) :
    s.mgmt.phase = .reading n.chain ∧ s.mgmt.requests ≠ [] := by
  unfold nextOp at h
  split at h
  · rename_i c r rest phase requests
    split at h
    · cases h
      exact ⟨phase, by simp [requests]⟩
    · cases h
  · cases h

theorem FramesSafe.chainFits {s : State} (h : FramesSafe s) {c : Chain} (phase : s.mgmt.phase = .reading c) :
    ChainSafe c := by
  have safe := h.phase
  rwa [PhaseSafe, phase] at safe

/-- An operation that is good on every good state and chain. -/
def GoodPerform (perform : List Byte → Nat → State → State × OpResult) : Prop :=
  ∀ {s : State} {c : Chain}, PortsGood s → ChainSafe c → ∀ operands, OpGood s c (perform operands c.free s)

theorem OpGood.judged {perform : List Byte → Nat → State → State × OpResult} (good : GoodPerform perform) (code : Byte)
    {s : State} {c : Chain} (h : PortsGood s) (fit : ChainSafe c) (operands : List Byte) :
    OpGood s c (judged code perform operands c.free s) := by
  unfold Machine.judged
  split
  · exact good h fit operands
  · exact .refuse h fit (by decide)

/-- A row of one operation (R159). -/
theorem FramesSafe.performWanted {s : State} (h : FramesSafe s) {perform : List Byte → Nat → State → State × OpResult}
    (good : GoodPerform perform) (code : Byte) (wanted : List Byte → Bool) :
    FramesSafe (performWanted code wanted perform s) := by
  unfold Machine.performWanted
  split
  · exact h
  · rename_i n next
    obtain ⟨phase, nonEmpty⟩ := nextOp_some next
    split
    · exact h
    · split
      · exact (OpGood.judged good _ h.ports (h.chainFits phase) _).concludeOp h.twoRequests nonEmpty _ _ _ _
      · exact h

theorem FramesSafe.performCoded {s : State} (h : FramesSafe s) {perform : List Byte → Nat → State → State × OpResult}
    (good : GoodPerform perform) (code : Byte) : FramesSafe (performCoded code perform s) :=
  h.performWanted good code _

/-- An operation by its code (R159). -/
theorem OpGood.performCode {s : State} {c : Chain} (h : PortsGood s) (fit : ChainSafe c) (code : Byte)
    (operands : List Byte) : OpGood s c (performCode code operands c.free s) := by
  unfold Machine.performCode
  split
  · exact .judged .opTest _ h fit _
  · exact .judged .opReadIdentity _ h fit _
  · exact .judged .opReadStatus _ h fit _
  · exact .judged .opReadMeasurands _ h fit _
  · exact .judged .opReadTally _ h fit _
  · exact .judged .opPeekLifts _ h fit _
  · exact .judged .opDropLifts _ h fit _
  · exact .judged .opClearBunk _ h fit _
  · exact .judged .opClearConditions _ h fit _
  · exact .judged .opOpenStaging _ h fit _
  · exact .judged .opWriteEntry _ h fit _
  · exact .judged .opReadEntry _ h fit _
  · exact .judged .opCheckStaging _ h fit _
  · exact .judged .opActivate _ h fit _
  · exact .judged .opTraceControl _ h fit _
  · exact .judged .opTraceRead _ h fit _
  · exact .judged .opWarmRestart _ h fit _
  · exact .refuse h fit (by decide)

theorem FramesSafe.performNext {s : State} (h : FramesSafe s) : FramesSafe (performNext s) := by
  unfold Machine.performNext
  split
  · exact h
  · rename_i n next
    obtain ⟨phase, nonEmpty⟩ := nextOp_some next
    have fit := h.chainFits phase
    split
    · refine h.ports.endChain h.twoRequests nonEmpty _ ?_
      rw [length_record]
      exact Nat.add_le_add_right (Nat.add_le_add_right fit 3) 0
    · exact (OpGood.performCode h.ports fit _ _).concludeOp h.twoRequests nonEmpty _ _ _ _

theorem FramesSafe.runChain {s : State} (h : FramesSafe s) (fuel : Nat) : FramesSafe (runChain fuel s) := by
  induction fuel generalizing s with
  | zero => exact h
  | succ fuel ih =>
    unfold Machine.runChain
    dsimp only
    split
    · exact ih h.performNext
    · exact h.performNext

/-- PERFORM_REQUEST (R159). -/
theorem FramesSafe.performRequest {s : State} (h : FramesSafe s) : FramesSafe (performRequest s) := by
  unfold Machine.performRequest
  split
  · exact h.offerHeld
  · exact h
  · exact h
  · rename_i c r rest phase requests
    have nonEmpty : s.mgmt.requests ≠ [] := by simp [requests]
    have fit : c.results.length ≤ 116 := Nat.le_trans (h.chainFits phase) (by decide)
    split
    · exact h.ports.endChain h.twoRequests nonEmpty _ fit
    · exact h.ports.endChain h.twoRequests nonEmpty _ fit
    · exact (h.runChain _).offerHeld

theorem length_checkData (t : TableSet) : (checkData t).length = 6 := by
  unfold checkData
  split <;> rfl

/-- The outcome of a check (R149): room for its result was kept when it was started. -/
theorem FramesSafe.completeCheck {s : State} (h : FramesSafe s) : FramesSafe (completeCheck s) := by
  unfold Machine.completeCheck
  split
  · rename_i c started more r rest t phase requests writable
    have room : c.results.length + 9 ≤ chainRoom := by
      have safe := h.phase
      rw [PhaseSafe, phase] at safe
      exact safe.2.2
    refine OpGood.concludeOp (s := s) ⟨h.ports.of_same, rfl, ?_⟩ h.twoRequests (by simp [requests]) _ _ _ _
    simp only [OpFits, if_true, length_checkData]
    omega
  · exact h

end Sys2Proof.Machine
end

