-- ==== Sys2Proof/Proofs/FramesLink.lean ====
section
/-! PROOFS. Every command of the link keeps the link's promise. -/

namespace Sys2Proof.Machine

-- One theorem after another: side by side, so many small ones need more threads than the memory limit admits.
set_option Elab.async false

/-! ## Changing the ports -/

theorem FramesSafe.pair {s : State} (h : FramesSafe s) (p : PortId) : PairGood (s.port p) (s.port p.other) :=
  ((portsGood_iff p s).mp h.ports).1

/-- The ports of a state are changed, and keep their promise. -/
theorem FramesSafe.setPorts {s t : State} (h : FramesSafe s) (p : PortId) (pair : PairGood (t.port p) (t.port p.other))
    (mgmt : t.mgmt = s.mgmt := by simp) (staging : t.staging = s.staging := by simp) (trace : t.trace = s.trace := by simp) :
    FramesSafe t := by
  refine h.of_ports ((portsGood_iff p t).mpr ⟨pair, ?_⟩) mgmt staging
  have safe := h.ports.2
  unfold TraceSafe at safe ⊢
  rwa [trace]

/-- One port is changed. -/
theorem FramesSafe.modPort {s : State} (h : FramesSafe s) (p : PortId) {f : Port → Port}
    (pair : PairGood (f (s.port p)) (s.port p.other)) : FramesSafe (s.modPort p f) :=
  h.setPorts p (by rwa [State.modPort_port, State.modPort_port_other])

/-- Both ports are changed. -/
theorem FramesSafe.modPorts {s : State} (h : FramesSafe s) (p : PortId) {f g : Port → Port}
    (pair : PairGood (f (s.port p)) (g (s.port p.other))) : FramesSafe ((s.modPort p.other g).modPort p f) :=
  h.setPorts p (by rwa [State.modPort_port, State.modPort_other_port, State.modPort_port_other, State.modPort_port])

theorem FramesSafe.raise {s : State} (h : FramesSafe s) (c : Condition) : FramesSafe (s.raise c) :=
  h.of_ports (h.ports.raise c)

/-! ## Link states (R2 to R7) -/

/-- A port goes DOWN (R7), whatever became of its counts before. -/
theorem FramesSafe.goDown {s : State} (h : FramesSafe s) (p : PortId) (f : Port → Port) :
    FramesSafe (goDown p (s.modPort p f)) := by
  unfold Machine.goDown
  dsimp only
  refine (FramesSafe.settleIfLeft (h.setPorts p ?_) p _).settleIfLeft p.other _
  rw [State.modPort_port, State.modPort_other_port, State.modPort_port_other, State.modPort_port, State.raise_port,
    State.raise_port, State.modPort_port_other]
  exact (h.pair p).down _

theorem FramesSafe.badFrame {s : State} (h : FramesSafe s) (p : PortId) {next : Framing}
    (ok : (s.port p).link ≠ .up → next ≠ .inFrame) : FramesSafe (badFrame p next s) :=
  ((h.raise (.checkErrorSeen p)).modPorts p
    (by simpa using (h.pair p).drop (rx := { framing := next }) ok)).settleIfLeft p.other s

/-! ## A frame in progress (R10) -/

/-- A forwarded frame becomes ready (R18). -/
theorem FramesSafe.forwardReady {s : State} (h : FramesSafe s) (p : PortId) (inside : (s.port p).rx.framing = .inFrame)
    (forwards : (s.port p).rx.treatment.elim false Treatment.forwards = true) (long : 5 ≤ (s.port p).rx.bytes.length) :
    FramesSafe (forwardReady p.other (s.port p).rx.bytes s) := by
  unfold Machine.forwardReady
  split
  · exact h
  · exact h.raise _
  · rename_i placed
    unfold Port.answer at placed
    split at placed
    · cases placed
    · rename_i up
      split at placed
      · rename_i room
        refine h.setPorts p ?_
        rw [State.modPort_other_port, State.modPort_port]
        exact (h.pair p).forward (not_not.mp up) room inside forwards long
      · cases placed

theorem FramesSafe.headerComplete {s : State} (h : FramesSafe s) (p : PortId) (inside : (s.port p).rx.framing = .inFrame)
    (up : (s.port p).link = .up) (long : (s.port p).rx.bytes.length = 5) (none : NoneArriving (s.port p.other).list) :
    FramesSafe (headerComplete p (s.port p).rx.bytes s) := by
  unfold Machine.headerComplete
  split
  · exact h.badFrame p (absurd up)
  · dsimp only
    generalize treatmentOf s.station p (byteAt (s.port p).rx.bytes 0) (byteAt (s.port p).rx.bytes 2) = t
    have classified : FramesSafe (s.modPort p fun q => { q with rx := { q.rx with treatment := some t } }) :=
      h.modPort p ((h.pair p).setRx none (absurd up))
    split
    · rename_i forwards
      have ready := classified.forwardReady p (by simpa using inside) (by simpa using forwards) (by simp [long])
      simpa using ready
    · exact classified

theorem FramesSafe.frameByte {s : State} (h : FramesSafe s) (p : PortId) (b : Byte)
    (inside : (s.port p).rx.framing = .inFrame) (up : (s.port p).link = .up) : FramesSafe (frameByte p b s) := by
  have goodB : EntriesGood (s.port p.other).list (s.port p).rx := (h.pair p).copies
  unfold Machine.frameByte
  dsimp only
  split
  · exact h.badFrame p (absurd up)
  · have joined : NoneArriving (s.port p.other).list → FramesSafe (s.modPort p fun q =>
        { q with rx := { q.rx with bytes := (s.port p).rx.bytes ++ [b] } }) :=
      fun none => h.modPort p ((h.pair p).setRx none (absurd up))
    split
    · rename_i five
      have none : NoneArriving (s.port p.other).list := by
        refine goodB.noneArriving fun ⟨_, _, long⟩ => ?_
        rw [List.length_append, List.length_singleton] at five
        omega
      have complete := (joined none).headerComplete p (by simpa using inside) (by simpa using up) (by simpa using five)
        (by simpa using none)
      simpa using complete
    · split
      · refine h.setPorts p ?_
        rw [State.modPort_other_port, State.modPort_port, State.modPort_port, State.modPort_port_other]
        exact (h.pair p).extend b
      · rename_i stays
        exact joined (goodB.noneArriving fun ⟨_, forwards, _⟩ => stays forwards)

/-! ## The end of a frame (R11, R15) -/

theorem FramesSafe.clockEvent {s : State} (h : FramesSafe s) (event : ClockEvent) : FramesSafe (clockEvent event s) :=
  h.of_ports (h.ports.clockEvent event)

theorem length_demandBytes (rs : List DemandRecord) : (rs.flatMap demandBytes).length = 3 * rs.length := by
  induction rs with
  | nil => rfl
  | cons r rs ih =>
    rw [List.flatMap_cons, List.length_append, ih, List.length_cons, show (demandBytes r).length = 3 from rfl]
    omega

theorem length_demandRecords_go {payload : List Byte} {rs : List DemandRecord} (h : demandRecords.go payload = some rs) :
    payload.length = 3 * rs.length := by
  induction payload using demandRecords.go.induct generalizing rs with
  | case1 => cases h; rfl
  | case2 f b1 b2 rest ih =>
    obtain ⟨rs, found, rfl⟩ := Option.map_eq_some_iff.mp h
    have := ih found
    simp only [List.length_cons]
    omega
  | case3 _ notEmpty notRecord => rw [demandRecords.go] at h <;> simp_all

/-- The demand records of a payload are a third of its bytes, and at most 12 (R131). -/
theorem length_demandRecords {payload : List Byte} {rs : List DemandRecord} (h : demandRecords payload = some rs) :
    payload.length = 3 * rs.length ∧ rs.length ≤ 12 := by
  unfold demandRecords at h
  split at h
  · have := length_demandRecords_go h
    omega
  · cases h

/-- A shaped frame is a good frame (R140, R141). -/
theorem goodAtEnd_shapedFrame (s : State) (dest source : Byte) {rs : List DemandRecord} (few : rs.length ≤ 12) :
    goodAtEnd (shapedFrame s dest source rs) = true :=
  goodAtEnd_frameOf _ _ _ _ _ (by rw [length_demandBytes, List.length_map]; omega)

/-- A VALVE DEMAND is shaped and placed (R20, R133). -/
theorem FramesSafe.shapeFrame {s : State} (h : FramesSafe s) (dest source : Byte) (payload : List Byte) :
    FramesSafe (shapeFrame dest source payload s) := by
  unfold Machine.shapeFrame
  split
  · exact h
  · rename_i rs found
    have good := goodAtEnd_shapedFrame s dest source (length_demandRecords found).2
    have event := h.clockEvent .vdShaped
    unfold placeShaped
    split
    · exact event.of_ports (event.ports.offer .crane good)
    · exact event.raise _
    · exact event

theorem FramesSafe.handOn {s : State} (h : FramesSafe s) (p : PortId) (t : Treatment) (bytes : List Byte) :
    FramesSafe (handOn p t bytes s) := by
  unfold Machine.handOn
  split
  · exact h
  · split
    · exact h.of_ports (h.ports.readReport _ _)
    · exact h.of_ports (h.ports.readOperatorState _)
  · exact h.shapeFrame _ _ _
  · exact h.takeRequest _ _ _

theorem FramesSafe.frameEnd {s : State} (h : FramesSafe s) (p : PortId) : FramesSafe (frameEnd p s) := by
  unfold Machine.frameEnd
  dsimp only
  split
  · rename_i good
    have finished : FramesSafe ((s.modPort p fun q => { q with rx := {} }).modPort p.other (finishCopy true)) := by
      refine h.setPorts p ?_
      rw [State.modPort_other_port, State.modPort_port, State.modPort_port, State.modPort_port_other]
      exact (h.pair p).finish good
    split
    · exact finished.handOn _ _ _
    · exact finished
  · exact h.badFrame p (by simp)

/-! ## A symbol time of a receiver (R2 to R10) -/

theorem FramesSafe.inFrameSymbol {s : State} (h : FramesSafe s) (p : PortId) (sym : LineSymbol)
    (inside : (s.port p).rx.framing = .inFrame) (up : (s.port p).link = .up) : FramesSafe (inFrameSymbol p sym s) := by
  cases sym
  case startFrame => exact h.badFrame p (absurd up)
  case data b => exact h.frameByte p b inside up
  case endFrame => exact h.frameEnd p
  all_goals exact h.badFrame p (by simp)

/-- A symbol in UP (R10). -/
theorem FramesSafe.frameSymbol {s : State} (h : FramesSafe s) (p : PortId) (sym : LineSymbol)
    (up : (s.port p).link = .up) : FramesSafe (frameSymbol p sym s) := by
  have outside : (s.port p).rx.framing ≠ .inFrame → ∀ rx, FramesSafe (s.modPort p fun q => { q with rx }) :=
    fun out rx => h.modPort p ((h.pair p).setRx ((h.pair p).copies.noneArriving fun ⟨inside, _⟩ => out inside) (absurd up))
  unfold Machine.frameSymbol
  split
  · rename_i waiting
    unfold waitingSymbol
    split
    · exact outside (by simp [waiting]) _
    · exact h
  · exact h.inFrameSymbol p sym (by assumption) up
  · rename_i discarding
    unfold discardingSymbol
    split
    · exact outside (by simp [discarding]) _
    · exact h

end Sys2Proof.Machine
end

