-- ==== Sys2Proof/Proofs/FramesStep.lean ====
section
/-! PROOFS. Every step keeps the link's promise: the receiver's and the transmitter's symbol times, and then every command
and every internal event. -/

namespace Sys2Proof.Machine

-- One theorem after another: side by side, so many small ones need more threads than the memory limit admits.
set_option Elab.async false

/-! ## Symbol times -/

/-- One symbol time of a receiver (R2 to R10). -/
theorem FramesSafe.receive {s : State} (h : FramesSafe s) (p : PortId) (sym : LineSymbol) :
    FramesSafe (receive p sym s) := by
  unfold Machine.receive
  split
  · exact h.modPort p ((h.pair p).receiveDown (by assumption) sym)
  · rename_i training
    dsimp only
    rw [State.modPort_port]
    split
    · exact h.goDown p _
    · rename_i heard
      have counted := h.modPort p ((h.pair p).receiveTraining training sym heard)
      split
      · exact counted.settleOffers p
      · exact counted
  · rename_i up
    dsimp only
    rw [State.modPort_port]
    split
    · exact h.goDown p _
    · rename_i stays
      exact (h.modPort p ((h.pair p).countUp up sym stays)).frameSymbol p sym (by rw [State.modPort_port]; exact up)

/-- One symbol time of a transmitter (R17). -/
theorem FramesSafe.transmit {s : State} (h : FramesSafe s) (p : PortId) : FramesSafe (transmit p s) := by
  unfold Machine.transmit
  split
  · exact h.modPort p ((h.pair p).send false)
  · have offered := h.offerOwed p
    exact (offered.modPort p ((offered.pair p).send true)).settleIfLeft p _

/-! ## Commands and internal events -/

/-- A block's operation that touches the link by notices and clock events alone. -/
theorem FramesSafe.of_block {s t : State} (h : FramesSafe s) (ports : PortsGood s → PortsGood t)
    (mgmt : t.mgmt = s.mgmt := by simp) (staging : t.staging = s.staging := by simp) : FramesSafe t :=
  h.of_ports (ports h.ports) mgmt staging

/-- A start (R8). -/
theorem FramesSafe.startFrom (pins : InputLevels) (s : State) : FramesSafe (startFrom pins s) := by
  have port : PortSafe {} ∧ PortSettled {} := by unfold PortSafe PortSettled; decide
  have trace : TraceSafe (Machine.startFrom pins s) := by
    refine ⟨Nat.zero_le _, fun _ hb => absurd hb List.not_mem_nil, ?_⟩
    simp [Machine.startFrom, startState, State.reset]
  exact .reading (s := Machine.startFrom pins s) ⟨⟨port.1, port.2, port.1, port.2, .nil _, .nil _⟩, trace⟩ (Nat.zero_le _) rfl
    (Nat.zero_le _)

/-- RESET_ASSERTED (R8). -/
theorem FramesSafe.assertReset {s : State} (h : FramesSafe s) : FramesSafe (assertReset s) :=
  h.setPorts .cab (h.pair .cab).cutOff.symm.cutOff.symm

/-- A meaning that is held back in reset keeps the promise if its effect does. -/
theorem FramesSafe.unlessReset {s t : State} {f : State → State} (h : FramesSafe s) (keeps : FramesSafe (f s))
    (answer : s.unlessReset f = .next t) : FramesSafe t := by
  unfold State.unlessReset at answer
  cases answer
  split
  · exact h
  · exact keeps

/-- A row that finds nothing to do until its condition stands. -/
theorem FramesSafe.ifDue {s t : State} (h : FramesSafe s) {due : Prop} [Decidable due] (keeps : due → FramesSafe t) :
    FramesSafe (if due then t else s) := by
  split
  · exact keeps (by assumption)
  · exact h

theorem State.modPort_id (p : PortId) (s : State) : s.modPort p id = s := by cases p <;> rfl

theorem FramesSafe.goesDown {s : State} (h : FramesSafe s) (p : PortId) : FramesSafe (Machine.goDown p s) := by
  simpa only [State.modPort_id] using h.goDown p id

/-- Every command keeps the promise. -/
theorem FramesSafe.exec {s t : State} (h : FramesSafe s) (c : Instr) (answer : exec c s = .next t) : FramesSafe t := by
  have row := fun {f : State → State} (keeps : FramesSafe (f s)) => h.unlessReset (t := t) keeps
  cases c
  case powerOn pins => cases answer; exact .startFrom pins s
  case resetReleased pins => cases answer; exact .startFrom pins s
  case resetAsserted => cases answer; exact h.assertReset
  case transmitSymbol p => cases answer; exact h.transmit p
  case receiveSymbol p sym => exact row (h.receive p sym) answer
  case heldReplyOffer => exact row h.offerHeld answer
  case noticeAttempt => exact row h.attemptNotice answer
  case polarityFlip p => exact row (h.ifDue fun _ => h.modPort p (h.pair p).flip) answer
  case linkUp p =>
    refine row (h.ifDue fun due => (h.modPort p ((h.pair p).up ?_ _)).settleOffers p) answer
    intro up
    simp [linkUpDue, up] at due
  case lossOfSignal p => exact row (h.ifDue fun _ => h.goesDown p) answer
  case violationWindowFull p => exact row (h.ifDue fun _ => h.goesDown p) answer
  case sensorReport source payload => exact row (h.of_block (·.readReport source payload)) answer
  case operatorState payload => exact row (h.of_block (·.readOperatorState payload)) answer
  case freshnessExpiry m => exact row (h.of_block (·.expireMeasurand m)) answer
  case gapRunLimit => exact row (h.ifDue fun _ => h.of_block (t := clearWindow s) (·.modLift _)) answer
  case setDown => exact row (h.ifDue fun _ => h.of_block (·.takeSetDown)) answer
  case windowEvaluation => exact row (h.ifDue fun _ => h.of_block (·.evaluateWindow)) answer
  case gripConfirmed => exact row (h.ifDue fun _ => h.of_block (·.confirmGrip)) answer
  case release => exact row (h.ifDue fun _ => h.of_block (·.endLift .released)) answer
  case tareTimerExpiry => exact row (h.ifDue fun _ => h.of_block (·.failTare)) answer
  case encoderObservation a b z => exact row (h.of_block (·.observe a b z)) answer
  case serviceInputChange level => exact row (h.of_block (·.supServiceChange level)) answer
  case alertFlashToggle => exact row (h.of_block (·.alertToggle)) answer
  case traceCapture event => exact row (h.clockEvent event) answer
  case shapeValveDemand dest source _ payload => exact row (h.shapeFrame dest source payload) answer
  case takeRequest p source payload => exact row (h.takeRequest p source payload) answer
  case performRequest => exact row h.performRequest answer
  case checkStagingComplete => exact row h.completeCheck answer
  case warmRestartPerformed =>
    unfold Machine.exec execWarmRestartPerformed at answer
    refine row ?_ answer
    split
    · exact h.offerHeld
    · exact h
  case test => exact row (h.performCoded .opTest _) answer
  case readIdentity => exact row (h.performCoded .opReadIdentity _) answer
  case readStatus => exact row (h.performCoded .opReadStatus _) answer
  case readMeasurands => exact row (h.performCoded .opReadMeasurands _) answer
  case readTally => exact row (h.performCoded .opReadTally _) answer
  case peekLifts => exact row (h.performCoded .opPeekLifts _) answer
  case dropLifts => exact row (h.performCoded .opDropLifts _) answer
  case clearBunk => exact row (h.performCoded .opClearBunk _) answer
  case clearConditions => exact row (h.performCoded .opClearConditions _) answer
  case openStaging => exact row (h.performCoded .opOpenStaging _) answer
  case writeEntry => exact row (h.performCoded .opWriteEntry _) answer
  case readEntry => exact row (h.performCoded .opReadEntry _) answer
  case checkStaging => exact row (h.performCoded .opCheckStaging _) answer
  case activate => exact row (h.performCoded .opActivate _) answer
  case traceConfigure => exact row (h.performWanted .opTraceConfigure _ _) answer
  case traceEnable => exact row (h.performWanted .opTraceEnable _ _) answer
  case traceDisable => exact row (h.performWanted .opTraceDisable _ _) answer
  case traceFlush => exact row (h.performWanted .opTraceFlush _ _) answer
  case traceRead => exact row (h.performCoded .opTraceRead _) answer
  case warmRestart => exact row (h.performCoded .opWarmRestart _) answer

/-- Every internal event keeps the promise. -/
theorem FramesSafe.internalEvents {s : State} (h : FramesSafe s) : ∀ e ∈ internalEvents s, FramesSafe e.taken := by
  have expiry : ∀ m, FramesSafe (expireMeasurand m s) := fun m => h.of_block (·.expireMeasurand m)
  simp only [Machine.internalEvents, List.forall_mem_cons]
  exact ⟨h.offerOwed .cab, h.offerOwed .crane, expiry .f, expiry .a, expiry .reach, expiry .pitch, expiry .roll, expiry .gpress,
    h.of_block (t := confirmGrip s) (·.confirmGrip), h.of_block (t := endLift .released s) (·.endLift .released),
    h.of_block (t := failTare s) (·.failTare), h.of_block (t := alertToggle s) (·.alertToggle), h.completeCheck, h.offerHeld,
    h.performRequest, fun _ none => absurd none List.not_mem_nil⟩

/-- The step of an empty queue keeps the promise. -/
theorem FramesSafe.idle {s : State} (h : FramesSafe s) : FramesSafe (idle s) := by
  unfold Machine.idle
  split
  · exact h
  · split
    · rename_i e found
      exact h.internalEvents e (List.mem_of_find?_eq_some found)
    · exact h

/-- Settles O18: every command and every internal event keeps the promise of the ports, of management and of the trace. -/
theorem everyStepKeepsFramesSafe : Obligations.EveryStepKeepsFramesSafe := by
  intro s t h answer
  unfold step at answer
  split at answer
  · rename_i c rest _
    exact FramesSafe.exec (s := { s with pending := rest }) h c answer
  · cases answer
    exact h.idle

end Sys2Proof.Machine
end

