-- ==== Sys2Proof/Proofs/Machine.lean ====
section
/-! PROOFS. The machine as a whole: what every command leaves alone, what the reset input holds, and the state after
reset (O2, O3, O4). -/

namespace Sys2Proof.Machine

-- One theorem after another: side by side, so many small ones need more threads than the memory limit admits.
set_option Elab.async false

/-! ## What no command but a start touches -/

/-- From one state to another the queue, the clock, the straps, the station and the reset input are as they were. -/
def MachineKept (s t : State) : Prop :=
  t.pending = s.pending ∧ t.clock = s.clock ∧ t.strapValue = s.strapValue ∧ t.station = s.station ∧ t.inReset = s.inReset

/-- A meaning answers a next state with the machine kept. -/
def AnswersKept (s : State) (a : Answer) : Prop := ∃ t, a = .next t ∧ MachineKept s t

theorem MachineKept.refl (s : State) : MachineKept s s := ⟨rfl, rfl, rfl, rfl, rfl⟩

theorem MachineKept.ifDue {s t : State} {due : Prop} [Decidable due] (h : MachineKept s t) :
    MachineKept s (if due then t else s) := by
  split
  · exact h
  · exact .refl s

theorem answersKept_unlessReset {s : State} {f : State → State} (h : MachineKept s (f s)) :
    AnswersKept s (s.unlessReset f) := by
  unfold State.unlessReset
  split
  · exact ⟨s, rfl, .refl s⟩
  · exact ⟨f s, rfl, h⟩

/-- An operation that keeps the machine, performed as the next of a chain (R159). -/
theorem MachineKept.performWanted {perform : List Byte → Nat → State → State × OpResult}
    (keeps : ∀ operands free s, MachineKept s (perform operands free s).1) (code : Byte) (wanted : List Byte → Bool)
    (s : State) : MachineKept s (performWanted code wanted perform s) := by
  have judgedKept : ∀ code operands free, MachineKept s (judged code perform operands free s).1 := by
    intro code operands free
    unfold judged
    split
    · exact keeps operands free s
    · exact .refl s
  unfold Machine.performWanted
  split
  · exact .refl s
  · split
    · exact .refl s
    · split
      · simpa [MachineKept] using judgedKept _ _ _
      · exact .refl s

theorem answersKept_performWanted {perform : List Byte → Nat → State → State × OpResult}
    (keeps : ∀ operands free s, MachineKept s (perform operands free s).1) (code : Byte) (wanted : List Byte → Bool)
    (s : State) : AnswersKept s (s.unlessReset (Machine.performWanted code wanted perform)) :=
  answersKept_unlessReset (.performWanted keeps code wanted s)

/-- Every command but the starts and RESET_ASSERTED answers a next state with the machine kept. -/
theorem answersKept_exec (c : Instr) (s : State) (noStart : ∀ pins, c ≠ .powerOn pins ∧ c ≠ .resetReleased pins)
    (noReset : c ≠ .resetAsserted) : AnswersKept s (exec c s) := by
  cases c
  case powerOn pins => exact absurd rfl (noStart pins).1
  case resetReleased pins => exact absurd rfl (noStart pins).2
  case resetAsserted => exact absurd rfl noReset
  case transmitSymbol p => exact ⟨transmit p s, rfl, by simp [MachineKept]⟩
  case polarityFlip => exact answersKept_unlessReset (.ifDue (by simp [MachineKept]))
  case linkUp => exact answersKept_unlessReset (.ifDue (by simp [MachineKept]))
  case lossOfSignal => exact answersKept_unlessReset (.ifDue (by simp [MachineKept]))
  case violationWindowFull => exact answersKept_unlessReset (.ifDue (by simp [MachineKept]))
  case gapRunLimit => exact answersKept_unlessReset (.ifDue (by simp [MachineKept]))
  case setDown => exact answersKept_unlessReset (.ifDue (by simp [MachineKept]))
  case windowEvaluation => exact answersKept_unlessReset (.ifDue (by simp [MachineKept]))
  case gripConfirmed => exact answersKept_unlessReset (.ifDue (by simp [MachineKept]))
  case release => exact answersKept_unlessReset (.ifDue (by simp [MachineKept]))
  case tareTimerExpiry => exact answersKept_unlessReset (.ifDue (by simp [MachineKept]))
  case warmRestartPerformed =>
    unfold exec
    refine answersKept_unlessReset ?_
    split
    · simp [MachineKept]
    · exact .refl s
  case test => exact answersKept_performWanted (perform := opTest) (by simp [MachineKept]) _ _ s
  case readIdentity => exact answersKept_performWanted (perform := opReadIdentity) (by simp [MachineKept]) _ _ s
  case readStatus => exact answersKept_performWanted (perform := opReadStatus) (by simp [MachineKept]) _ _ s
  case readMeasurands => exact answersKept_performWanted (perform := opReadMeasurands) (by simp [MachineKept]) _ _ s
  case readTally => exact answersKept_performWanted (perform := opReadTally) (by simp [MachineKept]) _ _ s
  case peekLifts => exact answersKept_performWanted (perform := opPeekLifts) (by simp [MachineKept]) _ _ s
  case dropLifts => exact answersKept_performWanted (perform := opDropLifts) (by simp [MachineKept]) _ _ s
  case clearBunk => exact answersKept_performWanted (perform := opClearBunk) (by simp [MachineKept]) _ _ s
  case clearConditions => exact answersKept_performWanted (perform := opClearConditions) (by simp [MachineKept]) _ _ s
  case openStaging => exact answersKept_performWanted (perform := opOpenStaging) (by simp [MachineKept]) _ _ s
  case writeEntry => exact answersKept_performWanted (perform := opWriteEntry) (by simp [MachineKept]) _ _ s
  case readEntry => exact answersKept_performWanted (perform := opReadEntry) (by simp [MachineKept]) _ _ s
  case checkStaging => exact answersKept_performWanted (perform := opCheckStaging) (by simp [MachineKept]) _ _ s
  case activate => exact answersKept_performWanted (perform := opActivate) (by simp [MachineKept]) _ _ s
  case traceConfigure => exact answersKept_performWanted (perform := opTraceConfigure) (by simp [MachineKept]) _ _ s
  case traceEnable => exact answersKept_performWanted (perform := opTraceEnable) (by simp [MachineKept]) _ _ s
  case traceDisable => exact answersKept_performWanted (perform := opTraceDisable) (by simp [MachineKept]) _ _ s
  case traceFlush => exact answersKept_performWanted (perform := opTraceFlush) (by simp [MachineKept]) _ _ s
  case traceRead => exact answersKept_performWanted (perform := opTraceRead) (by simp [MachineKept]) _ _ s
  case warmRestart => exact answersKept_performWanted (perform := opWarmRestart) (by simp [MachineKept]) _ _ s
  all_goals exact answersKept_unlessReset (by simp [MachineKept])

/-- Settles O2: a start and RESET_ASSERTED answer at once; every other command keeps the machine. -/
theorem everyCommandAnswersANextState : Obligations.EveryCommandAnswersANextState := by
  intro c s
  by_cases start : ∃ pins, c = .powerOn pins ∨ c = .resetReleased pins
  · obtain ⟨pins, rfl | rfl⟩ := start
    · exact ⟨startFrom pins s, rfl, rfl, fun noStart => absurd rfl (noStart pins).1⟩
    · exact ⟨startFrom pins s, rfl, rfl, fun noStart => absurd rfl (noStart pins).2⟩
  · by_cases reset : c = .resetAsserted
    · subst reset
      exact ⟨assertReset s, rfl, rfl, fun _ => ⟨rfl, rfl, rfl, fun other => absurd rfl other⟩⟩
    · simp only [not_exists, not_or] at start
      obtain ⟨t, answer, pending, clock, straps, station, inReset⟩ := answersKept_exec c s start reset
      exact ⟨t, answer, pending, fun _ => ⟨clock, straps, station, fun _ => inReset⟩⟩

/-! ## The reset input -/

/-- Every command but the starts, RESET_ASSERTED and the transmitters' symbol times is held back in reset. -/
theorem exec_heldInReset (c : Instr) (s : State) (noStart : ∀ pins, c ≠ .powerOn pins ∧ c ≠ .resetReleased pins)
    (noReset : c ≠ .resetAsserted) (noTransmit : ∀ port, c ≠ .transmitSymbol port) : ∃ f, exec c s = s.unlessReset f := by
  cases c
  case powerOn pins => exact absurd rfl (noStart pins).1
  case resetReleased pins => exact absurd rfl (noStart pins).2
  case resetAsserted => exact absurd rfl noReset
  case transmitSymbol p => exact absurd rfl (noTransmit p)
  case warmRestartPerformed => unfold exec; exact ⟨_, rfl⟩
  all_goals exact ⟨_, rfl⟩

/-- Settles O3: what is held back in reset changes nothing, and RESET_ASSERTED writes the fields it names. -/
theorem resetInputHoldsThePart : Obligations.ResetInputHoldsThePart := by
  refine ⟨fun c s inReset noStart noReset noTransmit => ?_, fun s => ?_⟩
  · obtain ⟨f, held⟩ := exec_heldInReset c s noStart noReset noTransmit
    rw [held, State.unlessReset_inReset f s inReset]
  · exact ⟨assertReset s, rfl, rfl, rfl, rfl, fun p => by cases p <;> rfl⟩

/-! ## The state after reset -/

/-- Settles O4: the state after reset is a start state, and its blocks hold nothing. -/
theorem resetMeetsEveryPromise : Obligations.ResetMeetsEveryPromise := by
  have tables : TablesSafe State.reset := ⟨fun t active => (by cases active), trivial⟩
  have frames : FramesSafe State.reset := FramesSafe.startFrom ⟨0, false, false, false, false⟩ State.reset
  have intake : IntakeSafe State.reset.intake := by
    refine ⟨fun m => ?_, by decide, by decide⟩
    cases m <;> (unfold RecordSafe; decide)
  refine ⟨frames, tables, ⟨tables, intake, ?_, ?_⟩, ?_, ⟨tables, ?_⟩, ?_, ?_, ?_, frames.ports.2, ?_⟩
  · unfold HistorySafe; decide
  · unfold FiguresSafe; decide
  · unfold ModeSafe; decide
  · simp [State.reset, State.modulus]
  · simp [LiftSafe, State.reset, holdsLift, openNumber]
  · simp [AccountSafe, State.reset, AssortmentSafe, judgedClass]
  · simp [SequenceSafe, State.reset, openNumber]
  · unfold SetsSafe; decide

end Sys2Proof.Machine
end

