-- ==== Sys2Proof/Proofs/Starts.lean ====
section
/-! PROOFS. The starts, and what an offer of the held reply does (O5, O6). -/

namespace Sys2Proof.Machine

-- One theorem after another: side by side, so many small ones need more threads than the memory limit admits.
set_option Elab.async false

/-- The station number of a strap value (R13). -/
theorem toNat_stationOf (straps : BitVec 6) :
    (stationOf straps).toNat = if straps.toNat = 0 ∨ straps.toNat = 63 then 40 else straps.toNat := by
  have zero : straps = 0 ↔ straps.toNat = 0 := BitVec.toNat_inj.symm
  have ones : straps = 63 ↔ straps.toNat = 63 := BitVec.toNat_inj.symm
  unfold stationOf
  simp only [zero, ones]
  split
  · rfl
  · rw [BitVec.toNat_setWidth]
    have := straps.isLt
    omega

/-- Settles O5: both starts leave the start state of the present levels. -/
theorem startsGiveEveryBlockItsStartState : Obligations.StartsGiveEveryBlockItsStartState :=
  fun pins s => ⟨startFrom pins s, rfl, rfl, rfl, rfl, rfl, rfl, toNat_stationOf pins.straps, rfl, rfl, rfl, rfl, rfl, rfl,
    rfl, rfl, rfl, rfl, rfl, rfl, rfl, rfl⟩

/-! ## An offer of the held reply (R162) -/

theorem answer_eq_noRoom_iff (q : Port) : q.answer = .noRoom ↔ q.link = .up ∧ 6 ≤ q.list.length := by
  unfold Port.answer listPlaces
  split
  · simp_all
  · split <;> simp_all

theorem answer_eq_notUp_iff (q : Port) : q.answer = .notUp ↔ q.link ≠ .up := by
  unfold Port.answer
  split
  · simp_all
  · split <;> simp_all

theorem answer_eq_placed_iff (q : Port) : q.answer = .placed ↔ q.link = .up ∧ q.list.length < 6 := by
  unfold Port.answer listPlaces
  split
  · simp_all
  · split <;> simp_all

/-- An offer that meets no place changes nothing (R21). -/
theorem State.offer_of_not_placed {s : State} {p : PortId} (h : (s.port p).answer ≠ .placed) (frame : List Byte) :
    s.offer p frame = s := by
  unfold State.offer
  rw [if_neg]
  intro place
  simp only [Port.hasPlace, Bool.and_eq_true] at place
  exact h ((answer_eq_placed_iff _).mpr ⟨of_decide_eq_true place.1, of_decide_eq_true place.2⟩)

/-- An offer that meets a place joins the list (R21). -/
theorem State.offer_of_placed {s : State} {p : PortId} (up : (s.port p).link = .up) (room : (s.port p).list.length < 6)
    (frame : List Byte) : s.offer p frame = s.modPort p (Port.append { bytes := frame, status := .whole }) := by
  unfold State.offer
  rw [if_pos]
  simp [Port.hasPlace, up, listPlaces, room]

/-- With no reply held there is nothing to offer. -/
theorem offerHeld_of_not_held {s : State} (h : ∀ reply restart, s.mgmt.phase ≠ .held reply restart) : offerHeld s = s := by
  unfold offerHeld
  split
  · rename_i held _
    exact absurd held (h _ _)
  · rfl

/-- A held reply that meets NO ROOM stays held (R162). -/
theorem offerHeld_of_noRoom {s : State} {reply : List Byte} {restart : Bool} {r : Request} {rest : List Request}
    (phase : s.mgmt.phase = .held reply restart) (requests : s.mgmt.requests = r :: rest)
    (noRoom : (s.port r.port).answer = .noRoom) : offerHeld s = s := by
  simp only [offerHeld, phase, requests, noRoom]

/-- A held reply that meets a place joins the list, one that meets NOT UP is discarded; its request leaves the queue, and a
warm restart that waits for it is performed (R162, R169). -/
theorem offerHeld_of_leaves {s : State} {reply : List Byte} {restart : Bool} {r : Request} {rest : List Request}
    (phase : s.mgmt.phase = .held reply restart) (requests : s.mgmt.requests = r :: rest)
    (leaves : (s.port r.port).answer ≠ .noRoom) :
    offerHeld s =
      if restart then warmRestart (dropHead (s.offer r.port reply)) else dropHead (s.offer r.port reply) := by
  cases answer : (s.port r.port).answer
  · simp only [offerHeld, phase, requests, answer]
  · exact absurd answer leaves
  · rw [State.offer_of_not_placed (by simp [answer])]
    simp only [offerHeld, phase, requests, answer]

/-! ## The warm restart (R169) -/

/-- WARM_RESTART_PERFORMED offers a reply that announces a warm restart. -/
theorem exec_warmRestartPerformed_of_restart {s : State} {reply : List Byte} (running : s.inReset = false)
    (phase : s.mgmt.phase = .held reply true) : exec .warmRestartPerformed s = .next (offerHeld s) := by
  unfold exec execWarmRestartPerformed
  rw [State.unlessReset_running _ s running]
  simp only [phase]

/-- WARM_RESTART_PERFORMED leaves any other reply alone. -/
theorem exec_warmRestartPerformed_of_no_restart {s : State} {reply : List Byte} (running : s.inReset = false)
    (phase : s.mgmt.phase = .held reply false) : exec .warmRestartPerformed s = .next s := by
  unfold exec execWarmRestartPerformed
  rw [State.unlessReset_running _ s running]
  simp only [phase]

/-- With nothing FRESH the tilt is 16.0° (R112). -/
theorem tiltOf_of_stale {s : State} (stale : s.intake = {}) (set : TableSet) : tiltOf set s = 160 := by
  simp [tiltOf, State.fresh, stale, Intake.get]

/-- Supervision after a warm restart, with nothing FRESH (R130). -/
theorem supWarmRestart_of_stale {s : State} (stale : s.intake = {}) :
    supWarmRestart s =
      { state := if s.sup.service then .bypass else if s.active.isSome then .hold else .unconfigured,
        bunkClass := s.tally.bunkClass, service := s.sup.service, alert := !s.sup.service,
        tilt := s.active.elim s.sup.tilt fun _ => 160,
        capacity := s.active.elim s.sup.capacity fun set => leastCapacity set s.tally.bunkClass 160 } := by
  unfold supWarmRestart
  cases s.active
  · simp
  · simp [tiltOf_of_stale stale, capacityOf, sectorInUse]

/-- Settles O6: both rows offer the reply, which leaves management, and the restart clears what it is to clear. -/
theorem warmRestartKeepsAndClears : Obligations.WarmRestartKeepsAndClears := by
  intro s reply r running phase head leaves
  obtain ⟨rest, requests⟩ : ∃ rest, s.mgmt.requests = r :: rest := by
    cases full : s.mgmt.requests with
    | nil => simp [full] at head
    | cons x rest => exact ⟨rest, by simpa [full] using head⟩
  have offered := offerHeld_of_leaves phase requests leaves
  rw [if_pos rfl] at offered
  refine ⟨offerHeld s, ?_, State.unlessReset_running _ s running, ?_⟩
  · exact exec_warmRestartPerformed_of_restart running phase
  · rw [offered]
    generalize placed : dropHead (s.offer r.port reply) = d
    have kept : d.pending = s.pending ∧ d.clock = s.clock ∧ d.inReset = s.inReset ∧ d.strapValue = s.strapValue ∧
        d.station = s.station ∧ d.tally = s.tally ∧ d.active = s.active ∧ d.staging = s.staging ∧ d.queue = s.queue ∧
        d.trace = s.trace ∧ d.slew = s.slew ∧ d.sup = s.sup ∧ d.cab = (s.offer r.port reply).cab ∧
        d.crane = (s.offer r.port reply).crane := by simp [← placed]
    have sup : (warmRestart d).sup = _ := supWarmRestart_of_stale rfl
    simp only [sup]
    simp only [warmRestart, kept, running, true_and]
    cases s.active <;> exact ⟨rfl, rfl⟩

end Sys2Proof.Machine
end

