-- ==== Sys2Proof/Proofs/Frames.lean ====
section
/-! PROOFS. The frame check and the copy of a forwarded frame (O7, O10). -/

namespace Sys2Proof.Machine

-- One theorem after another: side by side, so many small ones need more threads than the memory limit admits.
set_option Elab.async false

/-! ## The frame check (R9) -/

/-- One bit shifted against the register's top bit. -/
def crcBit (r : BitVec 16) (bit : Bool) : BitVec 16 := if r.msb ^^ bit then (r <<< 1) ^^^ 0x1021 else r <<< 1

/-- The bits of a byte, most significant first. -/
def bitsOf (b : Byte) : List Bool := [b[7], b[6], b[5], b[4], b[3], b[2], b[1], b[0]]

/-- A shift of the register with a message joined to it takes the message's top bit and leaves the rest joined. -/
theorem crcShift_xor (r m : BitVec 16) : crcShift (r ^^^ m) = crcBit r m.msb ^^^ (m <<< 1) := by
  unfold crcShift crcBit
  rw [BitVec.msb_xor, BitVec.shiftLeft_xor_distrib]
  split
  · rw [BitVec.xor_assoc, BitVec.xor_comm (m <<< 1), ← BitVec.xor_assoc]
  · rfl

/-- The top bit of a byte that stands in the register's upper half, shifted by up to 7 places. -/
theorem msb_byte_shift (b : Byte) (k : Nat) (h : k < 8) : ((b ++ (0 : Byte)) <<< k).msb = b[7 - k] := by
  rw [BitVec.msb_shiftLeft, BitVec.getMsbD_append]
  simp [h, BitVec.getMsbD, BitVec.getLsbD_eq_getElem (show 7 - k < 8 by omega)]

/-- A byte shifted through the register is its eight bits shifted in, most significant first. -/
theorem crcByte_eq_bits (r : BitVec 16) (b : Byte) : crcByte r b = (bitsOf b).foldl crcBit r := by
  have next : ∀ (r : BitVec 16) (k : Nat) (h : k < 8),
      crcShift (r ^^^ ((b ++ (0 : Byte)) <<< k)) = crcBit r b[7 - k] ^^^ ((b ++ (0 : Byte)) <<< (k + 1)) := by
    intro r k h
    rw [crcShift_xor, msb_byte_shift b k h, ← BitVec.shiftLeft_add]
  have gone : (b ++ (0 : Byte)) <<< 8 = 0 := by
    have upper : (b ++ (0 : Byte)).toNat = b.toNat * 2 ^ 8 := by
      rw [BitVec.toNat_append, Nat.shiftLeft_eq]
      exact Nat.or_zero _
    apply BitVec.eq_of_toNat_eq
    rw [BitVec.toNat_shiftLeft, upper, Nat.shiftLeft_eq, Nat.mul_assoc]
    exact Nat.mul_mod_left _ _
  have start : b ++ (0 : Byte) = (b ++ (0 : Byte)) <<< 0 := (BitVec.shiftLeft_zero _).symm
  unfold crcByte
  dsimp only
  rw [start, next _ 0 (by decide), next _ 1 (by decide), next _ 2 (by decide), next _ 3 (by decide), next _ 4 (by decide),
    next _ 5 (by decide), next _ 6 (by decide), next _ 7 (by decide), gone]
  exact BitVec.xor_zero

/-- The check of a frame as it is sent: the two check bytes are compared, high byte first (R9). -/
theorem goodAtEnd_append_check (body : List Byte) (hi lo : Byte) (header : 5 ≤ body.length)
    (length : body.length = 5 + (byteAt body 4).toNat) : goodAtEnd (body ++ [hi, lo]) = decide (check body = hi ++ lo) := by
  have lenByte : byteAt (body ++ [hi, lo]) 4 = byteAt body 4 := by
    unfold byteAt
    rw [List.getD_append _ _ _ _ (by omega)]
  have checkBytes : field16 (body ++ [hi, lo]) body.length = hi ++ lo := by
    simp [field16, byteAt]
  have total : (body ++ [hi, lo]).length = body.length + 2 := by simp
  unfold goodAtEnd
  dsimp only
  rw [total, lenByte, Nat.add_sub_cancel, List.take_left, checkBytes]
  rw [decide_eq_true (show 7 ≤ body.length + 2 by omega),
    decide_eq_true (show body.length + 2 = 7 + (byteAt body 4).toNat by omega), Bool.true_and, Bool.true_and]

/-- Settles O7: byte by byte, the model's check shifts in the bits of the message. -/
theorem checkIsTheBitSerialCrc : Obligations.CheckIsTheBitSerialCrc := by
  refine ⟨fun bytes => ?_, goodAtEnd_append_check⟩
  have bitwise : crcByte = fun r b => (bitsOf b).foldl crcBit r := funext fun r => funext fun b => crcByte_eq_bits r b
  rw [check, bitwise]
  exact (List.foldl_flatMap).symm

/-! ## The forwarded copy (R16, R19) -/

/-- A change of arriving entries reaches none of a list without them. -/
theorem map_of_noneArriving {list : List Entry} (h : NoneArriving list) (f : Entry → Entry) :
    list.map (fun e => if e.status = .arriving then f e else e) = list := by
  conv_rhs => rw [← List.map_id list]
  exact List.map_congr_left fun e he => by simp [h e he]

/-- A list without arriving entries loses none of them. -/
theorem filter_of_noneArriving {list : List Entry} (h : NoneArriving list) :
    list.filter (fun e => decide (e.status ≠ .arriving)) = list :=
  List.filter_eq_self.mpr fun e he => decide_eq_true (h e he)

/-- Settles O10: the copy is the one arriving entry of its list. -/
theorem forwardedCopyIsFinished : Obligations.ForwardedCopyIsFinished := by
  intro before behind bytes p others list
  have noneBefore : NoneArriving before := fun e he => others e (List.mem_append_left _ he)
  have noneBehind : NoneArriving behind := fun e he => others e (List.mem_append_right _ he)
  have removed : ∀ {l : List Entry}, NoneArriving l →
      (l ++ { bytes, status := .arriving } :: behind).filter (fun e => decide (e.status ≠ .arriving)) = l ++ behind := by
    intro l none
    rw [List.filter_append, filter_of_noneArriving none, List.filter_cons_of_neg (by simp), filter_of_noneArriving noneBehind]
  refine ⟨fun b => ?_, ?_, fun first sending => ?_, fun free => ?_⟩
  · simp [extendCopy, list, map_of_noneArriving noneBefore, map_of_noneArriving noneBehind]
  · rw [finishCopy_frame, finishCopy_true_list]
    simp [list, map_of_noneArriving noneBefore, map_of_noneArriving noneBehind]
  · subst first
    rw [finishCopy_frame, finishCopy_false_list, if_pos sending]
    simpa [list] using show ∀ e ∈ behind, ¬e.status = .arriving from noneBehind
  · rw [finishCopy_frame, finishCopy_false_list]
    congr 1
    split
    · rename_i sending
      obtain ⟨e, rest, rfl⟩ := List.exists_cons_of_ne_nil (free.resolve_right (Option.isSome_iff_ne_none.mp sending))
      have head : e.status ≠ .arriving := noneBefore e List.mem_cons_self
      have tail : NoneArriving rest := fun x hx => noneBefore x (List.mem_cons_of_mem _ hx)
      simp only [list, List.cons_append, List.head?_cons, Option.toList_some, List.map_singleton, if_neg head, List.tail_cons,
        removed tail, List.nil_append]
    · rw [list, removed noneBefore]

end Sys2Proof.Machine
end

