-- ==== Sys2Proof/Proofs/Link.lean ====
section
/-! PROOFS. The link states and their commands (O8, O9). -/

namespace Sys2Proof.Machine

-- One theorem after another: side by side, so many small ones need more threads than the memory limit admits.
set_option Elab.async false

/-- RECEIVE_SYMBOL while the reset input is released. -/
theorem exec_receiveSymbol {s : State} (running : s.inReset = false) (p : PortId) (y : LineSymbol) :
    exec (.receiveSymbol p y) s = .next (receive p y s) := State.unlessReset_running _ s running

theorem receive_of_down {s : State} {p : PortId} (down : (s.port p).link = .down) (y : LineSymbol) :
    receive p y s = s.modPort p (receiveDown y) := by
  simp only [receive, down]

theorem receive_of_training {s : State} {p : PortId} (training : (s.port p).link = .training) (y : LineSymbol) :
    receive p y s =
      let t := s.modPort p (receiveTraining y)
      if lossDue (t.port p) then goDown p t else if (t.port p).link = .up then settleOffers p t else t := by
  simp only [receive, training]

theorem receive_of_up {s : State} {p : PortId} (up : (s.port p).link = .up) (y : LineSymbol) :
    receive p y s =
      let t := s.modPort p (countUp y)
      if windowFull (t.port p) || lossDue (t.port p) then goDown p t else frameSymbol p y t := by
  simp only [receive, up]

/-- A change of a port matters only by what it makes of the port. -/
theorem State.modPort_congr {p : PortId} {f g : Port → Port} {s : State} (h : f (s.port p) = g (s.port p)) :
    s.modPort p f = s.modPort p g := by
  cases p
  · exact congrArg (fun q => { s with cab := q }) h
  · exact congrArg (fun q => { s with crane := q }) h

/-! ## Outside UP (R2 to R4) -/

/-- A symbol time in DOWN of a settled port. -/
theorem receiveDown_eq {q : Port} (down : q.link = .down) (settled : PortSettled q) (y : LineSymbol) :
    receiveDown y q =
      if y = .idle then { q with link := .training, invertedRun := 0, cleanCount := 0, lossCount := 0 }
      else if y = .invertedIdle ∧ q.invertedRun = 7 then
        { q with polarity := q.polarity.flip, flipped := true, invertedRun := 0 }
      else { q with invertedRun := if y = .invertedIdle then q.invertedRun + 1 else 0 } := by
  have run : q.invertedRun < 8 := settled.1 (by simp [down])
  unfold receiveDown invertedAfter
  dsimp only
  split
  · rename_i idle
    simp [idle]
  · by_cases inverted : y = .invertedIdle
    · by_cases seventh : q.invertedRun = 7
      · simp [inverted, seventh, flipDue, flipPolarity, down]
      · have : ¬8 ≤ q.invertedRun + 1 := by omega
        simp [inverted, seventh, flipDue, down, this]
    · simp [inverted, flipDue]

theorem lossAfter_eq (count : Nat) (y : LineSymbol) :
    lossAfter count y = if y = .violation ∨ y = .invertedIdle ∨ y = .noSymbol then count + 1 else 0 := by
  cases y <;> rfl

theorem cleanAfter_eq (count : Nat) (y : LineSymbol) :
    cleanAfter count y =
      if y = .violation ∨ y = .invertedIdle then 0 else if y = .noSymbol then count else count + 1 := by
  cases y <;> rfl

/-- A symbol time without a valid symbol adds no clean symbol (R3, R6). -/
theorem cleanAfter_le_of_loss (clean loss : Nat) (y : LineSymbol) (h : lossAfter loss y ≠ 0) :
    cleanAfter clean y ≤ clean := by
  cases y <;> simp_all [lossAfter, cleanAfter, isValid, isViolation]

/-- A port in TRAINING with the counts of a symbol time, and the flip they bring about. -/
def trainingCounted (y : LineSymbol) (q : Port) : Port :=
  if y = .invertedIdle then
    if q.invertedRun = 7 then
      { q with polarity := q.polarity.flip, flipped := true, invertedRun := 0, cleanCount := 0,
               lossCount := lossAfter q.lossCount y }
    else { q with invertedRun := q.invertedRun + 1, cleanCount := 0, lossCount := lossAfter q.lossCount y }
  else { q with invertedRun := 0, cleanCount := cleanAfter q.cleanCount y, lossCount := lossAfter q.lossCount y }

theorem trainingCounted_spec (y : LineSymbol) (q : Port) :
    (trainingCounted y q).link = q.link ∧ (trainingCounted y q).lossCount = lossAfter q.lossCount y ∧
      (trainingCounted y q).cleanCount = cleanAfter q.cleanCount y := by
  unfold trainingCounted
  split
  · rename_i inverted
    subst inverted
    split <;> exact ⟨rfl, rfl, rfl⟩
  · exact ⟨rfl, rfl, rfl⟩

/-- A symbol time in TRAINING of a settled port: the 2048th clean symbol leads UP. -/
theorem receiveTraining_eq {q : Port} (training : q.link = .training) (settled : PortSettled q) (y : LineSymbol) :
    receiveTraining y q =
      if cleanAfter q.cleanCount y = 2048 then goUp (trainingCounted y q) else trainingCounted y q := by
  have run : q.invertedRun < 8 := settled.1 (by simp [training])
  have below : cleanAfter q.cleanCount y ≤ 2048 := by
    have := settled.2.1 training
    rw [cleanAfter_eq]
    split
    · omega
    · split <;> omega
  have counted : (if flipDue { q with
        invertedRun := invertedAfter q.invertedRun y, cleanCount := cleanAfter q.cleanCount y,
        lossCount := lossAfter q.lossCount y } then flipPolarity { q with
          invertedRun := invertedAfter q.invertedRun y, cleanCount := cleanAfter q.cleanCount y,
          lossCount := lossAfter q.lossCount y } else { q with
        invertedRun := invertedAfter q.invertedRun y, cleanCount := cleanAfter q.cleanCount y,
        lossCount := lossAfter q.lossCount y }) = trainingCounted y q := by
    unfold trainingCounted invertedAfter
    by_cases inverted : y = .invertedIdle
    · subst inverted
      by_cases seventh : q.invertedRun = 7
      · simp [seventh, flipDue, flipPolarity, training]
      · have : ¬8 ≤ q.invertedRun + 1 := by omega
        simp [seventh, flipDue, training, this, cleanAfter_eq]
    · simp [inverted, flipDue]
  unfold receiveTraining
  dsimp only
  rw [counted]
  obtain ⟨link, -, clean⟩ := trainingCounted_spec y q
  have due : linkUpDue (trainingCounted y q) = true ↔ cleanAfter q.cleanCount y = 2048 := by
    simp [linkUpDue, link, clean, training]
    omega
  exact if_congr due rfl rfl

/-- Settles O8: DOWN by `receiveDown_eq`; in TRAINING the counts decide between UP, DOWN and staying. -/
theorem symbolOutsideUp : Obligations.SymbolOutsideUp := by
  intro p y s running settled notUp q
  refine ⟨fun down => ?_, fun training => ?_⟩
  · rw [exec_receiveSymbol running, receive_of_down down]
    exact congrArg _ (State.modPort_congr (receiveDown_eq down settled y))
  · intro silent clean loss counted
    have same : trainingCounted y q = counted := by
      simp only [trainingCounted, lossAfter_eq, cleanAfter_eq]
      rfl
    have cleanIs : cleanAfter q.cleanCount y = clean := cleanAfter_eq _ _
    have lossIs : lossAfter q.lossCount y = loss := lossAfter_eq _ _
    have below := settled.2.1 training
    have noneClean := cleanAfter_le_of_loss q.cleanCount q.lossCount y
    obtain ⟨link, countedLoss, -⟩ := trainingCounted_spec y q
    rw [exec_receiveSymbol running, receive_of_training training]
    dsimp only
    rw [State.modPort_port, State.modPort_congr (g := fun _ => receiveTraining y q) rfl,
      show receiveTraining y (s.port p) = receiveTraining y q from rfl, receiveTraining_eq training settled y]
    rw [same] at link countedLoss ⊢
    rw [cleanIs, lossIs] at noneClean
    rw [lossIs] at countedLoss
    rw [cleanIs]
    clear_value clean loss counted
    refine ⟨fun low quiet => ?_, fun full => ?_, fun lost => ?_⟩
    · have heard : ¬lossDue counted = true := by simp [lossDue, countedLoss, quiet]
      have stays : ¬counted.link = .up := by simp [link, training]
      rw [if_neg low.ne, if_neg heard, if_neg stays]
    · have heard : ¬lossDue (goUp counted) = true := by simp [lossDue, goUp]
      rw [if_pos full, if_neg heard]
      rfl
    · have due : lossDue counted = true := by simp [lossDue, link, training, countedLoss, lost]
      have notFull : clean ≠ 2048 := ((noneClean (by omega)).trans_lt below).ne
      rw [if_neg notFull, if_pos due]

/-! ## The commands of the link states (R3 to R7) -/

theorem flipDue_iff (q : Port) : flipDue q = true ↔ q.link ≠ .up ∧ 8 ≤ q.invertedRun := by simp [flipDue]

theorem linkUpDue_iff (q : Port) : linkUpDue q = true ↔ q.link = .training ∧ 2048 ≤ q.cleanCount := by simp [linkUpDue]

theorem lossDue_iff (q : Port) : lossDue q = true ↔ q.link ≠ .down ∧ 256 ≤ q.lossCount := by simp [lossDue]

theorem windowFull_iff (q : Port) : windowFull q = true ↔ q.link = .up ∧ 32 ≤ q.violations.length := by simp [windowFull]

/-- A row that acts when its condition stands and else finds nothing to do. -/
theorem unlessReset_ifDue {s : State} (running : s.inReset = false) {due : State → Bool} {f : State → State} {P : Prop}
    (h : due s = true ↔ P) :
    (¬P → (s.unlessReset fun s => if due s then f s else s) = .next s) ∧
      (P → (s.unlessReset fun s => if due s then f s else s) = .next (f s)) := by
  rw [State.unlessReset_running _ s running]
  exact ⟨fun no => by rw [if_neg (mt h.mp no)], fun yes => by rw [if_pos (h.mpr yes)]⟩

/-- What going DOWN does before anything is offered (R7). -/
theorem goDown_eq (p : PortId) (s : State) :
    ∃ t, goDown p s = settleIfLeft p.other s (settleIfLeft p s t) ∧
      t = { s with cab := t.cab, crane := t.crane, conditions := t.conditions } ∧
      t.conditions = s.conditions ||| BitVec.twoPow 32 (Condition.linkLost p).bit ∧
      t.port p.other = finishCopy false (s.port p.other) ∧ t.port p = downPort (s.port p) := by
  refine ⟨_, rfl, ?_, ?_, ?_, ?_⟩
  · cases p <;> rfl
  · simp
  · simp
  · simp

/-- Settles O9: each row by its own condition, and going DOWN by `goDown_eq`. -/
theorem linkStateCommandsFollowTheCounts : Obligations.LinkStateCommandsFollowTheCounts := by
  refine ⟨fun p s running => ⟨?_, ?_⟩, fun p s running => ⟨?_, ?_⟩, goDown_eq⟩
  · exact unlessReset_ifDue (due := fun s => flipDue (s.port p)) running (flipDue_iff _)
  · exact unlessReset_ifDue (due := fun s => linkUpDue (s.port p)) (f := fun s => settleOffers p (s.modPort p goUp)) running
      (linkUpDue_iff _)
  · exact unlessReset_ifDue (due := fun s => lossDue (s.port p)) running (lossDue_iff _)
  · exact unlessReset_ifDue (due := fun s => windowFull (s.port p)) running (windowFull_iff _)

end Sys2Proof.Machine
end

