-- ==== Sys2Proof/Proofs/RequestsTaken.lean ====
section
/-! PROOFS. Requests: one that meets a full queue is answered BUSY (R158). -/
namespace Sys2Proof.Machine

-- One theorem after another: side by side, so many small ones need more threads than the memory limit admits.
set_option Elab.async false

/-- With the queue full the request is answered BUSY and forgotten (R158). -/
theorem takeRequest_of_full {s : State} (full : 2 ≤ s.mgmt.requests.length) (p : PortId) (source : Byte)
    (payload : List Byte) : takeRequest p source payload s =
      s.offer p (replyFrame s.station { port := p, source, payload } .busy false true {}) :=
  if_neg (Nat.not_lt.mpr full)

/-- With a place in the queue the request joins it (R158). -/
theorem takeRequest_of_room {s : State} (room : s.mgmt.requests.length < 2) (p : PortId) (source : Byte)
    (payload : List Byte) : takeRequest p source payload s =
      { s with mgmt := { s.mgmt with requests := s.mgmt.requests ++ [{ port := p, source, payload }] } } :=
  if_pos room

/-- Settles O51: the two cases of the queue, and of the port when the queue is full. -/
theorem requestIsTakenOrAnsweredBusy : Obligations.RequestIsTakenOrAnsweredBusy := by
  intro p source payload s running
  have row : exec (.takeRequest p source payload) s = .next (takeRequest p source payload s) :=
    State.unlessReset_running _ _ running
  rw [row]
  refine ⟨fun room => by rw [takeRequest_of_room room], fun full => ?_⟩
  rw [takeRequest_of_full full]
  refine ⟨fun shut => ?_, fun up room => ?_⟩
  · rw [State.offer_of_not_placed]
    intro placed
    obtain ⟨up, room⟩ := (answer_eq_placed_iff _).mp placed
    rcases shut with down | noRoom
    · exact down up
    · omega
  · rw [State.offer_of_placed up room]
    exact ⟨_, _, rfl, goodAtEnd_replyFrame _ _ _ _ _ (Nat.zero_le _), rfl, State.modPort_frame _ _ _,
      State.modPort_port_other _ _ _, State.modPort_port _ _ _⟩

end Sys2Proof.Machine
end

