-- ==== Sys2Proof/Proofs/ShapedDemands.lean ====
section
/-! PROOFS. A VALVE DEMAND is forwarded shaped (R131, R133, R137, R140..R142). -/
namespace Sys2Proof.Machine

-- One theorem after another: side by side, so many small ones need more threads than the memory limit admits.
set_option Elab.async false

/-! ## The bound on a shaped demand (R134, R138, R153) -/

/-- Checks in order pass when each of them does. -/
theorem firstFailure_eq_none_iff (l : List (Option Failure)) : firstFailure l = none ↔ ∀ f ∈ l, f = none := by
  induction l with
  | nil => simp [firstFailure]
  | cons f l ih => cases f <;> simp [firstFailure, ih]

/-- Entry checks pass when each entry passes its own (R150). -/
theorem entryFailures_eq_none {α : Type} {checkEntry : Nat → α → Option Failure} {l : List α}
    (h : entryFailures checkEntry l = none) {e : α} (mem : e ∈ l) : ∃ i, checkEntry i e = none := by
  obtain ⟨i, lt, rfl⟩ := List.mem_iff_getElem.mp mem
  exact ⟨i, (firstFailure_eq_none_iff _).mp h _ (List.mem_mapIdx.mpr ⟨i, lt, rfl⟩)⟩

theorem failUnless_eq_none_iff {passes : Bool} {target : Target} {i : Nat} {code : Byte} :
    failUnless passes target i code = none ↔ passes = true := by
  cases passes <;> simp [failUnless]

/-- A valid set's warn scales are at most 1000 (R132, R153). -/
theorem SetValid.warnScale_le {t : TableSet} (h : SetValid t) {e : FunctionEntry} (mem : e ∈ t.functions) :
    e.warnScale.toNat ≤ 1000 := by
  have functions : checkFunctions t = none := (firstFailure_eq_none_iff _).mp h.1 _ (by simp)
  have entries : entryFailures checkFunction t.functions = none := (firstFailure_eq_none_iff _).mp functions _ (by simp)
  obtain ⟨i, passes⟩ := entryFailures_eq_none entries mem
  have fields : functionFieldsOk e = true :=
    failUnless_eq_none_iff.mp ((firstFailure_eq_none_iff _).mp passes (failUnless _ .functionEntry i 0x53) (by simp))
  simp only [functionFieldsOk, Bool.and_eq_true] at fields
  exact of_decide_eq_true (Bool.and_eq_true_iff.mp fields.2).2

theorem natAbs_clampDemand_le (d : Int) : (clampDemand d).natAbs ≤ 1000 := by
  unfold clampDemand clampInt
  split
  · omega
  · split <;> omega

/-- Scaled in WARN a demand grows no larger (R138). -/
theorem natAbs_warnScaled_le {s : State} (valid : ∀ set, s.active = some set → SetValid set) (function : Byte) (d : Int) :
    (warnScaled s function d).natAbs ≤ d.natAbs := by
  unfold warnScaled
  split
  · rename_i e found
    obtain ⟨set, active, entry⟩ := Option.bind_eq_some_iff.mp found
    have scale := (valid set active).warnScale_le (List.mem_of_find?_eq_some entry)
    rw [Int.natAbs_tdiv, Int.natAbs_mul, Int.natAbs_natCast]
    exact Nat.div_le_of_le_mul (by rw [Nat.mul_comm]; exact Nat.mul_le_mul_right _ scale)
  · exact Nat.le_refl _

/-- A shaped demand lies in −1000..1000 (R134, R137). -/
theorem natAbs_shapeDemand_le {s : State} (valid : ∀ set, s.active = some set → SetValid set) (function : Byte)
    (received : Int) : (shapeDemand s function received).natAbs ≤ 1000 := by
  have clamped := natAbs_clampDemand_le received
  have scaled := natAbs_warnScaled_le valid function (clampDemand received)
  simp only [shapeDemand]
  split
  · unfold shapeIncreasing
    split <;> omega
  · exact clamped
  · exact clamped

/-! ## Demand records and their bytes (R131) -/

/-- A record as its three bytes give it. -/
def demandOf (r : Byte × BitVec 16) : DemandRecord := { function := r.1, demand := r.2.toInt }

/-- The bytes of records. -/
def bytesOfDemands (l : List (Byte × BitVec 16)) : List Byte := l.flatMap fun r => r.1 :: bytes16 r.2

theorem demandOf_injective : Function.Injective demandOf := by
  intro a b h
  obtain ⟨function, demand⟩ := DemandRecord.mk.inj h
  exact Prod.ext function (BitVec.eq_of_toInt_eq demand)

theorem demandBytes_demandOf (r : Byte × BitVec 16) : demandBytes (demandOf r) = r.1 :: bytes16 r.2 := by
  simp only [demandBytes, demandOf, sendSigned16, BitVec.ofInt_toInt]

theorem flatMap_demandBytes (l : List (Byte × BitVec 16)) : (l.map demandOf).flatMap demandBytes = bytesOfDemands l := by
  simp only [List.flatMap_map, demandBytes_demandOf, bytesOfDemands]

theorem length_bytesOfDemands (l : List (Byte × BitVec 16)) : (bytesOfDemands l).length = 3 * l.length := by
  rw [← flatMap_demandBytes, length_demandBytes, List.length_map]

/-- A 16-bit field is its two bytes. -/
theorem append_bytes16 (x : BitVec 16) : x.extractLsb' 8 8 ++ x.extractLsb' 0 8 = x := field16_append [] x

/-- At most 12 records read back from their bytes (R131). -/
theorem demandRecords_bytesOfDemands {l : List (Byte × BitVec 16)} (few : l.length ≤ 12) :
    demandRecords (bytesOfDemands l) = some (l.map demandOf) := by
  have go : ∀ l, demandRecords.go (bytesOfDemands l) = some (l.map demandOf) := by
    intro l
    induction l with
    | nil => rfl
    | cons r l ih =>
      change (demandRecords.go (bytesOfDemands l)).map (_ :: ·) = _
      rw [ih, append_bytes16]
      rfl
  unfold demandRecords
  rw [if_pos (by rw [length_bytesOfDemands]; omega), go]

/-- A payload that is too long, or no whole number of records, is no list of demand records (R131). -/
theorem demandRecords_eq_none {payload : List Byte} (h : 36 < payload.length ∨ payload.length % 3 ≠ 0) :
    demandRecords payload = none := by
  cases found : demandRecords payload with
  | none => rfl
  | some rs =>
    have := length_demandRecords found
    omega

/-- A record as it is forwarded, in its two fields. -/
theorem shapeRecord_demandOf {s : State} (valid : ∀ set, s.active = some set → SetValid set) (r : Byte × BitVec 16) :
    shapeRecord s (demandOf r) = demandOf (r.1, BitVec.ofInt 16 (shapeDemand s r.1 r.2.toInt)) := by
  have small := natAbs_shapeDemand_le valid r.1 r.2.toInt
  simp only [shapeRecord, demandOf, DemandRecord.mk.injEq, true_and]
  rw [BitVec.toInt_ofInt]
  refine (Int.bmod_eq_of_le ?_ ?_).symm <;> omega

/-! ## The shaped frame (R140, R141) -/

theorem toNat_shapedFlags (shaped : Bool) (state : SupState) :
    (shapedFlags shaped (shapeLevel state) (decide (state = .bypass))).toNat =
      (if shaped then 1 else 0) + 2 * shapeLevel state + (if state = .bypass then 8 else 0) := by
  cases shaped <;> cases state <;> rfl

/-- The flags byte of a shaped frame (R140). -/
theorem toNat_flagsFor {s : State} {records shaped : List (Byte × BitVec 16)}
    (h : (records.map demandOf).map (shapeRecord s) = shaped.map demandOf) :
    (flagsFor s (records.map demandOf)).toNat =
      (if shaped = records then 0 else 1) + 2 * shapeLevel s.sup.state + (if s.sup.state = .bypass then 8 else 0) := by
  have same : shaped.map demandOf = records.map demandOf ↔ shaped = records :=
    List.map_inj_right fun _ _ e => demandOf_injective e
  rw [flagsFor, toNat_shapedFlags, h]
  by_cases kept : shaped = records <;> simp [same, kept]

/-- What the bytes of a frame of the part are: the header, the payload, the check (R9, R11). -/
theorem drop_five_frameOf (dest source kind flags : Byte) (payload : List Byte) :
    ∃ c : List Byte, c.length = 2 ∧ (frameOf dest source kind flags payload).drop 5 = payload ++ c :=
  ⟨_, length_bytes16 _, rfl⟩

/-- Settles O45: the shaped records are known by their two fields, and the frame's place by the crane port's answer. -/
theorem valveDemandIsShapedAndPlaced : Obligations.ValveDemandIsShapedAndPlaced := by
  intro dest source flags s running valid
  have row : ∀ payload, exec (.shapeValveDemand dest source flags payload) s = .next (shapeFrame dest source payload s) :=
    fun _ => State.unlessReset_running _ _ running
  refine ⟨fun payload unreadable => ?_, fun records few => ?_⟩
  · rw [row, shapeFrame, demandRecords_eq_none unreadable]
  intro bytesOf shaped level
  have forwarded : (records.map demandOf).map (shapeRecord s) = shaped.map demandOf := by
    simp only [shaped, List.map_map]
    exact List.map_congr_left fun r _ => shapeRecord_demandOf valid r
  have payload : ((records.map demandOf).map (shapeRecord s)).flatMap demandBytes = bytesOf shaped := by
    rw [forwarded, flatMap_demandBytes]
    rfl
  have length : (bytesOf shaped).length = 3 * records.length := by
    change (bytesOfDemands shaped).length = _
    rw [length_bytesOfDemands, List.length_map]
  have levels : shapeLevel s.sup.state = level := by
    simp only [level]
    cases s.sup.state <;> rfl
  have good := goodAtEnd_shapedFrame s dest source (rs := records.map demandOf) (by rw [List.length_map]; exact few)
  have shapes : shapeFrame dest source (bytesOf records) s =
      placeShaped (shapedFrame s dest source (records.map demandOf)) (clockEvent .vdShaped s) := by
    have read : demandRecords (bytesOf records) = some (records.map demandOf) := demandRecords_bytesOfDemands few
    rw [shapeFrame, read]
  have flagsByte : byteAt (shapedFrame s dest source (records.map demandOf)) 3 = flagsFor s (records.map demandOf) := rfl
  have crane : (clockEvent .vdShaped s).crane = s.crane := by simp
  refine ⟨shapedFrame s dest source (records.map demandOf), ?_, good, ?_, rfl, rfl, rfl, ?_, ?_⟩
  · rw [shapedFrame, payload]
    simp only [frameOf, List.length_append, List.length_cons, List.length_nil, length_bytes16, length]
    omega
  · rw [shapedFrame, payload]
    obtain ⟨c, -, split⟩ := drop_five_frameOf dest source kindValveDemand (flagsFor s (records.map demandOf)) (bytesOf shaped)
    rw [split, ← length, List.take_left]
  · rw [flagsByte, toNat_flagsFor forwarded, levels]
  · intro t
    have port : t.port .crane = s.crane := crane
    rw [row, shapes, placeShaped, crane]
    split
    · rename_i placed
      obtain ⟨up, room⟩ := (answer_eq_placed_iff _).mp placed
      have place := State.offer_of_placed (s := t) (p := .crane) (by rw [port]; exact up) (by rw [port]; exact room)
      rw [if_neg (fun down => down up), if_pos room, place, ← crane]
      rfl
    · rename_i full
      obtain ⟨up, noRoom⟩ := (answer_eq_noRoom_iff _).mp full
      rw [if_neg (fun down => down up), if_neg (Nat.not_lt.mpr noRoom), ← crane]
      rfl
    · rename_i notUp
      rw [if_pos ((answer_eq_notUp_iff _).mp notUp)]

end Sys2Proof.Machine
end

