-- ==== Sys2Proof/Proofs/FramesInUp.lean ====
section
/-! PROOFS. The frames that a port in UP receives (R10 to R15, O12 to O14). -/
namespace Sys2Proof.Machine

-- One theorem after another: side by side, so many small ones need more threads than the memory limit admits.
set_option Elab.async false

/-! ## A symbol time that leaves the port UP -/

/-- Below both limits a symbol time in UP counts and goes on to the framing (R10). -/
theorem receive_of_staysUp {s : State} {p : PortId} {y : LineSymbol} (up : (s.port p).link = .up)
    (window : (windowAfter (s.port p).violations (isViolation y)).length < 32)
    (loss : lossAfter (s.port p).lossCount y < 256) : receive p y s = frameSymbol p y (s.modPort p (countUp y)) := by
  have full : ¬windowFull ((s.modPort p (countUp y)).port p) = true := fun h => by
    rw [State.modPort_port] at h
    exact Nat.not_le.mpr window ((windowFull_iff _).mp h).2
  have lost : ¬lossDue ((s.modPort p (countUp y)).port p) = true := fun h => by
    rw [State.modPort_port] at h
    exact Nat.not_le.mpr loss ((lossDue_iff _).mp h).2
  rw [receive_of_up up]
  exact if_neg fun due => (Bool.or_eq_true_iff.mp due).elim full lost

/-- Two changes of one port are one change. -/
theorem State.modPort_modPort (p : PortId) (f g : Port → Port) (s : State) :
    (s.modPort p f).modPort p g = s.modPort p fun q => g (f q) := by
  cases p <;> rfl

theorem frameSymbol_of_inFrame {s : State} {p : PortId} (h : (s.port p).rx.framing = .inFrame) (y : LineSymbol) :
    frameSymbol p y s = inFrameSymbol p y s := by
  simp only [frameSymbol, h]

/-- A symbol time inside a frame that leaves the port UP. -/
theorem receive_inFrame {s : State} {p : PortId} {y : LineSymbol} (up : (s.port p).link = .up)
    (window : (windowAfter (s.port p).violations (isViolation y)).length < 32)
    (loss : lossAfter (s.port p).lossCount y < 256) (framing : (s.port p).rx.framing = .inFrame) :
    receive p y s = inFrameSymbol p y (s.modPort p (countUp y)) := by
  rw [receive_of_staysUp up window loss]
  exact frameSymbol_of_inFrame (by rw [State.modPort_port]; exact framing) y

/-! ## The header (R14, R18) -/

theorem treatmentOf_eq (station : Byte) (p : PortId) (dest kind : Byte) :
    treatmentOf station p dest kind =
      if kind = 0x21 then (if p = .crane then .cutThroughAndSnoop else .cutThrough)
      else if kind = 0x31 then (if p = .cab then .storeAndShape else .cutThrough)
      else if kind = 0x32 then (if p = .cab then .cutThroughAndSnoop else .cutThrough)
      else if kind = 0x51 ∧ dest = station then .take
      else .cutThrough := by
  cases p <;> rfl

/-- What is forwarded: all but a VALVE DEMAND of the cab port and a request to this station (R14). -/
theorem forwards_treatmentOf_iff (station : Byte) (p : PortId) (dest kind : Byte) :
    (treatmentOf station p dest kind).forwards = true ↔ ¬(kind = 0x31 ∧ p = .cab) ∧ ¬(kind = 0x51 ∧ dest = station) := by
  rw [treatmentOf_eq]
  by_cases sensor : kind = 0x21
  · subst sensor
    cases p <;> simp [Treatment.forwards]
  · by_cases demand : kind = 0x31
    · subst demand
      cases p <;> simp [Treatment.forwards]
    · by_cases operator : kind = 0x32
      · subst operator
        cases p <;> simp [Treatment.forwards]
      · by_cases take : kind = 0x51 ∧ dest = station
        · obtain ⟨rfl, rfl⟩ := take
          simp [Treatment.forwards]
        · rw [if_neg sensor, if_neg demand, if_neg operator, if_neg take]
          exact iff_of_true rfl ⟨fun h => demand h.1, take⟩

/-- A frame that becomes ready for the other port's list: placed, discarded with FORWARD_OVERRUN, or discarded (R18). -/
theorem forwardReady_effect (p : PortId) (header : List Byte) (s : State) :
    let t := forwardReady p.other header s
    t.port p = s.port p ∧ t = { s with cab := t.cab, crane := t.crane, conditions := t.conditions } ∧
      (t.port p.other).list =
        (if (s.port p.other).link = .up ∧ (s.port p.other).list.length < 6
         then (s.port p.other).list ++ [{ bytes := header, status := .arriving }] else (s.port p.other).list) ∧
      t.conditions =
        (if (s.port p.other).link = .up ∧ 6 ≤ (s.port p.other).list.length
         then s.conditions ||| BitVec.twoPow 32 (Condition.forwardOverrun p.other).bit else s.conditions) := by
  intro t
  simp only [t, forwardReady]
  split
  · rename_i notUp
    have down := (answer_eq_notUp_iff _).mp notUp
    exact ⟨rfl, rfl, by rw [if_neg fun h => down h.1], by rw [if_neg fun h => down h.1]⟩
  · rename_i noRoom
    have full := (answer_eq_noRoom_iff _).mp noRoom
    exact ⟨State.raise_port _ _ _, rfl, by rw [if_neg fun h => Nat.not_le.mpr h.2 full.2, State.raise_port],
      by rw [if_pos full]; rfl⟩
  · rename_i placed
    have room := (answer_eq_placed_iff _).mp placed
    refine ⟨State.modPort_other_port _ _ _, by cases p <;> rfl, ?_, ?_⟩
    · rw [if_pos room, State.modPort_port]
      rfl
    · rw [if_neg fun h => Nat.not_le.mpr room.2 h.2]
      simp

/-- The 5th byte completes the header (R10). -/
theorem frameByte_of_fifth {s : State} {p : PortId} {b : Byte} {header : List Byte}
    (joined : (s.port p).rx.bytes ++ [b] = header) (five : header.length = 5) :
    frameByte p b s = headerComplete p header (s.modPort p fun q => { q with rx := { q.rx with bytes := header } }) := by
  simp only [frameByte, joined]
  rw [if_neg (by omega), if_pos five]

/-- A header with a length of at most 120 is classified (R14). -/
theorem headerComplete_of_le {header : List Byte} (short : (byteAt header 4).toNat ≤ 120) (p : PortId) (s : State) :
    headerComplete p header s =
      let treatment := treatmentOf s.station p (byteAt header 0) (byteAt header 2)
      let t := s.modPort p fun q => { q with rx := { q.rx with treatment := some treatment } }
      if treatment.forwards then forwardReady p.other header t else t :=
  if_neg (Nat.not_lt.mpr short)

/-- Settles O12: the header is complete, its treatment is R14's, and the other port's answer says what comes of it. -/
theorem headerDecidesTheTreatment : Obligations.HeaderDecidesTheTreatment := by
  intro p dest source kind flags len s running up window framing bytes short header take treatment forwarded out
  have classified : treatment = treatmentOf s.station p dest kind := (treatmentOf_eq ..).symm
  have forwards : (treatmentOf s.station p dest kind).forwards = true ↔ forwarded := forwards_treatmentOf_iff ..
  -- the port with its counts, its five bytes and its treatment
  let q : Port := { countUp (.data len) (s.port p) with
    rx := { framing := .inFrame, bytes := header, treatment := some treatment } }
  have ready : receive p (.data len) s =
      if forwarded then forwardReady p.other header (s.modPort p fun _ => q) else s.modPort p fun _ => q := by
    have merged : ((s.modPort p (countUp (.data len))).modPort p
          fun q => { q with rx := { q.rx with bytes := header } }).modPort p
          (fun q => { q with rx := { q.rx with treatment := some treatment } }) = s.modPort p fun _ => q := by
      rw [State.modPort_modPort, State.modPort_modPort]
      refine State.modPort_congr ?_
      simp [q, countUp, ← framing]
    rw [receive_inFrame (y := .data len) up window (Nat.succ_pos _) framing]
    simp only [inFrameSymbol]
    rw [frameByte_of_fifth (header := header) (by rw [State.modPort_port]; exact congrArg (· ++ [len]) bytes) rfl,
      headerComplete_of_le (header := header) short]
    have station : ∀ f, ((s.modPort p (countUp (.data len))).modPort p f).station = s.station := fun f => by simp
    have fields : treatmentOf s.station p (byteAt header 0) (byteAt header 2) = treatment := classified.symm
    dsimp only
    rw [station, fields, merged]
    by_cases h : forwarded
    · rw [if_pos h, if_pos (by rw [classified]; exact forwards.mpr h)]
    · rw [if_neg h, if_neg (by rw [classified]; exact fun f => h (forwards.mp f))]
  have other : (s.modPort p fun _ => q).port p.other = out := State.modPort_port_other _ _ _
  have own : (s.modPort p fun _ => q).port p = q := State.modPort_port _ _ _
  have conditions : (s.modPort p fun _ => q).conditions = s.conditions := by simp
  rw [exec_receiveSymbol running, ready]
  refine ⟨_, rfl, ?_⟩
  by_cases h : forwarded
  · obtain ⟨kept, frame, list, raised⟩ := forwardReady_effect p header (s.modPort p fun _ => q)
    rw [other] at list raised
    rw [conditions] at raised
    simp only [h, if_true, true_and]
    refine ⟨by rw [kept, own], ?_, list, raised⟩
    rw [frame]
    cases p <;> rfl
  · simp only [h, if_false, false_and]
    exact ⟨by rw [own], by cases p <;> rfl, by rw [other], conditions⟩

/-! ## The end of a frame (R11, R15) -/

/-- A good frame's copy is made whole, and the frame is handed on (R15, R19). -/
theorem frameEnd_of_good {s : State} {p : PortId} {treatment : Treatment}
    (treated : (s.port p).rx.treatment = some treatment) (good : goodAtEnd (s.port p).rx.bytes = true) :
    frameEnd p s = handOn p treatment (s.port p).rx.bytes
      ((s.modPort p fun q => { q with rx := {} }).modPort p.other (finishCopy true)) := by
  simp only [frameEnd, good, if_true, treated]

/-- Settles O13: the END of a good frame, and the command of each treatment. -/
theorem goodEndHandsTheFrameOn : Obligations.GoodEndHandsTheFrameOn := by
  intro p bytes treatment s running up window arrived good source payload
  have counted : ((s.modPort p (countUp .endFrame)).port p).rx =
      { framing := .inFrame, bytes, treatment := some treatment } := by
    rw [State.modPort_port]
    exact arrived
  have handed := frameEnd_of_good (s := s.modPort p (countUp .endFrame)) (p := p) (treatment := treatment)
    (by rw [counted]) (by rw [counted]; exact good)
  rw [State.modPort_modPort, counted] at handed
  refine ⟨(s.modPort p fun q => { countUp .endFrame q with rx := {} }).modPort p.other (finishCopy true), ?_, ?_, ?_, ?_, ?_⟩
  · rw [State.modPort_other_port, State.modPort_port]
  · rw [State.modPort_port, State.modPort_port_other]
  · cases p <;> rfl
  · rw [State.modPort_other_port, State.modPort_port]
    rfl
  · rw [exec_receiveSymbol running, receive_inFrame (y := .endFrame) up window (Nat.succ_pos _) (by rw [arrived])]
    simp only [inFrameSymbol]
    rw [handed]
    have still : ∀ f g, ((s.modPort p f).modPort p.other g).inReset = false := fun f g => by simpa using running
    cases treatment with
    | cutThrough => rfl
    | cutThroughAndSnoop => cases p <;> exact (State.unlessReset_running _ _ (still _ _)).symm
    | storeAndShape => exact (State.unlessReset_running _ _ (still _ _)).symm
    | take => exact (State.unlessReset_running _ _ (still _ _)).symm

/-! ## Frames found bad (R10 to R12) -/

/-- What a frame found bad leaves, but for the offers that a freed place brings about. -/
theorem badFrame_eq (p : PortId) (next : Framing) (s : State) :
    ∃ t, badFrame p next s = settleIfLeft p.other s t ∧
      t.conditions = s.conditions ||| BitVec.twoPow 32 (Condition.checkErrorSeen p).bit ∧
      t.port p.other = finishCopy false (s.port p.other) ∧ t.port p = { s.port p with rx := { framing := next } } ∧
      t = { s with cab := t.cab, crane := t.crane, conditions := t.conditions } := by
  refine ⟨_, rfl, ?_, ?_, ?_, ?_⟩
  · simp
  · rw [State.modPort_port_other, State.modPort_port, State.raise_port]
  · rw [State.modPort_port, State.modPort_other_port, State.raise_port]
  · cases p <;> rfl

/-- The offers of a freed place depend on the state before only by the length of that list. -/
theorem settleIfLeft_congr {p : PortId} {before before' : State} (h : before.port p = before'.port p) (s : State) :
    settleIfLeft p before s = settleIfLeft p before' s := by
  simp only [settleIfLeft, h]

/-- The framing state after a frame found bad (R10). -/
def framingAfterBad (y : LineSymbol) : Framing :=
  if y = .startFrame then .inFrame else if y = .endFrame ∨ y = .abortFrame ∨ y = .idle then .waiting else .discarding

/-- A symbol that shows the frame in progress to be bad (R10 to R12). -/
def ShowsBad (bytes : List Byte) (y : LineSymbol) : Prop :=
  (∀ b, y = .data b → 127 ≤ bytes.length ∨ (bytes.length = 4 ∧ 120 < b.toNat)) ∧ (y = .endFrame → goodAtEnd bytes = false)

/-- What the receiver holds of a frame found bad does not matter. -/
theorem badFrame_modPort_rx (p : PortId) (next : Framing) (s : State) (rx : Port → Receiver) :
    badFrame p next (s.modPort p fun q => { q with rx := rx q }) = badFrame p next s := by
  unfold badFrame
  rw [settleIfLeft_congr (before' := s) (State.modPort_port_other _ _ _)]
  cases p <;> rfl

/-- A 128th byte, and a 5th byte above 120, show the frame to be bad (R10, R12). -/
theorem frameByte_of_bad {s : State} {p : PortId} {b : Byte}
    (bad : 127 ≤ (s.port p).rx.bytes.length ∨ ((s.port p).rx.bytes.length = 4 ∧ 120 < b.toNat)) :
    frameByte p b s = badFrame p .discarding s := by
  rcases bad with long | ⟨four, high⟩
  · simp only [frameByte]
    rw [if_pos (by rw [List.length_append]; exact Nat.succ_le_succ long)]
  · have fifth : byteAt ((s.port p).rx.bytes ++ [b]) 4 = b := by
      simp [byteAt, List.getD_eq_getElem?_getD, ← four]
    rw [frameByte_of_fifth rfl (by rw [List.length_append, four]; rfl), headerComplete, fifth, if_pos high]
    exact badFrame_modPort_rx p .discarding s fun q => { q.rx with bytes := _ }

/-- Every symbol that shows the frame bad ends it alike (R10 to R12). -/
theorem inFrameSymbol_of_bad {s : State} {p : PortId} {y : LineSymbol} (bad : ShowsBad (s.port p).rx.bytes y) :
    inFrameSymbol p y s = badFrame p (framingAfterBad y) s := by
  obtain ⟨byte, atEnd⟩ := bad
  cases y with
  | data b => exact frameByte_of_bad (byte b rfl)
  | endFrame => exact if_neg (by rw [atEnd rfl]; exact Bool.false_ne_true)
  | _ => rfl

/-- Settles O14: every such symbol drops the frame, whose port has its counts already. -/
theorem badFrameReachesNoBlock : Obligations.BadFrameReachesNoBlock := by
  intro p y s running up window loss framing byte atEnd next
  have bad : ShowsBad ((s.modPort p (countUp y)).port p).rx.bytes y := by
    rw [State.modPort_port]
    refine ⟨fun b e => ?_, atEnd⟩
    rcases byte b e with long | high
    · exact .inl (Nat.le_of_eq long.symm)
    · exact .inr high
  obtain ⟨t, ends, conditions, other, own, frame⟩ := badFrame_eq p (framingAfterBad y) (s.modPort p (countUp y))
  rw [settleIfLeft_congr (before' := s) (State.modPort_port_other _ _ _)] at ends
  rw [exec_receiveSymbol running, receive_inFrame up window loss framing, inFrameSymbol_of_bad bad, ends]
  refine ⟨t, rfl, ?_, ?_, ?_, ?_⟩
  · rw [conditions]
    simp
  · rw [other, State.modPort_port_other]
  · rw [own, State.modPort_port]
    rfl
  · rw [frame]
    cases p <;> rfl

end Sys2Proof.Machine
end

