-- ==== Sys2Proof/Proofs/Offers.lean ====
section
/-! PROOFS. What the offers of the part's own frames leave of the ports (R16, R21, R162, R173), and with it
what a symbol time in UP leaves of the receiver (R10). -/
namespace Sys2Proof.Machine

-- One theorem after another: side by side, so many small ones need more threads than the memory limit admits.
set_option Elab.async false

/-- From one state to the other the ports differ in their lists alone. -/
def ListsOnly (s t : State) : Prop := ∀ p, ∃ list, t.port p = { s.port p with list := list }

theorem ListsOnly.of_same {s t : State} (cab : t.cab = s.cab) (crane : t.crane = s.crane) : ListsOnly s t := by
  intro p
  cases p
  · exact ⟨_, cab⟩
  · exact ⟨_, crane⟩

theorem ListsOnly.trans {s t u : State} (h : ListsOnly s t) (g : ListsOnly t u) : ListsOnly s u := by
  intro p
  obtain ⟨_, first⟩ := h p
  obtain ⟨list, second⟩ := g p
  exact ⟨list, by rw [second, first]⟩

theorem listsOnly_offer (p : PortId) (frame : List Byte) (s : State) : ListsOnly s (s.offer p frame) := by
  unfold State.offer
  split
  · intro r
    cases p <;> cases r <;> exact ⟨_, rfl⟩
  · exact .of_same rfl rfl

theorem listsOnly_attemptNotice (s : State) : ListsOnly s (attemptNotice s) := by
  rcases attemptNotice_cases s with same | ⟨placed, -, -, -⟩
  · rw [same]
    exact .of_same rfl rfl
  · rw [placed]
    intro r
    cases r <;> exact ⟨_, rfl⟩

theorem listsOnly_offerHeld (s : State) : ListsOnly s (offerHeld s) := by
  unfold offerHeld
  split
  · rename_i reply restart r rest _ _
    split
    · exact .of_same rfl rfl
    · refine (listsOnly_offer r.port reply s).trans ?_
      cases restart <;> exact .of_same rfl rfl
    · cases restart <;> exact .of_same rfl rfl
  · exact .of_same rfl rfl

theorem listsOnly_makeOffer (p : PortId) (o : Offer) (s : State) : ListsOnly s (makeOffer p o s) := by
  cases o with
  | reply =>
    unfold makeOffer
    dsimp only
    split
    · exact listsOnly_offerHeld s
    · exact .of_same rfl rfl
  | notice => exact listsOnly_attemptNotice s

theorem listsOnly_makeOffers (p : PortId) (offers : List Offer) (s : State) : ListsOnly s (makeOffers p offers s) := by
  induction offers generalizing s with
  | nil => exact .of_same rfl rfl
  | cons o offers ih => exact (listsOnly_makeOffer p o s).trans (ih _)

/-- An OPERATOR STATE frame touches the ports by a NOTICE at most (R35, R65). -/
theorem listsOnly_liftTareRequest (s : State) : ListsOnly s (liftTareRequest s) := by
  unfold liftTareRequest
  split
  · exact .of_same (by simp) (by simp)
  · exact listsOnly_attemptNotice (s.markPending .tareFailed)

theorem listsOnly_takeTareNumber (number : Byte) (s : State) : ListsOnly s (takeTareNumber number s) := by
  unfold takeTareNumber
  dsimp only
  split
  · exact .of_same (by simp) (by simp)
  · split
    · exact .of_same (by simp) (by simp)
    · exact ListsOnly.trans (.of_same (by simp) (by simp)) (listsOnly_liftTareRequest (s.modSnapshot _))

theorem listsOnly_readOperatorState (payload : List Byte) (s : State) : ListsOnly s (readOperatorState payload s) := by
  unfold readOperatorState
  split
  · split
    · exact ListsOnly.trans (.of_same (by simp) (by simp)) (listsOnly_takeTareNumber _ ((takeTool _ s).modSnapshot _))
    · exact .of_same rfl rfl
  · exact .of_same rfl rfl

/-! ## What the offers leave of a receiver -/

/-- A port's receiver has the link state and the counts that it had, and holds `rx`. -/
def Receives (p : PortId) (s : State) (rx : Receiver) (t : State) : Prop :=
  (t.port p).link = (s.port p).link ∧ (t.port p).violations = (s.port p).violations ∧
    (t.port p).lossCount = (s.port p).lossCount ∧ (t.port p).rx = rx

theorem Receives.of_port {p : PortId} {s t : State} (h : t.port p = s.port p) : Receives p s (s.port p).rx t :=
  ⟨by rw [h], by rw [h], by rw [h], by rw [h]⟩

theorem Receives.of_rx {p : PortId} {s t : State} {rx : Receiver} (h : t.port p = { s.port p with rx := rx }) :
    Receives p s rx t := ⟨by rw [h], by rw [h], by rw [h], by rw [h]⟩

theorem Receives.trans {p : PortId} {s t u : State} {rx : Receiver} (h : Receives p s rx t)
    (g : Receives p t (t.port p).rx u) : Receives p s rx u := by
  obtain ⟨link, violations, loss, holds⟩ := h
  obtain ⟨link', violations', loss', holds'⟩ := g
  exact ⟨link'.trans link, violations'.trans violations, loss'.trans loss, holds'.trans holds⟩

theorem ListsOnly.receives {s t : State} (h : ListsOnly s t) (p : PortId) : Receives p s (s.port p).rx t := by
  obtain ⟨_, same⟩ := h p
  exact ⟨by rw [same], by rw [same], by rw [same], by rw [same]⟩

/-- Making offers, or owing them, is no matter of a receiver. -/
theorem receives_settleOffers (p q : PortId) (s : State) : Receives p s (s.port p).rx (settleOffers q s) := by
  obtain ⟨nothing, notUp, atOnceOrOwed⟩ := settleOffers_offers q s
  by_cases none : waitingOffers q s = []
  · rw [nothing none]
    exact .of_port rfl
  by_cases up : (s.port q).link = .up
  · obtain ⟨atOnce, later, -, made⟩ := atOnceOrOwed up none
    rw [made]
    have owes : Receives p s (s.port p).rx ({ s with choices := s.choices + 2 }.owe q later) := by
      cases p <;> cases q <;> exact ⟨rfl, rfl, rfl, rfl⟩
    exact owes.trans ((listsOnly_makeOffers q atOnce _).receives p)
  · rw [notUp up]
    exact (listsOnly_makeOffers q _ s).receives p

theorem receives_settleIfLeft (p q : PortId) (before s : State) :
    Receives p s (s.port p).rx (settleIfLeft q before s) := by
  unfold settleIfLeft
  split
  · exact receives_settleOffers p q s
  · exact .of_port rfl

/-- After a frame found bad the receiver goes on in the next framing state (R10). -/
theorem receives_badFrame (p : PortId) (next : Framing) (s : State) :
    Receives p s { framing := next } (badFrame p next s) := by
  obtain ⟨t, ends, -, -, own, -⟩ := badFrame_eq p next s
  rw [ends]
  exact (Receives.of_rx own).trans (receives_settleIfLeft _ _ _ _)

/-- A good frame handed on does not change the receiver that it came from. -/
theorem receives_handOn (p : PortId) (treatment : Treatment) (bytes : List Byte) (s : State) :
    Receives p s (s.port p).rx (handOn p treatment bytes s) := by
  cases treatment with
  | cutThrough => exact .of_port rfl
  | cutThroughAndSnoop =>
    cases p with
    | crane => exact .of_port (t := readReport _ _ s) (by simp [State.port])
    | cab =>
      exact (listsOnly_readOperatorState _ s).receives .cab
  | storeAndShape =>
    simp only [handOn, shapeFrame]
    split
    · exact .of_port rfl
    · rename_i rs _
      have event : ListsOnly s (clockEvent .vdShaped s) := .of_same (by simp) (by simp)
      unfold placeShaped
      split
      · exact (event.trans (listsOnly_offer _ _ _)).receives p
      · exact (event.trans (.of_same (by simp) (by simp))).receives p
      · exact event.receives p
  | take =>
    simp only [handOn, takeRequest]
    split
    · exact .of_port (by cases p <;> rfl)
    · exact (listsOnly_offer p _ s).receives p

/-! ## A symbol time in UP (R5, R6, R10) -/

theorem windowAfter_eq (violations : List Nat) (y : LineSymbol) :
    windowAfter violations (isViolation y) =
      (violations.map (· + 1)).filter (· < 1024) ++ if y = .violation ∨ y = .invertedIdle then [0] else [] := by
  cases y <;> rfl

/-- A byte that is neither the 5th nor the 128th joins the frame, and its copy once that is forwarded (R10, R16). -/
theorem frameByte_of_joins {s : State} {p : PortId} {bytes : List Byte} (h : (s.port p).rx.bytes = bytes)
    (short : bytes.length < 127) (notFifth : bytes.length ≠ 4) (b : Byte) :
    frameByte p b s =
      let joined := s.modPort p fun q => { q with rx := { q.rx with bytes := bytes ++ [b] } }
      if (s.port p).rx.treatment.elim false Treatment.forwards then joined.modPort p.other (extendCopy b) else joined := by
  have length : (bytes ++ [b]).length = bytes.length + 1 := List.length_append
  simp only [frameByte, h]
  rw [if_neg (by omega), if_neg (by omega)]

/-- The 5th byte, when it is no bad length, joins the frame as well. -/
theorem receives_frameByte_of_fifth {s : State} {p : PortId} {b : Byte} (four : (s.port p).rx.bytes.length = 4)
    (short : b.toNat ≤ 120) :
    ∃ treatment, Receives p s { (s.port p).rx with bytes := (s.port p).rx.bytes ++ [b], treatment := some treatment }
      (frameByte p b s) := by
  have fifth : byteAt ((s.port p).rx.bytes ++ [b]) 4 = b := by
    simp [byteAt, List.getD_eq_getElem?_getD, ← four]
  rw [frameByte_of_fifth rfl (by rw [List.length_append, four]; rfl), headerComplete_of_le (by rw [fifth]; exact short)]
  dsimp only
  rw [State.modPort_modPort]
  generalize treatmentOf _ _ _ _ = treatment
  refine ⟨treatment, ?_⟩
  split
  · refine Receives.trans ?_ (.of_port (forwardReady_effect p _ _).1)
    exact .of_rx (by rw [State.modPort_port])
  · exact .of_rx (by rw [State.modPort_port])

theorem forwards_iff (treatment : Option Treatment) :
    treatment.elim false Treatment.forwards = true ↔
      treatment = some .cutThrough ∨ treatment = some .cutThroughAndSnoop := by
  cases treatment with
  | none => simp
  | some t => cases t <;> simp [Treatment.forwards]

theorem frameSymbol_of_waiting {s : State} {p : PortId} (h : (s.port p).rx.framing = .waiting) (y : LineSymbol) :
    frameSymbol p y s = s.modPort p fun q => if y = .startFrame then { q with rx := { framing := .inFrame } } else q := by
  have same : s = s.modPort p fun q => q := (State.modPort_id p s).symm
  simp only [frameSymbol, h]
  cases y with
  | startFrame => rfl
  | _ => exact same

theorem frameSymbol_of_discarding {s : State} {p : PortId} (h : (s.port p).rx.framing = .discarding) (y : LineSymbol) :
    frameSymbol p y s = s.modPort p fun q => if y = .idle then { q with rx := { framing := .waiting } } else q := by
  have same : s = s.modPort p fun q => q := (State.modPort_id p s).symm
  simp only [frameSymbol, h]
  cases y with
  | idle => rfl
  | _ => exact same

/-- The framing state and the bytes in which a symbol leaves a receiver that is in a frame (R10). -/
def FramedBy (rx : Receiver) (y : LineSymbol) (left : Receiver) : Prop :=
  match y with
  | .startFrame => left = { framing := .inFrame }
  | .data b =>
    if 127 ≤ rx.bytes.length ∨ (rx.bytes.length = 4 ∧ 120 < b.toNat) then left = { framing := .discarding }
    else left.framing = .inFrame ∧ left.bytes = rx.bytes ++ [b]
  | .endFrame => left = { framing := .waiting }
  | .abortFrame => left = { framing := .waiting }
  | .idle => left = { framing := .waiting }
  | _ => left = { framing := .discarding }

/-- The END of a frame, good or bad, leaves the receiver WAITING (R10). -/
theorem receives_frameEnd (p : PortId) (s : State) : Receives p s { framing := .waiting } (frameEnd p s) := by
  by_cases good : goodAtEnd (s.port p).rx.bytes = true
  · have done : Receives p s {} ((s.modPort p fun q => { q with rx := {} }).modPort p.other (finishCopy true)) :=
      .of_rx (by rw [State.modPort_other_port, State.modPort_port])
    simp only [frameEnd, good, if_true]
    split
    · exact done.trans (receives_handOn _ _ _ _)
    · exact done
  · simp only [frameEnd, good]
    exact receives_badFrame _ _ _

/-- A symbol in a frame leaves the receiver as R10's table says. -/
theorem receives_inFrameSymbol {p : PortId} {s : State} (framing : (s.port p).rx.framing = .inFrame) (y : LineSymbol) :
    ∃ rx, Receives p s rx (inFrameSymbol p y s) ∧ FramedBy (s.port p).rx y rx := by
  cases y with
  | data b =>
    simp only [FramedBy, inFrameSymbol]
    split
    · rename_i bad
      rw [frameByte_of_bad bad]
      exact ⟨_, receives_badFrame _ _ _, rfl⟩
    · rename_i good
      by_cases four : (s.port p).rx.bytes.length = 4
      · obtain ⟨_, joins⟩ := receives_frameByte_of_fifth four (b := b) (by omega)
        exact ⟨_, joins, framing, rfl⟩
      · rw [frameByte_of_joins rfl (by omega) four]
        refine ⟨{ (s.port p).rx with bytes := (s.port p).rx.bytes ++ [b] }, .of_rx ?_, framing, rfl⟩
        dsimp only
        split
        · rw [State.modPort_other_port, State.modPort_port]
        · rw [State.modPort_port]
  | endFrame => exact ⟨_, receives_frameEnd p s, rfl⟩
  | _ => exact ⟨_, receives_badFrame _ _ _, rfl⟩

/-- Settles O11: the counts first, then the table of R10 by framing state and symbol. -/
theorem framingStatesInUp : Obligations.FramingStatesInUp := by
  intro p y s running up q rx violation window loss counted
  have windowed : windowAfter q.violations (isViolation y) = window := windowAfter_eq _ y
  have lost : lossAfter q.lossCount y = loss := by
    rw [lossAfter_eq]
    exact if_congr (by simp only [violation, or_assoc]) rfl rfl
  have counts : countUp y q = counted := by
    unfold countUp
    rw [windowed, lost]
  have counting : s.modPort p (countUp y) = s.modPort p fun _ => counted := State.modPort_congr counts
  have port : (s.modPort p fun _ => counted).port p = counted := State.modPort_port _ _ _
  rw [exec_receiveSymbol running]
  refine ⟨fun atLimit => ?_, fun belowWindow belowLoss => ?_⟩
  · have due : (windowFull counted || lossDue counted) = true :=
      Bool.or_eq_true_iff.mpr (atLimit.imp (fun full => (windowFull_iff _).mpr ⟨up, full⟩)
        fun silent => (lossDue_iff _).mpr ⟨by rw [show counted.link = .up from up]; exact LinkState.noConfusion, silent⟩)
    rw [receive_of_up up, counting]
    dsimp only
    rw [port, if_pos due]
  rw [receive_of_staysUp up (windowed ▸ belowWindow) (lost ▸ belowLoss), counting]
  refine ⟨fun waiting => ?_, fun discarding => ?_, fun b inFrame data short notFifth => ?_, fun inFrame => ?_⟩
  · rw [frameSymbol_of_waiting (by rw [port]; exact waiting), State.modPort_modPort]
  · rw [frameSymbol_of_discarding (by rw [port]; exact discarding), State.modPort_modPort]
  · intro joined forwarded
    have bytes : ((s.modPort p fun _ => counted).port p).rx.bytes = rx.bytes := by rw [port]
    rw [frameSymbol_of_inFrame (by rw [port]; exact inFrame), data]
    simp only [inFrameSymbol]
    rw [frameByte_of_joins bytes short notFifth]
    dsimp only
    rw [State.modPort_modPort, port]
    exact congrArg _ (if_congr (forwards_iff _) rfl rfl)
  · have framing : ((s.modPort p fun _ => counted).port p).rx.framing = .inFrame := by
      rw [port]
      exact inFrame
    obtain ⟨left, ⟨link, violations, silent, holds⟩, framed⟩ := receives_inFrameSymbol framing y
    rw [port] at link violations silent framed
    rw [frameSymbol_of_inFrame framing]
    refine ⟨_, rfl, link.trans up, violations, silent, ?_⟩
    rw [holds]
    cases y <;> exact framed

end Sys2Proof.Machine
end

