-- ==== Sys2Proof/Proofs/Transmitting.lean ====
section
/-! PROOFS. One symbol time of a transmitter (R2, R7, R8, R16 to R19), and a whole entry's symbols in turn. -/
namespace Sys2Proof.Machine

-- One theorem after another: side by side, so many small ones need more threads than the memory limit admits.
set_option Elab.async false

theorem exec_transmitSymbol (p : PortId) (s : State) : exec (.transmitSymbol p) s = .next (transmit p s) := rfl

/-! ## The offers that a port owes -/

/-- Owed offers that are made are owed no more (notes/assumptions/31.md). -/
theorem owed_offerOwed (p : PortId) (s : State) : ((offerOwed p s).port p).owed = [] := by
  obtain ⟨list, same⟩ := listsOnly_makeOffers p (s.port p).owed (s.owe p []) p
  rw [offerOwed, same]
  exact State.owe_owed p [] s

/-- A running transmitter makes its owed offers before it sends (notes/assumptions/31.md). -/
theorem transmit_of_running {s : State} (running : s.inReset = false) (p : PortId) :
    transmit p s = settleIfLeft p (offerOwed p s) ((offerOwed p s).modPort p (sendSymbol true)) := by
  simp [transmit, running]

theorem transmit_offerOwed {s : State} (running : s.inReset = false) (p : PortId) :
    transmit p (offerOwed p s) = transmit p s := by
  rw [transmit_of_running running, transmit_of_running (by simpa using running), offerOwed_none p _ (owed_offerOwed p s)]

/-! ## The symbol, and the entry that leaves with it -/

theorem settleIfLeft_of_kept {p : PortId} {before s : State} (h : (s.port p).list = (before.port p).list) :
    settleIfLeft p before s = s := if_neg (by rw [h]; exact Nat.lt_irrefl _)

theorem settleIfLeft_of_left {p : PortId} {before s : State} (h : (s.port p).list.length < (before.port p).list.length) :
    settleIfLeft p before s = settleOffers p s := if_pos h

/-- A transmitter that has no offers to make sends its symbol; no entry leaves. -/
theorem transmit_of_kept {s : State} {p : PortId} {f : Port → Port} (idle : s.inReset = true ∨ (s.port p).owed = [])
    (sends : sendSymbol (!s.inReset) (s.port p) = f (s.port p)) (kept : (f (s.port p)).list = (s.port p).list) :
    transmit p s = s.modPort p f := by
  cases reset : s.inReset with
  | true =>
    rw [reset] at sends
    simp only [transmit, reset, if_true]
    exact State.modPort_congr sends
  | false =>
    rw [reset, Bool.not_false] at sends
    rw [reset] at idle
    have owed : (s.port p).owed = [] := idle.resolve_left Bool.false_ne_true
    rw [transmit_of_running reset, offerOwed_none p s owed, State.modPort_congr sends]
    exact settleIfLeft_of_kept (by rw [State.modPort_port, kept])

/-- A transmitter with which an entry leaves: what waits for the list is offered. -/
theorem transmit_of_left {s : State} {p : PortId} {f : Port → Port} (running : s.inReset = false)
    (owed : (s.port p).owed = []) (sends : sendSymbol true (s.port p) = f (s.port p))
    (left : (f (s.port p)).list.length < (s.port p).list.length) : transmit p s = settleOffers p (s.modPort p f) := by
  rw [transmit_of_running running, offerOwed_none p s owed, State.modPort_congr (g := f) sends]
  exact settleIfLeft_of_left (by rw [State.modPort_port]; exact left)

theorem sendSymbol_of_abort {q : Port} (abort : q.abortNext = true) (running : Bool) :
    sendSymbol running q = { q with abortNext := false, owesIdle := true, lastSent := .abortFrame } := if_pos abort

/-- In reset, not UP, owing its IDLE, or with nothing to send, a transmitter sends IDLE (R2, R8, R17). -/
theorem sendSymbol_of_idle {q : Port} {running : Bool} (noAbort : q.abortNext = false)
    (idle : running = false ∨ q.link ≠ .up ∨ q.owesIdle = true ∨ q.list = []) :
    sendSymbol running q = { q with owesIdle := false, lastSent := .idle } := by
  unfold sendSymbol
  rw [if_neg (by rw [noAbort]; exact Bool.false_ne_true)]
  split
  · rfl
  · rename_i sending
    simp only [not_or, Bool.not_eq_true, not_not] at sending
    obtain ⟨runs, up, owesNone⟩ := sending
    have empty : q.list = [] := by simp_all
    rw [empty]
    dsimp only
    rw [← owesNone]

/-- A head entry that leaves takes its place with it. -/
theorem leaveHead_eq {q : Port} {e : Entry} {rest : List Entry} (list : q.list = e :: rest) (y : LineSymbol) :
    leaveHead y q = { q with list := rest, sending := none, owesIdle := true, lastSent := y } := by
  simp [leaveHead, list]

section HeadEntry

/-! A port that is UP and owes nothing sends its head entry (R16, R17, R19). -/

variable {q : Port} {e : Entry} {rest : List Entry} (noAbort : q.abortNext = false) (up : q.link = .up)
  (noIdle : q.owesIdle = false) (list : q.list = e :: rest)
include noAbort up noIdle list

theorem sendSymbol_of_start (start : q.sending = none) :
    sendSymbol true q = { q with sending := some 0, lastSent := .startFrame } := by
  simp [sendSymbol, noAbort, up, noIdle, list, start]

theorem sendSymbol_of_broken {k : Nat} (sending : q.sending = some k) (broken : e.status = .broken) :
    sendSymbol true q = leaveHead .abortFrame q := by
  simp [sendSymbol, noAbort, up, noIdle, list, sending, broken]

theorem sendSymbol_of_byte {k : Nat} {b : Byte} (sending : q.sending = some k) (sound : e.status ≠ .broken)
    (byte : e.bytes[k]? = some b) : sendSymbol true q = { q with sending := some (k + 1), lastSent := .data b } := by
  simp [sendSymbol, noAbort, up, noIdle, list, sending, sound, byte]

theorem sendSymbol_of_end {k : Nat} (sending : q.sending = some k) (whole : e.status = .whole) (past : e.bytes.length ≤ k) :
    sendSymbol true q = leaveHead .endFrame q := by
  simp [sendSymbol, noAbort, up, noIdle, list, sending, whole, past]

theorem sendSymbol_of_not_arrived {k : Nat} (sending : q.sending = some k) (arriving : e.status = .arriving)
    (past : e.bytes.length ≤ k) : sendSymbol true q = q := by
  simp [sendSymbol, noAbort, up, noIdle, list, sending, arriving, past]

end HeadEntry

/-- Settles O16: by what the transmitter owes, and else by its head entry and how much of it has been sent. -/
theorem transmitterSendsAbortOrIdle : Obligations.TransmitterSendsAbortOrIdle := by
  intro p s q next left
  have sends : ∀ f, s.inReset = true ∨ q.owed = [] → sendSymbol (!s.inReset) q = f q → (f q).list = q.list →
      exec (.transmitSymbol p) s = next f :=
    fun f idle sent same => congrArg _ (transmit_of_kept idle sent same)
  refine ⟨fun running => ⟨owed_offerOwed p s, ?_⟩, fun idle abort => ?_, fun idle noAbort sendsIdle => ?_,
    fun e rest owed noAbort running up noIdle list => ?_⟩
  · rw [exec_transmitSymbol, exec_transmitSymbol, transmit_offerOwed running]
  · exact sends _ idle (sendSymbol_of_abort abort _) rfl
  · exact sends _ idle (sendSymbol_of_idle noAbort (by simpa using sendsIdle)) rfl
  have kept : ∀ f, sendSymbol true q = f q → (f q).list = q.list → exec (.transmitSymbol p) s = next f :=
    fun f sent same => sends f (.inr owed) (by rw [running]; exact sent) same
  have leaves : ∀ f, sendSymbol true q = f q → (f q).list = rest → exec (.transmitSymbol p) s = left f :=
    fun f sent same => congrArg _ (transmit_of_left running owed sent
      (by rw [show (f (s.port p)).list = rest from same, show (s.port p).list = e :: rest from list]
          exact Nat.lt_succ_self _))
  refine ⟨fun start => ?_, fun k sending => ⟨fun broken => ?_, fun b sound byte => ?_, fun whole past => ?_,
    fun arriving past => ?_⟩⟩
  · exact kept _ (sendSymbol_of_start noAbort up noIdle list start) rfl
  · exact leaves _ ((sendSymbol_of_broken noAbort up noIdle list sending broken).trans (leaveHead_eq list _)) rfl
  · exact kept _ (sendSymbol_of_byte noAbort up noIdle list sending sound byte) rfl
  · exact leaves _ ((sendSymbol_of_end noAbort up noIdle list sending whole past).trans (leaveHead_eq list _)) rfl
  · rw [kept id (sendSymbol_of_not_arrived noAbort up noIdle list sending arriving past) rfl]
    exact congrArg _ (State.modPort_id p s)

end Sys2Proof.Machine
end

