-- ==== Sys2Proof/Proofs/WholeEntries.lean ====
section
/-! PROOFS. A whole entry leaves as START, its bytes, END and one IDLE (R16, R17). -/
namespace Sys2Proof.Machine

-- One theorem after another: side by side, so many small ones need more threads than the memory limit admits.
set_option Elab.async false

/-! ## With nothing waiting the offers change nothing -/

theorem makeOffer_of_nothing {s : State} (notices : s.notices = 0) (mgmt : s.mgmt = {}) (p : PortId) (o : Offer) :
    makeOffer p o s = s := by
  cases o with
  | reply => simp [makeOffer, heldFor, mgmt]
  | notice => exact if_neg fun h => h.1 notices

theorem makeOffers_of_nothing {s : State} (notices : s.notices = 0) (mgmt : s.mgmt = {}) (p : PortId) (offers : List Offer) :
    makeOffers p offers s = s := by
  induction offers with
  | nil => rfl
  | cons o offers ih => exact (congrArg (makeOffers p offers) (makeOffer_of_nothing notices mgmt p o)).trans ih

theorem settleOffers_of_nothing {s : State} (notices : s.notices = 0) (mgmt : s.mgmt = {}) (p : PortId) :
    settleOffers p s = s :=
  (settleOffers_offers p s).1 (by simp [waitingOffers, heldFor, notices, mgmt])

theorem offerOwed_of_nothing {s : State} (notices : s.notices = 0) (mgmt : s.mgmt = {}) (p : PortId) :
    offerOwed p s = s.owe p [] :=
  makeOffers_of_nothing (by simpa [State.owe] using notices) (by simpa [State.owe] using mgmt) _ _

/-! ## A whole entry on its way -/

/-- A whole entry stands at the head of an UP port's list, and nothing keeps the transmitter from sending it. -/
structure SendsWhole (p : PortId) (bytes : List Byte) (rest : List Entry) (s : State) : Prop where
  running : s.inReset = false
  up : (s.port p).link = .up
  noAbort : (s.port p).abortNext = false
  noIdle : (s.port p).owesIdle = false
  list : (s.port p).list = { bytes, status := .whole } :: rest
  owed : (s.port p).owed = []
  notices : s.notices = 0
  mgmt : s.mgmt = {}

/-- From one state to the other a port has sent its head entry and the IDLE after it; nothing else has changed. -/
def EntryLeft (p : PortId) (rest : List Entry) (s t : State) : Prop :=
  (t.port p).list = rest ∧ (t.port p).sending = none ∧ (t.port p).owesIdle = false ∧
    t = { s with cab := t.cab, crane := t.crane } ∧ t.port p.other = s.port p.other

theorem EntryLeft.of_modPort {p : PortId} {rest : List Entry} {f : Port → Port} {s t : State}
    (h : EntryLeft p rest (s.modPort p f) t) : EntryLeft p rest s t := by
  obtain ⟨list, sending, noIdle, frame, other⟩ := h
  refine ⟨list, sending, noIdle, ?_, by rw [other, State.modPort_port_other]⟩
  rw [frame]
  cases p <;> rfl

/-- A run of symbol times of a port's transmitter sends these symbols and ends with the entry gone. -/
def SendsSymbols (p : PortId) (rest : List Entry) (s : State) (symbols : List LineSymbol) (states : List State) : Prop :=
  states.map (fun t => (t.port p).lastSent) = symbols ∧
    List.IsChain (fun a b => exec (.transmitSymbol p) a = .next b) (s :: states) ∧
    ∀ t, states.getLast? = some t → EntryLeft p rest s t

/-- One symbol more, before a run. -/
theorem SendsSymbols.cons {p : PortId} {rest : List Entry} {s : State} {y : LineSymbol} {f : Port → Port}
    {symbols : List LineSymbol} {states : List State} (step : exec (.transmitSymbol p) s = .next (s.modPort p f))
    (symbol : (f (s.port p)).lastSent = y) (more : states ≠ []) (h : SendsSymbols p rest (s.modPort p f) symbols states) :
    SendsSymbols p rest s (y :: symbols) (s.modPort p f :: states) := by
  obtain ⟨sent, chain, last⟩ := h
  refine ⟨by rw [List.map_cons, State.modPort_port, symbol, sent], .cons_cons step chain, fun t ends => ?_⟩
  rw [List.getLast?_cons_of_ne_nil more] at ends
  exact (last t ends).of_modPort

/-- After its last byte the entry leaves with END, and one IDLE follows (R16, R17). -/
theorem SendsWhole.ends {p : PortId} {bytes : List Byte} {rest : List Entry} {s : State} (h : SendsWhole p bytes rest s)
    (sending : (s.port p).sending = some bytes.length) :
    ∃ states, states.length = 2 ∧ SendsSymbols p rest s [.endFrame, .idle] states := by
  let ending : Port → Port := fun q => { q with list := rest, sending := none, owesIdle := true, lastSent := .endFrame }
  have ended : exec (.transmitSymbol p) s = .next (s.modPort p ending) := by
    obtain ⟨-, -, -, heads⟩ := transmitterSendsAbortOrIdle p s
    obtain ⟨-, goesOn⟩ := heads _ rest h.owed h.noAbort h.running h.up h.noIdle h.list
    obtain ⟨-, -, wholeEnds, -⟩ := goesOn _ sending
    rw [wholeEnds rfl (Nat.le_refl _)]
    exact congrArg _ (settleOffers_of_nothing (by simpa using h.notices) (by simpa using h.mgmt) p)
  let idling : Port → Port := fun q => { q with owesIdle := false, lastSent := .idle }
  have idled : exec (.transmitSymbol p) (s.modPort p ending) = .next ((s.modPort p ending).modPort p idling) :=
    congrArg _ (transmit_of_kept (.inr (by rw [State.modPort_port]; exact h.owed))
      (sendSymbol_of_idle (by rw [State.modPort_port]; exact h.noAbort) (.inr (.inr (.inl (by rw [State.modPort_port])))))
      rfl)
  have idleRun : SendsSymbols p rest (s.modPort p ending) [.idle] [(s.modPort p ending).modPort p idling] := by
    refine ⟨by rw [List.map_singleton, State.modPort_port], .cons_cons idled (.singleton _), fun t last => ?_⟩
    obtain rfl : (s.modPort p ending).modPort p idling = t := Option.some.inj last
    refine ⟨?_, ?_, ?_, ?_, State.modPort_port_other _ _ _⟩
    · rw [State.modPort_port, State.modPort_port]
    · rw [State.modPort_port, State.modPort_port]
    · rw [State.modPort_port]
    · exact State.modPort_frame _ _ _
  exact ⟨_, rfl, .cons ended rfl (List.cons_ne_nil _ _) idleRun⟩

/-- A symbol that is not the last leaves the rest of the entry to be sent. -/
theorem SendsWhole.next {p : PortId} {bytes : List Byte} {rest : List Entry} {s : State} (h : SendsWhole p bytes rest s)
    (sending : Option Nat) (y : LineSymbol) :
    SendsWhole p bytes rest (s.modPort p fun q => { q with sending := sending, lastSent := y }) where
  running := by simpa using h.running
  up := by rw [State.modPort_port]; exact h.up
  noAbort := by rw [State.modPort_port]; exact h.noAbort
  noIdle := by rw [State.modPort_port]; exact h.noIdle
  list := by rw [State.modPort_port]; exact h.list
  owed := by rw [State.modPort_port]; exact h.owed
  notices := by simpa using h.notices
  mgmt := by simpa using h.mgmt

/-- The bytes that are left leave in order, then END and IDLE. -/
theorem SendsWhole.bytesFrom {p : PortId} {bytes : List Byte} {rest : List Entry} (left : List Byte) {k : Nat} {s : State}
    (h : SendsWhole p bytes rest s) (sending : (s.port p).sending = some k) (from_k : bytes.drop k = left)
    (within : k ≤ bytes.length) :
    ∃ states, states.length = left.length + 2 ∧ SendsSymbols p rest s (left.map .data ++ [.endFrame, .idle]) states := by
  induction left generalizing k s with
  | nil =>
    have all : k = bytes.length := Nat.le_antisymm within (List.drop_eq_nil_iff.mp from_k)
    exact h.ends (all ▸ sending)
  | cons b left ih =>
    have byte : bytes[k]? = some b := by
      rw [← List.head?_drop, from_k]
      rfl
    have more : bytes.drop (k + 1) = left := by rw [← List.tail_drop, from_k]; rfl
    have inside : k < bytes.length := (List.getElem?_eq_some_iff.mp byte).1
    obtain ⟨-, -, -, heads⟩ := transmitterSendsAbortOrIdle p s
    obtain ⟨-, goesOn⟩ := heads _ rest h.owed h.noAbort h.running h.up h.noIdle h.list
    obtain ⟨-, sendsByte, -⟩ := goesOn _ sending
    obtain ⟨states, length, run⟩ := ih (h.next (some (k + 1)) (.data b)) (by rw [State.modPort_port]) more inside
    have notEmpty : states ≠ [] := by
      rintro rfl
      cases length
    exact ⟨_, by rw [List.length_cons, length, List.length_cons],
      .cons (sendsByte b EntryStatus.noConfusion byte) rfl notEmpty run⟩

/-- With its owed offers out of the way the transmitter can begin on the entry. -/
theorem sendsWhole_owe {p : PortId} {bytes : List Byte} {rest : List Entry} {s : State} (running : s.inReset = false)
    (up : (s.port p).link = .up) (noAbort : (s.port p).abortNext = false) (noIdle : (s.port p).owesIdle = false)
    (list : (s.port p).list = { bytes, status := .whole } :: rest) (notices : s.notices = 0) (mgmt : s.mgmt = {}) :
    SendsWhole p bytes rest (s.owe p []) where
  running := by simpa [State.owe] using running
  up := by rw [State.owe, State.modPort_port]; exact up
  noAbort := by rw [State.owe, State.modPort_port]; exact noAbort
  noIdle := by rw [State.owe, State.modPort_port]; exact noIdle
  list := by rw [State.owe, State.modPort_port]; exact list
  owed := State.owe_owed p [] s
  notices := by simpa [State.owe] using notices
  mgmt := by simpa [State.owe] using mgmt

/-- Settles O15: START, and then the bytes from the first. -/
theorem wholeEntryIsSentWhole : Obligations.WholeEntryIsSentWhole := by
  intro p bytes rest s running up noAbort noIdle sending list notices mgmt
  let start : Port → Port := fun q => { q with sending := some 0, lastSent := .startFrame }
  have ready := sendsWhole_owe running up noAbort noIdle list notices mgmt
  have begun : exec (.transmitSymbol p) s = .next ((s.owe p []).modPort p start) := by
    rw [exec_transmitSymbol, ← transmit_offerOwed running, offerOwed_of_nothing notices mgmt, ← exec_transmitSymbol]
    obtain ⟨-, -, -, heads⟩ := transmitterSendsAbortOrIdle p (s.owe p [])
    obtain ⟨starts, -⟩ := heads _ rest ready.owed ready.noAbort ready.running ready.up ready.noIdle ready.list
    exact starts (by rw [State.owe, State.modPort_port]; exact sending)
  obtain ⟨states, length, run⟩ := (ready.next (some 0) .startFrame).bytesFrom bytes
    (by rw [State.modPort_port]) List.drop_zero (Nat.zero_le _)
  have notEmpty : states ≠ [] := by
    rintro rfl
    cases length
  rw [State.owe, State.modPort_modPort] at begun run
  obtain ⟨sent, chain, last⟩ := SendsSymbols.cons begun rfl notEmpty run
  exact ⟨_, by rw [List.length_cons, length], sent, chain, last⟩

end Sys2Proof.Machine
end

