-- ==== Sys2Proof/Proofs/HeldAndNotices.lean ====
section
/-! PROOFS. The held reply and the NOTICE: their rows, and what waits for a port's list (R16, R21, R162, R172, R173). -/
namespace Sys2Proof.Machine

-- One theorem after another: side by side, so many small ones need more threads than the memory limit admits.
set_option Elab.async false

/-! ## The NOTICE (R173) -/

theorem noticeStation_eq (s : State) :
    noticeStation s = match s.active with
      | some t => t.machine.noticeStation
      | none => 0 := by
  unfold noticeStation
  cases s.active <;> rfl

theorem goodAtEnd_noticeFrame (s : State) : goodAtEnd (noticeFrame s) = true :=
  goodAtEnd_frameOf _ _ _ _ _ (show 10 ≤ 120 by decide)

theorem take_noticeFrame (s : State) :
    (noticeFrame s).take 15 =
      [noticeStation s, s.station, 0x53, 0, 10] ++ bytes16 s.notices ++ [sendByte (supCode s.sup.state)] ++
        send16 s.sup.utilisation ++ [sendByte s.queue.records.length] ++ send32 s.tally.bunkTotal := rfl

/-- With kinds pending, a notice station and a place, a NOTICE leaves and no kind is pending any more (R173). -/
theorem attemptNotice_of_place {s : State} (pending : s.notices ≠ 0) (station : noticeStation s ≠ 0) (up : s.cab.link = .up)
    (room : s.cab.list.length < 6) :
    attemptNotice s = { s with
      notices := 0, cab := { s.cab with list := s.cab.list ++ [{ bytes := noticeFrame s, status := .whole }] } } := by
  have place : s.cab.hasPlace = true := by simp [Port.hasPlace, up, listPlaces, room]
  rw [attemptNotice, if_pos ⟨pending, station, place⟩, State.offer_of_placed (p := .cab) up room]
  rfl

/-- Otherwise nothing is built (R173). -/
theorem attemptNotice_of_no_place {s : State}
    (h : ¬(s.notices ≠ 0 ∧ noticeStation s ≠ 0 ∧ s.cab.link = .up ∧ s.cab.list.length < 6)) : attemptNotice s = s := by
  refine if_neg fun ⟨pending, station, place⟩ => h ⟨pending, station, ?_⟩
  obtain ⟨link, length⟩ := Bool.and_eq_true_iff.mp place
  exact ⟨of_decide_eq_true link, of_decide_eq_true length⟩

/-! ## What waits for a port's list -/

/-- A reply is held for a port. -/
theorem heldFor_iff (p : PortId) (s : State) :
    heldFor p s = true ↔
      ∃ reply restart r rest, s.mgmt.phase = .held reply restart ∧ s.mgmt.requests = r :: rest ∧ r.port = p := by
  unfold heldFor
  constructor
  · intro h
    split at h
    · rename_i reply restart r rest phase requests
      exact ⟨reply, restart, r, rest, phase, requests, of_decide_eq_true h⟩
    · cases h
  · rintro ⟨reply, restart, r, rest, phase, requests, port⟩
    simp only [phase, requests, port, decide_true]

theorem makeOffer_of_held {p : PortId} {s : State} (h : heldFor p s = true) : makeOffer p .reply s = offerHeld s := if_pos h

theorem makeOffer_of_not_held {p : PortId} {s : State} (h : ¬heldFor p s = true) : makeOffer p .reply s = s := if_neg h

theorem reply_mem_waitingOffers_iff (p : PortId) (s : State) : Offer.reply ∈ waitingOffers p s ↔ heldFor p s = true := by
  unfold waitingOffers
  split <;> split <;> simp_all

theorem notice_mem_waitingOffers_iff (p : PortId) (s : State) :
    Offer.notice ∈ waitingOffers p s ↔ p = .cab ∧ s.notices ≠ 0 := by
  unfold waitingOffers
  split <;> split <;> simp_all

/-- Each waits once. -/
theorem nodup_waitingOffers (p : PortId) (s : State) : (waitingOffers p s).Nodup := by
  unfold waitingOffers
  split <;> split <;> decide

/-- Offers on a port that is not UP: the held reply is discarded, and no NOTICE is built. -/
theorem settleOffers_of_notUp {p : PortId} {s : State} (notUp : (s.port p).link ≠ .up) :
    settleOffers p s = makeOffer p .reply s := by
  obtain ⟨-, made, -⟩ := settleOffers_offers p s
  rw [made notUp]
  have noNotice : p = .cab → attemptNotice (makeOffer p .reply s) = makeOffer p .reply s := by
    rintro rfl
    obtain ⟨list, same⟩ := listsOnly_makeOffer .cab .reply s .cab
    have link : ((makeOffer .cab .reply s).port .cab).link = s.cab.link := by rw [same]; rfl
    exact attemptNotice_of_no_place fun ⟨_, _, up, _⟩ => notUp (link ▸ up)
  have replies : makeOffers p (if heldFor p s then [.reply] else []) s = makeOffer p .reply s := by
    split
    · rfl
    · rename_i h
      exact (makeOffer_of_not_held h).symm
  unfold waitingOffers
  rw [makeOffers, List.foldl_append]
  change makeOffers p _ (makeOffers p _ s) = _
  rw [replies]
  split
  · rename_i h
    exact noNotice h.1
  · rfl

/-- What waits for a port that is UP is offered at once or owed, in one order or another (R16, R21). -/
theorem settleOffers_of_up {p : PortId} {s : State} (up : (s.port p).link = .up) {o : Offer} (waits : o ∈ waitingOffers p s) :
    ∃ atOnce later : List Offer, (atOnce ++ later).Nodup ∧ (∀ o, o ∈ atOnce ++ later ↔ o ∈ waitingOffers p s) ∧
      settleOffers p s = makeOffers p atOnce
        { (s.modPort p fun q => { q with owed := later }) with choices := s.choices + 2 } := by
  obtain ⟨-, -, atOnceOrOwed⟩ := settleOffers_offers p s
  obtain ⟨atOnce, later, perm, made⟩ := atOnceOrOwed up (List.ne_nil_of_mem waits)
  refine ⟨atOnce, later, perm.nodup_iff.mpr (nodup_waitingOffers p s), fun _ => perm.mem_iff, ?_⟩
  rw [made]
  cases p <;> rfl

/-! ## The rows of the two offers -/

theorem exec_heldReplyOffer {s : State} (running : s.inReset = false) : exec .heldReplyOffer s = .next (offerHeld s) :=
  State.unlessReset_running _ s running

theorem exec_noticeAttempt {s : State} (running : s.inReset = false) : exec .noticeAttempt s = .next (attemptNotice s) :=
  State.unlessReset_running _ s running

/-- A reply that meets NO ROOM stays held, and a warm restart waits with it (R162, R169). -/
theorem exec_warmRestartPerformed_of_noRoom {s : State} {reply : List Byte} {restart : Bool} {r : Request}
    {rest : List Request} (running : s.inReset = false) (phase : s.mgmt.phase = .held reply restart)
    (requests : s.mgmt.requests = r :: rest) (noRoom : (s.port r.port).answer = .noRoom) :
    exec .warmRestartPerformed s = .next s := by
  cases restart with
  | true => rw [exec_warmRestartPerformed_of_restart running phase, offerHeld_of_noRoom phase requests noRoom]
  | false => exact exec_warmRestartPerformed_of_no_restart running phase

/-- A reply that leaves takes its request with it (R162). -/
theorem dropHead_eq {s : State} {r : Request} {rest : List Request} (requests : s.mgmt.requests = r :: rest) :
    dropHead s = { s with mgmt := { requests := rest, phase := .reading {} } } := by
  simp [dropHead, State.modMgmt, requests]

/-- The idle step makes a port's owed offers before anything else (notes/assumptions/31.md). -/
theorem step_of_owed {p : PortId} {s : State} (running : s.inReset = false) (pending : s.pending = [])
    (owes : (s.port p).owed ≠ []) (noneBefore : p = .cab ∨ s.cab.owed = []) : step s = .next (offerOwed p s) := by
  have notReset : ¬s.inReset = true := by rw [running]; exact Bool.false_ne_true
  simp only [step, pending, idle]
  rw [if_neg notReset]
  cases p with
  | cab =>
    have due : (owedEvent .cab s).due = true := decide_eq_true owes
    rw [internalEvents, List.find?_cons_of_pos due]
    rfl
  | crane =>
    have cabOwesNone : ¬(owedEvent .cab s).due = true := fun due =>
      of_decide_eq_true due (noneBefore.resolve_left PortId.noConfusion)
    have due : (owedEvent .crane s).due = true := decide_eq_true owes
    rw [internalEvents, List.find?_cons_of_neg cabOwesNone, List.find?_cons_of_pos due]
    rfl

/-- Settles O17: the rows of the two offers, the single offers, and what waits for a list. -/
theorem heldReplyAndNoticeAreOffered : Obligations.HeldReplyAndNoticeAreOffered := by
  refine ⟨fun s running => ⟨fun none => ?_, fun reply restart r rest phase requests up full => ?_,
    fun reply r rest phase requests => ⟨?_, fun notUp => ?_, fun up room => ?_⟩⟩, fun s running => ?_,
    fun s running => ⟨fun k => ?_, fun p offers o => ?_, fun p before => ?_⟩⟩
  · rw [exec_heldReplyOffer running, offerHeld_of_not_held none]
  · have noRoom := (answer_eq_noRoom_iff _).mpr ⟨up, full⟩
    rw [exec_heldReplyOffer running, offerHeld_of_noRoom phase requests noRoom]
    exact ⟨rfl, exec_warmRestartPerformed_of_noRoom running phase requests noRoom⟩
  · exact exec_warmRestartPerformed_of_no_restart running phase
  · have answer := (answer_eq_notUp_iff _).mpr notUp
    rw [exec_heldReplyOffer running, offerHeld_of_leaves phase requests (by rw [answer]; exact PlaceResult.noConfusion),
      State.offer_of_not_placed (by rw [answer]; exact PlaceResult.noConfusion), dropHead_eq requests]
    rfl
  · have answer := (answer_eq_placed_iff _).mpr ⟨up, room⟩
    rw [exec_heldReplyOffer running, offerHeld_of_leaves phase requests (by rw [answer]; exact PlaceResult.noConfusion),
      State.offer_of_placed up room, dropHead_eq (r := r) (rest := rest) (by simpa using requests)]
    rfl
  · intro station
    have sent : noticeStation s = station := noticeStation_eq s
    rw [exec_noticeAttempt running]
    split
    · rename_i place
      obtain ⟨pending, known, up, room⟩ := place
      refine ⟨_, noticeFrame s, rfl, attemptNotice_of_place pending (sent ▸ known) up room, goodAtEnd_noticeFrame s, ?_⟩
      rw [take_noticeFrame, sent]
    · rename_i noPlace
      rw [attemptNotice_of_no_place (by rw [sent]; exact noPlace)]
  · exact exec_noticeAttempt running
  · intro held
    have waits : heldFor p s = true ↔ held := heldFor_iff p s
    refine ⟨rfl, rfl, fun h => ?_, fun h => makeOffer_of_not_held (mt waits.mp h), exec_noticeAttempt running, rfl,
      owed_offerOwed p s, fun pending owes noneBefore => step_of_owed running pending owes noneBefore⟩
    rw [exec_heldReplyOffer running, makeOffer_of_held (waits.mpr h)]
  · intro held waits
    have waits_iff : ∀ o, o ∈ waitingOffers p s ↔ waits o := fun o => by
      cases o with
      | reply => exact (reply_mem_waitingOffers_iff p s).trans (heldFor_iff p s)
      | notice => exact notice_mem_waitingOffers_iff p s
    refine ⟨rfl, fun none => ?_, settleOffers_of_notUp, fun up ⟨o, waiting⟩ => ?_⟩
    · exact (settleOffers_offers p s).1 (List.eq_nil_iff_forall_not_mem.mpr fun o mem => none o ((waits_iff o).mp mem))
    · obtain ⟨atOnce, later, nodup, mem, made⟩ := settleOffers_of_up up ((waits_iff o).mpr waiting)
      exact ⟨atOnce, later, nodup, fun o => (mem o).trans (waits_iff o), made⟩

end Sys2Proof.Machine
end

