-- ==== Sys2Proof/Proofs/StepKeeps.lean ====
section
/-! PROOFS. What every step keeps, packaged once: a promise about the blocks that each of their operations keeps is kept by
every command and every internal event, whatever the link and management do around them. -/

namespace Sys2Proof.Machine

-- One theorem after another: side by side, so many small ones need more threads than the memory limit admits.
set_option Elab.async false

/-- From one state to another no block but the link and management has changed. -/
def BlocksSame (s t : State) : Prop :=
  t.intake = s.intake ∧ t.slew = s.slew ∧ t.lift = s.lift ∧ t.queue = s.queue ∧ t.tally = s.tally ∧ t.sup = s.sup ∧
    t.active = s.active ∧ t.staging = s.staging ∧ t.trace = s.trace

/-- A promise about the blocks that every operation of a block keeps, each under the condition on which a step performs it. -/
structure KeptByBlocks (I : State → Prop) : Prop where
  same : ∀ {s t}, I s → BlocksSame s t → I t
  start : ∀ pins s, I (startFrom pins s)
  assertReset : ∀ {s}, I s → I (assertReset s)
  warmRestart : ∀ {s}, I s → I (warmRestart s)
  readReport : ∀ {s} source payload, I s → I (readReport source payload s)
  readOperatorState : ∀ {s} payload, I s → I (readOperatorState payload s)
  expireMeasurand : ∀ {s} m, I s → I (expireMeasurand m s)
  clearWindow : ∀ {s}, I s → I (clearWindow s)
  takeSetDown : ∀ {s}, I s → setDownDue s = true → I (takeSetDown s)
  evaluateWindow : ∀ {s}, I s → windowDue s = true → I (evaluateWindow s)
  confirmGrip : ∀ {s}, I s → s.lift.state = .empty → I (confirmGrip s)
  release : ∀ {s}, I s → s.lift.state = .releasing → I (endLift .released s)
  failTare : ∀ {s}, I s → s.lift.state = .taring → I (failTare s)
  observe : ∀ {s} a b z, I s → I (observe a b z s)
  serviceChange : ∀ {s} level, I s → I (supServiceChange level s)
  alertToggle : ∀ {s}, I s → I (alertToggle s)
  clockEvent : ∀ {s} event, I s → I (clockEvent event s)
  removeLifts : ∀ {s} {number rest}, I s → dropThrough number s.queue.records = some rest → I (removeLifts rest s)
  clearBunk : ∀ {s}, I s → I (clearBunk s)
  openStaging : ∀ {s}, I s → I (openStaging s)
  writeStaging : ∀ {s} {t : TableSet} {target : Target} {i : Nat} r, I s → s.staging.writable = some t →
    i < target.indices → I (writeStaging t target i r s)
  checkStaging : ∀ {s} {t : TableSet}, I s → s.staging.writable = some t → I { s with staging := stagingAfterCheck t }
  activateSet : ∀ {s} {t : TableSet}, I s → s.staging.ready = some t → I (activateSet t s)
  traceConfigure : ∀ {s} {record config}, I s → traceConfigOfBytes record = some config → I (traceConfigure config s)
  traceEnable : ∀ {s}, I s → I (traceEnable s)
  traceDisable : ∀ {s}, I s → I (traceDisable s)
  traceFlush : ∀ {s}, I s → I (traceFlush s)
  traceRead : ∀ {s} max, I s → I (traceRead max s).2

namespace KeptByBlocks

/-- An operation is performed when its record fits, and else changes nothing (R161). -/
theorem performIf {I : State → Prop} {s t : State} (h : I s) (performed : I t) (free dataLength : Nat) (result : OpResult) :
    I (performIf free dataLength (t, result) s).1 := by
  unfold Machine.performIf
  split
  · exact performed
  · exact h

section
variable {I : State → Prop} (k : KeptByBlocks I) {s : State}
include k

/-! ## Ports, notices and management -/

theorem modPort (h : I s) (p : PortId) (f : Port → Port) : I (s.modPort p f) := k.same h (by simp [BlocksSame])

theorem raise (h : I s) (c : Condition) : I (s.raise c) := k.same h (by simp [BlocksSame])

theorem choose (h : I s) (n : Nat) : I (s.choose n).2 := k.same h (by simp [BlocksSame])

theorem attemptNotice (h : I s) : I (attemptNotice s) := k.same h (by simp [BlocksSame])

theorem offer (h : I s) (p : PortId) (frame : List Byte) : I (s.offer p frame) := k.same h (by simp [BlocksSame])

theorem modMgmt (h : I s) (f : Management → Management) : I (s.modMgmt f) := k.same h (by simp [BlocksSame])

theorem dropHead (h : I s) : I (dropHead s) := k.same h (by simp [BlocksSame])

theorem offerHeld (h : I s) : I (offerHeld s) := by
  unfold Machine.offerHeld
  split
  · rename_i reply restart r rest phase requests
    split
    · exact h
    · have placed := k.dropHead (k.offer h r.port reply)
      dsimp only
      split
      · exact k.warmRestart placed
      · exact placed
    · dsimp only
      split
      · exact k.warmRestart (k.dropHead h)
      · exact k.dropHead h
  · exact h

theorem holdReply (h : I s) (final : Status) (restart : Bool) (c : Chain) : I (holdReply final restart c s) :=
  k.same h (by simp [BlocksSame])

theorem endChain (h : I s) (final : Status) (c : Chain) : I (endChain final c s) := k.offerHeld (k.holdReply h _ _ _)

theorem makeOffer (h : I s) (p : PortId) (o : Offer) : I (makeOffer p o s) := by
  cases o
  · unfold Machine.makeOffer
    dsimp only
    split
    · exact k.offerHeld h
    · exact h
  · exact k.attemptNotice h

theorem makeOffers (h : I s) (p : PortId) (offers : List Offer) : I (makeOffers p offers s) := by
  unfold Machine.makeOffers
  induction offers generalizing s with
  | nil => exact h
  | cons o offers ih => exact ih (k.makeOffer h p o)

theorem owe (h : I s) (p : PortId) (offers : List Offer) : I (s.owe p offers) := k.modPort h p _

theorem settleOffers (h : I s) (p : PortId) : I (settleOffers p s) := by
  unfold Machine.settleOffers
  dsimp only
  split
  · exact k.makeOffers h p _
  · exact k.makeOffers (k.owe (k.choose (k.choose h 2) 3) p _) p _

theorem offerOwed (h : I s) (p : PortId) : I (offerOwed p s) := k.makeOffers (k.owe h p []) p _

theorem settleIfLeft (h : I s) (p : PortId) (before : State) : I (settleIfLeft p before s) := by
  unfold Machine.settleIfLeft
  split
  · exact k.settleOffers h p
  · exact h

theorem takeRequest (h : I s) (p : PortId) (source : Byte) (payload : List Byte) : I (takeRequest p source payload s) :=
  k.same h (by simp [BlocksSame])

/-! ## The chain of a request (R159 to R169) -/

theorem skipNext (h : I s) (payload : List Byte) (c : Chain) : I (skipNext payload c s) := by
  unfold Machine.skipNext
  split
  · exact k.endChain h _ _
  · split
    · dsimp only
      split
      · exact k.modMgmt h _
      · exact k.endChain h _ _
    · exact k.endChain h _ _

theorem concludeOp {x : State × OpResult} (h : I x.1) (payload : List Byte) (code : Byte) (more : Bool) (next : Nat)
    (c : Chain) : I (concludeOp payload code more next c x) := by
  unfold Machine.concludeOp
  dsimp only
  split
  · exact k.modMgmt h _
  · exact k.holdReply h _ _ _
  · split
    · split
      · exact k.skipNext h _ _
      · exact k.modMgmt h _
    · exact k.endChain h _ _
  · exact k.endChain h _ _

theorem opReadStatus (h : I s) (operands : List Byte) (free : Nat) : I (opReadStatus operands free s).1 :=
  k.same h (by simp [BlocksSame])

theorem opDropLifts (h : I s) (operands : List Byte) (free : Nat) : I (opDropLifts operands free s).1 := by
  unfold Machine.opDropLifts
  split
  · exact h
  · exact performIf h (k.removeLifts h (by assumption)) _ _ _

theorem opClearBunk (h : I s) (operands : List Byte) (free : Nat) : I (opClearBunk operands free s).1 :=
  performIf h (k.clearBunk h) _ _ _

theorem opClearConditions (h : I s) (operands : List Byte) (free : Nat) : I (opClearConditions operands free s).1 :=
  k.same h (by simp [BlocksSame])

theorem opOpenStaging (h : I s) (operands : List Byte) (free : Nat) : I (opOpenStaging operands free s).1 :=
  performIf h (k.openStaging h) _ _ _

theorem opWriteEntry (h : I s) (operands : List Byte) (free : Nat) : I (opWriteEntry operands free s).1 := by
  unfold Machine.opWriteEntry
  dsimp only
  split
  · exact h
  · rename_i target found
    have index : (byteAt operands 1).toNat < target.indices := by
      unfold targetAndIndex at found
      obtain ⟨_, _, found⟩ := Option.bind_eq_some_iff.mp found
      split at found
      · cases found; assumption
      · cases found
    split
    · exact h
    · split
      · exact h
      · exact performIf h (k.writeStaging _ h (by assumption) index) _ _ _

theorem opActivate (h : I s) (operands : List Byte) (free : Nat) : I (opActivate operands free s).1 := by
  unfold Machine.opActivate
  split
  · exact h
  · split
    · exact h
    · exact performIf h (k.activateSet h (by assumption)) _ _ _

theorem opTraceConfigure (h : I s) (operands : List Byte) (free : Nat) : I (opTraceConfigure operands free s).1 := by
  unfold Machine.opTraceConfigure
  split
  · exact h
  · split
    · exact h
    · split
      · exact h
      · exact performIf h (k.traceConfigure h (by assumption)) _ _ _

theorem opTraceEnable (h : I s) (operands : List Byte) (free : Nat) : I (opTraceEnable operands free s).1 := by
  unfold Machine.opTraceEnable
  split
  · exact h
  · exact performIf h (k.traceEnable h) _ _ _

theorem opTraceDisable (h : I s) (operands : List Byte) (free : Nat) : I (opTraceDisable operands free s).1 := by
  unfold Machine.opTraceDisable
  split
  · exact h
  · exact performIf h (k.traceDisable h) _ _ _

theorem opTraceFlush (h : I s) (operands : List Byte) (free : Nat) : I (opTraceFlush operands free s).1 := by
  unfold Machine.opTraceFlush
  split
  · exact h
  · exact performIf h (k.traceFlush h) _ _ _

theorem opTraceControl (h : I s) (operands : List Byte) (free : Nat) : I (opTraceControl operands free s).1 := by
  unfold Machine.opTraceControl
  split
  · exact k.opTraceConfigure h _ _
  · exact k.opTraceEnable h _ _
  · exact k.opTraceDisable h _ _
  · exact k.opTraceFlush h _ _
  · exact h

theorem opTraceRead (h : I s) (operands : List Byte) (free : Nat) : I (opTraceRead operands free s).1 := by
  unfold Machine.opTraceRead
  dsimp only
  split
  · split
    · exact performIf h h _ _ _
    · split
      · exact h
      · exact k.traceRead _ h
  · exact h

end

/-- An operation that keeps a promise. -/
def Performs (I : State → Prop) (perform : List Byte → Nat → State → State × OpResult) : Prop :=
  ∀ {s : State}, I s → ∀ operands free, I (perform operands free s).1

theorem judged {I : State → Prop} {perform : List Byte → Nat → State → State × OpResult} (keeps : Performs I perform)
    {s : State} (h : I s) (code : Byte) (operands : List Byte) (free : Nat) : I (judged code perform operands free s).1 := by
  unfold Machine.judged
  split
  · exact keeps h _ _
  · exact h

theorem of_reading {I : State → Prop} {perform : List Byte → Nat → State → State × OpResult}
    (reads : ∀ operands free s, (perform operands free s).1 = s) : Performs I perform :=
  fun h operands free => (reads operands free _).symm ▸ h

theorem opWarmRestart (I : State → Prop) : Performs I opWarmRestart := fun h _ _ => performIf h h _ _ _

section
variable {I : State → Prop} (k : KeptByBlocks I) {s : State}
include k

/-- A row of one operation (R159). -/
theorem performWanted {perform : List Byte → Nat → State → State × OpResult} (keeps : Performs I perform) (h : I s)
    (code : Byte) (wanted : List Byte → Bool) : I (performWanted code wanted perform s) := by
  unfold Machine.performWanted
  split
  · exact h
  · split
    · exact h
    · split
      · exact k.concludeOp (judged keeps h _ _ _) _ _ _ _ _
      · exact h

theorem performCode (h : I s) (code : Byte) (operands : List Byte) (free : Nat) :
    I (performCode code operands free s).1 := by
  unfold Machine.performCode
  split
  · exact judged (of_reading opTest_keeps) h _ _ _
  · exact judged (of_reading opReadIdentity_keeps) h _ _ _
  · exact judged k.opReadStatus h _ _ _
  · exact judged (of_reading opReadMeasurands_keeps) h _ _ _
  · exact judged (of_reading opReadTally_keeps) h _ _ _
  · exact judged (of_reading opPeekLifts_keeps) h _ _ _
  · exact judged k.opDropLifts h _ _ _
  · exact judged k.opClearBunk h _ _ _
  · exact judged k.opClearConditions h _ _ _
  · exact judged k.opOpenStaging h _ _ _
  · exact judged k.opWriteEntry h _ _ _
  · exact judged (of_reading opReadEntry_keeps) h _ _ _
  · exact judged (of_reading opCheckStaging_keeps) h _ _ _
  · exact judged k.opActivate h _ _ _
  · exact judged k.opTraceControl h _ _ _
  · exact judged k.opTraceRead h _ _ _
  · exact judged (opWarmRestart I) h _ _ _
  · exact h

theorem performNext (h : I s) : I (performNext s) := by
  unfold Machine.performNext
  split
  · exact h
  · split
    · exact k.endChain h _ _
    · exact k.concludeOp (k.performCode h _ _ _) _ _ _ _ _

theorem runChain (h : I s) (fuel : Nat) : I (runChain fuel s) := by
  induction fuel generalizing s with
  | zero => exact h
  | succ fuel ih =>
    unfold Machine.runChain
    dsimp only
    split
    · exact ih (k.performNext h)
    · exact k.performNext h

theorem performRequest (h : I s) : I (performRequest s) := by
  unfold Machine.performRequest
  split
  · exact k.offerHeld h
  · exact h
  · exact h
  · split
    · exact k.endChain h _ _
    · exact k.endChain h _ _
    · exact k.offerHeld (k.runChain h _)

theorem completeCheck (h : I s) : I (completeCheck s) := by
  unfold Machine.completeCheck
  split
  · exact k.concludeOp (k.checkStaging h (by assumption)) _ _ _ _ _
  · exact h

/-! ## The link -/

theorem goDown (h : I s) (p : PortId) : I (goDown p s) :=
  k.settleIfLeft (k.settleIfLeft (k.modPort (k.modPort (k.raise h _) _ _) _ _) _ _) _ _

theorem badFrame (h : I s) (p : PortId) (next : Framing) : I (badFrame p next s) :=
  k.settleIfLeft (k.modPort (k.modPort (k.raise h _) _ _) _ _) _ _

theorem forwardReady (h : I s) (p : PortId) (header : List Byte) : I (forwardReady p header s) := by
  unfold Machine.forwardReady
  split
  · exact h
  · exact k.raise h _
  · exact k.modPort h _ _

theorem headerComplete (h : I s) (p : PortId) (header : List Byte) : I (headerComplete p header s) := by
  unfold Machine.headerComplete
  split
  · exact k.badFrame h _ _
  · dsimp only
    split
    · exact k.forwardReady (k.modPort h _ _) _ _
    · exact k.modPort h _ _

theorem frameByte (h : I s) (p : PortId) (b : Byte) : I (frameByte p b s) := by
  unfold Machine.frameByte
  dsimp only
  split
  · exact k.badFrame h _ _
  · split
    · exact k.headerComplete (k.modPort h _ _) _ _
    · split
      · exact k.modPort (k.modPort h _ _) _ _
      · exact k.modPort h _ _

theorem shapeFrame (h : I s) (dest source : Byte) (payload : List Byte) : I (shapeFrame dest source payload s) := by
  unfold Machine.shapeFrame
  split
  · exact h
  · unfold placeShaped
    split
    · exact k.offer (k.clockEvent _ h) _ _
    · exact k.raise (k.clockEvent _ h) _
    · exact k.clockEvent _ h

theorem handOn (h : I s) (p : PortId) (t : Treatment) (bytes : List Byte) : I (handOn p t bytes s) := by
  unfold Machine.handOn
  split
  · exact h
  · split
    · exact k.readReport _ _ h
    · exact k.readOperatorState _ h
  · exact k.shapeFrame h _ _ _
  · exact k.takeRequest h _ _ _

theorem frameEnd (h : I s) (p : PortId) : I (frameEnd p s) := by
  unfold Machine.frameEnd
  dsimp only
  split
  · have finished := k.modPort (k.modPort h p fun q => { q with rx := {} }) p.other (finishCopy true)
    split
    · exact k.handOn finished _ _ _
    · exact finished
  · exact k.badFrame h _ _

theorem inFrameSymbol (h : I s) (p : PortId) (sym : LineSymbol) : I (inFrameSymbol p sym s) := by
  cases sym
  case data b => exact k.frameByte h _ _
  case endFrame => exact k.frameEnd h _
  all_goals exact k.badFrame h _ _

theorem frameSymbol (h : I s) (p : PortId) (sym : LineSymbol) : I (frameSymbol p sym s) := by
  unfold Machine.frameSymbol
  split
  · exact k.same h (by simp [BlocksSame])
  · exact k.inFrameSymbol h _ _
  · exact k.same h (by simp [BlocksSame])

theorem receive (h : I s) (p : PortId) (sym : LineSymbol) : I (receive p sym s) := by
  unfold Machine.receive
  split
  · exact k.modPort h _ _
  · have counted := k.modPort h p (receiveTraining sym)
    dsimp only
    split
    · exact k.goDown counted _
    · split
      · exact k.settleOffers counted _
      · exact counted
  · have counted := k.modPort h p (countUp sym)
    dsimp only
    split
    · exact k.goDown counted _
    · exact k.frameSymbol counted _ _

theorem transmit (h : I s) (p : PortId) : I (transmit p s) := by
  unfold Machine.transmit
  split
  · exact k.modPort h _ _
  · exact k.settleIfLeft (k.modPort (k.offerOwed h _) _ _) _ _

end

/-! ## Commands, internal events and steps -/

/-- A meaning that is held back in reset. -/
theorem unlessReset {I : State → Prop} {s t : State} {f : State → State} (h : I s) (keeps : I (f s))
    (answer : s.unlessReset f = .next t) : I t := by
  unfold State.unlessReset at answer
  cases answer
  split
  · exact h
  · exact keeps

/-- A row that finds nothing to do until its condition stands. -/
theorem ifDue {I : State → Prop} {s t : State} (h : I s) {due : Prop} [Decidable due] (keeps : due → I t) :
    I (if due then t else s) := by
  split
  · exact keeps (by assumption)
  · exact h

section
variable {I : State → Prop} (k : KeptByBlocks I) {s t : State}
include k

/-- Every command keeps the promise. -/
theorem exec (h : I s) (c : Instr) (answer : exec c s = .next t) : I t := by
  have row := fun {f : State → State} (keeps : I (f s)) => unlessReset (t := t) h keeps
  cases c
  case powerOn pins => cases answer; exact k.start pins s
  case resetReleased pins => cases answer; exact k.start pins s
  case resetAsserted => cases answer; exact k.assertReset h
  case transmitSymbol p => cases answer; exact k.transmit h p
  case receiveSymbol p sym => exact row (k.receive h p sym) answer
  case heldReplyOffer => exact row (k.offerHeld h) answer
  case noticeAttempt => exact row (k.attemptNotice h) answer
  case polarityFlip p => exact row (ifDue h fun _ => k.modPort h p _) answer
  case linkUp p => exact row (ifDue h fun _ => k.settleOffers (k.modPort h p _) p) answer
  case lossOfSignal p => exact row (ifDue h fun _ => k.goDown h p) answer
  case violationWindowFull p => exact row (ifDue h fun _ => k.goDown h p) answer
  case sensorReport source payload => exact row (k.readReport source payload h) answer
  case operatorState payload => exact row (k.readOperatorState payload h) answer
  case freshnessExpiry m => exact row (k.expireMeasurand m h) answer
  case gapRunLimit => exact row (ifDue h fun _ => k.clearWindow h) answer
  case setDown => exact row (ifDue h fun due => k.takeSetDown h due) answer
  case windowEvaluation => exact row (ifDue h fun due => k.evaluateWindow h due) answer
  case gripConfirmed => exact row (ifDue h fun due => k.confirmGrip h due.1) answer
  case release => exact row (ifDue h fun due => k.release h due.1) answer
  case tareTimerExpiry => exact row (ifDue h fun due => k.failTare h due.1) answer
  case encoderObservation a b z => exact row (k.observe a b z h) answer
  case serviceInputChange level => exact row (k.serviceChange level h) answer
  case alertFlashToggle => exact row (k.alertToggle h) answer
  case traceCapture event => exact row (k.clockEvent event h) answer
  case shapeValveDemand dest source _ payload => exact row (k.shapeFrame h dest source payload) answer
  case takeRequest p source payload => exact row (k.takeRequest h p source payload) answer
  case performRequest => exact row (k.performRequest h) answer
  case checkStagingComplete => exact row (k.completeCheck h) answer
  case warmRestartPerformed =>
    unfold Machine.exec execWarmRestartPerformed at answer
    refine row ?_ answer
    split
    · exact k.offerHeld h
    · exact h
  case test => exact row (k.performWanted (of_reading opTest_keeps) h _ _) answer
  case readIdentity => exact row (k.performWanted (of_reading opReadIdentity_keeps) h _ _) answer
  case readStatus => exact row (k.performWanted k.opReadStatus h _ _) answer
  case readMeasurands => exact row (k.performWanted (of_reading opReadMeasurands_keeps) h _ _) answer
  case readTally => exact row (k.performWanted (of_reading opReadTally_keeps) h _ _) answer
  case peekLifts => exact row (k.performWanted (of_reading opPeekLifts_keeps) h _ _) answer
  case dropLifts => exact row (k.performWanted k.opDropLifts h _ _) answer
  case clearBunk => exact row (k.performWanted k.opClearBunk h _ _) answer
  case clearConditions => exact row (k.performWanted k.opClearConditions h _ _) answer
  case openStaging => exact row (k.performWanted k.opOpenStaging h _ _) answer
  case writeEntry => exact row (k.performWanted k.opWriteEntry h _ _) answer
  case readEntry => exact row (k.performWanted (of_reading opReadEntry_keeps) h _ _) answer
  case checkStaging => exact row (k.performWanted (of_reading opCheckStaging_keeps) h _ _) answer
  case activate => exact row (k.performWanted k.opActivate h _ _) answer
  case traceConfigure => exact row (k.performWanted k.opTraceConfigure h _ _) answer
  case traceEnable => exact row (k.performWanted k.opTraceEnable h _ _) answer
  case traceDisable => exact row (k.performWanted k.opTraceDisable h _ _) answer
  case traceFlush => exact row (k.performWanted k.opTraceFlush h _ _) answer
  case traceRead => exact row (k.performWanted k.opTraceRead h _ _) answer
  case warmRestart => exact row (k.performWanted (opWarmRestart I) h _ _) answer

/-- Every internal event that is due keeps the promise. -/
theorem internalEvents (h : I s) : ∀ e ∈ internalEvents s, e.due = true → I e.taken := by
  simp only [Machine.internalEvents, List.forall_mem_cons]
  refine ⟨fun _ => k.offerOwed h .cab, fun _ => k.offerOwed h .crane, fun _ => k.expireMeasurand .f h,
    fun _ => k.expireMeasurand .a h, fun _ => k.expireMeasurand .reach h, fun _ => k.expireMeasurand .pitch h,
    fun _ => k.expireMeasurand .roll h, fun _ => k.expireMeasurand .gpress h, fun due => k.confirmGrip h ?_,
    fun due => k.release h ?_, fun due => k.failTare h ?_, fun _ => k.alertToggle h, fun _ => k.completeCheck h,
    fun _ => k.offerHeld h, fun _ => k.performRequest h, fun _ none => absurd none List.not_mem_nil⟩
  · exact of_decide_eq_true (Bool.and_eq_true_iff.mp due).1
  · exact of_decide_eq_true (Bool.and_eq_true_iff.mp due).1
  · exact of_decide_eq_true (Bool.and_eq_true_iff.mp due).1

/-- The step of an empty queue keeps the promise. -/
theorem idle (h : I s) : I (idle s) := by
  unfold Machine.idle
  split
  · exact h
  · split
    · rename_i e found
      exact k.internalEvents h e (List.mem_of_find?_eq_some found) (List.find?_some found)
    · exact k.same h (by simp [BlocksSame, tick])

/-- Every step keeps a promise that every operation of a block keeps. -/
theorem step (h : I s) (answer : step s = .next t) : I t := by
  unfold Machine.step at answer
  split at answer
  · rename_i c rest _
    exact k.exec (s := { s with pending := rest }) (k.same h (by simp [BlocksSame])) c answer
  · cases answer
    exact k.idle h

end

end KeptByBlocks

end Sys2Proof.Machine
end

