-- ==== Sys2Proof/Proofs/TablesKept.lean ====
section
/-! PROOFS. Every operation keeps the table store's promise: a bank changes only by a write, a check or a swap. -/

namespace Sys2Proof.Machine

-- One theorem after another: side by side, so many small ones need more threads than the memory limit admits.
set_option Elab.async false

/-- What leaves both banks alone keeps the promise. -/
theorem TablesSafe.of_same {s t : State} (h : TablesSafe s) (active : t.active = s.active := by simp)
    (staging : t.staging = s.staging := by simp) : TablesSafe t := by
  unfold TablesSafe at h ⊢
  rwa [active, staging]

/-- A set that may be written or checked has no more entries than its lists have indices (R147, R148). -/
theorem StagingSafe.fits_of_writable {b : Staging} (h : StagingSafe b) {t : TableSet} (writable : b.writable = some t) :
    SetFits t := by
  cases b <;> simp only [Staging.writable, Option.some.injEq, reduceCtorEq] at writable <;> subst writable
  case loading => exact h
  case checked => exact h.2
  case failed => exact h.1

/-- A set that may be activated is valid (R154). -/
theorem StagingSafe.valid_of_ready {b : Staging} (h : StagingSafe b) {t : TableSet} (ready : b.ready = some t) :
    SetValid t := by
  cases b <;> simp only [Staging.ready, Option.some.injEq, reduceCtorEq] at ready <;> subst ready <;> exact h

theorem length_writeList {α : Type} (zero : α) (i : Nat) (e : α) (l : List α) :
    (writeList zero i e l).length = max l.length (i + 1) := by
  unfold writeList
  split
  · rw [List.length_set]; omega
  · simp only [List.length_append, List.length_replicate, List.length_singleton]; omega

/-- A write at an index of its target fits (R147). -/
theorem SetFits.write {t : TableSet} (h : SetFits t) {target : Target} {i : Nat} (index : i < target.indices)
    (record : List Byte) : SetFits (t.write target i record) := by
  unfold SetFits at h
  cases target <;> simp only [Target.indices] at index <;> simp only [TableSet.write, SetFits, length_writeList] <;> omega

/-- The outcome of a check says whether the set is valid (R148). -/
theorem StagingSafe.afterCheck {t : TableSet} (h : SetFits t) : StagingSafe (stagingAfterCheck t) := by
  unfold stagingAfterCheck
  split
  · exact ⟨by assumption, h⟩
  · exact ⟨h, by simp_all⟩

/-- The swap leaves the set that was active, which is valid (R154). -/
theorem StagingSafe.afterSwap {old : Option TableSet} (h : ∀ t, old = some t → SetValid t) :
    StagingSafe (stagingAfterSwap old) := by
  cases old
  · trivial
  · exact h _ rfl

@[simp] theorem activateSet_active (t : TableSet) (s : State) : (activateSet t s).active = some t := by
  simp [activateSet]

@[simp] theorem activateSet_staging (t : TableSet) (s : State) : (activateSet t s).staging = stagingAfterSwap s.active := by
  simp [activateSet]

/-- Every operation keeps the table store's promise. -/
theorem keptByBlocks_tablesSafe : KeptByBlocks TablesSafe where
  same h same := by
    obtain ⟨-, -, -, -, -, -, active, staging, -⟩ := same
    exact h.of_same active staging
  start _ _ := ⟨fun _ active => (by cases active), trivial⟩
  assertReset h := h.of_same rfl rfl
  warmRestart h := h.of_same
  readReport _ _ h := h.of_same
  readOperatorState _ h := h.of_same
  expireMeasurand _ h := h.of_same
  clearWindow h := h.of_same
  takeSetDown h _ := h.of_same
  evaluateWindow h _ := h.of_same
  confirmGrip h _ := h.of_same
  release h _ := h.of_same
  failTare h _ := h.of_same
  observe _ _ _ h := h.of_same
  serviceChange _ h := h.of_same
  alertToggle h := h.of_same
  clockEvent _ h := h.of_same
  removeLifts h _ := h.of_same
  clearBunk h := h.of_same
  openStaging h := ⟨h.1, by simp [openStaging, StagingSafe, SetFits]⟩
  writeStaging _ h writable index := ⟨h.1, (h.2.fits_of_writable writable).write index _⟩
  checkStaging h writable := ⟨h.1, .afterCheck (h.2.fits_of_writable writable)⟩
  activateSet h ready := by
    refine ⟨fun t active => ?_, ?_⟩
    · rw [activateSet_active] at active
      cases active
      exact h.2.valid_of_ready ready
    · rw [activateSet_staging]
      exact .afterSwap h.1
  traceConfigure h _ := h.of_same
  traceEnable h := h.of_same
  traceDisable h := h.of_same
  traceFlush h := h.of_same
  traceRead _ h := h.of_same

end Sys2Proof.Machine
end

