-- ==== Sys2Proof/Proofs/Evaluations.lean ====
section
/-! PROOFS. What an evaluation of supervision leaves in its registers, and the ranges of the figures under a valid table
set (R109 to R128). -/

namespace Sys2Proof.Machine

-- One theorem after another: side by side, so many small ones need more threads than the memory limit admits.
set_option Elab.async false

/-! ## The registers of supervision after an evaluation (R119) -/

/-- The figures that step 1 of an evaluation leaves (R112 to R117). -/
theorem computeFigures_sup {s : State} {set : TableSet} (active : s.active = some set) :
    let tilt := tiltOf set s
    let capacity := capacityOf set s.sup tilt
    let moment := momentOf (effectiveForce s.sup.history) s.intake.reach.value.toNat
    (computeFigures s).sup =
      if s.uCurrent then
        { s.sup with tilt, capacity, moment, utilisation := utilisationOf moment capacity }
      else { s.sup with tilt, capacity } := by
  have current : ∀ u : State, u.active = s.active → u.intake = s.intake → u.uCurrent = s.uCurrent := by
    intro u ha hi
    simp only [State.uCurrent, State.fresh, ha, hi]
  dsimp only
  unfold computeFigures
  simp only [active]
  rw [apply_ite State.sup]
  congr 1
  · refine congrArg (· = true) (current _ ?_ ?_) <;> dsimp only <;> split <;> simp
  · dsimp only
    split <;> simp
  · dsimp only
    split <;> simp

/-- With no active table set step 1 does nothing (R119). -/
theorem computeFigures_of_none {s : State} (active : s.active = none) : computeFigures s = s := by
  simp only [computeFigures, active]

/-- Step 1 leaves everything of supervision but its four figures. -/
theorem computeFigures_sup_frame (s : State) :
    (computeFigures s).sup = { s.sup with
      moment := (computeFigures s).sup.moment, tilt := (computeFigures s).sup.tilt,
      capacity := (computeFigures s).sup.capacity, utilisation := (computeFigures s).sup.utilisation } := by
  cases active : s.active with
  | none => rw [computeFigures_of_none active]
  | some set =>
    rw [computeFigures_sup active]
    split <;> rfl

/-- What a change of state leaves in supervision's registers (R126, R128). -/
theorem changeState_sup (now : SupState) (s : State) :
    (changeState now s).sup =
      if now = s.sup.state then s.sup
      else { s.sup with state := now, alert := alertLevel now,
                        alertNext := if now = .warn then some (after s.clock 200) else none } := by
  unfold changeState
  split
  · rfl
  · simp [setAlert]

/-- The state after a change of state. -/
theorem changeState_state (now : SupState) (s : State) : (changeState now s).sup.state = now := by
  rw [changeState_sup]
  split
  · exact Eq.symm (by assumption)
  · rfl

/-- An evaluation leaves the state that step 2 decides from the figures of step 1 (R119). -/
theorem evaluate_state (s : State) : (evaluate s).sup.state = decideState (computeFigures s) := by
  simp [evaluate, changeState_state]

/-- An evaluation leaves the figures of step 1, and everything of supervision but those, the state and the alert. -/
theorem evaluate_sup_frame (s : State) :
    (evaluate s).sup = { (computeFigures s).sup with
      state := (evaluate s).sup.state, alert := (evaluate s).sup.alert, alertNext := (evaluate s).sup.alertNext } := by
  have peak : (evaluate s).sup = (changeState (decideState (computeFigures s)) (computeFigures s)).sup := by simp [evaluate]
  rw [peak, changeState_sup]
  split <;> rfl

/-! ## The mode (R120 to R124) -/

/-- F and REACH are STALE while no table set is active. -/
def FreshNeedsSet (s : State) : Prop := s.active = none → s.fresh .f = false ∧ s.fresh .reach = false

theorem ModeSafe.freshNeedsSet {s : State} (h : ModeSafe s) : FreshNeedsSet s := h.2.2.2

/-- From U the state is one of NORMAL, WARN and LIMIT (R120, R121). -/
theorem hysteresisState_cases (m : MachineRecord) (before : SupState) (u : Nat) :
    hysteresisState m before u = .normal ∨ hysteresisState m before u = .warn ∨ hysteresisState m before u = .limit := by
  have ite_cases : ∀ {p q : Prop} [Decidable p] [Decidable q] {a b c : SupState},
      (if p then a else if q then b else c) = a ∨ (if p then a else if q then b else c) = b ∨
        (if p then a else if q then b else c) = c := by
    intro p q _ _ a b c
    split
    · exact .inl rfl
    · split
      · exact .inr (.inl rfl)
      · exact .inr (.inr rfl)
  have order : ∀ {x a b c : SupState}, x = a ∨ x = b ∨ x = c → x = c ∨ x = b ∨ x = a := by tauto
  cases before <;> exact order ite_cases

/-- What step 2 decides is the mode of the service input, the ACTIVE bank and the freshness of F and REACH. -/
theorem decideState_mode (s : State) :
    (decideState s = .bypass ↔ s.sup.service = true) ∧
    (decideState s = .unconfigured ↔ s.sup.service = false ∧ s.active = none) ∧
    (decideState s = .hold ↔ s.sup.service = false ∧ s.active.isSome ∧ ¬(s.fresh .f = true ∧ s.fresh .reach = true)) := by
  unfold decideState
  cases service : s.sup.service with
  | true => simp
  | false =>
    cases active : s.active with
    | none => simp
    | some set =>
      cases fresh : (s.fresh .f && s.fresh .reach) with
      | true =>
        rw [Bool.and_eq_true] at fresh
        rcases hysteresisState_cases set.machine s.sup.state s.sup.utilisation with h | h | h <;> simp [h, fresh]
      | false => simpa using fresh

/-- The mode of a state is that of any other with the same supervision state, service input, ACTIVE bank and freshness of F
and REACH. -/
theorem ModeSafe.of_same {s t : State} (h : ModeSafe s) (state : t.sup.state = s.sup.state := by simp)
    (service : t.sup.service = s.sup.service := by simp) (active : t.active = s.active := by simp)
    (f : t.fresh .f = s.fresh .f := by simp [State.fresh]) (reach : t.fresh .reach = s.fresh .reach := by simp [State.fresh]) :
    ModeSafe t := by
  unfold ModeSafe at h ⊢
  rwa [state, service, active, f, reach]

/-- An evaluation sets the mode (R119 to R124). -/
theorem FreshNeedsSet.evaluate {s : State} (h : FreshNeedsSet s) : ModeSafe (evaluate s) := by
  obtain ⟨bypass, unconfigured, hold⟩ := decideState_mode (computeFigures s)
  have frame := computeFigures_sup_frame s
  have service : (computeFigures s).sup.service = s.sup.service := by rw [frame]
  have kept : (Machine.evaluate s).sup.service = s.sup.service := by rw [evaluate_sup_frame, service]
  simp only [State.fresh, computeFigures_keeps, service] at bypass unconfigured hold
  unfold ModeSafe
  rw [evaluate_state, kept]
  simp only [State.fresh, evaluate_keeps]
  exact ⟨bypass, unconfigured, hold, h⟩

/-! ## Rounding -/

/-- The rounded quotient of the absolute values is the absolute value of the rounded quotient. -/
theorem natAbs_roundAway (num den : Int) : (roundAway num den).natAbs = roundHalfUp num.natAbs den.natAbs := by
  unfold roundAway
  rw [Int.natAbs_mul, Int.natAbs_mul, Int.natAbs_natCast, Int.natAbs_sign, Int.natAbs_sign]
  split
  · subst num; simp [roundHalfUp]
    rcases Nat.eq_zero_or_pos den.natAbs with h | h
    · simp [h]
    · exact (Nat.div_eq_of_lt (by omega)).symm
  · split
    · subst den; simp [roundHalfUp]
    · simp

/-! ## Valid tables (R148 to R152) -/

/-- The capacities of a row are at most 30000 and do not rise from one tilt point to the next (R113). -/
def RowSafe (r : CapacityRow) : Prop := ∀ k, pointCapacity r k ≤ 30000 ∧ pointCapacity r (k + 1) ≤ pointCapacity r k

theorem getD_succ_le_of_nonIncreasing {l : List (BitVec 16)} (h : nonIncreasing l = true) (k : Nat) :
    (l.getD (k + 1) 0).toNat ≤ (l.getD k 0).toNat := by
  induction l using nonIncreasing.induct generalizing k with
  | case1 a b rest ih =>
    simp only [nonIncreasing, Bool.and_eq_true, decide_eq_true_eq] at h
    cases k with
    | zero => simpa using h.1
    | succ k => simpa using ih h.2 k
  | case2 l short =>
    match l, short with
    | [], _ => simp
    | [a], _ => cases k <;> simp
    | a :: b :: rest, short => exact absurd rfl (short a b rest)

/-- The rows of a valid set (R151). -/
theorem SetValid.rowSafe {t : TableSet} (h : SetValid t) {r : CapacityRow} (mem : r ∈ t.rows) : RowSafe r := by
  have capacity : checkCapacity t = none := (firstFailure_eq_none_iff _).mp h.1 _ (by simp)
  have entries : entryFailures checkRow t.rows = none := (firstFailure_eq_none_iff _).mp capacity _ (by simp)
  obtain ⟨i, passes⟩ := entryFailures_eq_none entries mem
  have checks := (firstFailure_eq_none_iff _).mp passes
  have bound := failUnless_eq_none_iff.mp (checks _ List.mem_cons_self)
  have falls := failUnless_eq_none_iff.mp (checks _ (List.mem_cons_of_mem _ List.mem_cons_self))
  refine fun k => ⟨?_, getD_succ_le_of_nonIncreasing falls k⟩
  unfold pointCapacity
  rw [List.all_eq_true] at bound
  by_cases lt : k < r.capacities.toList.length
  · rw [List.getD_eq_getElem _ _ lt]
    exact of_decide_eq_true (bound _ (List.getElem_mem lt))
  · rw [List.getD_eq_default _ _ (Nat.le_of_not_lt lt)]
    exact Nat.zero_le _

/-- Every row of a valid set, one beyond its rows too. -/
theorem SetValid.rowOf_safe {t : TableSet} (h : SetValid t) (column bunkClass : Nat) : RowSafe (t.rowOf column bunkClass) := by
  have zero : RowSafe {} := by
    intro k
    have none : ∀ k, pointCapacity {} k = 0 := by
      intro k
      unfold pointCapacity
      rcases Nat.lt_or_ge k 9 with lt | ge
      · interval_cases k <;> rfl
      · rw [List.getD_eq_default _ _ (by simpa using ge)]; rfl
    exact ⟨(none k).trans_le (Nat.zero_le _), by rw [none, none]⟩
  unfold TableSet.rowOf
  by_cases lt : column * 3 + bunkClass < t.rows.length
  · rw [List.getD_eq_getElem _ _ lt]
    exact h.rowSafe (List.getElem_mem lt)
  · rw [List.getD_eq_default _ _ (Nat.le_of_not_lt lt)]
    exact zero

/-- The weights of a valid set's sectors (R152). -/
theorem SetValid.weights {t : TableSet} (h : SetValid t) {e : SectorEntry} (mem : e ∈ t.sectors) :
    e.cosWeight.toInt.natAbs ≤ 1000 ∧ e.sinWeight.toInt.natAbs ≤ 1000 := by
  have sectors : checkSectors t = none := (firstFailure_eq_none_iff _).mp h.1 _ (by simp)
  have entries : entryFailures (checkSector t) t.sectors = none := (firstFailure_eq_none_iff _).mp sectors _ (by simp)
  obtain ⟨i, passes⟩ := entryFailures_eq_none entries mem
  have fields := failUnless_eq_none_iff.mp ((firstFailure_eq_none_iff _).mp passes _ List.mem_cons_self)
  simp only [sectorFieldsOk, inRange, Bool.and_eq_true, decide_eq_true_eq] at fields
  obtain ⟨⟨⟨-, cos⟩, sin⟩, -⟩ := fields
  omega

theorem sectorInUse_mem {t : TableSet} {sector : Option Nat} {e : SectorEntry} (h : sectorInUse t sector = some e) :
    e ∈ t.sectors := by
  unfold sectorInUse TableSet.sectorOf at h
  split at h
  · split at h
    · exact List.mem_of_getElem? h
    · cases h
  · cases h

/-! ## The figures (R110 to R117) -/

/-- A capacity lies between those of the two tilt points beside it (R114). -/
theorem RowSafe.rowCapacity_le {r : CapacityRow} (h : RowSafe r) (tilt : Int) : rowCapacity r tilt ≤ 30000 := by
  unfold rowCapacity
  split
  · exact (h _).1
  · split
    · exact (h _).1
    · generalize at_point : ((tilt + 160) / 40).toNat = k
      obtain ⟨low, falls⟩ := h k
      have beyond : 0 ≤ tilt - (-160 + 40 * (k : Int)) := by omega
      have down : ((pointCapacity r (k + 1) : Int) - pointCapacity r k) * (tilt - (-160 + 40 * (k : Int))) ≤ 0 :=
        Int.mul_nonpos_of_nonpos_of_nonneg (by omega) beyond
      dsimp only
      omega

theorem SetValid.capacityOf_le {t : TableSet} (h : SetValid t) (sup : Supervision) (tilt : Int) :
    capacityOf t sup tilt ≤ 30000 := by
  have least : ∀ (l : List Nat) (n : Nat), n ≤ 30000 →
      l.foldl (fun m c => min m (rowCapacity (t.rowOf (c + 1) sup.bunkClass) tilt)) n ≤ 30000 := by
    intro l
    induction l with
    | nil => exact fun _ h => h
    | cons c l ih => exact fun n h => ih _ (Nat.le_trans (Nat.min_le_left _ _) h)
  unfold capacityOf
  split
  · exact (h.rowOf_safe _ _).rowCapacity_le tilt
  · exact least _ _ ((h.rowOf_safe _ _).rowCapacity_le tilt)

/-- The tilt along the boom lies in −90.0° to 90.0° (R109, R112). -/
theorem SetValid.tiltOf_range {t : TableSet} (h : SetValid t) {s : State} (intake : IntakeSafe s.intake) :
    -900 ≤ tiltOf t s ∧ tiltOf t s ≤ 900 := by
  obtain ⟨lowP, highP, -⟩ := intake.1 .pitch
  obtain ⟨lowR, highR, -⟩ := intake.1 .roll
  simp only [measurandRange, Intake.get] at lowP highP lowR highR
  unfold tiltOf
  split
  · omega
  · split
    · omega
    · rename_i e found
      obtain ⟨cos, sin⟩ := h.weights (sectorInUse_mem found)
      have bound : (s.intake.pitch.value * e.cosWeight.toInt + s.intake.roll.value * e.sinWeight.toInt).natAbs ≤ 900000 := by
        calc _ ≤ s.intake.pitch.value.natAbs * e.cosWeight.toInt.natAbs + s.intake.roll.value.natAbs * e.sinWeight.toInt.natAbs := by
              rw [← Int.natAbs_mul, ← Int.natAbs_mul]; exact Int.natAbs_add_le _ _
          _ ≤ 450 * 1000 + 450 * 1000 := by gcongr <;> omega
      have rounded := natAbs_roundAway
        (s.intake.pitch.value * e.cosWeight.toInt + s.intake.roll.value * e.sinWeight.toInt) 1000
      rw [roundHalfUp, show (1000 : Int).natAbs = 1000 from rfl] at rounded
      omega

theorem utilisationOf_le (moment capacity : Nat) : utilisationOf moment capacity ≤ 1999 := by
  unfold utilisationOf
  split
  · split <;> omega
  · exact Nat.min_le_left _ _

/-- An evaluation under valid tables leaves the figures in their ranges (R109, R116). -/
theorem FiguresSafe.evaluate {s : State} (h : FiguresSafe s) (valid : ∀ t, s.active = some t → SetValid t)
    (intake : IntakeSafe s.intake) : FiguresSafe (evaluate s) := by
  have step1 : FiguresSafe (computeFigures s) := by
    cases active : s.active with
    | none => rwa [computeFigures_of_none active]
    | some t =>
      obtain ⟨moment, utilisation, -⟩ := h
      have tilt := (valid t active).tiltOf_range intake
      have capacity := (valid t active).capacityOf_le s.sup (tiltOf t s)
      unfold FiguresSafe
      rw [computeFigures_sup active]
      split
      · exact ⟨Nat.min_le_left _ _, utilisationOf_le _ _, capacity, tilt⟩
      · exact ⟨moment, utilisation, capacity, tilt⟩
  unfold FiguresSafe at step1 ⊢
  rwa [evaluate_sup_frame]

end Sys2Proof.Machine
end

