-- ==== Sys2Proof/Proofs/SupervisionKept.lean ====
section
/-! PROOFS. What the lift controller, the slew counter, the lift queue and the tally do to supervision: they make it
evaluate, with another sector or bunk class, and they change nothing that intake or the table store holds. -/

namespace Sys2Proof.Machine

-- One theorem after another: side by side, so many small ones need more threads than the memory limit admits.
set_option Elab.async false

/-- From one state to another supervision has at most evaluated: the measurands, the banks, the service input and the force
history are as they were, the figures keep their ranges and the state keeps the mode. -/
structure SupKept (s t : State) : Prop where
  intake : t.intake = s.intake
  active : t.active = s.active
  staging : t.staging = s.staging
  service : t.sup.service = s.sup.service
  history : t.sup.history = s.sup.history
  figures : (∀ set, s.active = some set → SetValid set) → IntakeSafe s.intake → FiguresSafe s → FiguresSafe t
  mode : ModeSafe s → ModeSafe t

namespace SupKept

theorem refl (s : State) : SupKept s s := ⟨rfl, rfl, rfl, rfl, rfl, fun _ _ h => h, id⟩

theorem trans {s t u : State} (h : SupKept s t) (g : SupKept t u) : SupKept s u where
  intake := g.intake.trans h.intake
  active := g.active.trans h.active
  staging := g.staging.trans h.staging
  service := g.service.trans h.service
  history := g.history.trans h.history
  figures valid intake safe := g.figures (h.active ▸ valid) (h.intake ▸ intake) (h.figures valid intake safe)
  mode safe := g.mode (h.mode safe)

variable {r s t : State}

/-- Then nothing that the promise of supervision reads changes: of supervision's registers at most the sector, the class,
the tracking and the alert. -/
theorem registers (h : SupKept r s)
    (sup : t.sup = { s.sup with sector := t.sup.sector, bunkClass := t.sup.bunkClass, tracking := t.sup.tracking,
                                alert := t.sup.alert, alertNext := t.sup.alertNext } := by rfl)
    (intake : t.intake = s.intake := by rfl) (active : t.active = s.active := by rfl)
    (staging : t.staging = s.staging := by rfl) : SupKept r t := by
  refine h.trans ⟨intake, active, staging, by rw [sup], by rw [sup], fun _ _ safe => ?_, fun safe => ?_⟩
  · unfold FiguresSafe at safe ⊢
    rwa [sup]
  · exact safe.of_same (by rw [sup]) (by rw [sup]) active (by simp [State.fresh, intake]) (by simp [State.fresh, intake])

/-- Then an operation leaves supervision alone. -/
theorem same (h : SupKept r s) (sup : t.sup = s.sup := by simp) (intake : t.intake = s.intake := by simp)
    (active : t.active = s.active := by simp) (staging : t.staging = s.staging := by simp) : SupKept r t :=
  h.registers (by rw [sup]) intake active staging

theorem clockEvent (h : SupKept r s) (event : ClockEvent) : SupKept r (clockEvent event s) := h.same

/-! ## Supervision (06) -/

theorem evaluate (h : SupKept r s) : SupKept r (evaluate s) := by
  refine h.trans ⟨by simp, by simp, by simp, ?_, ?_, fun valid intake safe => safe.evaluate valid intake,
    fun safe => safe.freshNeedsSet.evaluate⟩
  · rw [evaluate_sup_frame, computeFigures_sup_frame]
  · rw [evaluate_sup_frame, computeFigures_sup_frame]

theorem supSectorChange (h : SupKept r s) (sector : Option Nat) : SupKept r (supSectorChange sector s) :=
  evaluate h.registers

theorem supClassChange (h : SupKept r s) (c : Nat) : SupKept r (supClassChange c s) := evaluate h.registers

theorem trackStart (h : SupKept r s) : SupKept r (trackStart s) := by
  refine (h.registers (t := { s with sup := { s.sup with tracking := true } })).same ?_
  simp [Machine.trackStart]

theorem trackStop (h : SupKept r s) : SupKept r (trackStop s) := h.registers

theorem alertToggle (h : SupKept r s) : SupKept r (alertToggle s) := by
  unfold Machine.alertToggle
  split
  · exact h.registers
  · exact h

/-! ## The lift queue and the tally (05) -/

theorem judgeClass (h : SupKept r s) : SupKept r (judgeClass s) := by
  unfold Machine.judgeClass
  dsimp only
  split
  · exact h
  · exact supClassChange h.same _

theorem book (h : SupKept r s) (record : LiftRecord) : SupKept r (book record s) := by
  have booked : SupKept r { s with tally := bookOutcome record.outcome record.assortment record.weighing s.tally } := h.same
  unfold Machine.book afterBooking
  split
  · exact booked
  · dsimp only
    split
    · exact booked.judgeClass
    · split
      · exact booked.judgeClass.same
      · exact booked.judgeClass.same

theorem fileRecord (h : SupKept r s) (record : LiftRecord) : SupKept r (fileRecord record s) := h.same

theorem handOver (h : SupKept r s) (ending : LiftEnding) (l : OpenLift) (number : BitVec 16 × BitVec 16) :
    SupKept r (handOver ending l number s) :=
  fileRecord (h.trackStop.book _) _

theorem setBunkArms (h : SupKept r s) (m : MachineRecord) : SupKept r (setBunkArms m s) := h.same

theorem clearBunk (h : SupKept r s) : SupKept r (clearBunk s) := by
  unfold Machine.clearBunk
  dsimp only
  split
  · exact setBunkArms (judgeClass h.same) _
  · exact judgeClass h.same

theorem tallyActivation (h : SupKept r s) (m : MachineRecord) : SupKept r (tallyActivation m s) :=
  h.judgeClass.same (by simp [Machine.tallyActivation]) (by simp) (by simp) (by simp)

/-! ## The lift controller (04) -/

theorem enterLifting (h : SupKept r s) : SupKept r (enterLifting s) := by
  have entered : SupKept r (enterLiftState .lifting s) := h.same
  unfold Machine.enterLifting takeNumber
  split
  · exact entered
  · split
    · exact entered
    · exact trackStart entered.same

theorem liftFSample (h : SupKept r s) (v : Int) (a : Option Int) : SupKept r (liftFSample v a s) := by
  unfold Machine.liftFSample
  split
  · split
    · exact h
    · exact h.same
  · split
    · exact h
    · split
      · exact h
      · rename_i e _
        dsimp only
        generalize sampleOf e.accelGate.toNat v a s = x
        have noted : SupKept r (noteStatic x (noteMass x s)) := h.same
        split
        · exact noted.enterLifting.same
        · exact noted
  · split
    · exact h
    · exact h.same
  · exact h
  · exact h
  · exact h

theorem regrip (h : SupKept r s) : SupKept r (regrip s) := by
  unfold Machine.regrip
  dsimp only
  split
  · exact enterLifting h.same
  · exact enterLifting h.same
  · exact h.same

theorem liftGpress (h : SupKept r s) (v : Int) : SupKept r (liftGpress v s) := by
  unfold Machine.liftGpress
  split
  case h_6 =>
    unfold releasingPressure
    split
    · exact h
    · split
      · exact h.regrip
      · exact h
  all_goals exact h.same

theorem confirmGrip (h : SupKept r s) : SupKept r (confirmGrip s) := by
  unfold Machine.confirmGrip
  dsimp only
  split
  · exact enterLifting h.same
  · exact h.same

theorem endLift (h : SupKept r s) (ending : LiftEnding) : SupKept r (endLift ending s) := by
  unfold Machine.endLift
  dsimp only
  split
  · exact h.same
  · rename_i l _
    split
    · rename_i number _
      exact (h.handOver ending l number).same
    · exact h.same

theorem liftGpressExpiry (h : SupKept r s) : SupKept r (liftGpressExpiry s) := by
  unfold Machine.liftGpressExpiry
  split
  · exact h.same
  · exact h
  all_goals exact h.endLift _

/-! ## The slew counter (03) -/

theorem setSector (h : SupKept r s) (sector : Option Nat) : SupKept r (setSector sector s) := by
  unfold Machine.setSector sectorEvent State.choose
  dsimp only
  split
  · exact h
  · split
    · exact clockEvent (supSectorChange h.same sector) _
    · exact supSectorChange (clockEvent h.same _) sector

theorem takeCount (h : SupKept r s) (up : Bool) : SupKept r (takeCount up s) := by
  unfold Machine.takeCount
  dsimp only
  generalize moved : s.modSlew (fun w => { w with p := countedPosition up s.modulus w.p }) = m
  have counted : SupKept r m := by rw [← moved]; exact h.same
  split
  · refine same (s := trackSector m) ?_
    rw [trackSector_sets]
    exact counted.setSector _
  · exact counted.same

theorem countError (h : SupKept r s) : SupKept r (countError s) := setSector h.same none

theorem takeIndex (h : SupKept r s) : SupKept r (takeIndex s) := by
  unfold Machine.takeIndex
  split
  · unfold indexReferenced
    dsimp only
    split
    · exact setSector h.same _
    · exact setSector h.same _
  · exact h.same

theorem observe (h : SupKept r s) (a b z : Bool) : SupKept r (observe a b z s) := by
  have levels : ∀ f, SupKept r (s.modSlew f) := fun _ => h.same
  unfold Machine.observe
  dsimp only
  split
  · split
    · exact (levels _).countError.takeIndex
    · split
      · exact ((levels _).takeCount _).takeIndex
      · exact (levels _).takeIndex
  · split
    · exact (levels _).countError
    · split
      · exact (levels _).takeCount _
      · exact levels _

theorem slewActivation (h : SupKept r s) (old : Option TableSet) (new : TableSet) :
    SupKept r (slewActivation old new s) := by
  unfold Machine.slewActivation
  dsimp only
  split
  · split
    · exact setSector h.same _
    · exact h.same
  · exact setSector h.same _

end SupKept

end Sys2Proof.Machine
end

