-- ==== Sys2Proof/Proofs/FiguresAndMode.lean ====
section
/-! PROOFS. Every step keeps the measurands, the force history and the figures in their ranges, and the mode (O42). -/

namespace Sys2Proof.Machine

-- One theorem after another: side by side, so many small ones need more threads than the memory limit admits.
set_option Elab.async false

/-! ## Intake (02) -/

theorem intakeSafe_initial : IntakeSafe {} := by
  refine ⟨fun m => ?_, by decide, by decide⟩
  cases m <;> (unfold RecordSafe; decide)

theorem IntakeSafe.set {i : Intake} (h : IntakeSafe i) {m : Measurand} {r : MeasurandRecord} (record : RecordSafe m r) :
    IntakeSafe (i.set m r) := by
  obtain ⟨records, snapshot⟩ := h
  refine ⟨fun n => ?_, by rwa [Intake.set_snapshot]⟩
  by_cases same : n = m
  · subst same; rwa [Intake.get_set]
  · rw [Intake.get_set_other _ _ _ _ same]; exact records n

/-- A STALE record lies in its range as it did before. -/
theorem RecordSafe.stale {m : Measurand} {r : MeasurandRecord} (h : RecordSafe m r) (timer : Option Clock) :
    RecordSafe m { r with state := .stale, timer } := by
  obtain ⟨low, high, -⟩ := h
  exact ⟨low, high, by simp⟩

/-- A clamped value lies in its range (R29). -/
theorem clampInt_mem {low high : Int} (h : low ≤ high) (v : Int) : low ≤ clampInt low high v ∧ clampInt low high v ≤ high := by
  unfold clampInt
  split
  · omega
  · split <;> omega

theorem measurandRange_le (m : Measurand) : (measurandRange m).1 ≤ (measurandRange m).2 := by cases m <;> decide

/-- A converted value lies in its measurand's range (R29). -/
theorem convert_mem (e : ChannelEntry) (m : Measurand) (count : Int) :
    (measurandRange m).1 ≤ convert e (measurandRange m) count ∧
      convert e (measurandRange m) count ≤ (measurandRange m).2 :=
  clampInt_mem (measurandRange_le m) _

/-- Whether a measurand is FRESH is told by its own record alone. -/
theorem fresh_set_other {m n : Measurand} (other : n ≠ m) (r : MeasurandRecord) (s : State) :
    (s.modIntake fun i => i.set m r).fresh n = s.fresh n := by
  simp [State.fresh, Intake.get_set_other _ _ _ _ other]

/-! ## The operator-state snapshot (R35 to R37) -/

theorem takeTool_intake (id : Nat) (s : State) :
    (takeTool id s).intake = { s.intake with snapshot := { s.intake.snapshot with tool := id } } := by
  unfold takeTool
  split
  · subst id; rfl
  · simp [State.modSnapshot]

theorem takeTareNumber_intake (number : Byte) (s : State) :
    (takeTareNumber number s).intake = { s.intake with snapshot := { s.intake.snapshot with tareNumber := some number } } := by
  unfold takeTareNumber
  dsimp only
  split
  · rfl
  · split
    · rfl
    · simp [State.modSnapshot]

/-- An OPERATOR STATE payload leaves the measurands, and of the snapshot a tool of 0 to 7 and an assortment of 0 to 31. -/
theorem readOperatorState_intake (payload : List Byte) (s : State) :
    (readOperatorState payload s).intake = s.intake ∨
      ∃ snapshot : Snapshot, snapshot.tool ≤ 7 ∧ snapshot.assortment ≤ 31 ∧
        (readOperatorState payload s).intake = { s.intake with snapshot } := by
  unfold readOperatorState
  split
  · split
    · rename_i tool assortment number _ ranges
      refine .inr ⟨⟨tool.toNat, assortment.toNat, some number⟩, ranges.1, ranges.2, ?_⟩
      rw [takeTareNumber_intake]
      simp [State.modSnapshot, takeTool_intake]
    · exact .inl rfl
  · exact .inl rfl

theorem readOperatorState_get (payload : List Byte) (s : State) (m : Measurand) :
    (readOperatorState payload s).intake.get m = s.intake.get m := by
  rcases readOperatorState_intake payload s with h | ⟨snapshot, -, -, h⟩ <;> rw [h]
  cases m <;> rfl

theorem IntakeSafe.readOperatorState {s : State} (h : IntakeSafe s.intake) (payload : List Byte) :
    IntakeSafe (readOperatorState payload s).intake := by
  refine ⟨fun m => by rw [readOperatorState_get]; exact h.1 m, ?_⟩
  rcases readOperatorState_intake payload s with same | ⟨snapshot, tool, assortment, same⟩ <;> rw [same]
  · exact h.2
  · exact ⟨tool, assortment⟩

/-! ## The force history (R110) -/

/-- The force history after a sample is the latest four values. -/
theorem pushForce_eq_drop {history : List Int} (short : history.length ≤ 4) (v : Int) :
    pushForce v history = (history ++ [v]).drop (history.length - 3) := by
  unfold pushForce
  dsimp only
  rw [List.length_append, List.length_singleton]
  split
  · rw [show history.length - 3 = 1 by omega]
  · rw [show history.length - 3 = 0 by omega, List.drop_zero]

/-- An F sample in its range keeps the history. -/
theorem HistorySafe.push {s : State} (short : s.sup.history.length ≤ 4)
    (values : ∀ v ∈ s.sup.history, 0 ≤ v ∧ v ≤ 120000) (fresh : s.fresh .f = true) {v : Int} (low : 0 ≤ v)
    (high : v ≤ 120000) : HistorySafe { s with sup := { s.sup with history := pushForce v s.sup.history } } := by
  have pushed := pushForce_eq_drop short v
  have length : (pushForce v s.sup.history).length = min 4 (s.sup.history.length + 1) := by
    rw [pushed, List.length_drop, List.length_append, List.length_singleton]
    omega
  refine ⟨?_, fun x mem => ?_, iff_of_true ?_ fresh⟩
  · dsimp only; omega
  · dsimp only at mem
    rw [pushed] at mem
    rcases List.mem_append.mp (List.mem_of_mem_drop mem) with old | new
    · exact values x old
    · rw [List.mem_singleton.mp new]; exact ⟨low, high⟩
  · dsimp only
    rw [← List.length_pos_iff]
    omega

/-- The emptied history of a STALE F. -/
theorem HistorySafe.emptied {s : State} (stale : s.fresh .f = false) :
    HistorySafe { s with sup := { s.sup with history := [] } } := by
  have stale' : State.fresh .f { s with sup := { s.sup with history := [] } } = false := stale
  exact ⟨Nat.zero_le _, fun _ mem => absurd mem List.not_mem_nil, by simp [stale']⟩

/-! ## Operations that make supervision at most evaluate -/

theorem SupervisionSafe.of_kept {s t : State} (h : SupervisionSafe s) (kept : SupKept s t) : SupervisionSafe t := by
  obtain ⟨tables, intake, history, figures⟩ := h
  refine ⟨tables.of_same kept.active kept.staging, kept.intake ▸ intake, ?_, kept.figures tables.1 intake figures⟩
  unfold HistorySafe State.fresh at history ⊢
  rwa [kept.history, kept.intake]

theorem SupervisionSafe.evaluate {s : State} (h : SupervisionSafe s) : SupervisionSafe (evaluate s) :=
  h.of_kept (.evaluate (.refl s))

/-- A sample that is not one of F makes supervision at most evaluate (R34). -/
theorem SupKept.deliverSample {m : Measurand} (notF : m ≠ .f) (v : Int) (a : Option Int) (s : State) :
    SupKept s (deliverSample m v a s) := by
  cases m
  case f => exact absurd rfl notF
  case a => exact .refl s
  case gpress => exact .liftGpress (.refl s) v
  all_goals exact .evaluate (.refl s)

/-- An F sample reaches supervision between operations that make it at most evaluate (R34). -/
theorem deliverForce_around (v : Int) (a : Option Int) (s : State) :
    ∃ u, SupKept s u ∧ SupKept (supFSample v u) (deliverForce v a s) := by
  have chosen : SupKept s (s.choose 6).2 := (SupKept.refl s).same
  unfold deliverForce
  dsimp only
  split
  · exact ⟨_, chosen.liftFSample v a, (SupKept.refl _).clockEvent _⟩
  · exact ⟨_, (chosen.liftFSample v a).clockEvent _, .refl _⟩
  · exact ⟨_, chosen, ((SupKept.refl _).liftFSample v a).clockEvent _⟩
  · exact ⟨_, chosen, ((SupKept.refl _).clockEvent _).liftFSample v a⟩
  · exact ⟨_, (chosen.clockEvent _).liftFSample v a, .refl _⟩
  · exact ⟨_, chosen.clockEvent _, (SupKept.refl _).liftFSample v a⟩

/-- The expiry of a measurand that is not F makes supervision at most evaluate (R34). -/
theorem SupKept.deliverExpiry {m : Measurand} (notF : m ≠ .f) (s : State) : SupKept s (deliverExpiry m s) := by
  cases m
  case f => exact absurd rfl notF
  case a => exact (SupKept.refl s).same (t := liftAExpiry s)
  case gpress => exact .liftGpressExpiry (.refl s)
  all_goals exact .evaluate (.refl s)

/-- An activation: intake, then supervision with an empty history, then blocks that make it at most evaluate (R155). -/
theorem activateSet_around (t : TableSet) (s : State) :
    SupKept (supActivation (intakeActivation t
      (State.notify .tablesActive { s with active := some t, staging := stagingAfterSwap s.active }))) (activateSet t s) :=
  .tallyActivation (.same (s := slewActivation s.active t _) (.slewActivation (.refl _) _ _)) _

/-! ## The measurands, the history and the figures -/

/-- An accepted sample keeps them: a sample of F joins the history with F FRESH (R31, R110). -/
theorem SupervisionSafe.acceptSample {s : State} (h : SupervisionSafe s) (m : Measurand) (e : ChannelEntry) {v : Int}
    (range : (measurandRange m).1 ≤ v ∧ v ≤ (measurandRange m).2) (a : Option Int) :
    SupervisionSafe (acceptSample m e v a s) := by
  obtain ⟨tables, intake, history, figures⟩ := h
  have accepted : IntakeSafe (s.intake.set m (acceptedRecord e v s.clock)) :=
    intake.set ⟨range.1, range.2, fun _ => rfl⟩
  unfold Machine.acceptSample
  by_cases isF : m = .f
  · subst isF
    obtain ⟨u, before, behind⟩ := deliverForce_around v a (s.modIntake fun i => i.set .f (acceptedRecord e v s.clock))
    refine SupervisionSafe.of_kept (SupervisionSafe.evaluate ⟨?_, ?_, ?_, ?_⟩) behind
    · exact (tables.of_same (t := u) before.active before.staging).of_same rfl rfl
    · show IntakeSafe u.intake
      rw [before.intake]; exact accepted
    · obtain ⟨short, values, -⟩ := history
      have same : u.sup.history = s.sup.history := before.history
      exact HistorySafe.push (s := u) (by rwa [same]) (by rwa [same]) (by simp [State.fresh, before.intake, acceptedRecord])
        range.1 range.2
    · exact before.figures tables.1 accepted figures
  · refine SupervisionSafe.of_kept (s := s.modIntake _) ⟨tables.of_same, accepted, ?_, figures⟩
      (SupKept.deliverSample isF v a _)
    unfold HistorySafe
    rw [fresh_set_other (Ne.symm isF)]
    exact history

theorem SupervisionSafe.judgeRecord {x : State × Option Int} (h : SupervisionSafe x.1) (r : MatchedRecord) :
    SupervisionSafe (judgeRecord x r).1 := by
  unfold Machine.judgeRecord
  dsimp only
  split
  · exact h.acceptSample _ _ (convert_mem _ _ _) _
  · exact h.of_kept (SupKept.same (.refl _))

theorem SupervisionSafe.readReport {s : State} (h : SupervisionSafe s) (source : Byte) (payload : List Byte) :
    SupervisionSafe (readReport source payload s) := by
  have judged : ∀ (rs : List MatchedRecord) (x : State × Option Int), SupervisionSafe x.1 →
      SupervisionSafe (rs.foldl Machine.judgeRecord x).1 := by
    intro rs
    induction rs with
    | nil => exact fun _ h => h
    | cons r rs ih => exact fun x h => ih _ (h.judgeRecord r)
  unfold Machine.readReport
  split
  · exact h
  · exact judged _ _ h

/-- An expiry keeps them: that of F empties the history with F STALE (R32, R110). -/
theorem SupervisionSafe.expireMeasurand {s : State} (h : SupervisionSafe s) (m : Measurand) :
    SupervisionSafe (expireMeasurand m s) := by
  obtain ⟨tables, intake, history, figures⟩ := id h
  have expired := intake.set ((intake.1 m).stale none)
  unfold Machine.expireMeasurand
  split
  · by_cases isF : m = .f
    · subst isF
      generalize changed : (s.modIntake fun i => i.set .f { i.get .f with state := .stale, timer := none }) = c
      have kept : SupKept c (liftFExpiry c) := (SupKept.refl c).same
      have intake' : c.intake = _ := congrArg State.intake changed.symm
      refine SupervisionSafe.evaluate ⟨?_, ?_, .emptied ?_, ?_⟩
      · exact tables.of_same (by simp [← changed]) (by simp [← changed])
      · show IntakeSafe (liftFExpiry c).intake
        rw [kept.intake, intake']; exact expired
      · simp [State.fresh, intake']
      · refine kept.figures ?_ (intake' ▸ expired) ?_
        · rw [← changed]; exact tables.1
        · rw [← changed]; exact figures
    · refine SupervisionSafe.of_kept (s := s.modIntake _) ⟨tables.of_same, expired, ?_, figures⟩
        (SupKept.deliverExpiry isF _)
      unfold HistorySafe
      rw [fresh_set_other (Ne.symm isF)]
      exact history
  · exact h

theorem SupervisionSafe.activateSet {s : State} (h : SupervisionSafe s) {t : TableSet} (ready : s.staging.ready = some t) :
    SupervisionSafe (activateSet t s) := by
  obtain ⟨tables, intake, history, figures⟩ := h
  have valid := tables.2.valid_of_ready ready
  have around := activateSet_around t s
  generalize raised : State.notify .tablesActive { s with active := some t, staging := stagingAfterSwap s.active } = n at around
  have active : n.active = some t := by simp [← raised]
  have staging : n.staging = stagingAfterSwap s.active := by simp [← raised]
  have records : n.intake = s.intake := by simp [← raised]
  have sup : n.sup = s.sup := by simp [← raised]
  refine SupervisionSafe.of_kept (SupervisionSafe.evaluate ⟨⟨?_, ?_⟩, ⟨?_, ?_⟩, .emptied ?_, ?_⟩) around
  · intro set found
    cases active.symm.trans found
    exact valid
  · show StagingSafe n.staging
    rw [staging]
    exact .afterSwap tables.1
  · intro m
    have record := (intake.1 m).stale ((t.channelOf m).map fun e => after n.clock e.timeout.toNat)
    rw [← records] at record
    cases m <;> exact record
  · show (intakeActivation t n).intake.snapshot.tool ≤ 7 ∧ (intakeActivation t n).intake.snapshot.assortment ≤ 31
    rw [show (intakeActivation t n).intake.snapshot = n.intake.snapshot from rfl, records]
    exact intake.2
  · simp [State.fresh, intakeActivation, Intake.get, staleRecord]
  · show FiguresSafe n
    unfold FiguresSafe
    rwa [sup]

theorem SupervisionSafe.warmRestart {s : State} (h : SupervisionSafe s) : SupervisionSafe (warmRestart s) := by
  obtain ⟨tables, -, -, moment, utilisation, capacity, tilt⟩ := h
  refine ⟨tables.of_same, intakeSafe_initial, ⟨?_, ?_, ?_⟩, ?_⟩
  · simp [Machine.warmRestart, supWarmRestart_of_stale]
  · simp [Machine.warmRestart, supWarmRestart_of_stale]
  · simp [Machine.warmRestart, supWarmRestart_of_stale, State.fresh, Intake.get]
  · unfold FiguresSafe
    simp only [Machine.warmRestart, supWarmRestart_of_stale]
    cases active : s.active with
    | none => exact ⟨Nat.zero_le _, Nat.zero_le _, capacity, tilt⟩
    | some set =>
      exact ⟨Nat.zero_le _, Nat.zero_le _, (tables.1 set active).capacityOf_le { bunkClass := s.tally.bunkClass } 160,
        by simp, by simp⟩

theorem supervisionSafe_startFrom (pins : InputLevels) (s : State) : SupervisionSafe (startFrom pins s) := by
  refine ⟨keptByBlocks_tablesSafe.start pins s, intakeSafe_initial, ?_, ?_⟩
  · simp [HistorySafe, startFrom, startState, supStart, State.reset, State.fresh, Intake.get]
  · simp [FiguresSafe, startFrom, startState, supStart]

/-- Every operation keeps the measurands, the force history and the figures. -/
theorem keptByBlocks_supervisionSafe : KeptByBlocks SupervisionSafe where
  same h same := by
    obtain ⟨intake, -, -, -, -, sup, active, staging, -⟩ := same
    exact h.of_kept (.same (.refl _) sup intake active staging)
  start := supervisionSafe_startFrom
  assertReset h := h.of_kept (.registers (.refl _))
  warmRestart h := h.warmRestart
  readReport source payload h := h.readReport source payload
  readOperatorState payload h := by
    obtain ⟨tables, intake, history, figures⟩ := h
    refine ⟨tables.of_same, intake.readOperatorState payload, ?_, ?_⟩
    · simp only [HistorySafe, State.fresh, readOperatorState_get, readOperatorState_keeps] at history ⊢
      exact history
    · simp only [FiguresSafe, readOperatorState_keeps] at figures ⊢
      exact figures
  expireMeasurand m h := h.expireMeasurand m
  clearWindow h := h.of_kept (.same (.refl _))
  takeSetDown h _ := h.of_kept (.same (.refl _))
  evaluateWindow h _ := h.of_kept (.same (.refl _))
  confirmGrip h _ := h.of_kept (.confirmGrip (.refl _))
  release h _ := h.of_kept (.endLift (.refl _) _)
  failTare h _ := h.of_kept (.same (.refl _))
  observe a b z h := h.of_kept (.observe (.refl _) a b z)
  serviceChange {s} level h := by
    unfold supServiceChange
    split
    · exact h
    · exact SupervisionSafe.evaluate (s := { s with sup := { s.sup with service := level } }) h
  alertToggle h := h.of_kept (.alertToggle (.refl _))
  clockEvent event h := h.of_kept (.clockEvent (.refl _) event)
  removeLifts h _ := h.of_kept (.same (.refl _))
  clearBunk h := h.of_kept (.clearBunk (.refl _))
  openStaging h := ⟨keptByBlocks_tablesSafe.openStaging h.1, h.2⟩
  writeStaging record h writable index := ⟨keptByBlocks_tablesSafe.writeStaging record h.1 writable index, h.2⟩
  checkStaging h writable := ⟨keptByBlocks_tablesSafe.checkStaging h.1 writable, h.2⟩
  activateSet h ready := h.activateSet ready
  traceConfigure h _ := h.of_kept (.same (.refl _))
  traceEnable h := h.of_kept (.same (.refl _))
  traceDisable h := h.of_kept (.same (.refl _))
  traceFlush h := h.of_kept (.same (.refl _))
  traceRead _ h := h.of_kept (.same (.refl _))

/-! ## The mode (R122 to R124) -/

/-- With a table set active an accepted sample keeps the mode. -/
theorem ModeSafe.acceptSample {s : State} (h : ModeSafe s) (active : s.active.isSome) (m : Measurand) (e : ChannelEntry)
    (v : Int) (a : Option Int) : ModeSafe (acceptSample m e v a s) := by
  have needs : ∀ {u : State}, u.active = s.active → FreshNeedsSet u := by
    intro u same none
    rw [same] at none
    simp [none] at active
  have kept := fun (notF : m ≠ .f) (notReach : m ≠ .reach) =>
    (SupKept.deliverSample notF v a (s.modIntake fun i => i.set m (acceptedRecord e v s.clock))).mode
      (h.of_same (f := fresh_set_other notF.symm _ s) (reach := fresh_set_other notReach.symm _ s))
  unfold Machine.acceptSample
  cases m
  case f =>
    obtain ⟨u, before, behind⟩ := deliverForce_around v a (s.modIntake fun i => i.set .f (acceptedRecord e v s.clock))
    exact behind.mode (FreshNeedsSet.evaluate (s := { u with sup := _ }) (needs before.active))
  case reach => exact FreshNeedsSet.evaluate (s := s.modIntake _) (needs rfl)
  all_goals exact kept (by decide) (by decide)

theorem ModeSafe.readReport {s : State} (h : ModeSafe s) (source : Byte) (payload : List Byte) :
    ModeSafe (readReport source payload s) := by
  have judged : ∀ (rs : List MatchedRecord) (x : State × Option Int), ModeSafe x.1 → x.1.active.isSome →
      ModeSafe (rs.foldl judgeRecord x).1 := by
    intro rs
    induction rs with
    | nil => exact fun _ h _ => h
    | cons r rs ih =>
      refine fun x h active => ih _ ?_ (by simpa using active)
      unfold judgeRecord
      dsimp only
      split
      · exact h.acceptSample active _ _ _ _
      · exact h.of_same
  unfold Machine.readReport
  split
  · exact h
  · exact judged _ _ h (by simp [*])

/-- An expiry keeps the mode: that of F or REACH makes supervision evaluate (R119). -/
theorem ModeSafe.expireMeasurand {s : State} (h : ModeSafe s) (m : Measurand) : ModeSafe (expireMeasurand m s) := by
  have stale : ∀ n, (s.modIntake fun i => i.set m { i.get m with state := .stale, timer := none }).fresh n = true →
      s.fresh n = true := by
    intro n fresh
    by_cases same : n = m
    · subst same; simp [State.fresh] at fresh
    · simpa [State.fresh, Intake.get_set_other _ _ _ _ same] using fresh
  have needs : FreshNeedsSet (s.modIntake fun i => i.set m { i.get m with state := .stale, timer := none }) := by
    intro none
    obtain ⟨f, reach⟩ := h.freshNeedsSet none
    exact ⟨Bool.eq_false_iff.mpr fun fresh => by simp [stale .f fresh] at f,
      Bool.eq_false_iff.mpr fun fresh => by simp [stale .reach fresh] at reach⟩
  have kept := fun (notF : m ≠ .f) (notReach : m ≠ .reach) =>
    (SupKept.deliverExpiry notF (s.modIntake fun i => i.set m { s.intake.get m with state := .stale, timer := none })).mode
      (h.of_same (f := fresh_set_other notF.symm _ s) (reach := fresh_set_other notReach.symm _ s))
  unfold Machine.expireMeasurand
  split
  · cases m
    case f =>
      refine FreshNeedsSet.evaluate fun none => ?_
      simpa [State.fresh] using needs (by simpa using none)
    case reach => exact needs.evaluate
    all_goals exact kept (by decide) (by decide)
  · exact h

theorem modeSafe_activateSet (t : TableSet) (s : State) : ModeSafe (activateSet t s) := by
  refine (activateSet_around t s).mode (FreshNeedsSet.evaluate fun none => ?_)
  simp at none

theorem modeSafe_warmRestart (s : State) : ModeSafe (warmRestart s) := by
  unfold ModeSafe
  simp only [warmRestart, supWarmRestart_of_stale, State.fresh, Intake.get]
  cases s.sup.service <;> cases s.active <;> simp

theorem modeSafe_startFrom (pins : InputLevels) (s : State) : ModeSafe (startFrom pins s) := by
  unfold ModeSafe
  simp only [startFrom, startState, supStart, State.reset, State.fresh, Intake.get]
  cases pins.service <;> simp

/-- Every operation keeps the mode. -/
theorem keptByBlocks_modeSafe : KeptByBlocks ModeSafe where
  same h same := by
    obtain ⟨intake, -, -, -, -, sup, active, staging, -⟩ := same
    exact (SupKept.same (.refl _) sup intake active staging).mode h
  start := modeSafe_startFrom
  assertReset h := h.of_same rfl rfl rfl rfl rfl
  warmRestart _ := modeSafe_warmRestart _
  readReport source payload h := h.readReport source payload
  readOperatorState payload h :=
    h.of_same (f := by simp [State.fresh, readOperatorState_get]) (reach := by simp [State.fresh, readOperatorState_get])
  expireMeasurand m h := h.expireMeasurand m
  clearWindow h := h.of_same
  takeSetDown h _ := h.of_same
  evaluateWindow h _ := h.of_same
  confirmGrip h _ := (SupKept.confirmGrip (.refl _)).mode h
  release h _ := (SupKept.endLift (.refl _) _).mode h
  failTare h _ := h.of_same
  observe a b z h := (SupKept.observe (.refl _) a b z).mode h
  serviceChange {s} level h := by
    unfold supServiceChange
    split
    · exact h
    · exact FreshNeedsSet.evaluate (s := { s with sup := { s.sup with service := level } }) h.freshNeedsSet
  alertToggle h := (SupKept.alertToggle (.refl _)).mode h
  clockEvent event h := (SupKept.clockEvent (.refl _) event).mode h
  removeLifts h _ := h.of_same
  clearBunk h := (SupKept.clearBunk (.refl _)).mode h
  openStaging h := h
  writeStaging _ h _ _ := h
  checkStaging h _ := h
  activateSet _ _ := modeSafe_activateSet _ _
  traceConfigure h _ := h.of_same
  traceEnable h := h.of_same
  traceDisable h := h.of_same
  traceFlush h := h.of_same
  traceRead _ h := h.of_same

/-- Settles O42: both promises are kept by every operation of a block, and so by every step. -/
theorem everyStepKeepsFiguresAndMode : Obligations.EveryStepKeepsFiguresAndMode :=
  ⟨fun _ _ h answer => keptByBlocks_supervisionSafe.step h answer,
    fun _ _ h answer => keptByBlocks_modeSafe.step h answer⟩

end Sys2Proof.Machine
end

