-- ==== Sys2Proof/Proofs/Conversion.lean ====
section
/-! PROOFS. The calibration line of a raw count (O19). -/

namespace Sys2Proof.Machine

-- One theorem after another: side by side, so many small ones need more threads than the memory limit admits.
set_option Elab.async false

/-- The rounded quotient lies above the quotient less a half, and at most a half above it. -/
theorem roundHalfUp_nearest (num : Nat) {den : Nat} (pos : 0 < den) :
    2 * (roundHalfUp num den * den) ≤ 2 * num + den ∧ 2 * num < 2 * (roundHalfUp num den * den) + den := by
  have below := Nat.div_mul_le_self (2 * num + den) (2 * den)
  have above := Nat.lt_div_mul_add (a := 2 * num + den) (b := 2 * den) (by omega)
  rw [← roundHalfUp, Nat.mul_left_comm] at below above
  omega

/-- How far the rounded quotient lies off, in the divisor's units: on the numerator's side as far as the rounded quotient
of the absolute values does. -/
theorem roundAway_mul_sub (num den : Int) :
    roundAway num den * den - num = Int.sign num * ((roundHalfUp num.natAbs den.natAbs * den.natAbs : Nat) - (num.natAbs : Int)) := by
  have size : Int.sign num * (num.natAbs : Int) = num := Int.sign_mul_natAbs num
  have length : Int.sign den * den = (den.natAbs : Int) := by rw [Int.sign_mul_self_eq_natAbs]
  calc roundAway num den * den - num
      = Int.sign num * (roundHalfUp num.natAbs den.natAbs * (Int.sign den * den)) - Int.sign num * num.natAbs := by
        rw [size, roundAway]; ring
    _ = _ := by rw [length]; push_cast; ring

/-- "Rounded to nearest, ties away from zero": the rounded quotient is at most a half off, and where it is a half off it lies
away from zero (R28). -/
theorem roundAway_nearest (num : Int) {den : Int} (notZero : den ≠ 0) :
    (2 * (roundAway num den * den - num)).natAbs ≤ den.natAbs ∧
      ((2 * (roundAway num den * den - num)).natAbs = den.natAbs → num.natAbs < (roundAway num den * den).natAbs) := by
  obtain ⟨below, above⟩ := roundHalfUp_nearest num.natAbs (Int.natAbs_pos.mpr notZero)
  have away : (roundAway num den * den).natAbs = roundHalfUp num.natAbs den.natAbs * den.natAbs := by
    rw [Int.natAbs_mul, natAbs_roundAway]
  rw [away, Int.natAbs_mul, roundAway_mul_sub, Int.natAbs_mul, Int.natAbs_sign, show (2 : Int).natAbs = 2 from rfl]
  generalize roundHalfUp num.natAbs den.natAbs * den.natAbs = rounded at *
  split
  · omega
  · omega

theorem clampInt_eq {low high : Int} (h : low ≤ high) (v : Int) : clampInt low high v = max low (min high v) := by
  unfold clampInt
  split
  · omega
  · split <;> omega

/-- The product that the calibration line divides has at most 42 bits (R28). -/
theorem calibration_product_bound {count c0 v0 v1 : Int} (count24 : -8388608 ≤ count ∧ count ≤ 8388607)
    (c024 : -8388608 ≤ c0 ∧ c0 ≤ 8388607) (v0Range : -120000 ≤ v0 ∧ v0 ≤ 120000) (v1Range : -120000 ≤ v1 ∧ v1 ≤ 120000) :
    ((count - c0) * (v1 - v0)).natAbs < 2 ^ 42 :=
  calc ((count - c0) * (v1 - v0)).natAbs = (count - c0).natAbs * (v1 - v0).natAbs := Int.natAbs_mul _ _
    _ ≤ 16777215 * 240000 := by gcongr <;> omega
    _ < 2 ^ 42 := by norm_num

/-- Settles O19: the converted value is the clamped sum of V0 and the quotient rounded to nearest. -/
theorem conversionFollowsTheCalibrationLine : Obligations.ConversionFollowsTheCalibrationLine := by
  intro e low high count points range num den
  have notZero : den ≠ 0 := fun zero => points (BitVec.eq_of_toInt_eq (Int.sub_eq_zero.mp zero))
  obtain ⟨near, tie⟩ := roundAway_nearest num notZero
  refine ⟨roundAway num den, clampInt_eq range _, near, tie, ?_⟩
  rintro ⟨lowCount, highCount, lowV0, highV0, lowV1, highV1⟩
  exact calibration_product_bound ⟨lowCount, highCount⟩ ⟨BitVec.le_toInt e.c0, Int.le_of_lt_add_one (BitVec.toInt_lt (x := e.c0))⟩
    ⟨lowV0, highV0⟩ ⟨lowV1, highV1⟩

end Sys2Proof.Machine
end

