-- ==== Sys2Proof/Proofs/Steps.lean ====
section
/-! PROOFS. What a step does with the queue of waiting commands (O1). -/

namespace Sys2Proof.Machine

-- One theorem after another: side by side, so many small ones need more threads than the memory limit admits.
set_option Elab.async false

theorem step_of_waiting {s : State} {c : Instr} {rest : List Instr} (waiting : s.pending = c :: rest) :
    step s = exec c { s with pending := rest } := by
  simp only [step, waiting]

theorem step_of_empty {s : State} (empty : s.pending = []) : step s = .next (idle s) := by
  simp only [step, empty]

theorem idle_of_inReset {s : State} (inReset : s.inReset = true) : idle s = s := by simp [idle, inReset]

/-- The first due event is taken. -/
theorem idle_of_due {s : State} {e : InternalEvent} (running : s.inReset = false)
    (first : (internalEvents s).find? InternalEvent.due = some e) : idle s = e.taken := by
  simp [idle, running, first]

/-- With no event due a millisecond passes. -/
theorem idle_of_none {s : State} (running : s.inReset = false) (none : ∀ e ∈ internalEvents s, e.due = false) :
    idle s = tick s := by
  have notFound : (internalEvents s).find? InternalEvent.due = .none :=
    List.find?_eq_none.mpr fun e mem due => by simp [none e mem] at due
  simp [idle, running, notFound]

/-- Settles O1: the command at the front, or the step of the empty queue. -/
theorem stepRunsTheFrontCommand : Obligations.StepRunsTheFrontCommand := by
  refine ⟨fun c rest s waiting => step_of_waiting waiting, fun s empty inReset => ?_, fun s e empty running first => ?_,
    fun s empty running none => ?_⟩
  · rw [step_of_empty empty, idle_of_inReset inReset]
  · rw [step_of_empty empty, idle_of_due running first]
  · rw [step_of_empty empty, idle_of_none running none, tick]

end Sys2Proof.Machine
end

