-- ==== Sys2Proof/Proofs/OperatorState.lean ====
section
/-! PROOFS. An OPERATOR STATE payload: the snapshot, the tool and the tare request (O22). -/

namespace Sys2Proof.Machine

-- One theorem after another: side by side, so many small ones need more threads than the memory limit admits.
set_option Elab.async false

theorem exec_operatorState {s : State} (running : s.inReset = false) (payload : List Byte) :
    exec (.operatorState payload) s = .next (readOperatorState payload s) := State.unlessReset_running _ s running

/-- The lift controller after the tool of a payload: a tool that differs from the snapshot's is selected at once in EMPTY,
and else waits (R36, R58). -/
def liftAfterTool (id : Nat) (s : State) : LiftController :=
  if id = s.intake.snapshot.tool then s.lift
  else if s.lift.state = .empty then { s.lift with selectedTool := id, workingTare := none, pendingTool := none }
  else { s.lift with pendingTool := some id }

/-- Reading the tool writes the snapshot's tool and the lift controller (R36). -/
theorem takeTool_eq (id : Nat) (s : State) :
    takeTool id s = { s with
      lift := liftAfterTool id s, intake := { s.intake with snapshot := { s.intake.snapshot with tool := id } } } := by
  unfold takeTool liftAfterTool
  split
  · subst id; rfl
  · unfold liftToolChange
    simp only [State.modSnapshot_keeps]
    split <;> rfl

/-- A payload in its ranges is read field by field (R35). -/
theorem readOperatorState_of_range {tool assortment : Byte} (toolRange : tool.toNat ≤ 7)
    (assortmentRange : assortment.toNat ≤ 31) (number : Byte) (more : List Byte) (s : State) :
    readOperatorState (tool :: assortment :: number :: more) s =
      takeTareNumber number { s with
        lift := liftAfterTool tool.toNat s,
        intake := { s.intake with snapshot :=
          { s.intake.snapshot with tool := tool.toNat, assortment := assortment.toNat } } } := by
  simp only [readOperatorState, toolRange, assortmentRange, and_self, if_true, takeTool_eq]
  rfl

theorem readOperatorState_of_outside {tool assortment : Byte} (outside : 7 < tool.toNat ∨ 31 < assortment.toNat)
    (number : Byte) (more : List Byte) (s : State) : readOperatorState (tool :: assortment :: number :: more) s = s := by
  unfold readOperatorState
  exact if_neg (by omega)

/-- A number that is unset or unchanged asks for no tare (R37). -/
theorem takeTareNumber_of_unasked {number : Byte} {s : State}
    (unasked : s.intake.snapshot.tareNumber = none ∨ s.intake.snapshot.tareNumber = some number) :
    takeTareNumber number s = s.modSnapshot fun n => { n with tareNumber := some number } := by
  rcases unasked with h | h <;> simp [takeTareNumber, h]

/-- A number that differs from the last one asks for a tare (R37). -/
theorem takeTareNumber_of_asked {number last : Byte} {s : State} (known : s.intake.snapshot.tareNumber = some last)
    (differs : last ≠ number) :
    takeTareNumber number s = liftTareRequest (s.modSnapshot fun n => { n with tareNumber := some number }) := by
  simp [takeTareNumber, known, differs]

/-- The selected tool is known when the ACTIVE tool table has its entry (R58). -/
theorem selectedEntry_isSome_iff (s : State) :
    (selectedEntry s).isSome ↔ ∃ set e, s.active = some set ∧ set.toolOf s.lift.selectedTool = some e := by
  simp [selectedEntry, Option.isSome_iff_exists, Option.bind_eq_some_iff]
  tauto

/-- A tare request is granted in EMPTY with a known selected tool and the grip-confirm timer stopped; else it fails (R65). -/
theorem liftTareRequest_cases (s : State) :
    let ready := s.lift.state = .empty ∧ s.lift.gripTimer = none ∧
      ∃ set e, s.active = some set ∧ set.toolOf s.lift.selectedTool = some e
    (ready → liftTareRequest s = clockEvent (.liftEvent .taring) { s with lift := { s.lift with
      state := .taring, window := {}, tareTimer := some (s.clock + 5000) } }) ∧
    (¬ready → liftTareRequest s = s.notify .tareFailed) := by
  have entry := selectedEntry_isSome_iff s
  unfold liftTareRequest
  exact ⟨fun ⟨empty, timer, known⟩ => if_pos ⟨empty, entry.mpr known, timer⟩,
    fun unready => if_neg fun ⟨empty, known, timer⟩ => unready ⟨empty, timer, entry.mp known⟩⟩

/-- Settles O22: the fields are read in turn, and a tare request is granted or fails. -/
theorem operatorStateIsRead : Obligations.OperatorStateIsRead := by
  intro s tool assortment number more running
  have exec_eq := exec_operatorState running
  refine ⟨⟨exec_eq _, exec_eq _, exec_eq _⟩, fun outside => ?_, fun toolRange assortmentRange => ?_⟩
  · rw [exec_eq, readOperatorState_of_outside outside]
  · intro lift u ready
    obtain ⟨before, read, last, numbered⟩ : ∃ before : State,
        exec (.operatorState (tool :: assortment :: number :: more)) s = .next (takeTareNumber number before) ∧
        before.intake.snapshot.tareNumber = s.intake.snapshot.tareNumber ∧
        (before.modSnapshot fun n => { n with tareNumber := some number }) = u :=
      ⟨_, (exec_eq _).trans (congrArg _ (readOperatorState_of_range toolRange assortmentRange number more s)), rfl, rfl⟩
    rw [← last, read]
    refine ⟨fun unasked => by rw [takeTareNumber_of_unasked unasked, numbered], fun number known differs => ?_⟩
    rw [takeTareNumber_of_asked known differs, numbered]
    obtain ⟨granted, failed⟩ := liftTareRequest_cases u
    exact ⟨fun ok => by rw [granted ok], fun no => by rw [failed no]⟩

end Sys2Proof.Machine
end

