-- ==== Sys2Proof/Proofs/Freshness.lean ====
section
/-! PROOFS. The expiry of a measurand's freshness timer (O21). -/

namespace Sys2Proof.Machine

-- One theorem after another: side by side, so many small ones need more threads than the memory limit admits.
set_option Elab.async false

theorem exec_freshnessExpiry {s : State} (running : s.inReset = false) (m : Measurand) :
    exec (.freshnessExpiry m) s = .next (expireMeasurand m s) := State.unlessReset_running _ s running

/-- An expired timer makes its measurand STALE, and the expiry is delivered (R32). -/
theorem expireMeasurand_of_expired {m : Measurand} {s : State} (due : expired s.clock (s.intake.get m).timer = true) :
    expireMeasurand m s = deliverExpiry m { s with
      intake := s.intake.set m { s.intake.get m with state := .stale, timer := none } } := if_pos due

theorem expireMeasurand_of_running {m : Measurand} {s : State} (notDue : expired s.clock (s.intake.get m).timer = false) :
    expireMeasurand m s = s := if_neg (by simp [notDue])

/-- The states in which the expiry of F or A clears the window (R80). -/
theorem windowStates_iff (st : LiftState) : windowStates st = true ↔ st = .taring ∨ st = .gripped ∨ st = .lifting := by
  cases st <;> simp [windowStates]

theorem liftFExpiry_eq (s : State) :
    liftFExpiry s = { s with lift :=
      if s.lift.state = .taring ∨ s.lift.state = .gripped ∨ s.lift.state = .lifting then
        { s.lift with window := {}, setDownRun := 0 } else s.lift } := by
  unfold liftFExpiry
  simp only [windowStates_iff]
  split <;> rfl

theorem liftAExpiry_eq (s : State) :
    liftAExpiry s = { s with lift :=
      if s.lift.state = .taring ∨ s.lift.state = .gripped ∨ s.lift.state = .lifting then
        { s.lift with window := {} } else s.lift } := by
  unfold liftAExpiry
  simp only [windowStates_iff]
  split <;> rfl

/-- The mode decided by an evaluation with the service input released, a table set active and F or REACH STALE (R122). -/
theorem evaluate_state_hold {s : State} (released : s.sup.service = false) (active : s.active.isSome)
    (stale : ¬(s.fresh .f = true ∧ s.fresh .reach = true)) : (evaluate s).sup.state = .hold := by
  have service : (computeFigures s).sup.service = false := by rw [computeFigures_sup_frame, released]
  rw [evaluate_state]
  refine (decideState_mode _).2.2.mpr ⟨service, ?_⟩
  simp only [State.fresh, computeFigures_keeps] at stale ⊢
  exact ⟨active, stale⟩

/-- GPRESS expires in EMPTY: a grip is not confirmed (R70). -/
theorem liftGpressExpiry_of_empty {s : State} (empty : s.lift.state = .empty) :
    liftGpressExpiry s = { s with lift := { s.lift with gripTimer := none } } := by
  unfold liftGpressExpiry
  rw [empty]
  rfl

theorem liftGpressExpiry_of_taring {s : State} (taring : s.lift.state = .taring) : liftGpressExpiry s = s := by
  unfold liftGpressExpiry
  rw [taring]

/-- GPRESS expires in a state of a lift: the lift ends (R79). -/
theorem liftGpressExpiry_of_holdsLift {s : State} (open_ : holdsLift s.lift.state = true) :
    liftGpressExpiry s = endLift .pressureLost s := by
  unfold liftGpressExpiry
  cases state : s.lift.state <;> simp_all [holdsLift]

/-- The end of a lift without a sequence number: it is discarded (R78, R79). -/
theorem endLift_of_unnumbered {s : State} {l : OpenLift} (openLift : s.lift.openLift = some l) (number : l.number = none)
    (ending : LiftEnding) : endLift ending s = enterEmpty { s with lift := { s.lift with
      openLift := none, regripTimer := none, gripTimer := none, remembered := none } } := by
  simp only [endLift, openLift, number]
  rfl

/-- The end of a lift with a sequence number: it is handed over (R78, R79). -/
theorem endLift_of_numbered {s : State} {l : OpenLift} {number : BitVec 16 × BitVec 16} (openLift : s.lift.openLift = some l)
    (numbered : l.number = some number) (ending : LiftEnding) :
    endLift ending s = enterEmpty { handOver ending l number s with lift := { (handOver ending l number s).lift with
      openLift := none, regripTimer := none, gripTimer := none, remembered := none } } := by
  simp only [endLift, openLift, numbered]
  rfl

/-- The record of a lift whose pressure was lost (R86 to R89). -/
theorem buildRecord_pressureLost (s : State) (l : OpenLift) (sequence generation : BitVec 16) :
    buildRecord s .pressureLost l (sequence, generation) =
      { sequence, outcome := .abandoned, weighing := l.weighing, tool := l.tool,
        assortment := (match l.opened with
          | some o => o.assortment
          | none => s.intake.snapshot.assortment),
        pickSector := l.pickSector,
        releaseSector := (match l.opened with
          | some o => o.sector
          | none => none),
        generation, sampleCount := l.sampleCount, windowAttempts := l.windowAttempts, regripCount := l.regripCount,
        static := l.static, workingTare := l.workingTare, limitDuring := l.limitDuring, bypassed := l.bypassed,
        peak := l.peak, gripTime := l.gripTime, duration := min 65535 ((s.clock - l.gripTime).toNat / 10) } := by
  cases opened : l.opened <;> simp only [buildRecord, opened] <;> rfl

/-- Settles O21: each measurand's expiry goes to the blocks that use it. -/
theorem freshnessExpires : Obligations.FreshnessExpires := by
  intro m s running
  rw [exec_freshnessExpiry running]
  refine ⟨fun notDue => by rw [expireMeasurand_of_running notDue], fun due => ?_⟩
  intro u windowed stopped
  rw [expireMeasurand_of_expired due]
  refine ⟨?_, ?_, ?_, ?_, ?_, ?_, ?_⟩
  · rintro rfl
    rw [deliverExpiry, supFExpiry, liftFExpiry_eq]
  · rintro rfl
    rw [deliverExpiry, liftAExpiry_eq]
  · rintro (rfl | rfl | rfl) <;> rfl
  · intro user released active
    refine ⟨_, rfl, ?_⟩
    rcases user with rfl | rfl
    · exact evaluate_state_hold (by simpa using released) (by simpa using active) (by simp [State.fresh, Intake.get, Intake.set])
    · exact evaluate_state_hold released active (by simp [State.fresh, Intake.get, Intake.set])
  · rintro rfl empty
    exact congrArg _ (liftGpressExpiry_of_empty (s := u) empty)
  · rintro rfl taring
    exact congrArg _ (liftGpressExpiry_of_taring (s := u) taring)
  · rintro l rfl holds openLift
    have ends : deliverExpiry .gpress u = endLift .pressureLost u := liftGpressExpiry_of_holdsLift (s := u) holds
    refine ⟨fun number => ?_, fun sequence generation number => ?_⟩
    · exact congrArg _ (ends.trans (endLift_of_unnumbered (s := u) openLift number _))
    · intro record filed
      have made : buildRecord (trackStop u) .pressureLost l (sequence, generation) = record := buildRecord_pressureLost _ _ _ _
      refine congrArg _ (ends.trans ((endLift_of_numbered (s := u) openLift number _).trans ?_))
      rw [handOver, made]
      rfl

end Sys2Proof.Machine
end

