-- ==== Sys2Proof/Proofs/NoticesSent.lean ====
section
/-! PROOFS. Which notice kinds supervision, the lift controller and a sample raise. -/

namespace Sys2Proof.Machine

-- One theorem after another: side by side, so many small ones need more threads than the memory limit admits.
set_option Elab.async false

/-- From one state to another the kinds of a list were raised, and no others. -/
def Notifies (kinds : List NoticeKind) (s t : State) : Prop := NoticesRaised (· ∈ kinds) s t

variable {r s t : State} {kinds more : List NoticeKind}

namespace Notifies

theorem refl (s : State) : Notifies [] s s := ⟨[], by simp⟩

theorem trans (h : Notifies kinds r s) (g : Notifies more s t) : Notifies (kinds ++ more) r t := by
  have both := NoticesRaised.trans h g
  unfold Notifies
  simpa only [List.mem_append] using both

/-- A step that leaves the cab port and the pending kinds raises nothing. -/
theorem same (h : Notifies kinds r s) (cab : t.cab = s.cab := by simp) (notices : t.notices = s.notices := by simp) :
    Notifies kinds r t := by
  have silent : Notifies [] s t := ⟨[], by rw [cab, List.append_nil], by simp, by simp [notices]⟩
  simpa using h.trans silent

theorem notify (h : Notifies kinds r s) (k : NoticeKind) : Notifies (kinds ++ [k]) r (s.notify k) := by
  refine h.trans ?_
  unfold Notifies
  simpa only [List.mem_singleton] using State.notify_raises k s

theorem notifyAll (h : Notifies kinds r s) (more : List NoticeKind) :
    Notifies (kinds ++ more) r (more.foldl (fun s k => s.notify k) s) := by
  induction more generalizing kinds s with
  | nil => simpa using h
  | cons k rest ih => simpa using ih (h.notify k)

/-- The notices of a change of state (R126). -/
theorem changeState (h : Notifies kinds r s) (now : SupState) :
    Notifies (kinds ++ if now = s.sup.state then [] else stateNotices s.sup.state now) r (changeState now s) := by
  unfold Machine.changeState
  split
  · simpa using h
  · dsimp only
    generalize told : List.foldl _ _ (stateNotices s.sup.state now) = x
    have raised : Notifies (kinds ++ stateNotices s.sup.state now) r x := by
      rw [← told]
      exact notifyAll (h.same (t := { s with sup := { s.sup with state := now } }) rfl rfl) _
    exact raised.same

/-- An evaluation raises the notices of its change of state. -/
theorem evaluate (h : Notifies kinds r s) :
    Notifies (kinds ++ if (evaluate s).sup.state = s.sup.state then [] else stateNotices s.sup.state (evaluate s).sup.state) r
      (evaluate s) := by
  have state : (computeFigures s).sup.state = s.sup.state := by rw [computeFigures_sup_frame]
  rw [evaluate_state, ← state]
  have computed : Notifies kinds r (computeFigures s) := h.same
  exact (computed.changeState _).same (by simp [Machine.evaluate]) (by simp [Machine.evaluate])

end Notifies

namespace OnlyNoticesSent

theorem refl (s : State) : OnlyNoticesSent s s := ⟨_, NoticesRaised.none s⟩

theorem trans (h : OnlyNoticesSent r s) (g : OnlyNoticesSent s t) : OnlyNoticesSent r t := by
  obtain ⟨_, h⟩ := h
  obtain ⟨_, g⟩ := g
  exact ⟨_, h.trans g⟩

theorem notifies (h : OnlyNoticesSent r s) (g : Notifies kinds s t) : OnlyNoticesSent r t := h.trans ⟨_, g⟩

theorem same (h : OnlyNoticesSent r s) (cab : t.cab = s.cab := by simp) (notices : t.notices = s.notices := by simp) :
    OnlyNoticesSent r t := h.notifies ((Notifies.refl s).same cab notices)

theorem notify (h : OnlyNoticesSent r s) (k : NoticeKind) : OnlyNoticesSent r (s.notify k) := h.trans ⟨_, State.notify_raises k s⟩

theorem evaluate (h : OnlyNoticesSent r s) : OnlyNoticesSent r (evaluate s) := h.notifies (Notifies.refl s).evaluate

theorem supFSample (h : OnlyNoticesSent r s) (v : Int) : OnlyNoticesSent r (supFSample v s) := evaluate (h.same rfl rfl)

theorem clockEvent (h : OnlyNoticesSent r s) (event : ClockEvent) : OnlyNoticesSent r (clockEvent event s) := h.same

/-! ## The lift controller (04) -/

theorem modLift (h : OnlyNoticesSent r s) (f : LiftController → LiftController) : OnlyNoticesSent r (s.modLift f) := h.same

theorem enterEmpty (h : OnlyNoticesSent r s) : OnlyNoticesSent r (enterEmpty s) := h.same

theorem tareAccepted (h : OnlyNoticesSent r s) (e : ToolEntry) (mean : Nat) : OnlyNoticesSent r (tareAccepted e mean s) := by
  unfold Machine.tareAccepted
  dsimp only
  split
  · exact enterEmpty (modLift (notify (h.modLift _) _) _)
  · exact enterEmpty (modLift (h.notify _) _)

theorem evaluateWindow (h : OnlyNoticesSent r s) : OnlyNoticesSent r (evaluateWindow s) := by
  unfold Machine.evaluateWindow
  dsimp only
  split
  · exact h
  · split
    · split
      · exact h.tareAccepted _ _
      · exact h.same
    · split
      · exact h.same
      · exact h.same

theorem feedWindow (h : OnlyNoticesSent r s) (x : Sample) : OnlyNoticesSent r (feedWindow x s) := by
  unfold Machine.feedWindow
  dsimp only
  have fed : OnlyNoticesSent r (s.modLift fun l => { l with window := l.window.feed x }) := h.same
  split
  · split
    · exact evaluateWindow fed.same
    · exact fed.same
  · split
    · exact fed.evaluateWindow
    · exact fed

theorem liftingSample (h : OnlyNoticesSent r s) (e : ToolEntry) (x : Sample) : OnlyNoticesSent r (liftingSample e x s) := by
  unfold Machine.liftingSample
  dsimp only
  split
  · exact h
  · split
    · exact h.same
    · exact feedWindow h.same x

theorem liftFSample (h : OnlyNoticesSent r s) (v : Int) (a : Option Int) : OnlyNoticesSent r (liftFSample v a s) := by
  unfold Machine.liftFSample
  dsimp only
  split
  · split
    · exact h
    · exact feedWindow h.same _
  · split
    · exact h
    · split
      · exact h
      · split
        · exact liftingSample h.same _ _
        · exact h.same
  · split
    · exact h
    · exact liftingSample h.same _ _
  · exact h
  · exact h
  · exact h

theorem failTare (h : OnlyNoticesSent r s) : OnlyNoticesSent r (failTare s) := by
  exact enterEmpty (notify (h.modLift _) _)

theorem taringPressure (h : OnlyNoticesSent r s) (v : Int) : OnlyNoticesSent r (taringPressure v s) := by
  unfold Machine.taringPressure
  dsimp only
  split
  · exact h
  · split
    · split
      · exact h.failTare
      · exact h.failTare.same
    · exact h

theorem liftGpress (h : OnlyNoticesSent r s) (v : Int) : OnlyNoticesSent r (liftGpress v s) := by
  unfold Machine.liftGpress
  split
  case h_2 => exact h.taringPressure v
  all_goals exact h.same

/-! ## A sample (R34) -/

theorem deliverForce (h : OnlyNoticesSent r s) (v : Int) (a : Option Int) : OnlyNoticesSent r (deliverForce v a s) := by
  have chosen : OnlyNoticesSent r (s.choose 6).2 := h.same
  unfold Machine.deliverForce
  dsimp only
  split
  · exact ((chosen.liftFSample v a).supFSample v).clockEvent _
  · exact ((chosen.liftFSample v a).clockEvent _).supFSample v
  · exact ((chosen.supFSample v).liftFSample v a).clockEvent _
  · exact ((chosen.supFSample v).clockEvent _).liftFSample v a
  · exact ((chosen.clockEvent _).liftFSample v a).supFSample v
  · exact ((chosen.clockEvent _).supFSample v).liftFSample v a

theorem deliverSample (h : OnlyNoticesSent r s) (m : Measurand) (v : Int) (a : Option Int) :
    OnlyNoticesSent r (deliverSample m v a s) := by
  cases m with
  | f => exact h.deliverForce v a
  | a => exact h
  | gpress => exact h.liftGpress v
  | reach | pitch | roll => exact h.evaluate

end OnlyNoticesSent

end Sys2Proof.Machine
end

