-- ==== Sys2Proof/Proofs/SensorReports.lean ====
section
/-! PROOFS. A SENSOR REPORT: its records, the two passes, and what an accepted sample is delivered to (O20). -/

namespace Sys2Proof.Machine

-- One theorem after another: side by side, so many small ones need more threads than the memory limit admits.
set_option Elab.async false

/-! ## The records of a report (R25, R26) -/

/-- The raw count of a slot record. -/
def SlotReading.count (r : SlotReading) : Int := (r.high ++ r.middle ++ r.low : BitVec 24).toInt

/-- A slot record with the entry and measurand it matches. -/
def SlotReading.matched (r : SlotReading) : Option MatchedRecord :=
  r.entry.map fun (e, m) => { measurand := m, entry := e, count := r.count }

theorem slotRecords_of_short {tail : List Byte} (short : tail.length < 4) : slotRecords tail = [] := by
  unfold slotRecords
  split
  · simp at short
    omega
  · rfl

/-- Whole records are read in payload order; the bytes behind them are ignored (R25). -/
theorem slotRecords_flatMap (records : List SlotReading) {tail : List Byte} (short : tail.length < 4) :
    slotRecords (records.flatMap SlotReading.bytes ++ tail) = records.map fun r => { slot := r.slot, count := r.count } := by
  induction records with
  | nil => exact slotRecords_of_short short
  | cons r rest ih =>
    rw [List.flatMap_cons, List.append_assoc, List.map_cons, ← ih]
    rfl

theorem measurandOfCode_measurandCode (m : Measurand) : measurandOfCode (measurandCode m) = some m := by
  cases m <;> rfl

/-- The first entry of the report's station and the record's slot is the one that the record matches (R26). -/
theorem matchRecord_of_matchesIn {set : TableSet} {source : Byte} {r : SlotReading} (h : r.MatchesIn set source) :
    matchRecord set source { slot := r.slot, count := r.count } = r.matched := by
  unfold SlotReading.MatchesIn at h
  unfold matchRecord SlotReading.matched
  cases entry : r.entry with
  | none =>
    rw [entry] at h
    have absent : set.channels.find? (fun e => e.source = source && e.slot = r.slot) = none :=
      List.find?_eq_none.mpr fun e mem => by simpa using h e mem
    rw [absent]
    rfl
  | some em =>
    obtain ⟨e, m⟩ := em
    rw [entry] at h
    obtain ⟨code, station, slot, before, behind, channels, first⟩ := h
    have found : set.channels.find? (fun e => e.source = source && e.slot = r.slot) = some e := by
      rw [channels, List.find?_append, List.find?_eq_none.mpr fun d mem => by simpa using first d mem]
      simp [station, slot]
    rw [found]
    simp [code, measurandOfCode_measurandCode]

/-- A pass over the matched records is a pass over the records: those that match no entry fall out of both. -/
theorem filter_filterMap_matched {p : MatchedRecord → Bool} {q : SlotReading → Bool}
    (agree : ∀ r m, r.matched = some m → p m = q r) (records : List SlotReading) :
    (records.filterMap SlotReading.matched).filter p = (records.filter q).filterMap SlotReading.matched := by
  rw [List.filter_filterMap, List.filterMap_filter]
  refine List.filterMap_congr fun r _ => ?_
  cases found : r.matched with
  | none => simp
  | some m => rw [Option.filter_some, agree r m found]

theorem isA_of_matched {r : SlotReading} {m : MatchedRecord} (found : r.matched = some m) :
    r.isA = decide (m.measurand = .a) := by
  obtain ⟨em, entry, rfl⟩ := Option.map_eq_some_iff.mp found
  simp [SlotReading.isA, entry]

/-- The two passes (R27). -/
theorem passOrder_filterMap (records : List SlotReading) :
    passOrder (records.filterMap SlotReading.matched) =
      (records.filter (·.isA) ++ records.filter (!·.isA)).filterMap SlotReading.matched := by
  rw [List.filterMap_append, passOrder]
  congr 1
  · exact filter_filterMap_matched (fun r m found => (isA_of_matched found).symm) records
  · exact filter_filterMap_matched (fun r m found => by rw [isA_of_matched found, decide_not]) records

/-! ## The judgement (R28 to R31) -/

/-- A judgement of each record, whether it matches or not, that agrees with `judgeRecord` at a clock: a report takes no
time. -/
theorem foldl_judgeRecord {judge : State × Option Int → SlotReading → State × Option Int} {now : Clock}
    (step : ∀ x r, x.1.clock = now → judge x r = r.matched.elim x (judgeRecord x)) (records : List SlotReading)
    {x : State × Option Int} (clock : x.1.clock = now) :
    records.foldl judge x = (records.filterMap SlotReading.matched).foldl judgeRecord x := by
  induction records generalizing x with
  | nil => rfl
  | cons r rest ih =>
    rw [List.foldl_cons, step x r clock]
    cases found : r.matched with
    | none => rw [List.filterMap_cons_none found]; exact ih clock
    | some m => rw [List.filterMap_cons_some found]; exact ih (by simpa using clock)

theorem plausible_iff (e : ChannelEntry) (v : Int) : plausible e v = true ↔ e.low.toInt ≤ v ∧ v ≤ e.high.toInt := by
  simp [plausible]

/-! ## The delivery (R34) -/

theorem supFSample_of_short {s : State} (short : s.sup.history.length ≤ 4) (v : Int) :
    supFSample v s = evaluate { s with sup := { s.sup with
      history := (s.sup.history ++ [v]).drop (s.sup.history.length - 3) } } := by
  rw [supFSample, pushForce_eq_drop short]

/-- An F sample is delivered in one of the six orders (R34, R127, R175). -/
theorem deliverForce_orders {s : State} (short : s.sup.history.length ≤ 4) (v : Int) (report : Option Int) :
    let lift := liftFSample v report
    let sup (x : State) : State := evaluate { x with sup := { x.sup with
      history := (x.sup.history ++ [v]).drop (x.sup.history.length - 3) } }
    let trace := clockEvent (.fSample v)
    let w := { s with choices := s.choices + 1 }
    deliverForce v report s ∈ [trace (sup (lift w)), sup (trace (lift w)), trace (lift (sup w)), lift (trace (sup w)),
      sup (lift (trace w)), lift (sup (trace w))] := by
  intro lift sup trace w
  have sup_of : ∀ x, SupKept w x → supFSample v x = sup x := fun x kept =>
    supFSample_of_short (by rw [kept.history]; exact short) v
  have kept := SupKept.refl w
  have chosen : (s.choose 6).2 = w := rfl
  unfold deliverForce
  dsimp only
  rw [chosen]
  split
  · rw [sup_of _ (kept.liftFSample v report)]; simp [lift, trace]
  · rw [sup_of _ ((kept.liftFSample v report).clockEvent _)]; simp [lift, trace]
  · rw [sup_of _ kept]; simp [lift, trace]
  · rw [sup_of _ kept]; simp [lift, trace]
  · rw [sup_of _ ((kept.clockEvent _).liftFSample v report)]; simp [lift, trace]
  · rw [sup_of _ (kept.clockEvent _)]; simp [lift, trace]

theorem exec_sensorReport {s : State} (running : s.inReset = false) (source : Byte) (payload : List Byte) :
    exec (.sensorReport source payload) s = .next (readReport source payload s) := State.unlessReset_running _ s running

/-- Settles O20: the records are read and passed over twice, each is judged, and an accepted sample is delivered. -/
theorem sensorReportIsJudged : Obligations.SensorReportIsJudged := by
  refine ⟨fun s source payload running none_ => ?_, fun s source set records tail running active short matching => ?_,
    fun v report u => ⟨rfl, rfl, rfl, rfl, rfl, fun short => deliverForce_orders short v report, fun m => ?_⟩⟩
  · rw [exec_sensorReport running, readReport, none_]
  · intro judge
    have step : ∀ x r, x.1.clock = s.clock → judge x r = r.matched.elim x (judgeRecord x) := by
      intro x r clock
      simp only [judge, SlotReading.matched]
      cases r.entry with
      | none => rfl
      | some em =>
        simp only [← clock, Option.map_some, Option.elim_some, judgeRecord, plausible_iff]
        rfl
    have read : (slotRecords (records.flatMap SlotReading.bytes ++ tail)).filterMap (matchRecord set source) =
        records.filterMap SlotReading.matched := by
      rw [slotRecords_flatMap records short, List.filterMap_map]
      exact List.filterMap_congr fun r mem => matchRecord_of_matchesIn (matching r mem)
    rw [exec_sensorReport running, foldl_judgeRecord step _ rfl, ← passOrder_filterMap, ← read]
    simp only [readReport, active]
  · simp only [deliverSample_keeps, true_and]
    exact (OnlyNoticesSent.refl u).deliverSample m v report

end Sys2Proof.Machine
end

