-- ==== Sys2Proof/Proofs/StaleEvaluations.lean ====
section
/-! PROOFS. Evaluations under a table set with the measurands STALE, as the blocks' activation leaves them: supervision
settles in HOLD or BYPASS, and a change of sector or bunk class then changes the capacity alone (R112 to R125). -/

namespace Sys2Proof.Machine

-- One theorem after another: side by side, so many small ones need more threads than the memory limit admits.
set_option Elab.async false

/-! ## With the measurands STALE -/

/-- A table set is ACTIVE, and the measurands that the figures and the state depend on are STALE. -/
structure StaleUnder (set : TableSet) (s : State) : Prop where
  active : s.active = some set
  f : s.fresh .f = false
  pitch : s.fresh .pitch = false

/-- The state of supervision while F is STALE under a table set (R122, R124). -/
def staleMode (s : State) : SupState := if s.sup.service then .bypass else .hold

/-- Supervision with the figures of STALE measurands: T is 160, and L is the capacity there (R112 to R115). -/
def Supervision.atRest (set : TableSet) (sup : Supervision) : Supervision :=
  { sup with tilt := 160, capacity := capacityOf set sup 160 }

theorem Supervision.atRest_of_tilt {set : TableSet} {sup : Supervision} (tilt : sup.tilt = 160) :
    sup.atRest set = { sup with capacity := capacityOf set sup 160 } := by
  rw [atRest, ← tilt]

section

variable {set : TableSet} {s t : State}

namespace StaleUnder

theorem same (h : StaleUnder set s) (active : t.active = s.active := by simp) (intake : t.intake = s.intake := by simp) :
    StaleUnder set t :=
  ⟨active.trans h.active, by rw [State.fresh, intake]; exact h.f, by rw [State.fresh, intake]; exact h.pitch⟩

theorem not_uCurrent (h : StaleUnder set s) : s.uCurrent = false := by simp [State.uCurrent, h.f]

theorem tiltOf (h : StaleUnder set s) : tiltOf set s = 160 := by simp [Machine.tiltOf, h.pitch]

theorem computeFigures (h : StaleUnder set s) : computeFigures s = { s with sup := s.sup.atRest set } := by
  have stale : StaleUnder set { s with sup := s.sup.atRest set } := h.same rfl rfl
  unfold Machine.computeFigures
  split
  · next none => simp [h.active] at none
  · next found =>
    cases h.active.symm.trans found
    dsimp only
    rw [h.tiltOf, if_neg (lt_irrefl _)]
    exact if_neg (Bool.eq_false_iff.mp stale.not_uCurrent)

theorem decideState (h : StaleUnder set s) : decideState s = staleMode s := by
  simp [Machine.decideState, staleMode, h.active, h.f]

theorem trackPeak (h : StaleUnder set s) : trackPeak s = s := if_neg (by simp [h.not_uCurrent])

/-- An evaluation takes the figures of STALE measurands, and the state follows the service input. -/
theorem evaluate (h : StaleUnder set s) :
    evaluate s = changeState (staleMode s) { s with sup := s.sup.atRest set } := by
  have stale : StaleUnder set { s with sup := s.sup.atRest set } := h.same rfl rfl
  rw [Machine.evaluate, h.computeFigures, stale.decideState]
  exact trackPeak (stale.same (by simp) (by simp))

end StaleUnder

/-! ## Settled -/

/-- Supervision has evaluated with the measurands STALE. -/
structure Settled (set : TableSet) (s : State) : Prop where
  stale : StaleUnder set s
  mode : s.sup.state = staleMode s
  rest : s.sup.atRest set = s.sup

namespace Settled

theorem same (h : Settled set s) (sup : t.sup = s.sup := by simp) (active : t.active = s.active := by simp)
    (intake : t.intake = s.intake := by simp) : Settled set t :=
  ⟨h.stale.same active intake, by rw [staleMode, sup]; exact h.mode, by rw [sup]; exact h.rest⟩

theorem tilt (h : Settled set s) : s.sup.tilt = 160 := by rw [← h.rest]; rfl

theorem capacity (h : Settled set s) : s.sup.capacity = capacityOf set s.sup 160 :=
  (congrArg Supervision.capacity h.rest).symm

/-- Supervision settled, a new sector or class changes the capacity alone: no state, no notice and no flag of a lift. -/
theorem evaluate_moved (h : Settled set s) (sector : Option Nat) (bunkClass : Nat) :
    evaluate { s with sup := { s.sup with sector, bunkClass } } =
      { s with sup := ({ s.sup with sector, bunkClass } : Supervision).atRest set } := by
  have stale : StaleUnder set { s with sup := { s.sup with sector, bunkClass } } := h.stale.same rfl rfl
  rw [stale.evaluate]
  exact if_pos h.mode.symm

theorem supSectorChange (h : Settled set s) (sector : Option Nat) :
    supSectorChange sector s = { s with sup := ({ s.sup with sector } : Supervision).atRest set } :=
  h.evaluate_moved sector s.sup.bunkClass

theorem supClassChange (h : Settled set s) (bunkClass : Nat) :
    supClassChange bunkClass s = { s with sup := ({ s.sup with bunkClass } : Supervision).atRest set } :=
  h.evaluate_moved s.sup.sector bunkClass

theorem moved (h : Settled set s) (sector : Option Nat) (bunkClass : Nat) :
    Settled set { s with sup := ({ s.sup with sector, bunkClass } : Supervision).atRest set } :=
  ⟨h.stale.same rfl rfl, h.mode, rfl⟩

end Settled

/-! ## What follows a settled supervision -/

/-- From one state to another only the sector, the class and with them the capacity have changed at supervision, and the
noted sector at the lift controller; nothing was raised, and supervision is settled in both. -/
structure Follows (set : TableSet) (s t : State) : Prop where
  settled : Settled set t
  sup : t.sup = { s.sup with sector := t.sup.sector, bunkClass := t.sup.bunkClass, capacity := t.sup.capacity }
  lift : t.lift = { s.lift with notedSector := t.lift.notedSector }
  cab : t.cab = s.cab
  notices : t.notices = s.notices

namespace Follows

variable {r : State}

theorem refl (h : Settled set s) : Follows set s s := ⟨h, rfl, rfl, rfl, rfl⟩

theorem same (h : Follows set r s) (sup : t.sup = s.sup := by simp)
    (lift : t.lift = { s.lift with notedSector := t.lift.notedSector } := by simp) (cab : t.cab = s.cab := by simp)
    (notices : t.notices = s.notices := by simp) (active : t.active = s.active := by simp)
    (intake : t.intake = s.intake := by simp) : Follows set r t where
  settled := h.settled.same sup active intake
  sup := by rw [sup]; exact h.sup
  lift := by rw [lift, h.lift]
  cab := cab.trans h.cab
  notices := notices.trans h.notices

theorem moved (h : Follows set r s) (sector : Option Nat) (bunkClass : Nat) :
    Follows set r { s with sup := ({ s.sup with sector, bunkClass } : Supervision).atRest set } where
  settled := h.settled.moved sector bunkClass
  sup := by
    dsimp only
    rw [Supervision.atRest_of_tilt (sup := { s.sup with sector, bunkClass }) h.settled.tilt, h.sup]
  lift := h.lift
  cab := h.cab
  notices := h.notices

theorem supSectorChange (h : Follows set r s) (sector : Option Nat) : Follows set r (supSectorChange sector s) := by
  rw [h.settled.supSectorChange]
  exact h.moved sector s.sup.bunkClass

theorem supClassChange (h : Follows set r s) (bunkClass : Nat) : Follows set r (supClassChange bunkClass s) := by
  rw [h.settled.supClassChange]
  exact h.moved s.sup.sector bunkClass

theorem clockEvent (h : Follows set r s) (event : ClockEvent) : Follows set r (clockEvent event s) := h.same

theorem setSector (h : Follows set r s) (sector : Option Nat) : Follows set r (setSector sector s) := by
  unfold Machine.setSector sectorEvent liftSectorChange State.choose
  dsimp only
  split
  · exact h
  · split
    · exact clockEvent (supSectorChange h.same sector) _
    · exact supSectorChange h.same sector

theorem slewActivation (h : Follows set r s) (old : Option TableSet) (new : TableSet) :
    Follows set r (slewActivation old new s) := by
  unfold Machine.slewActivation
  dsimp only
  split
  · split
    · exact setSector h.same _
    · exact h.same
  · exact setSector h.same _

theorem judgeClass (h : Follows set r s) : Follows set r (judgeClass s) := by
  unfold Machine.judgeClass
  dsimp only
  split
  · exact h
  · exact supClassChange h.same _

end Follows

end

/-! ## The sector and the class in use -/

theorem evaluate_sector (s : State) : (evaluate s).sup.sector = s.sup.sector := by
  rw [evaluate_sup_frame, computeFigures_sup_frame]

theorem evaluate_bunkClass (s : State) : (evaluate s).sup.bunkClass = s.sup.bunkClass := by
  rw [evaluate_sup_frame, computeFigures_sup_frame]

/-- A change of sector is told to supervision (R51). -/
theorem setSector_sup_sector (sector : Option Nat) (s : State) :
    (setSector sector s).sup.sector = if sector = s.slew.sector then s.sup.sector else sector := by
  unfold setSector sectorEvent
  dsimp only
  split
  · rfl
  · split <;> simp [supSectorChange, evaluate_sector]

theorem setSector_sup_bunkClass (sector : Option Nat) (s : State) :
    (setSector sector s).sup.bunkClass = s.sup.bunkClass := by
  unfold setSector sectorEvent
  dsimp only
  split
  · rfl
  · split <;> simp [supSectorChange, evaluate_bunkClass, liftSectorChange]

theorem setSector_slew (sector : Option Nat) (s : State) : (setSector sector s).slew = { s.slew with sector := sector } := by
  unfold setSector sectorEvent
  dsimp only
  split
  · next same => rw [same]
  · split <;> simp [supSectorChange, liftSectorChange]

theorem judgeClass_tally (s : State) : (judgeClass s).tally = { s.tally with bunkClass := judgedClass s } := by
  unfold judgeClass
  dsimp only
  split
  · next same => rw [same]
  · simp [supClassChange]

/-- A change of class is told to supervision (R104). -/
theorem judgeClass_sup_bunkClass (s : State) :
    (judgeClass s).sup.bunkClass = if judgedClass s = s.tally.bunkClass then s.sup.bunkClass else judgedClass s := by
  unfold judgeClass
  dsimp only
  split
  · rfl
  · exact evaluate_bunkClass _

theorem judgeClass_sup_sector (s : State) : (judgeClass s).sup.sector = s.sup.sector := by
  unfold judgeClass
  dsimp only
  split
  · rfl
  · exact evaluate_sector _

end Sys2Proof.Machine
end

