-- ==== Sys2Proof/Proofs/Activation.lean ====
section
/-! PROOFS. The swap of the banks and what each block does at it (R39, R54, R81, R96, R107, R125, R155). -/

namespace Sys2Proof.Machine

-- One theorem after another: side by side, so many small ones need more threads than the memory limit admits.
set_option Elab.async false

/-! ## Supervision (R125) -/

section

variable {set : TableSet} {r s : State} {kinds : List NoticeKind}

theorem supActivation_of_stale (h : StaleUnder set s) :
    supActivation s = changeState (staleMode s) { s with sup := ({ s.sup with history := [] } : Supervision).atRest set } := by
  have stale : StaleUnder set { s with sup := { s.sup with history := [] } } := h.same rfl rfl
  exact stale.evaluate

/-- The activation empties the history, takes the figures of STALE measurands, and leaves HOLD or BYPASS. -/
theorem supActivation_sup (h : StaleUnder set s) :
    (supActivation s).sup = ({ s.sup with
      history := [], state := staleMode s, alert := (supActivation s).sup.alert,
      alertNext := (supActivation s).sup.alertNext } : Supervision).atRest set := by
  rw [supActivation_of_stale h, changeState_sup]
  split
  · next same =>
    rw [same]
    rfl
  · rfl

theorem supActivation_settled (h : StaleUnder set s) : Settled set (supActivation s) where
  stale := h.same
  mode := by rw [staleMode, supActivation_sup h]; rfl
  rest := by rw [supActivation_sup h]; rfl

/-- Of the lift controller a change of state changes at most the flags of the open lift (R127). -/
theorem changeState_lift (now : SupState) (s : State) :
    (changeState now s).lift = s.lift ∨
      (changeState now s).lift = { s.lift with openLift := s.lift.openLift.map (trackState now) } := by
  unfold changeState trackChange
  dsimp only
  split
  · exact .inl rfl
  · split
    · exact .inr (by simp [State.modOpenLift])
    · exact .inl (by simp)

/-- Into HOLD or BYPASS at most the BYPASSED flag is set. -/
theorem trackState_staleMode (s : State) (l : OpenLift) :
    ∃ bypassed, trackState (staleMode s) l = { l with bypassed } ∧ (l.bypassed = true → bypassed = true) := by
  unfold staleMode
  split
  · exact ⟨true, rfl, fun _ => rfl⟩
  · exact ⟨l.bypassed, rfl, id⟩

theorem supActivation_lift_cases (h : StaleUnder set s) :
    (supActivation s).lift = s.lift ∨
      (supActivation s).lift = { s.lift with openLift := s.lift.openLift.map (trackState (staleMode s)) } := by
  rw [supActivation_of_stale h]
  exact changeState_lift _ _

theorem supActivation_lift (h : StaleUnder set s) :
    (supActivation s).lift = { s.lift with openLift := (supActivation s).lift.openLift } := by
  rcases supActivation_lift_cases h with e | e <;> rw [e]

theorem supActivation_openLift_none (h : StaleUnder set s) (absent : s.lift.openLift = none) :
    (supActivation s).lift.openLift = none := by
  rcases supActivation_lift_cases h with e | e
  · rw [e]; exact absent
  · rw [e]; simp [absent]

theorem supActivation_openLift_some (h : StaleUnder set s) {l : OpenLift} (openLift : s.lift.openLift = some l) :
    ∃ bypassed, (supActivation s).lift.openLift = some { l with bypassed } ∧ (l.bypassed = true → bypassed = true) := by
  rcases supActivation_lift_cases h with e | e
  · exact ⟨l.bypassed, by rw [e]; exact openLift, id⟩
  · obtain ⟨bypassed, tracked, keeps⟩ := trackState_staleMode s l
    exact ⟨bypassed, by rw [e]; simp [openLift, tracked], keeps⟩

theorem Notifies.supActivation (h : Notifies kinds r s) (stale : StaleUnder set s) :
    Notifies (kinds ++ if staleMode s = s.sup.state then [] else stateNotices s.sup.state (staleMode s)) r
      (supActivation s) := by
  rw [supActivation_of_stale stale]
  exact (h.same (t := { s with sup := ({ s.sup with history := [] } : Supervision).atRest set }) rfl rfl).changeState _

/-! ## The slew counter (R54) -/

theorem keepsReference_iff (old : Option TableSet) (new : TableSet) :
    keepsReference old new = true ↔ ∃ o, old = some o ∧ o.sectorHeader.cpr = new.sectorHeader.cpr ∧
      o.sectorHeader.indexOffset = new.sectorHeader.indexOffset := by
  cases old <;> simp [keepsReference]

theorem slewActivation_slew_of_kept {old : Option TableSet} {new : TableSet} (kept : keepsReference old new = true) (s : State) :
    (slewActivation old new s).slew = { s.slew with
      lastPace := none,
      sector := if s.slew.referenced then some (new.sectorAt s.slew.p) else s.slew.sector } := by
  unfold slewActivation
  dsimp only
  rw [if_pos kept]
  split
  · next referenced => rw [setSector_slew, if_pos (show s.slew.referenced = true from referenced)]; rfl
  · next unreferenced => rw [if_neg (show ¬s.slew.referenced = true from unreferenced)]; rfl

theorem slewActivation_slew_of_lost {old : Option TableSet} {new : TableSet} (lost : ¬keepsReference old new = true)
    (s : State) :
    (slewActivation old new s).slew = { s.slew with
      lastPace := none, referenced := false, p := s.slew.p % new.sectorHeader.cpr.toNat, sector := none } := by
  unfold slewActivation
  dsimp only
  rw [if_neg lost, setSector_slew]
  rfl

/-- Supervision keeps the current sector as its sector in use. -/
theorem setSector_agree {sector : Option Nat} (agree : s.sup.sector = s.slew.sector) :
    (setSector sector s).sup.sector = (setSector sector s).slew.sector := by
  rw [setSector_sup_sector, setSector_slew]
  split
  · next same => rw [agree, same]
  · rfl

theorem slewActivation_agree (old : Option TableSet) (new : TableSet) (agree : s.sup.sector = s.slew.sector) :
    (slewActivation old new s).sup.sector = (slewActivation old new s).slew.sector := by
  unfold slewActivation
  dsimp only
  split
  · split
    · exact setSector_agree agree
    · exact agree
  · exact setSector_agree agree

theorem slewActivation_bunkClass (old : Option TableSet) (new : TableSet) (s : State) :
    (slewActivation old new s).sup.bunkClass = s.sup.bunkClass := by
  unfold slewActivation
  dsimp only
  split
  · split
    · rw [setSector_sup_bunkClass]; rfl
    · rfl
  · rw [setSector_sup_bunkClass]; rfl

/-! ## The lift controller (R81) -/

/-- An entry to EMPTY changes the state, and a pending tool takes the working tare away (R58). -/
theorem enterEmpty_lift (s : State) :
    (enterEmpty s).lift = { s.lift with
      state := .empty, selectedTool := (enterEmpty s).lift.selectedTool, pendingTool := (enterEmpty s).lift.pendingTool,
      workingTare := (enterEmpty s).lift.workingTare } := by
  unfold enterEmpty applyPendingTool
  dsimp only
  split
  · simp [enterLiftState]
  · split <;> simp [enterLiftState]

theorem liftActivation_lift_of_taring (taring : s.lift.state = .taring) :
    (liftActivation s).lift = { s.lift with
      state := .empty, selectedTool := (liftActivation s).lift.selectedTool,
      pendingTool := (liftActivation s).lift.pendingTool, tareTimer := none, workingTare := none } := by
  unfold liftActivation failTare
  dsimp only
  rw [if_pos taring, State.modLift_lift, enterEmpty_lift]
  simp

theorem liftActivation_lift_of_not_taring (notTaring : s.lift.state ≠ .taring) :
    (liftActivation s).lift = { s.lift with workingTare := none } := by
  unfold liftActivation
  dsimp only
  rw [if_neg notTaring]
  rfl

theorem Notifies.liftActivation (h : Notifies kinds r s) :
    Notifies (kinds ++ if s.lift.state = .taring then [.tareFailed] else []) r (liftActivation s) := by
  unfold Machine.liftActivation failTare
  dsimp only
  split
  · have failed : Notifies (kinds ++ [.tareFailed]) r (State.notify .tareFailed (s.modLift fun l => { l with tareTimer := none })) :=
      notify h.same _
    exact failed.same
  · rw [List.append_nil]
    exact h.same

/-! ## The lift queue (R96) -/

theorem Notifies.queue (h : Notifies kinds r s) (queue : LiftQueue) : Notifies kinds r { s with queue } := h.same rfl rfl

theorem queueActivation_queue (m : MachineRecord) (s : State) :
    (queueActivation m s).queue = { s.queue with
      waitingArm := decide (s.queue.records.length ≤ m.queueThreshold.toNat) } := by
  unfold queueActivation
  split
  · next below => simp [below]
  · next above =>
    split
    · simp [above]
    · next off =>
      rw [Bool.not_eq_true] at off
      rw [decide_eq_false above, ← off]

theorem Notifies.queueActivation (h : Notifies kinds r s) (m : MachineRecord) :
    Notifies (kinds ++ if s.queue.waitingArm = true ∧ m.queueThreshold.toNat < s.queue.records.length then [.liftsWaiting] else [])
      r (queueActivation m s) := by
  unfold Machine.queueActivation
  by_cases below : s.queue.records.length ≤ m.queueThreshold.toNat
  · rw [if_pos below, if_neg (by omega), List.append_nil]
    exact h.queue _
  · rw [if_neg below]
    by_cases armed : s.queue.waitingArm = true
    · rw [if_pos armed, if_pos ⟨armed, by omega⟩]
      exact notify (h.queue _) _
    · rw [if_neg armed, if_neg (fun both => armed both.1), List.append_nil]
      exact h

/-! ## The tally (R107) -/

theorem Notifies.tally (h : Notifies kinds r s) (tally : Tally) : Notifies kinds r { s with tally } := h.same rfl rfl

theorem raiseBunkNotices_tally (m : MachineRecord) (s : State) :
    (raiseBunkNotices m s).tally = { s.tally with
      warnArm := s.tally.warnArm && !decide (m.bunkWarn.toNat ≤ s.tally.bunkTotal),
      fullArm := s.tally.fullArm && !decide (m.bunkLimit.toNat ≤ s.tally.bunkTotal) } := by
  have cleared : ∀ arm reached : Bool, (arm && reached) = true → (arm && !reached) = false := by decide
  have kept : ∀ arm reached : Bool, ¬(arm && reached) = true → (arm && !reached) = arm := by decide
  unfold raiseBunkNotices
  dsimp only
  split
  · next warn =>
    rw [cleared _ _ warn]
    split
    · next full => rw [cleared _ _ full]; simp
    · next full => rw [kept _ _ full]; simp
  · next warn =>
    rw [kept _ _ warn]
    split
    · next full => rw [cleared _ _ full]; simp
    · next full => rw [kept _ _ full]

/-- At an activation each arm is set exactly while the total is below its level. -/
theorem bunkArms_of_activation (m : MachineRecord) (s : State) :
    (setBunkArms m (raiseBunkNotices m s)).tally = { s.tally with
      warnArm := decide (s.tally.bunkTotal < m.bunkWarn.toNat), fullArm := decide (s.tally.bunkTotal < m.bunkLimit.toNat) } := by
  have arm : ∀ (arm : Bool) (level : Nat), ((arm && !decide (level ≤ s.tally.bunkTotal)) ||
      decide (s.tally.bunkTotal < level)) = decide (s.tally.bunkTotal < level) := by
    intro arm level
    cases arm <;> simp
  simp only [setBunkArms, raiseBunkNotices_tally, arm]

theorem Notifies.raiseBunkNotices (h : Notifies kinds r s) (m : MachineRecord) :
    Notifies (kinds ++ ((if s.tally.warnArm = true ∧ m.bunkWarn.toNat ≤ s.tally.bunkTotal then [.bunkWarn] else []) ++
        if s.tally.fullArm = true ∧ m.bunkLimit.toNat ≤ s.tally.bunkTotal then [.bunkFull] else [])) r
      (raiseBunkNotices m s) := by
  unfold Machine.raiseBunkNotices
  dsimp only
  simp only [Bool.and_eq_true, decide_eq_true_eq]
  rw [← List.append_assoc]
  have warned : Notifies (kinds ++ if s.tally.warnArm = true ∧ m.bunkWarn.toNat ≤ s.tally.bunkTotal then [.bunkWarn] else []) r
      (if s.tally.warnArm = true ∧ m.bunkWarn.toNat ≤ s.tally.bunkTotal then
        State.notify .bunkWarn { s with tally := { s.tally with warnArm := false } } else s) := by
    split
    · exact notify (h.tally _) _
    · rw [List.append_nil]; exact h
  by_cases full : s.tally.fullArm = true ∧ m.bunkLimit.toNat ≤ s.tally.bunkTotal
  · rw [if_pos full, if_pos full]
    exact notify (warned.tally _) _
  · rw [if_neg full, if_neg full, List.append_nil]
    exact warned

end

end Sys2Proof.Machine
end

