-- ==== Sys2Proof/Proofs/ActivateOperation.lean ====
section
/-! PROOFS. ACTIVATE: its judgement, and the swap with what the blocks' activation leaves (O49). -/

namespace Sys2Proof.Machine

-- One theorem after another: side by side, so many small ones need more threads than the memory limit admits.
set_option Elab.async false

/-! ## The operation (R154, R159) -/

theorem nextOp_of_nextOperation {s : State} {r : Request} {c : Chain} {code : Byte} {more : Bool} {operands : List Byte}
    {next : Nat} (h : NextOperation s r c code more operands next) :
    nextOp s = some { payload := r.payload, chain := c, read := .op code more operands next } := by
  obtain ⟨-, phase, head, length, read⟩ := h
  obtain ⟨rest, requests⟩ := List.head?_eq_some_iff.mp head
  simp only [nextOp, phase, requests, if_pos length, read]

/-- Performing an operation when it is the next one. -/
theorem performCoded_of_nextOperation {s : State} {r : Request} {c : Chain} {code : Byte} {more : Bool}
    {operands : List Byte} {next : Nat} (h : NextOperation s r c code more operands next)
    (perform : List Byte → Nat → State → State × OpResult) :
    performCoded code perform s = concludeOp r.payload code more next c (judged code perform operands c.free s) := by
  simp only [performCoded, performWanted, nextOp_of_nextOperation h, and_self, if_true]

theorem fits_iff_roomFor (c : Chain) (length : Nat) : fits length c.free = true ↔ RoomFor c length := by
  unfold fits Chain.free RoomFor
  rw [decide_eq_true_iff]
  omega

theorem field16_bytes16 (x : BitVec 16) : field16 (bytes16 x) 0 = x := field16_append [] x

/-- ACTIVATE when it is the next operation. -/
theorem exec_activate {s : State} {r : Request} {c : Chain} {more : Bool} {generation : BitVec 16} {next : Nat}
    (h : NextOperation s r c 0x24 more (bytes16 generation) next) :
    exec .activate s = .next (concludeOp r.payload 0x24 more next c (opActivate (bytes16 generation) c.free s)) :=
  (State.unlessReset_running _ s h.1).trans (congrArg _ (performCoded_of_nextOperation h opActivate))

theorem opActivate_of_not_ready {s : State} (notReady : s.staging.ready = none) (operands : List Byte) (free : Nat) :
    opActivate operands free s = (s, .gives .wrongState []) := by
  simp only [opActivate, notReady, refuse]

theorem opActivate_of_mismatch {s : State} {set : TableSet} (ready : s.staging.ready = some set) {generation : BitVec 16}
    (other : set.machine.generation ≠ generation) (free : Nat) :
    opActivate (bytes16 generation) free s = (s, .gives .generationMismatch []) := by
  simp only [opActivate, ready, field16_bytes16, if_pos other, refuse]

theorem opActivate_of_match {s : State} {set : TableSet} (ready : s.staging.ready = some set) (free : Nat) :
    opActivate (bytes16 set.machine.generation) free s = if fits 3 free then (activateSet set s,
      .gives .ok (bytes16 set.machine.generation ++ [if s.active.isSome then 4 else 0])) else (s, .gives .noRoom []) := by
  have code : sendByte (stagingAfterSwap s.active).code = if s.active.isSome then 4 else 0 := by
    cases s.active <;> rfl
  simp only [opActivate, ready, field16_bytes16, ne_eq, not_true, if_false, performIf, refuse, code]

theorem ready_eq_none {st : Staging} (h : ∀ set, st ≠ .checked set ∧ st ≠ .previous set) : st.ready = none := by
  cases st with
  | checked set => exact absurd rfl (h set).1
  | previous set => exact absurd rfl (h set).2
  | empty | loading | failed => rfl

theorem ready_eq_some {st : Staging} {set : TableSet} (h : st = .checked set ∨ st = .previous set) : st.ready = some set := by
  rcases h with rfl | rfl <;> rfl

/-! ## The stages of an activation (R155) -/

/-- The banks are swapped, TABLES_ACTIVE is raised, and intake takes the activation. -/
def takenOver (set : TableSet) (s : State) : State :=
  intakeActivation set (State.notify .tablesActive { s with active := some set, staging := stagingAfterSwap s.active })

/-- Then supervision and the slew counter take it. -/
def turned (set : TableSet) (s : State) : State := slewActivation s.active set (supActivation (takenOver set s))

/-- Then the lift controller and the lift queue. -/
def rearmed (set : TableSet) (s : State) : State := queueActivation set.machine (liftActivation (turned set s))

/-- The tally takes it last. -/
theorem activateSet_eq (set : TableSet) (s : State) :
    activateSet set s = setBunkArms set.machine (raiseBunkNotices set.machine (judgeClass (rearmed set s))) := rfl

section

variable (set : TableSet) (s : State)

@[simp] theorem takenOver_keeps :
    (takenOver set s).clock = s.clock ∧ (takenOver set s).sup = s.sup ∧ (takenOver set s).slew = s.slew ∧
      (takenOver set s).lift = s.lift ∧ (takenOver set s).queue = s.queue ∧ (takenOver set s).tally = s.tally ∧
      (takenOver set s).active = some set := by
  simp [takenOver]

theorem takenOver_get (m : Measurand) :
    (takenOver set s).intake.get m = { s.intake.get m with
      state := .stale, timer := (set.channelOf m).map fun e => s.clock + BitVec.ofNat 32 e.timeout.toNat } := by
  have taken : (takenOver set s).intake.get m = staleRecord set m s.clock (s.intake.get m) := by
    cases m <;> simp [takenOver, intakeActivation, State.modIntake, Intake.get]
  rw [taken]
  rfl

theorem takenOver_snapshot : (takenOver set s).intake.snapshot = s.intake.snapshot := by
  simp [takenOver, intakeActivation, State.modIntake]

theorem takenOver_stale : StaleUnder set (takenOver set s) := by
  refine ⟨by simp, ?_, ?_⟩ <;> simp [State.fresh, takenOver_get]

theorem follows_turned : Follows set (supActivation (takenOver set s)) (turned set s) :=
  (Follows.refl (supActivation_settled (takenOver_stale set s))).slewActivation _ _

@[simp] theorem turned_keeps :
    (turned set s).intake = (takenOver set s).intake ∧ (turned set s).queue = s.queue ∧ (turned set s).tally = s.tally ∧
      (turned set s).active = some set := by
  simp [turned]

@[simp] theorem rearmed_keeps :
    (rearmed set s).intake = (takenOver set s).intake ∧ (rearmed set s).sup = (turned set s).sup ∧
      (rearmed set s).slew = (turned set s).slew ∧ (rearmed set s).tally = s.tally ∧
      (rearmed set s).active = some set := by
  simp [rearmed]

theorem takenOver_sup : (takenOver set s).sup = s.sup := by simp

theorem rearmed_sup : (rearmed set s).sup = (turned set s).sup := by simp

theorem rearmed_tally : (rearmed set s).tally = s.tally := by simp

theorem follows_judged : Follows set (rearmed set s) (judgeClass (rearmed set s)) :=
  (Follows.refl ((follows_turned set s).settled.same)).judgeClass

/-! ## Intake, the queue and the tally after it -/

theorem activateSet_intake : (activateSet set s).intake = (takenOver set s).intake := by simp [activateSet_eq]

theorem activateSet_queue :
    (activateSet set s).queue = { s.queue with
      waitingArm := decide (s.queue.records.length ≤ set.machine.queueThreshold.toNat) } := by
  simp [activateSet_eq, rearmed, queueActivation_queue]

theorem judgedClass_of_active {x : State} (active : x.active = some set) :
    judgedClass x = classOf set.machine x.tally.bunkTotal := by
  simp only [judgedClass, active]

theorem activateSet_tally :
    (activateSet set s).tally = { s.tally with
      bunkClass := classOf set.machine s.tally.bunkTotal,
      warnArm := decide (s.tally.bunkTotal < set.machine.bunkWarn.toNat),
      fullArm := decide (s.tally.bunkTotal < set.machine.bunkLimit.toNat) } := by
  rw [activateSet_eq, bunkArms_of_activation, judgeClass_tally, judgedClass_of_active set (by simp)]
  simp

/-! ## Supervision and the slew counter after it -/

theorem activateSet_sup_eq : (activateSet set s).sup = (judgeClass (rearmed set s)).sup := by simp [activateSet_eq]

theorem activateSet_sup :
    (activateSet set s).sup = { s.sup with
      history := [], state := staleMode s, tilt := 160, sector := (activateSet set s).sup.sector,
      bunkClass := (activateSet set s).sup.bunkClass, capacity := (activateSet set s).sup.capacity,
      alert := (activateSet set s).sup.alert, alertNext := (activateSet set s).sup.alertNext } := by
  have swapped := supActivation_sup (takenOver_stale set s)
  rw [activateSet_sup_eq, (follows_judged set s).sup, rearmed_sup, (follows_turned set s).sup, swapped]
  simp [Supervision.atRest, staleMode]

theorem activateSet_settled : Settled set (activateSet set s) :=
  (follows_judged set s).settled.same (activateSet_sup_eq set s) (by simp) (by simp [activateSet_eq])

theorem activateSet_slew : (activateSet set s).slew = (turned set s).slew := by simp [activateSet_eq]

theorem turned_slew_of_kept (kept : keepsReference s.active set = true) :
    (turned set s).slew = { s.slew with
      lastPace := none,
      sector := if s.slew.referenced then some (set.sectorAt s.slew.p) else s.slew.sector } := by
  rw [turned, slewActivation_slew_of_kept kept]
  simp

theorem turned_slew_of_lost (lost : ¬keepsReference s.active set = true) :
    (turned set s).slew = { s.slew with
      lastPace := none, referenced := false, p := s.slew.p % set.sectorHeader.cpr.toNat, sector := none } := by
  rw [turned, slewActivation_slew_of_lost lost]
  simp

/-- Supervision's sector in use stays the slew counter's sector. -/
theorem activateSet_sector (agree : s.sup.sector = s.slew.sector) :
    (activateSet set s).sup.sector = (activateSet set s).slew.sector := by
  rw [activateSet_sup_eq, activateSet_slew, judgeClass_sup_sector, rearmed_sup]
  refine slewActivation_agree _ _ ?_
  rw [supActivation_sup (takenOver_stale set s)]
  simpa [Supervision.atRest] using agree

/-- Supervision's class in use stays the tally's class. -/
theorem activateSet_bunkClass (agree : s.sup.bunkClass = s.tally.bunkClass) :
    (activateSet set s).sup.bunkClass = (activateSet set s).tally.bunkClass := by
  have before : (rearmed set s).sup.bunkClass = s.tally.bunkClass := by
    rw [rearmed_sup, turned, slewActivation_bunkClass, supActivation_sup (takenOver_stale set s), ← agree]
    simp [Supervision.atRest]
  rw [activateSet_sup_eq, judgeClass_sup_bunkClass, activateSet_tally, judgedClass_of_active set (by simp), before]
  simp only [rearmed_keeps]
  split
  · next same => exact same.symm
  · rfl

/-! ## The lift controller after it -/

theorem turned_lift :
    (turned set s).lift = { s.lift with
      notedSector := (turned set s).lift.notedSector, openLift := (supActivation (takenOver set s)).lift.openLift } := by
  rw [(follows_turned set s).lift, supActivation_lift (takenOver_stale set s)]
  simp

theorem activateSet_lift :
    (activateSet set s).lift = { (liftActivation (turned set s)).lift with
      notedSector := (activateSet set s).lift.notedSector } := by
  have judged : (activateSet set s).lift = (judgeClass (rearmed set s)).lift := by simp [activateSet_eq]
  have queued : (rearmed set s).lift = (liftActivation (turned set s)).lift := by simp [rearmed]
  rw [judged, (follows_judged set s).lift, queued]

theorem activateSet_lift_of_not_taring (notTaring : s.lift.state ≠ .taring) :
    (activateSet set s).lift = { s.lift with
      workingTare := none, notedSector := (activateSet set s).lift.notedSector,
      openLift := (supActivation (takenOver set s)).lift.openLift } := by
  have state : (turned set s).lift.state ≠ .taring := by rw [turned_lift]; exact notTaring
  rw [activateSet_lift, liftActivation_lift_of_not_taring state, turned_lift]

theorem activateSet_lift_of_taring (taring : s.lift.state = .taring) :
    (activateSet set s).lift = { s.lift with
      state := .empty, selectedTool := (activateSet set s).lift.selectedTool,
      pendingTool := (activateSet set s).lift.pendingTool, tareTimer := none, workingTare := none,
      notedSector := (activateSet set s).lift.notedSector,
      openLift := (supActivation (takenOver set s)).lift.openLift } := by
  have state : (turned set s).lift.state = .taring := by rw [turned_lift]; exact taring
  rw [activateSet_lift, liftActivation_lift_of_taring state, turned_lift]

theorem activateSet_openLift :
    (activateSet set s).lift.openLift = (supActivation (takenOver set s)).lift.openLift := by
  by_cases taring : s.lift.state = .taring
  · rw [activateSet_lift_of_taring set s taring]
  · rw [activateSet_lift_of_not_taring set s taring]

/-! ## The notices of it -/

/-- The notices that the blocks raise after TABLES_ACTIVE: supervision, the lift controller, the lift queue, the tally. -/
def blockNotices (set : TableSet) (s : State) : List NoticeKind :=
  (if staleMode s = s.sup.state then [] else stateNotices s.sup.state (staleMode s)) ++
    ((if s.lift.state = .taring then [NoticeKind.tareFailed] else []) ++
      ((if s.queue.waitingArm = true ∧ set.machine.queueThreshold.toNat < s.queue.records.length then
          [NoticeKind.liftsWaiting] else []) ++
        ((if s.tally.warnArm = true ∧ set.machine.bunkWarn.toNat ≤ s.tally.bunkTotal then [NoticeKind.bunkWarn] else []) ++
          if s.tally.fullArm = true ∧ set.machine.bunkLimit.toNat ≤ s.tally.bunkTotal then [NoticeKind.bunkFull] else [])))

/-- What a change of state gives notice of (R126). -/
theorem mem_stateNotices (k : NoticeKind) (before now : SupState) :
    k ∈ stateNotices before now ↔ (before = .limit ∧ k = .limitLeft) ∨ (before = .hold ∧ k = .holdLeft) ∨
      (before = .bypass ∧ k = .bypassOff) ∨ (now = .limit ∧ k = .limitEntered) ∨ (now = .hold ∧ k = .holdEntered) ∨
      (now = .bypass ∧ k = .bypassOn) := by
  simp [stateNotices]

theorem mem_blockNotices (k : NoticeKind) :
    k ∈ blockNotices set s ↔ (staleMode s ≠ s.sup.state ∧ k ∈ stateNotices s.sup.state (staleMode s)) ∨
      (s.lift.state = .taring ∧ k = .tareFailed) ∨
      ((s.queue.waitingArm = true ∧ set.machine.queueThreshold.toNat < s.queue.records.length) ∧ k = .liftsWaiting) ∨
      ((s.tally.warnArm = true ∧ set.machine.bunkWarn.toNat ≤ s.tally.bunkTotal) ∧ k = .bunkWarn) ∨
      ((s.tally.fullArm = true ∧ set.machine.bunkLimit.toNat ≤ s.tally.bunkTotal) ∧ k = .bunkFull) := by
  simp [blockNotices]

theorem staleMode_eq_hold : staleMode s = .hold ↔ s.sup.service = false := by
  cases service : s.sup.service <;> simp [staleMode, service]

theorem staleMode_ne_limit : staleMode s ≠ .limit := by
  cases service : s.sup.service <;> simp [staleMode, service]

theorem holdEntered_mem_blockNotices :
    .holdEntered ∈ blockNotices set s ↔ s.sup.service = false ∧ s.sup.state ≠ .hold := by
  simp only [mem_blockNotices, mem_stateNotices, reduceCtorEq, and_false, or_false, false_or, and_true]
  rw [and_comm, staleMode_eq_hold]
  refine and_congr_right fun released => ?_
  rw [(staleMode_eq_hold s).mpr released, ne_comm]

theorem limitLeft_mem_blockNotices : .limitLeft ∈ blockNotices set s ↔ s.sup.state = .limit := by
  simp only [mem_blockNotices, mem_stateNotices, reduceCtorEq, and_false, or_false, and_true]
  exact and_iff_right_of_imp fun limit => limit ▸ staleMode_ne_limit s

theorem notifies_tablesActive : Notifies [.tablesActive] s (takenOver set s) := by
  have swapped : Notifies [] s { s with active := some set, staging := stagingAfterSwap s.active } :=
    (Notifies.refl s).same rfl rfl
  exact (swapped.notify .tablesActive).same rfl rfl

theorem notifies_blocks : Notifies (blockNotices set s) (takenOver set s) (activateSet set s) := by
  rw [activateSet_eq]
  have settled := (Notifies.refl _).supActivation (takenOver_stale set s)
  have moved := settled.same (follows_turned set s).cab (follows_turned set s).notices
  have armed := moved.liftActivation.queueActivation set.machine
  have judged := armed.same (follows_judged set s).cab (follows_judged set s).notices
  have booked := judged.raiseBunkNotices set.machine
  have told := booked.same (t := setBunkArms set.machine (raiseBunkNotices set.machine (judgeClass (rearmed set s))))
  have state : (turned set s).lift.state = s.lift.state := by rw [turned_lift]
  have queue : (liftActivation (turned set s)).queue = s.queue := by simp
  have tally : (judgeClass (rearmed set s)).tally = { s.tally with bunkClass := judgedClass (rearmed set s) } := by
    rw [judgeClass_tally, rearmed_tally]
  have mode : staleMode (takenOver set s) = staleMode s := by simp [staleMode]
  rw [mode, takenOver_sup, state, queue, tally] at told
  simpa only [blockNotices, List.nil_append, List.append_assoc] using told

theorem field16_noticeFrame (x : State) : field16 (noticeFrame x) 5 = x.notices := by
  have read : ∀ (a b c d e : Byte) (l : List Byte), field16 ([a, b, c, d, e] ++ bytes16 x.notices ++ l) 5 = x.notices :=
    fun a b c d e l => field16_append [a, b, c, d, e] x.notices
  exact read _ _ _ _ _ _

/-- The first NOTICE: the raise of TABLES_ACTIVE sends what is pending to the new set's notice station (R173). -/
theorem takenOver_sends (station : set.machine.noticeStation ≠ 0) (up : s.cab.link = .up) (room : s.cab.list.length < 6) :
    ∃ frame, (takenOver set s).cab.list = s.cab.list ++ [{ bytes := frame, status := .whole }] ∧
      byteAt frame 0 = set.machine.noticeStation ∧
      field16 frame 5 = s.notices ||| BitVec.twoPow 16 NoticeKind.tablesActive.bit := by
  generalize marked : State.markPending .tablesActive { s with active := some set, staging := stagingAfterSwap s.active } = x
  have pending : x.notices = s.notices ||| BitVec.twoPow 16 NoticeKind.tablesActive.bit := by rw [← marked]; rfl
  have raised : x.notices ≠ 0 := by
    intro zero
    have bit := congrArg (·.getLsbD NoticeKind.tablesActive.bit) (pending.symm.trans zero)
    simp [NoticeKind.bit] at bit
  have told : noticeStation x = set.machine.noticeStation := by rw [← marked]; rfl
  have cab : x.cab = s.cab := by rw [← marked]; rfl
  have sends := attemptNotice_of_place raised (told ▸ station) (cab ▸ up) (cab ▸ room)
  refine ⟨noticeFrame x, ?_, told, ?_⟩
  · show (State.notify .tablesActive { s with active := some set, staging := stagingAfterSwap s.active }).cab.list = _
    rw [State.notify, marked, sends, ← cab]
  · rw [← pending]
    exact field16_noticeFrame x

/-! ## The capacity after it (R113 to R115) -/

theorem leastCapacity_isLeast (bunkClass : Nat) (tilt : Int) (columns : 1 ≤ set.columnCount.toNat) :
    (∃ column, column < set.columnCount.toNat ∧ leastCapacity set bunkClass tilt = rowCapacity (set.rowOf column bunkClass) tilt) ∧
      ∀ column, column < set.columnCount.toNat → leastCapacity set bunkClass tilt ≤ rowCapacity (set.rowOf column bunkClass) tilt := by
  obtain ⟨n, count⟩ := Nat.exists_eq_add_of_le' columns
  have least : ((List.range set.columnCount.toNat).map fun c => rowCapacity (set.rowOf c bunkClass) tilt).min? =
      some (leastCapacity set bunkClass tilt) := by
    rw [count, List.range_succ_eq_map, List.map_cons, List.map_map, List.min?_cons', List.foldl_map, leastCapacity, count,
      Nat.add_sub_cancel]
    rfl
  obtain ⟨mem, bound⟩ := List.min?_eq_some_iff.mp least
  refine ⟨?_, fun column below => bound _ (List.mem_map.mpr ⟨column, List.mem_range.mpr below, rfl⟩)⟩
  obtain ⟨column, below, e⟩ := List.mem_map.mp mem
  exact ⟨column, List.mem_range.mp below, e.symm⟩

/-- The capacity is that of the sector's column at a tilt of 160, or the least of all columns there. -/
theorem activateSet_capacity :
    let there (column : Nat) : Nat := rowCapacity (set.rows.getD (column * 3 + (activateSet set s).sup.bunkClass) {}) 160
    (∀ e, sectorInUse set (activateSet set s).sup.sector = some e →
      (activateSet set s).sup.capacity = there e.column.toNat) ∧
    (sectorInUse set (activateSet set s).sup.sector = none → 1 ≤ set.columnCount.toNat →
      (∃ column, column < set.columnCount.toNat ∧ (activateSet set s).sup.capacity = there column) ∧
      (∀ column, column < set.columnCount.toNat → (activateSet set s).sup.capacity ≤ there column)) := by
  intro there
  rw [(activateSet_settled set s).capacity, capacityOf]
  refine ⟨fun e inUse => by rw [inUse]; rfl, fun unknown columns => ?_⟩
  rw [unknown]
  exact leastCapacity_isLeast set _ 160 columns

/-- An open lift goes on: supervision at most sets its BYPASSED flag (R81). -/
theorem activateSet_openLift_some {l : OpenLift} (openLift : s.lift.openLift = some l) :
    ∃ bypassed, (activateSet set s).lift.openLift = some { l with bypassed } ∧ (l.bypassed = true → bypassed = true) := by
  rw [activateSet_openLift]
  exact supActivation_openLift_some (takenOver_stale set s) (by simpa using openLift)

theorem activateSet_openLift_none (absent : s.lift.openLift = none) : (activateSet set s).lift.openLift = none := by
  rw [activateSet_openLift]
  exact supActivation_openLift_none (takenOver_stale set s) (by simpa using absent)

/-- TABLES_ACTIVE and the blocks' notices are raised. -/
theorem activateSet_raises :
    ∃ raised, NoticesRaised raised s (activateSet set s) ∧ raised .tablesActive ∧
      (raised .tareFailed ↔ s.lift.state = .taring) ∧
      (raised .liftsWaiting ↔ s.queue.waitingArm = true ∧ set.machine.queueThreshold.toNat < s.queue.records.length) ∧
      (raised .bunkWarn ↔ s.tally.warnArm = true ∧ set.machine.bunkWarn.toNat ≤ s.tally.bunkTotal) ∧
      (raised .bunkFull ↔ s.tally.fullArm = true ∧ set.machine.bunkLimit.toNat ≤ s.tally.bunkTotal) ∧
      (raised .holdEntered ↔ s.sup.service = false ∧ s.sup.state ≠ .hold) ∧
      (raised .limitLeft ↔ s.sup.state = .limit) := by
  refine ⟨_, (notifies_tablesActive set s).trans (notifies_blocks set s), List.mem_cons_self, ?_, ?_, ?_, ?_, ?_, ?_⟩
  · simp [mem_blockNotices, mem_stateNotices]
  · simp [mem_blockNotices, mem_stateNotices]
  · simp [mem_blockNotices, mem_stateNotices]
  · simp [mem_blockNotices, mem_stateNotices]
  · simpa using holdEntered_mem_blockNotices set s
  · simpa using limitLeft_mem_blockNotices set s

/-- The NOTICE of TABLES_ACTIVE's own attempt stands before all that joins the cab port's list after it. -/
theorem activateSet_sends_first (station : set.machine.noticeStation ≠ 0) (up : s.cab.link = .up)
    (room : s.cab.list.length < 6) :
    ∃ frame behind, (activateSet set s).cab.list = s.cab.list ++ { bytes := frame, status := .whole } :: behind ∧
      byteAt frame 0 = set.machine.noticeStation ∧
      field16 frame 5 = s.notices ||| BitVec.twoPow 16 NoticeKind.tablesActive.bit := by
  obtain ⟨frame, list, station, kinds⟩ := takenOver_sends set s station up room
  obtain ⟨behind, cab, -, -⟩ := notifies_blocks set s
  exact ⟨frame, behind, by rw [cab, list]; simp, station, kinds⟩

end

/-- Settles O49: the errors are judged before the room, and an activation is read off from what it leaves of each block. -/
theorem activateSwapsTheBanks : Obligations.ActivateSwapsTheBanks := by
  intro s r c more generation next operation done
  rw [exec_activate operation]
  refine ⟨fun notReady => ?_, fun set ready => ⟨fun other => ?_, ?_, ?_⟩⟩
  · rw [opActivate_of_not_ready (ready_eq_none notReady)]
  · rw [opActivate_of_mismatch (ready_eq_some ready) other]
  · rintro rfl full
    rw [opActivate_of_match (ready_eq_some ready), if_neg (mt (fits_iff_roomFor c 3).mp full)]
  · rintro rfl room total held threshold kept
    rw [opActivate_of_match (ready_eq_some ready), if_pos ((fits_iff_roomFor c 3).mpr room)]
    have sup := activateSet_sup set s
    have tally := activateSet_tally set s
    have queue := activateSet_queue set s
    have slew := activateSet_slew set s
    have keeps_iff : keepsReference s.active set = true ↔ kept := keepsReference_iff _ _
    have slewFrame : (activateSet set s).slew.lastPace = none ∧ (activateSet set s).slew.lastDrift = s.slew.lastDrift := by
      rw [slew]
      by_cases keeps : keepsReference s.active set = true
      · rw [turned_slew_of_kept set s keeps]; exact ⟨rfl, rfl⟩
      · rw [turned_slew_of_lost set s keeps]; exact ⟨rfl, rfl⟩
    have lift : (activateSet set s).lift.workingTare = none ∧ (activateSet set s).lift.window = s.lift.window := by
      by_cases taring : s.lift.state = .taring
      · rw [activateSet_lift_of_taring set s taring]; exact ⟨rfl, rfl⟩
      · rw [activateSet_lift_of_not_taring set s taring]; exact ⟨rfl, rfl⟩
    refine ⟨activateSet set s, rfl, by simp, by rw [activateSet_staging]; rfl, by simp, by simp, by simp, by rw [queue],
      by rw [queue], by rw [tally], by rw [tally], by rw [tally], by rw [activateSet_intake, takenOver_snapshot],
      fun m => by rw [activateSet_intake, takenOver_get], by rw [sup], by rw [sup]; rfl, by rw [sup], by rw [sup], by rw [sup],
      activateSet_sector set s, activateSet_bunkClass set s, activateSet_capacity set s, activateSet_openLift_none set s,
      fun l openLift => activateSet_openLift_some set s openLift, fun notTaring => ?_, slewFrame.1, slewFrame.2, fun keeps => ?_,
      fun loses => ?_, lift.1, lift.2, fun taring => by rw [activateSet_lift_of_taring set s taring],
      fun notTaring => by rw [activateSet_lift_of_not_taring set s notTaring], by rw [tally]; rfl, by rw [tally],
      by rw [tally], by rw [queue], activateSet_raises set s, activateSet_sends_first set s⟩
    · rw [activateSet_openLift]
      exact activateSet_lift_of_not_taring set s notTaring
    · rw [slew, turned_slew_of_kept set s (keeps_iff.mpr keeps)]
      exact ⟨rfl, rfl, rfl⟩
    · rw [slew, turned_slew_of_lost set s (mt keeps_iff.mp loses)]
      exact ⟨rfl, rfl, rfl⟩

end Sys2Proof.Machine
end

