-- ==== Sys2Proof/Proofs/Signals.lean ====
section
/-! PROOFS. What supervision, the lift controller, the account of lifts and intake can do to the slew counter, the trace and
management's two sets: raise conditions and notices and give clock events, and nothing else. -/

namespace Sys2Proof.Machine

-- One theorem after another: side by side, so many small ones need more threads than the memory limit admits.
set_option Elab.async false

/-! ## The noted sector and the sector in use -/

@[simp] theorem computeFigures_sector (s : State) : (computeFigures s).sup.sector = s.sup.sector := by
  rw [computeFigures_sup_frame]

@[simp] theorem setAlert_sector (st : SupState) (s : State) : (setAlert st s).sup.sector = s.sup.sector := rfl

@[simp] theorem alertToggle_sector (s : State) : (alertToggle s).sup.sector = s.sup.sector := by
  unfold alertToggle
  split <;> rfl

@[simp] theorem trackChange_noted (st : SupState) (s : State) :
    (trackChange st s).lift.notedSector = s.lift.notedSector := by
  unfold trackChange
  split <;> rfl

@[simp] theorem trackPeak_noted (s : State) : (trackPeak s).lift.notedSector = s.lift.notedSector := by
  unfold trackPeak
  split <;> rfl

@[simp] theorem trackStart_noted (s : State) : (trackStart s).lift.notedSector = s.lift.notedSector := by simp [trackStart]

@[simp] theorem trackStart_sector (s : State) : (trackStart s).sup.sector = s.sup.sector := by simp [trackStart]

@[simp] theorem applyPendingTool_noted (s : State) : (applyPendingTool s).lift.notedSector = s.lift.notedSector := by
  unfold applyPendingTool
  split
  · rfl
  · split <;> rfl

@[simp] theorem noteMass_noted (x : Sample) (s : State) : (noteMass x s).lift.notedSector = s.lift.notedSector := by
  unfold noteMass
  split <;> rfl

@[simp] theorem noteStatic_noted (x : Sample) (s : State) : (noteStatic x s).lift.notedSector = s.lift.notedSector := by
  unfold noteStatic
  split <;> rfl

@[simp] theorem clearWindow_noted (s : State) : (clearWindow s).lift.notedSector = s.lift.notedSector := rfl

@[simp] theorem countAttempt_noted (s : State) : (countAttempt s).lift.notedSector = s.lift.notedSector := rfl

@[simp] theorem takeNumber_noted (s : State) : (takeNumber s).lift.notedSector = s.lift.notedSector := by
  unfold takeNumber
  split
  · rfl
  · split
    · rfl
    · exact trackStart_noted _

@[simp] theorem takeNumber_sector (s : State) : (takeNumber s).sup.sector = s.sup.sector := by
  unfold takeNumber
  split
  · rfl
  · split
    · rfl
    · exact trackStart_sector _

@[simp] theorem startGripTimer_noted (e : ToolEntry) (s : State) :
    (startGripTimer e s).lift.notedSector = s.lift.notedSector := rfl

@[simp] theorem gripPressure_noted (v : Int) (s : State) : (gripPressure v s).lift.notedSector = s.lift.notedSector := by
  unfold gripPressure
  split
  · rfl
  · split <;> rfl

@[simp] theorem liftAExpiry_noted (s : State) : (liftAExpiry s).lift.notedSector = s.lift.notedSector := by
  unfold liftAExpiry
  split <;> rfl

@[simp] theorem liftFExpiry_noted (s : State) : (liftFExpiry s).lift.notedSector = s.lift.notedSector := by
  unfold liftFExpiry
  split <;> rfl

@[simp] theorem takeTool_noted (id : Nat) (s : State) : (takeTool id s).lift.notedSector = s.lift.notedSector := by
  unfold takeTool liftToolChange
  split
  · rfl
  · split <;> rfl

/-! ## Promises that only signals touch -/

/-- From one state to another nothing has changed of the slew counter, the sectors that follow it, the banks, the trace and
the two sets. -/
structure Quiet (s t : State) : Prop where
  slew : t.slew = s.slew
  noted : t.lift.notedSector = s.lift.notedSector
  sector : t.sup.sector = s.sup.sector
  active : t.active = s.active
  staging : t.staging = s.staging
  trace : t.trace = s.trace
  conditions : t.conditions = s.conditions
  notices : t.notices = s.notices

/-- A promise about those alone, which the signals of a block keep: a condition or a notice raised, and a clock event. -/
structure KeptBySignals (I : State → Prop) : Prop where
  quiet : ∀ {s t}, I s → Quiet s t → I t
  raise : ∀ {s} c, I s → I (s.raise c)
  notify : ∀ {s} k, I s → I (s.notify k)
  clockEvent : ∀ {s} event, I s → I (clockEvent event s)

namespace KeptBySignals

section
variable {I : State → Prop} (k : KeptBySignals I) {s t : State}
include k

/-- An operation that gives no signal. -/
theorem same (h : I s) (slew : t.slew = s.slew := by simp) (noted : t.lift.notedSector = s.lift.notedSector := by simp)
    (sector : t.sup.sector = s.sup.sector := by simp) (active : t.active = s.active := by simp)
    (staging : t.staging = s.staging := by simp) (trace : t.trace = s.trace := by simp)
    (conditions : t.conditions = s.conditions := by simp) (notices : t.notices = s.notices := by simp) : I t :=
  k.quiet h ⟨slew, noted, sector, active, staging, trace, conditions, notices⟩

/-! ## Supervision (06) -/

theorem computeFigures (h : I s) : I (computeFigures s) := by
  unfold Machine.computeFigures
  split
  · exact h
  · rename_i set _
    have raised : I (if 160 < tiltOf set s then s.raise .tiltHigh else s) := by
      split
      · exact k.raise _ h
      · exact h
    dsimp only
    generalize (if 160 < tiltOf set s then s.raise .tiltHigh else s) = u at raised ⊢
    have figured : ∀ sup : Supervision, sup.sector = u.sup.sector → I { u with sup } := fun _ sector => k.same raised (sector := sector)
    split
    · exact figured _ rfl
    · exact figured _ rfl

theorem notifyAll (h : I s) (kinds : List NoticeKind) : I (kinds.foldl (fun s kind => s.notify kind) s) := by
  induction kinds generalizing s with
  | nil => exact h
  | cons kind kinds ih => exact ih (k.notify kind h)

theorem changeState (h : I s) (now : SupState) : I (changeState now s) := by
  unfold Machine.changeState
  split
  · exact h
  · have entered : I { s with sup := { s.sup with state := now } } := k.same h
    have told := k.notifyAll entered (stateNotices s.sup.state now)
    exact k.clockEvent _ (k.same told)

theorem evaluate (h : I s) : I (evaluate s) := by
  have changed := k.changeState (k.computeFigures h) (decideState (Machine.computeFigures s))
  unfold Machine.evaluate
  exact k.same changed

theorem supFSample (h : I s) (v : Int) : I (supFSample v s) := k.evaluate (k.same h)

theorem supServiceChange (h : I s) (level : Bool) : I (supServiceChange level s) := by
  unfold Machine.supServiceChange
  split
  · exact h
  · exact k.evaluate (k.same h)

/-! ## The lift queue and the tally (05) -/

theorem judgeClass (h : I s) : I (judgeClass s) := by
  unfold Machine.judgeClass
  dsimp only
  split
  · exact h
  · exact k.evaluate (k.same h)

theorem raiseBunkNotices (h : I s) (m : MachineRecord) : I (raiseBunkNotices m s) := by
  unfold Machine.raiseBunkNotices
  dsimp only
  have warned : I (if s.tally.warnArm && decide (m.bunkWarn.toNat ≤ s.tally.bunkTotal) then
      State.notify .bunkWarn { s with tally := { s.tally with warnArm := false } } else s) := by
    split
    · exact k.notify _ (k.same h)
    · exact h
  split
  · exact k.notify _ (k.same warned)
  · exact warned

theorem setBunkArms (h : I s) (m : MachineRecord) : I (setBunkArms m s) := k.same h

theorem book (h : I s) (record : LiftRecord) : I (book record s) := by
  have booked : I { s with tally := bookOutcome record.outcome record.assortment record.weighing s.tally } := k.same h
  unfold Machine.book afterBooking
  split
  · exact booked
  · dsimp only
    split
    · exact k.judgeClass booked
    · split
      · exact k.raiseBunkNotices (k.judgeClass booked) _
      · exact k.setBunkArms (k.judgeClass booked) _

theorem fileRecord (h : I s) (record : LiftRecord) : I (fileRecord record s) := by
  unfold Machine.fileRecord
  dsimp only
  split
  · split
    · exact k.raise _ h
    · exact k.same (k.raise .queueOverflow h)
  · split
    · exact k.notify _ (k.same h)
    · exact k.same h

theorem clearBunk (h : I s) : I (clearBunk s) := by
  unfold Machine.clearBunk
  dsimp only
  generalize emptied : ({ s with tally := _ } : State) = u
  have judged : I (Machine.judgeClass u) := k.judgeClass (by rw [← emptied]; exact k.same h)
  split
  · exact k.same judged
  · exact judged

theorem queueActivation (h : I s) (m : MachineRecord) : I (queueActivation m s) := by
  unfold Machine.queueActivation
  split
  · exact k.same h
  · split
    · exact k.notify _ (k.same h)
    · exact h

theorem tallyActivation (h : I s) (m : MachineRecord) : I (tallyActivation m s) :=
  k.setBunkArms (k.raiseBunkNotices (k.judgeClass h) m) m

/-! ## The lift controller (04) -/

theorem enterLiftState (h : I s) (st : LiftState) : I (enterLiftState st s) := k.clockEvent _ (k.same h)

theorem enterEmpty (h : I s) : I (enterEmpty s) := k.same (k.enterLiftState h .empty) (by simp [Machine.enterEmpty])
  (by simp [Machine.enterEmpty]) (by simp [Machine.enterEmpty]) (by simp [Machine.enterEmpty]) (by simp [Machine.enterEmpty])
  (by simp [Machine.enterEmpty]) (by simp [Machine.enterEmpty]) (by simp [Machine.enterEmpty])

theorem enterLifting (h : I s) : I (enterLifting s) := by
  unfold Machine.enterLifting
  exact k.same (k.enterLiftState h .lifting)

theorem tareAccepted (h : I s) (e : ToolEntry) (mean : Nat) : I (tareAccepted e mean s) := by
  unfold Machine.tareAccepted
  dsimp only
  split
  · have tared : I (s.modLift fun l => { l with workingTare := some mean }) := k.same h
    exact k.enterEmpty (k.same (k.notify .tareDone tared))
  · exact k.enterEmpty (k.same (k.notify .tareFailed h))

theorem evaluateWindow (h : I s) : I (evaluateWindow s) := by
  unfold Machine.evaluateWindow
  split
  · exact h
  · dsimp only
    split
    · split
      · exact k.tareAccepted h _ _
      · exact k.same h
    · split
      · exact k.enterLiftState (k.same h) _
      · exact k.same h

theorem feedWindow (h : I s) (x : Sample) : I (feedWindow x s) := by
  have fed : I (s.modLift fun l => { l with window := l.window.feed x }) := k.same h
  unfold Machine.feedWindow
  dsimp only
  split
  · split
    · exact k.evaluateWindow (k.same fed)
    · exact k.same fed
  · split
    · exact k.evaluateWindow fed
    · exact fed

theorem takeSetDown (h : I s) : I (takeSetDown s) := k.enterLiftState (k.same h) _

theorem liftingSample (h : I s) (e : ToolEntry) (x : Sample) : I (liftingSample e x s) := by
  unfold Machine.liftingSample
  split
  · exact h
  · dsimp only
    split
    · exact k.takeSetDown (k.same h)
    · exact k.feedWindow (k.same h) x

theorem liftFSample (h : I s) (v : Int) (a : Option Int) : I (liftFSample v a s) := by
  have noted : ∀ x, I (noteStatic x (noteMass x s)) := fun _ => k.same h
  unfold Machine.liftFSample
  split
  · split
    · exact h
    · exact k.feedWindow (k.same h) _
  · split
    · exact h
    · split
      · exact h
      · dsimp only
        split
        · exact k.liftingSample (k.enterLifting (noted _)) _ _
        · exact noted _
  · split
    · exact h
    · exact k.liftingSample (noted _) _ _
  all_goals exact h

theorem failTare (h : I s) : I (failTare s) := k.enterEmpty (k.notify .tareFailed (k.same h))

theorem taringPressure (h : I s) (v : Int) : I (taringPressure v s) := by
  unfold Machine.taringPressure
  split
  · exact h
  · split
    · dsimp only
      split
      · exact k.failTare h
      · exact k.same (k.failTare h)
    · exact h

theorem heldPressure (h : I s) (v : Int) : I (heldPressure v s) := by
  unfold Machine.heldPressure
  split
  · exact h
  · split
    · exact k.enterLiftState (k.same h) _
    · exact h

theorem regrip (h : I s) : I (regrip s) := by
  unfold Machine.regrip
  dsimp only
  split
  · exact k.enterLifting (k.same h)
  · exact k.enterLifting (k.same h)
  · exact k.enterLiftState (k.same h) _

theorem releasingPressure (h : I s) (v : Int) : I (releasingPressure v s) := by
  unfold Machine.releasingPressure
  split
  · exact h
  · split
    · exact k.regrip h
    · exact h

theorem liftGpress (h : I s) (v : Int) : I (liftGpress v s) := by
  unfold Machine.liftGpress
  split
  · exact k.same h
  · exact k.taringPressure h v
  · exact k.heldPressure h v
  · exact k.heldPressure h v
  · exact k.heldPressure h v
  · exact k.releasingPressure h v

theorem confirmGrip (h : I s) : I (confirmGrip s) := by
  unfold Machine.confirmGrip
  dsimp only
  split
  · exact k.enterLifting (k.enterLiftState (k.same h) _)
  · exact k.enterLiftState (k.same h) _

theorem handOver (h : I s) (ending : LiftEnding) (l : OpenLift) (number : BitVec 16 × BitVec 16) :
    I (handOver ending l number s) := by
  have stopped : I (trackStop s) := k.same h (sector := rfl)
  exact k.fileRecord (k.book stopped _) _

theorem endLift (h : I s) (ending : LiftEnding) : I (endLift ending s) := by
  unfold Machine.endLift
  dsimp only
  split
  · exact k.enterEmpty (k.same h)
  · rename_i l _
    split
    · rename_i number _
      exact k.enterEmpty (k.same (k.handOver h ending l number))
    · exact k.enterEmpty (k.same h)

theorem liftGpressExpiry (h : I s) : I (liftGpressExpiry s) := by
  unfold Machine.liftGpressExpiry
  split
  · exact k.same h
  · exact h
  all_goals exact k.endLift h _

theorem liftTareRequest (h : I s) : I (liftTareRequest s) := by
  unfold Machine.liftTareRequest
  split
  · exact k.enterLiftState (k.same h) _
  · exact k.notify _ h

theorem liftActivation (h : I s) : I (liftActivation s) := by
  unfold Machine.liftActivation
  dsimp only
  split
  · exact k.same (k.failTare h)
  · exact k.same h

/-! ## Intake (02) -/

/-- An F sample to its receivers, in any of the six orders (R34). -/
theorem deliverForce (h : I s) (v : Int) (a : Option Int) : I (deliverForce v a s) := by
  have chosen : I (s.choose 6).2 := k.same h
  unfold Machine.deliverForce
  dsimp only
  split
  · exact k.clockEvent _ (k.supFSample (k.liftFSample chosen v a) v)
  · exact k.supFSample (k.clockEvent _ (k.liftFSample chosen v a)) v
  · exact k.clockEvent _ (k.liftFSample (k.supFSample chosen v) v a)
  · exact k.liftFSample (k.clockEvent _ (k.supFSample chosen v)) v a
  · exact k.supFSample (k.liftFSample (k.clockEvent _ chosen) v a) v
  · exact k.liftFSample (k.supFSample (k.clockEvent _ chosen) v) v a

theorem deliverSample (h : I s) (m : Measurand) (v : Int) (a : Option Int) : I (deliverSample m v a s) := by
  cases m with
  | f => exact k.deliverForce h v a
  | a => exact h
  | gpress => exact k.liftGpress h v
  | reach | pitch | roll => exact k.evaluate h

theorem readReport (h : I s) (source : Byte) (payload : List Byte) : I (readReport source payload s) := by
  have judged : ∀ (rs : List MatchedRecord) (x : State × Option Int), I x.1 → I (rs.foldl judgeRecord x).1 := by
    intro rs
    induction rs with
    | nil => exact fun _ h => h
    | cons r rs ih =>
      refine fun x h => ih _ ?_
      unfold judgeRecord
      dsimp only
      split
      · exact k.deliverSample (k.same h) _ _ _
      · exact k.raise _ h
  unfold Machine.readReport
  split
  · exact h
  · exact judged _ _ h

theorem expireMeasurand (h : I s) (m : Measurand) : I (expireMeasurand m s) := by
  have stale : I (s.modIntake fun i => i.set m { i.get m with state := .stale, timer := none }) := k.same h
  unfold Machine.expireMeasurand deliverExpiry
  split
  · cases m with
    | f => exact k.evaluate (k.same stale)
    | a => exact k.same stale
    | gpress => exact k.liftGpressExpiry stale
    | reach | pitch | roll => exact k.evaluate stale
  · exact h

theorem readOperatorState (h : I s) (payload : List Byte) : I (readOperatorState payload s) := by
  unfold Machine.readOperatorState takeTareNumber
  split
  · split
    · dsimp only
      split
      · exact k.same h
      · split
        · exact k.same h
        · exact k.liftTareRequest (k.same h)
    · exact h
  · exact h

end

end KeptBySignals

end Sys2Proof.Machine
end

