-- ==== Sys2Proof/Proofs/SlewKept.lean ====
section
/-! PROOFS. Every step keeps P below the modulus and the sector a sector of the active table, in the slew counter, the lift
controller and supervision alike (O26). -/

namespace Sys2Proof.Machine

-- One theorem after another: side by side, so many small ones need more threads than the memory limit admits.
set_option Elab.async false

/-! ## The sector table of a valid set (R46, R152) -/

namespace SetValid

variable {t : TableSet} (h : SetValid t)
include h

theorem sectorsChecked : checkSectors t = none := (firstFailure_eq_none_iff _).mp h.1 _ (by simp)

theorem sectorHeader : 1024 ≤ t.sectorHeader.cpr.toNat ∧ t.sectorHeader.indexOffset.toNat < t.sectorHeader.cpr.toNat ∧
    2 ≤ t.sectorHeader.count.toNat := by
  have checked := failUnless_eq_none_iff.mp ((firstFailure_eq_none_iff _).mp h.sectorsChecked _ List.mem_cons_self)
  simp only [sectorHeaderOk, between, Bool.and_eq_true, decide_eq_true_eq] at checked
  obtain ⟨⟨⟨⟨cpr, -⟩, offset⟩, -⟩, count, -⟩ := checked
  exact ⟨cpr, offset, count⟩

theorem cpr_pos : 0 < t.sectorHeader.cpr.toNat := Nat.lt_of_lt_of_le (by decide) h.sectorHeader.1

theorem two_le_sectors : 2 ≤ t.sectors.length := by
  have counted := failUnless_eq_none_iff.mp
    ((firstFailure_eq_none_iff _).mp h.sectorsChecked _ (List.mem_cons_of_mem _ List.mem_cons_self))
  rw [of_decide_eq_true counted]
  exact h.sectorHeader.2.2

end SetValid

/-- The sector of a position is a sector of the table (R47). -/
theorem TableSet.sectorAt_lt {t : TableSet} (some_ : 0 < t.sectors.length) (p : Nat) : t.sectorAt p < t.sectors.length := by
  have filtered := List.length_filter_le (fun e : SectorEntry => decide (e.start.toNat ≤ p)) t.sectors
  unfold sectorAt
  dsimp only
  split <;> omega

theorem SetValid.sectorAt_lt {t : TableSet} (h : SetValid t) (p : Nat) : t.sectorAt p < t.sectors.length :=
  TableSet.sectorAt_lt (by have := h.two_le_sectors; omega) p

/-! ## The sector in the three blocks -/

/-- The lift controller and supervision have the sector the slew counter has (R51, R59, R109). -/
def SectorAgrees (s : State) : Prop := s.lift.notedSector = s.slew.sector ∧ s.sup.sector = s.slew.sector

theorem keptBySignals_noted (sector : Option Nat) : KeptBySignals fun s => s.lift.notedSector = sector where
  quiet h quiet := quiet.noted.trans h
  raise _ h := h
  notify _ h := by simpa using h
  clockEvent _ h := by simpa using h

@[simp] theorem evaluate_noted (s : State) : (evaluate s).lift.notedSector = s.lift.notedSector :=
  (keptBySignals_noted _).evaluate rfl

theorem setSector_noted (sector : Option Nat) (s : State) :
    (setSector sector s).lift.notedSector = if sector = s.slew.sector then s.lift.notedSector else sector := by
  unfold setSector sectorEvent
  dsimp only
  split
  · rfl
  · split <;> simp [supSectorChange, liftSectorChange]

/-- A change of the current sector is told to both blocks. -/
theorem SectorAgrees.setSector {s : State} (h : SectorAgrees s) (sector : Option Nat) :
    SectorAgrees (setSector sector s) := by
  refine ⟨?_, setSector_agree h.2⟩
  rw [setSector_noted, setSector_slew]
  split
  · next same => rw [h.1, same]
  · rfl

theorem SectorAgrees.slewActivation {s : State} (h : SectorAgrees s) (old : Option TableSet) (new : TableSet) :
    SectorAgrees (slewActivation old new s) := by
  have unpaced : SectorAgrees (s.modSlew fun w => { w with lastPace := none }) := h
  unfold Machine.slewActivation
  dsimp only
  generalize s.modSlew _ = u at unpaced ⊢
  have lost : SectorAgrees (u.modSlew fun w => { w with referenced := false, p := w.p % new.sectorHeader.cpr.toNat }) := unpaced
  split
  · split
    · exact unpaced.setSector _
    · exact unpaced
  · exact lost.setSector none

/-! ## The promise -/

/-- The promise of the slew counter is a promise of these fields. -/
theorem SlewSafe.of_same {s t : State} (h : SlewSafe s) (p : t.slew.p = s.slew.p := by simp)
    (referenced : t.slew.referenced = s.slew.referenced := by simp) (current : t.slew.sector = s.slew.sector := by simp)
    (noted : t.lift.notedSector = s.lift.notedSector := by simp) (sector : t.sup.sector = s.sup.sector := by simp)
    (active : t.active = s.active := by simp) (staging : t.staging = s.staging := by simp) : SlewSafe t := by
  obtain ⟨tables, below, rest⟩ := h
  refine ⟨tables.of_same active staging, ?_, ?_⟩
  · unfold State.modulus at below ⊢
    rwa [active, p]
  · rwa [referenced, current, noted, sector, active]

theorem keptBySignals_slewSafe : KeptBySignals SlewSafe where
  quiet h quiet := h.of_same (by rw [quiet.slew]) (by rw [quiet.slew]) (by rw [quiet.slew]) quiet.noted quiet.sector
    quiet.active quiet.staging
  raise _ h := h
  notify _ h := h.of_same
  clockEvent _ h := h.of_same

namespace SlewSafe

variable {s : State}

theorem agrees (h : SlewSafe s) : SectorAgrees s := h.2.2.2.2

theorem modulus_pos (h : SlewSafe s) : 0 < s.modulus := Nat.lt_of_le_of_lt (Nat.zero_le _) h.2.1

/-- A new current sector, a sector of the ACTIVE set exactly when the slew is referenced. -/
theorem setSector (tables : TablesSafe s) (p : s.slew.p < s.modulus) (agrees : SectorAgrees s) {sector : Option Nat}
    (referenced : sector.isSome = s.slew.referenced)
    (known : ∀ i, sector = some i → ∃ t, s.active = some t ∧ i < t.sectors.length) : SlewSafe (setSector sector s) := by
  refine ⟨tables.of_same, ?_, ?_, ?_, agrees.setSector sector⟩
  · simpa [State.modulus, setSector_slew] using p
  · simpa [setSector_slew] using referenced
  · simpa [setSector_slew] using known

/-- The slew without a reference (R41). -/
theorem unreferenced (h : SlewSafe s) (slew : Slew) (p : slew.p = s.slew.p) (sector : slew.sector = s.slew.sector)
    (referenced : slew.referenced = false) : SlewSafe (Machine.setSector none (s.modSlew fun _ => slew)) := by
  obtain ⟨tables, below, -, -, noted, used⟩ := h
  refine setSector tables.of_same (by simpa [State.modulus, p] using below) ⟨?_, ?_⟩ (by simp [referenced]) (by simp)
  · simpa [sector] using noted
  · simpa [sector] using used

/-! ## Counts and the index (R40 to R50) -/

end SlewSafe

/-- Sector tracking changes nothing or takes the sector of the position, from a known one (R50). -/
theorem trackSector_cases (s : State) :
    trackSector s = s ∨ ∃ t, s.active = some t ∧ s.slew.sector.isSome = true ∧
      trackSector s = setSector (some (t.sectorAt s.slew.p)) s := by
  unfold trackSector
  split
  · rename_i t i active current
    dsimp only
    split
    · exact .inl rfl
    · split
      · split
        · exact .inr ⟨t, active, by rw [current]; rfl, rfl⟩
        · exact .inl rfl
      · exact .inl rfl
  · exact .inl rfl

theorem countedPosition_lt (up : Bool) {modulus : Nat} (pos : 0 < modulus) (p : Nat) :
    countedPosition up modulus p < modulus := by
  unfold countedPosition
  split <;> exact Nat.mod_lt _ pos

namespace SlewSafe

variable {s : State}

theorem trackSector (h : SlewSafe s) : SlewSafe (trackSector s) := by
  rcases trackSector_cases s with same | ⟨t, active, known, moved⟩
  · rw [same]; exact h
  · obtain ⟨tables, p, referenced, -, agrees⟩ := h
    rw [moved]
    refine setSector tables p agrees (known.symm.trans referenced) ?_
    rintro i ⟨⟩
    exact ⟨t, active, (tables.1 t active).sectorAt_lt _⟩

theorem paceCount (h : SlewSafe s) : SlewSafe (paceCount s) := by
  unfold Machine.paceCount
  dsimp only
  split
  · exact keptBySignals_slewSafe.clockEvent _ h
  · exact h

theorem takeCount (h : SlewSafe s) (up : Bool) : SlewSafe (takeCount up s) := by
  have counted : SlewSafe (s.modSlew fun w => { w with p := countedPosition up s.modulus w.p }) := by
    obtain ⟨tables, -, rest⟩ := id h
    exact ⟨tables.of_same, countedPosition_lt up h.modulus_pos _, rest⟩
  unfold Machine.takeCount
  dsimp only
  split
  · exact counted.trackSector.paceCount
  · exact counted.paceCount

theorem countError (h : SlewSafe s) : SlewSafe (countError s) :=
  unreferenced (s := s.raise .slewCountError) h _ rfl rfl rfl

theorem takeIndex (h : SlewSafe s) : SlewSafe (takeIndex s) := by
  unfold Machine.takeIndex
  split
  · rename_i t active
    unfold indexReferenced
    dsimp only
    have suspected : SlewSafe (if s.slew.referenced ∧ t.sectorHeader.driftLimit.toNat <
        (wrappedDrift t.sectorHeader.cpr.toNat s.slew.p t.sectorHeader.indexOffset.toNat).natAbs then
          (s.raise .slewSuspect).notify .slewSuspect else s) := by
      split
      · exact keptBySignals_slewSafe.notify _ h
      · exact h
    generalize marked : (if s.slew.referenced ∧ t.sectorHeader.driftLimit.toNat <
        (wrappedDrift t.sectorHeader.cpr.toNat s.slew.p t.sectorHeader.indexOffset.toNat).natAbs then
          (s.raise .slewSuspect).notify .slewSuspect else s) = u at suspected ⊢
    have active' : u.active = some t := by
      rw [← marked]
      split
      · simpa using active
      · exact active
    obtain ⟨tables, -, -, -, agrees⟩ := suspected
    have valid := tables.1 t active'
    refine setSector ?_ ?_ ?_ rfl ?_
    · exact tables.of_same
    · simpa [State.modulus, active'] using valid.sectorHeader.2.1
    · exact agrees
    · rintro i ⟨⟩
      exact ⟨t, active', valid.sectorAt_lt _⟩
  · rename_i none_
    obtain ⟨tables, -, rest⟩ := h
    refine ⟨tables.of_same, ?_, rest⟩
    simp [State.modulus, none_]

theorem observe (h : SlewSafe s) (a b z : Bool) : SlewSafe (observe a b z s) := by
  have levels : SlewSafe (s.modSlew fun w => { w with levelA := a, levelB := b, levelZ := z, indexHeld := z && a && b }) := h
  unfold Machine.observe
  dsimp only
  generalize s.modSlew _ = u at levels ⊢
  have counted : SlewSafe (if a ≠ s.slew.levelA ∧ b ≠ s.slew.levelB then Machine.countError u
      else if a ≠ s.slew.levelA ∨ b ≠ s.slew.levelB then
        Machine.takeCount (decide (phaseOf a b = (phaseOf s.slew.levelA s.slew.levelB + 1) % 4)) u
      else u) := by
    split
    · exact levels.countError
    · split
      · exact levels.takeCount _
      · exact levels
  split
  · exact counted.takeIndex
  · exact counted

/-! ## Activation and restart -/

theorem turned_agrees (h : SlewSafe s) (set : TableSet) : SectorAgrees (turned set s) := by
  obtain ⟨noted, sector⟩ := h.agrees
  refine SectorAgrees.slewActivation ⟨?_, ?_⟩ _ _
  · simpa [supActivation] using noted
  · simpa [supActivation, evaluate_sector] using sector

theorem activateSet (h : SlewSafe s) {set : TableSet} (ready : s.staging.ready = some set) :
    SlewSafe (activateSet set s) := by
  obtain ⟨tables, p, referenced, known, -⟩ := id h
  have valid := tables.2.valid_of_ready ready
  have kept := keptBySignals_noted (turned set s).lift.notedSector
  have noted : (Machine.activateSet set s).lift.notedSector = (turned set s).lift.notedSector :=
    kept.tallyActivation (kept.queueActivation (kept.liftActivation rfl) _) _
  have agrees : SectorAgrees (Machine.activateSet set s) :=
    ⟨by rw [noted, (h.turned_agrees set).1, activateSet_slew], activateSet_sector set s h.agrees.2⟩
  refine ⟨keptByBlocks_tablesSafe.activateSet tables ready, ?_, ?_, ?_, agrees⟩
  · simp only [State.modulus, activateSet_active, activateSet_slew]
    by_cases keeps : keepsReference s.active set = true
    · rw [turned_slew_of_kept set s keeps]
      obtain ⟨old, active, cpr, -⟩ := (keepsReference_iff _ _).mp keeps
      simpa [State.modulus, active, cpr] using p
    · rw [turned_slew_of_lost set s keeps]
      exact Nat.mod_lt _ valid.cpr_pos
  · rw [activateSet_slew]
    by_cases keeps : keepsReference s.active set = true
    · rw [turned_slew_of_kept set s keeps]
      dsimp only
      split
      · next on => exact on.symm
      · exact referenced
    · rw [turned_slew_of_lost set s keeps]
      rfl
  · intro i current
    refine ⟨set, activateSet_active set s, ?_⟩
    rw [activateSet_slew] at current
    by_cases keeps : keepsReference s.active set = true
    · rw [turned_slew_of_kept set s keeps] at current
      dsimp only at current
      split at current
      · cases current
        exact valid.sectorAt_lt _
      · next off =>
        rw [current] at referenced
        exact absurd referenced.symm off
    · rw [turned_slew_of_lost set s keeps] at current
      cases current

theorem warmRestart (h : SlewSafe s) : SlewSafe (warmRestart s) := by
  obtain ⟨tables, p, -⟩ := h
  refine ⟨tables.of_same, p, rfl, fun _ known => absurd known (by simp [Machine.warmRestart]), rfl, ?_⟩
  simp only [Machine.warmRestart, supWarmRestart]
  split <;> rfl

end SlewSafe

/-- Every operation keeps the slew counter's promise. -/
theorem keptByBlocks_slewSafe : KeptByBlocks SlewSafe where
  same h same := by
    obtain ⟨-, slew, lift, -, -, sup, active, staging, -⟩ := same
    exact h.of_same (by rw [slew]) (by rw [slew]) (by rw [slew]) (by rw [lift]) (by rw [sup]) active staging
  start _ _ := ⟨keptByBlocks_tablesSafe.start _ _, Nat.zero_lt_succ _, rfl, fun _ known => (nomatch known), rfl, rfl⟩
  assertReset h := h
  warmRestart h := h.warmRestart
  readReport source payload h := keptBySignals_slewSafe.readReport h source payload
  readOperatorState payload h := keptBySignals_slewSafe.readOperatorState h payload
  expireMeasurand m h := keptBySignals_slewSafe.expireMeasurand h m
  clearWindow h := h
  takeSetDown h _ := keptBySignals_slewSafe.takeSetDown h
  evaluateWindow h _ := keptBySignals_slewSafe.evaluateWindow h
  confirmGrip h _ := keptBySignals_slewSafe.confirmGrip h
  release h _ := keptBySignals_slewSafe.endLift h _
  failTare h _ := keptBySignals_slewSafe.failTare h
  observe a b z h := h.observe a b z
  serviceChange level h := keptBySignals_slewSafe.supServiceChange h level
  alertToggle h := h.of_same
  clockEvent event h := keptBySignals_slewSafe.clockEvent event h
  removeLifts h _ := h.of_same
  clearBunk h := keptBySignals_slewSafe.clearBunk h
  openStaging h := ⟨keptByBlocks_tablesSafe.openStaging h.1, h.2⟩
  writeStaging record h writable index := ⟨keptByBlocks_tablesSafe.writeStaging record h.1 writable index, h.2⟩
  checkStaging h writable := ⟨keptByBlocks_tablesSafe.checkStaging h.1 writable, h.2⟩
  activateSet h ready := h.activateSet ready
  traceConfigure h _ := h.of_same rfl rfl rfl rfl rfl rfl rfl
  traceEnable h := h.of_same
  traceDisable h := h
  traceFlush h := h
  traceRead _ h := h

/-- Settles O26: every operation of a block keeps the promise, and so does every step. -/
theorem everyStepKeepsSlewSafe : Obligations.EveryStepKeepsSlewSafe := fun _ _ h answer => keptByBlocks_slewSafe.step h answer

end Sys2Proof.Machine
end

