-- ==== Sys2Proof/Proofs/TraceRecords.lean ====
section
/-! PROOFS. When a trace configuration record passes its checks, and the configuration it then gives (R174, R176). -/

namespace Sys2Proof.Machine

-- One theorem after another: side by side, so many small ones need more threads than the memory limit admits.
set_option Elab.async false

/-- A record passes exactly when each field is read and lies in its range, and each field is in the configuration. -/
theorem traceConfigOfBytes_eq_some_iff {r : List Byte} {c : TraceConfig} :
    traceConfigOfBytes r = some c ↔
      (clockKindOfCode (byteAt r 0).toNat = some c.clock ∧ (byteAt r 1).toNat = c.divider ∧
        elementTypes ((r.drop 3).take (byteAt r 2).toNat) = some c.block ∧
        traceModeOfCode (byteAt r 9).toNat = some c.mode ∧ (field16 r 10).toNat = c.pacing.interval ∧
        flagOfByte (byteAt r 12) = some c.pacing.windowEnabled ∧ (field16 r 13).toNat = c.pacing.windowStart ∧
        (field16 r 15).toNat = c.pacing.windowEnd ∧ flagOfByte (byteAt r 17) = some c.pacing.deglitch) ∧
      (byteAt r 1).toNat ≠ 0 ∧ (1 ≤ (byteAt r 2).toNat ∧ (byteAt r 2).toNat ≤ 6) ∧
      1 ≤ (field16 r 10).toNat ∧ (field16 r 10).toNat ≤ 4096 := by
  obtain ⟨clock, divider, block, mode, interval, windowEnabled, windowStart, windowEnd, deglitch⟩ := c
  simp only [traceConfigOfBytes, Option.bind_eq_bind, Option.bind_eq_some_iff, Option.pure_def, Option.some.injEq,
    guard_eq_some, TraceConfig.mk.injEq, Pacing.mk.injEq]
  constructor
  · rintro ⟨_, hclock, -, hdivider, -, hlength, _, hblock, _, hmode, -, hinterval, _, henabled, _, hdeglitch, rfl, rfl, rfl, rfl,
      rfl, rfl, rfl, rfl, rfl⟩
    exact ⟨⟨hclock, rfl, hblock, hmode, rfl, henabled, rfl, rfl, hdeglitch⟩, hdivider, hlength, hinterval⟩
  · rintro ⟨⟨hclock, rfl, hblock, hmode, rfl, henabled, rfl, rfl, hdeglitch⟩, hdivider, hlength, hinterval⟩
    exact ⟨_, hclock, (), hdivider, (), hlength, _, hblock, _, hmode, (), hinterval, _, henabled, _, hdeglitch, rfl, rfl, rfl,
      rfl, rfl, rfl, rfl, rfl, rfl⟩

/-- A record whose mode is read has all its tag places. -/
theorem length_of_traceModeOfCode {r : List Byte} {mode : TraceMode} (h : traceModeOfCode (byteAt r 9).toNat = some mode) :
    9 < r.length := by
  by_contra short
  rw [byteAt, List.getD_eq_default _ _ (by omega)] at h
  cases h

/-- The block of a configuration has as many elements as its record says. -/
theorem length_traceConfig_block {r : List Byte} {c : TraceConfig} (h : traceConfigOfBytes r = some c) :
    c.block.length = (byteAt r 2).toNat := by
  obtain ⟨⟨-, -, block, mode, -⟩, -, length, -⟩ := traceConfigOfBytes_eq_some_iff.mp h
  have long := length_of_traceModeOfCode mode
  rw [length_elementTypes block, List.length_take, List.length_drop]
  omega

end Sys2Proof.Machine
end

