-- ==== Sys2Proof/Proofs/TraceKept.lean ====
section
/-! PROOFS. Every operation keeps the trace buffer whole and bounded: what the blocks do to the trace are clock events and
management's controls of it. -/

namespace Sys2Proof.Machine

-- One theorem after another: side by side, so many small ones need more threads than the memory limit admits.
set_option Elab.async false

/-! ## Promises about the trace and the two sets alone -/

/-- A promise about nothing but the trace and the two sets, which every signal keeps. -/
structure ReadsSignals (I : State → Prop) : Prop where
  same : ∀ {s t}, I s → t.trace = s.trace → t.conditions = s.conditions → t.notices = s.notices → I t
  raise : ∀ {s} c, I s → I (s.raise c)
  notify : ∀ {s} k, I s → I (s.notify k)
  clockEvent : ∀ {s} event, I s → I (clockEvent event s)

namespace ReadsSignals

variable {I : State → Prop} (k : ReadsSignals I) {s t : State}
include k

theorem signals : KeptBySignals I where
  quiet h quiet := k.same h quiet.trace quiet.conditions quiet.notices
  raise c h := k.raise c h
  notify kind h := k.notify kind h
  clockEvent event h := k.clockEvent event h

/-- An operation that gives no signal. -/
theorem silent (h : I s) (trace : t.trace = s.trace := by simp) (conditions : t.conditions = s.conditions := by simp)
    (notices : t.notices = s.notices := by simp) : I t := k.same h trace conditions notices

/-! ## The slew counter (03) and the activation of a table set (08) -/

theorem setSector (h : I s) (sector : Option Nat) : I (setSector sector s) := by
  have supervised : ∀ {u}, I u → I (supSectorChange sector u) := fun h => k.signals.evaluate (k.same h rfl rfl rfl)
  have noted : I (liftSectorChange sector (s.modSlew fun w => { w with sector := sector })) := k.silent h
  have chosen := k.silent (t := (State.choose 2 (liftSectorChange sector (s.modSlew fun w => { w with sector := sector }))).2) noted
  unfold Machine.setSector sectorEvent
  dsimp only
  split
  · exact h
  · split
    · exact k.clockEvent _ (supervised chosen)
    · exact supervised (k.clockEvent _ chosen)

theorem takeCount (h : I s) (up : Bool) : I (takeCount up s) := by
  have paced : ∀ {u}, I u → I (paceCount u) := by
    intro u h
    unfold paceCount
    dsimp only
    split
    · exact k.clockEvent _ (k.silent h)
    · exact h
  have counted : I (s.modSlew fun w => { w with p := countedPosition up s.modulus w.p }) := k.silent h
  unfold Machine.takeCount
  dsimp only
  split
  · refine paced ?_
    rw [trackSector_sets]
    exact k.setSector counted _
  · exact paced counted

theorem countError (h : I s) : I (countError s) := k.setSector (k.silent (k.raise .slewCountError h)) none

theorem takeIndex (h : I s) : I (takeIndex s) := by
  unfold Machine.takeIndex indexReferenced
  split
  · dsimp only
    split
    · exact k.setSector (k.silent (k.notify .slewSuspect (k.raise .slewSuspect h))) _
    · exact k.setSector (k.silent h) _
  · exact k.silent h

theorem observe (h : I s) (a b z : Bool) : I (observe a b z s) := by
  have levels : I (s.modSlew fun w => { w with levelA := a, levelB := b, levelZ := z, indexHeld := z && a && b }) := k.silent h
  unfold Machine.observe
  dsimp only
  generalize s.modSlew _ = u at levels ⊢
  have counted : I (if a ≠ s.slew.levelA ∧ b ≠ s.slew.levelB then Machine.countError u
      else if a ≠ s.slew.levelA ∨ b ≠ s.slew.levelB then
        Machine.takeCount (decide (phaseOf a b = (phaseOf s.slew.levelA s.slew.levelB + 1) % 4)) u
      else u) := by
    split
    · exact k.countError levels
    · split
      · exact k.takeCount levels _
      · exact levels
  split
  · exact k.takeIndex counted
  · exact counted

theorem slewActivation (h : I s) (old : Option TableSet) (new : TableSet) : I (slewActivation old new s) := by
  unfold Machine.slewActivation
  dsimp only
  split
  · split
    · exact k.setSector (k.silent h) _
    · exact k.silent h
  · exact k.setSector (k.silent h) none

theorem activateSet (h : I s) (set : TableSet) : I (activateSet set s) := by
  have swapped : I { s with active := some set, staging := stagingAfterSwap s.active } := k.same h rfl rfl rfl
  have taken : I (takenOver set s) := by
    have told := k.notify .tablesActive swapped
    unfold takenOver
    exact k.silent told
  have evaluated : I (supActivation (takenOver set s)) := k.signals.evaluate (k.same taken rfl rfl rfl)
  exact k.signals.tallyActivation (k.signals.queueActivation
    (k.signals.liftActivation (k.slewActivation evaluated s.active set)) set.machine) set.machine

end ReadsSignals

/-! ## The trace (10) -/

theorem TraceSafe.of_same {s t : State} (h : TraceSafe s) (trace : t.trace = s.trace := by simp) : TraceSafe t := by
  unfold TraceSafe at h ⊢
  rwa [trace]

theorem readsSignals_traceSafe : ReadsSignals TraceSafe where
  same h trace _ _ := h.of_same trace
  raise _ h := h
  notify _ h := h.of_same
  clockEvent event h := h.clockEvent event

/-- An emptied trace of the same configuration (R176, R179). -/
theorem TraceSafe.emptied {s t : State} (h : TraceSafe s) (config : t.trace.config = s.trace.config)
    (buffer : t.trace.buffer = []) (count : t.trace.dividerCount = 0) : TraceSafe t := by
  obtain ⟨-, -, low, high, below, rest⟩ := h
  unfold TraceSafe
  rw [buffer, count, config]
  exact ⟨by simp [elementsOf], fun _ mem => absurd mem List.not_mem_nil, low, high, by omega, rest⟩

/-- A configuration that has passed its checks (R176). -/
theorem TraceSafe.traceConfigure {s : State} {record : List Byte} {config : TraceConfig}
    (parsed : traceConfigOfBytes record = some config) : TraceSafe (traceConfigure config s) := by
  have block := length_traceConfig_block parsed
  have limit := (byteAt record 1).isLt
  obtain ⟨⟨-, divider, -, -, interval, -⟩, positive, length, range⟩ := traceConfigOfBytes_eq_some_iff.mp parsed
  refine ⟨Nat.zero_le _, fun _ mem => absurd mem List.not_mem_nil, ?_⟩
  simp only [Machine.traceConfigure, Trace.emptied]
  omega

/-- Every operation keeps the trace's promise. -/
theorem keptByBlocks_traceSafe : KeptByBlocks TraceSafe where
  same h same := by
    obtain ⟨-, -, -, -, -, -, -, -, trace⟩ := same
    exact h.of_same trace
  start _ _ := by
    show TraceSafe State.reset
    unfold TraceSafe
    decide
  assertReset h := h
  warmRestart h := h.emptied rfl rfl rfl
  readReport source payload h := readsSignals_traceSafe.signals.readReport h source payload
  readOperatorState payload h := readsSignals_traceSafe.signals.readOperatorState h payload
  expireMeasurand m h := readsSignals_traceSafe.signals.expireMeasurand h m
  clearWindow h := h
  takeSetDown h _ := readsSignals_traceSafe.signals.takeSetDown h
  evaluateWindow h _ := readsSignals_traceSafe.signals.evaluateWindow h
  confirmGrip h _ := readsSignals_traceSafe.signals.confirmGrip h
  release h _ := readsSignals_traceSafe.signals.endLift h _
  failTare h _ := readsSignals_traceSafe.signals.failTare h
  observe a b z h := readsSignals_traceSafe.observe h a b z
  serviceChange level h := readsSignals_traceSafe.signals.supServiceChange h level
  alertToggle h := h.of_same
  clockEvent event h := h.clockEvent event
  removeLifts h _ := h.of_same
  clearBunk h := readsSignals_traceSafe.signals.clearBunk h
  openStaging h := h
  writeStaging _ h _ _ := h
  checkStaging h _ := h
  activateSet h _ := readsSignals_traceSafe.activateSet h _
  traceConfigure _ parsed := .traceConfigure parsed
  traceEnable {s} h := by
    obtain ⟨room, whole, low, high, below, rest⟩ := id h
    unfold traceEnable
    split
    · exact ⟨room, whole, low, high, by dsimp only; omega, rest⟩
    · exact h
    · exact h
  traceDisable h := h
  traceFlush h := h.emptied rfl rfl rfl
  traceRead {s} max h := by
    obtain ⟨room, whole, rest⟩ := h
    obtain ⟨split, -⟩ := takeBlocks_spec max s.trace.buffer
    rw [← split] at room whole
    rw [elementsOf_append] at room
    exact ⟨(Nat.le_add_left _ _).trans room, fun b mem => whole b (List.mem_append_right _ mem), rest⟩

end Sys2Proof.Machine
end

