-- ==== Sys2Proof/Proofs/SetsKept.lean ====
section
/-! PROOFS. Every step keeps the two sets to the seventeen conditions and the thirteen notice kinds: the link and management,
too, raise only those, send only what is pending, and clear (O60). -/

namespace Sys2Proof.Machine

-- One theorem after another: side by side, so many small ones need more threads than the memory limit admits.
set_option Elab.async false

/-! ## The signals (R170, R172) -/

theorem toNat_or_twoPow_lt {w n k bound : Nat} {x : BitVec w} (bounded : bound = 2 ^ n) (h : x.toNat < bound) (bit : k < n) :
    (x ||| BitVec.twoPow w k).toNat < bound := by
  subst bounded
  rw [BitVec.toNat_or, BitVec.toNat_twoPow]
  exact Nat.or_lt_two_pow h (Nat.lt_of_le_of_lt (Nat.mod_le _ _) (Nat.pow_lt_pow_right (by decide) bit))

theorem Condition.bit_lt (c : Condition) : c.bit < 17 := by
  cases c with
  | forwardOverrun p | linkLost p | checkErrorSeen p => cases p <;> decide
  | implausible m => cases m <;> decide
  | slewCountError | slewSuspect | tiltHigh | queueOverflow | traceOverflow => decide

theorem NoticeKind.bit_lt (k : NoticeKind) : k.bit < 13 := by cases k <;> decide

namespace SetsSafe

variable {s t : State}

theorem same (h : SetsSafe s) (conditions : t.conditions = s.conditions := by simp)
    (notices : t.notices = s.notices := by simp) : SetsSafe t := by
  unfold SetsSafe at h ⊢
  rwa [conditions, notices]

theorem raise (h : SetsSafe s) (c : Condition) : SetsSafe (s.raise c) :=
  ⟨toNat_or_twoPow_lt (n := 17) rfl h.1 c.bit_lt, h.2⟩

theorem attemptNotice (h : SetsSafe s) : SetsSafe (attemptNotice s) := by
  rcases attemptNotice_cases s with same | ⟨sent, -⟩
  · rwa [same]
  · rw [sent]
    exact ⟨h.1, Nat.zero_lt_succ _⟩

theorem notify (h : SetsSafe s) (k : NoticeKind) : SetsSafe (s.notify k) :=
  attemptNotice (s := s.markPending k) ⟨h.1, toNat_or_twoPow_lt (n := 13) rfl h.2 k.bit_lt⟩

theorem clockEvent (h : SetsSafe s) (event : ClockEvent) : SetsSafe (clockEvent event s) := by
  have captured : ∀ {u}, SetsSafe u → SetsSafe (capture event u) := by
    intro u h
    unfold capture
    dsimp only
    split
    · exact h
    · split
      · exact raise h .traceOverflow
      · exact raise (s := writeBlock event _ u) h .traceOverflow
  unfold Machine.clockEvent
  split
  · split
    · exact captured h
    · exact h
  · exact h

end SetsSafe

theorem readsSignals_setsSafe : ReadsSignals SetsSafe where
  same h _ conditions notices := h.same conditions notices
  raise c h := h.raise c
  notify k h := h.notify k
  clockEvent event h := h.clockEvent event

/-! ## Management (09) -/

namespace SetsSafe

variable {s t : State}

/-- Both sets are empty after a start and after a warm restart. -/
theorem of_empty (conditions : s.conditions = 0) (notices : s.notices = 0) : SetsSafe s := by
  unfold SetsSafe
  rw [conditions, notices]
  decide

theorem warmRestart : SetsSafe (warmRestart s) := of_empty rfl rfl

theorem offerHeld (h : SetsSafe s) : SetsSafe (offerHeld s) := by
  unfold Machine.offerHeld
  split
  · split
    · exact h
    · dsimp only
      split
      · exact warmRestart
      · exact h.same
    · dsimp only
      split
      · exact warmRestart
      · exact h.same
  · exact h

theorem makeOffers (h : SetsSafe s) (p : PortId) (offers : List Offer) : SetsSafe (makeOffers p offers s) := by
  unfold Machine.makeOffers
  induction offers generalizing s with
  | nil => exact h
  | cons o offers ih =>
    refine ih ?_
    cases o with
    | notice => exact h.attemptNotice
    | reply =>
      unfold makeOffer
      dsimp only
      split
      · exact h.offerHeld
      · exact h

theorem settleOffers (h : SetsSafe s) (p : PortId) : SetsSafe (settleOffers p s) := by
  unfold Machine.settleOffers
  dsimp only
  split
  · exact h.makeOffers p _
  · exact makeOffers h.same p _

theorem offerOwed (h : SetsSafe s) (p : PortId) : SetsSafe (offerOwed p s) := makeOffers h.same p _

theorem settleIfLeft (h : SetsSafe s) (p : PortId) (before : State) : SetsSafe (settleIfLeft p before s) := by
  unfold Machine.settleIfLeft
  split
  · exact h.settleOffers p
  · exact h

theorem endChain (h : SetsSafe s) (final : Status) (c : Chain) : SetsSafe (endChain final c s) := offerHeld h.same

theorem concludeOp {x : State × OpResult} (h : SetsSafe x.1) (payload : List Byte) (code : Byte) (more : Bool) (next : Nat)
    (c : Chain) : SetsSafe (concludeOp payload code more next c x) := by
  unfold Machine.concludeOp
  dsimp only
  split
  · exact h.same
  · exact h.same
  · split
    · split
      · unfold skipNext
        split
        · exact h.endChain _ _
        · split
          · dsimp only
            split
            · exact h.same
            · exact h.endChain _ _
          · exact h.endChain _ _
      · exact h.same
    · exact h.endChain _ _
  · exact h.endChain _ _

theorem opClearBunk : KeptByBlocks.Performs SetsSafe opClearBunk :=
  fun h _ _ => KeptByBlocks.performIf h (readsSignals_setsSafe.signals.clearBunk h) _ _ _

theorem opClearConditions : KeptByBlocks.Performs SetsSafe opClearConditions := by
  intro s h operands free
  have cleared : SetsSafe { s with conditions := s.conditions &&& ~~~(field32 operands 0) } :=
    ⟨Nat.lt_of_le_of_lt ((BitVec.toNat_and ..).trans_le Nat.and_le_left) h.1, h.2⟩
  exact KeptByBlocks.performIf h cleared _ _ _

theorem opActivate : KeptByBlocks.Performs SetsSafe opActivate := by
  intro s h operands free
  unfold Machine.opActivate
  split
  · exact h
  · split
    · exact h
    · exact KeptByBlocks.performIf h (readsSignals_setsSafe.activateSet h _) _ _ _

/-- Every other operation leaves both sets as they are. -/
theorem performs_of_same {perform : List Byte → Nat → State → State × OpResult}
    (conditions : ∀ operands free s, (perform operands free s).1.conditions = s.conditions := by simp)
    (notices : ∀ operands free s, (perform operands free s).1.notices = s.notices := by simp) :
    KeptByBlocks.Performs SetsSafe perform :=
  fun h operands free => h.same (conditions operands free _) (notices operands free _)

theorem performCode (h : SetsSafe s) (code : Byte) (operands : List Byte) (free : Nat) :
    SetsSafe (performCode code operands free s).1 := by
  have kept := fun {perform} (keeps : KeptByBlocks.Performs SetsSafe perform) =>
    KeptByBlocks.judged keeps h code operands free
  unfold Machine.performCode
  split
  · exact kept performs_of_same
  · exact kept performs_of_same
  · exact kept performs_of_same
  · exact kept performs_of_same
  · exact kept performs_of_same
  · exact kept performs_of_same
  · exact kept performs_of_same
  · exact kept opClearBunk
  · exact kept opClearConditions
  · exact kept performs_of_same
  · exact kept performs_of_same
  · exact kept performs_of_same
  · exact kept performs_of_same
  · exact kept opActivate
  · exact kept performs_of_same
  · exact kept performs_of_same
  · exact kept performs_of_same
  · exact h

/-- A row of one operation (R159). -/
theorem performWanted (h : SetsSafe s) {perform : List Byte → Nat → State → State × OpResult}
    (keeps : KeptByBlocks.Performs SetsSafe perform) (code : Byte) (wanted : List Byte → Bool) :
    SetsSafe (performWanted code wanted perform s) := by
  unfold Machine.performWanted
  split
  · exact h
  · split
    · exact h
    · split
      · exact concludeOp (KeptByBlocks.judged keeps h _ _ _) _ _ _ _ _
      · exact h

theorem runChain (h : SetsSafe s) (fuel : Nat) : SetsSafe (runChain fuel s) := by
  have next : ∀ {s}, SetsSafe s → SetsSafe (performNext s) := by
    intro s h
    unfold performNext
    split
    · exact h
    · split
      · exact h.endChain _ _
      · exact concludeOp (h.performCode _ _ _) _ _ _ _ _
  induction fuel generalizing s with
  | zero => exact h
  | succ fuel ih =>
    unfold Machine.runChain
    dsimp only
    split
    · exact ih (next h)
    · exact next h

theorem performRequest (h : SetsSafe s) : SetsSafe (performRequest s) := by
  unfold Machine.performRequest
  split
  · exact h.offerHeld
  · exact h
  · exact h
  · split
    · exact h.endChain _ _
    · exact h.endChain _ _
    · exact offerHeld (h.runChain _)

theorem completeCheck (h : SetsSafe s) : SetsSafe (completeCheck s) := by
  unfold Machine.completeCheck
  split
  · exact concludeOp (h.same rfl rfl) _ _ _ _ _
  · exact h

/-! ## The link (01) -/

theorem goDown (h : SetsSafe s) (p : PortId) : SetsSafe (goDown p s) :=
  settleIfLeft (settleIfLeft ((h.raise (.linkLost p)).same) _ _) _ _

theorem badFrame (h : SetsSafe s) (p : PortId) (next : Framing) : SetsSafe (badFrame p next s) :=
  settleIfLeft ((h.raise (.checkErrorSeen p)).same) _ _

theorem headerComplete (h : SetsSafe s) (p : PortId) (header : List Byte) : SetsSafe (headerComplete p header s) := by
  unfold Machine.headerComplete forwardReady
  split
  · exact h.badFrame _ _
  · dsimp only
    split
    · split
      · exact h.same
      · exact raise h.same _
      · exact h.same
    · exact h.same

theorem frameByte (h : SetsSafe s) (p : PortId) (b : Byte) : SetsSafe (frameByte p b s) := by
  unfold Machine.frameByte
  dsimp only
  split
  · exact h.badFrame _ _
  · split
    · exact headerComplete h.same _ _
    · split
      · exact h.same
      · exact h.same

theorem shapeFrame (h : SetsSafe s) (dest source : Byte) (payload : List Byte) :
    SetsSafe (shapeFrame dest source payload s) := by
  have shaped := h.clockEvent .vdShaped
  unfold Machine.shapeFrame placeShaped
  split
  · exact h
  · split
    · exact shaped.same
    · exact shaped.raise _
    · exact shaped

theorem handOn (h : SetsSafe s) (p : PortId) (t : Treatment) (bytes : List Byte) : SetsSafe (handOn p t bytes s) := by
  unfold Machine.handOn
  split
  · exact h
  · split
    · exact readsSignals_setsSafe.signals.readReport h _ _
    · exact readsSignals_setsSafe.signals.readOperatorState h _
  · exact h.shapeFrame _ _ _
  · exact h.same

theorem frameEnd (h : SetsSafe s) (p : PortId) : SetsSafe (frameEnd p s) := by
  unfold Machine.frameEnd
  dsimp only
  split
  · split
    · exact handOn h.same _ _ _
    · exact h.same
  · exact h.badFrame _ _

theorem frameSymbol (h : SetsSafe s) (p : PortId) (sym : LineSymbol) : SetsSafe (frameSymbol p sym s) := by
  unfold Machine.frameSymbol
  split
  · exact h.same
  · cases sym
    case data b => exact h.frameByte _ _
    case endFrame => exact h.frameEnd _
    all_goals exact h.badFrame _ _
  · exact h.same

theorem receive (h : SetsSafe s) (p : PortId) (sym : LineSymbol) : SetsSafe (receive p sym s) := by
  have counted : ∀ f, SetsSafe (s.modPort p f) := fun _ => h.same
  unfold Machine.receive
  split
  · exact counted _
  · dsimp only
    split
    · exact (counted _).goDown _
    · split
      · exact (counted _).settleOffers _
      · exact counted _
  · dsimp only
    split
    · exact (counted _).goDown _
    · exact (counted _).frameSymbol _ _

theorem transmit (h : SetsSafe s) (p : PortId) : SetsSafe (transmit p s) := by
  unfold Machine.transmit
  split
  · exact h.same
  · exact settleIfLeft (same (h.offerOwed p)) _ _

/-! ## Commands and steps -/

/-- Every command keeps both sets. -/
theorem exec (h : SetsSafe s) (c : Instr) (answer : exec c s = .next t) : SetsSafe t := by
  have row := fun {f : State → State} (keeps : SetsSafe (f s)) => KeptByBlocks.unlessReset (t := t) h keeps
  have operation := fun {perform : List Byte → Nat → State → State × OpResult} {code wanted}
    (keeps : KeptByBlocks.Performs SetsSafe perform) => row (h.performWanted keeps code wanted)
  have signals := readsSignals_setsSafe.signals
  cases c
  case powerOn pins => cases answer; exact of_empty rfl rfl
  case resetReleased pins => cases answer; exact of_empty rfl rfl
  case resetAsserted => cases answer; exact h
  case transmitSymbol p => cases answer; exact h.transmit p
  case receiveSymbol p sym => exact row (h.receive p sym) answer
  case heldReplyOffer => exact row h.offerHeld answer
  case noticeAttempt => exact row h.attemptNotice answer
  case polarityFlip p => exact row (KeptByBlocks.ifDue h fun _ => h.same) answer
  case linkUp p => exact row (KeptByBlocks.ifDue h fun _ => settleOffers h.same p) answer
  case lossOfSignal p => exact row (KeptByBlocks.ifDue h fun _ => h.goDown p) answer
  case violationWindowFull p => exact row (KeptByBlocks.ifDue h fun _ => h.goDown p) answer
  case sensorReport source payload => exact row (signals.readReport h source payload) answer
  case operatorState payload => exact row (signals.readOperatorState h payload) answer
  case freshnessExpiry m => exact row (signals.expireMeasurand h m) answer
  case gapRunLimit => exact row (KeptByBlocks.ifDue h fun _ => same (t := clearWindow s) h) answer
  case setDown => exact row (KeptByBlocks.ifDue h fun _ => signals.takeSetDown h) answer
  case windowEvaluation => exact row (KeptByBlocks.ifDue h fun _ => signals.evaluateWindow h) answer
  case gripConfirmed => exact row (KeptByBlocks.ifDue h fun _ => signals.confirmGrip h) answer
  case release => exact row (KeptByBlocks.ifDue h fun _ => signals.endLift h _) answer
  case tareTimerExpiry => exact row (KeptByBlocks.ifDue h fun _ => signals.failTare h) answer
  case encoderObservation a b z => exact row (readsSignals_setsSafe.observe h a b z) answer
  case serviceInputChange level => exact row (signals.supServiceChange h level) answer
  case alertFlashToggle => exact row h.same answer
  case traceCapture event => exact row (h.clockEvent event) answer
  case shapeValveDemand dest source _ payload => exact row (h.shapeFrame dest source payload) answer
  case takeRequest p source payload => exact row h.same answer
  case performRequest => exact row h.performRequest answer
  case checkStagingComplete => exact row h.completeCheck answer
  case warmRestartPerformed =>
    unfold Machine.exec execWarmRestartPerformed at answer
    refine row ?_ answer
    split
    · exact h.offerHeld
    · exact h
  case clearBunk => exact operation opClearBunk answer
  case clearConditions => exact operation opClearConditions answer
  case activate => exact operation opActivate answer
  case test => exact operation performs_of_same answer
  case readIdentity => exact operation performs_of_same answer
  case readStatus => exact operation performs_of_same answer
  case readMeasurands => exact operation performs_of_same answer
  case readTally => exact operation performs_of_same answer
  case peekLifts => exact operation performs_of_same answer
  case dropLifts => exact operation performs_of_same answer
  case openStaging => exact operation performs_of_same answer
  case writeEntry => exact operation performs_of_same answer
  case readEntry => exact operation performs_of_same answer
  case checkStaging => exact operation performs_of_same answer
  case traceConfigure => exact operation performs_of_same answer
  case traceEnable => exact operation performs_of_same answer
  case traceDisable => exact operation performs_of_same answer
  case traceFlush => exact operation performs_of_same answer
  case traceRead => exact operation performs_of_same answer
  case warmRestart => exact operation performs_of_same answer

/-- Every internal event keeps both sets. -/
theorem internalEvents (h : SetsSafe s) : ∀ e ∈ internalEvents s, SetsSafe e.taken := by
  have signals := readsSignals_setsSafe.signals
  simp only [Machine.internalEvents, List.forall_mem_cons]
  exact ⟨h.offerOwed .cab, h.offerOwed .crane, signals.expireMeasurand h .f, signals.expireMeasurand h .a,
    signals.expireMeasurand h .reach, signals.expireMeasurand h .pitch, signals.expireMeasurand h .roll,
    signals.expireMeasurand h .gpress, signals.confirmGrip h, signals.endLift h _, signals.failTare h, same (t := alertToggle s) h,
    h.completeCheck, h.offerHeld, h.performRequest, fun _ none => absurd none List.not_mem_nil⟩

theorem idle (h : SetsSafe s) : SetsSafe (idle s) := by
  unfold Machine.idle
  split
  · exact h
  · split
    · rename_i e found
      exact h.internalEvents e (List.mem_of_find?_eq_some found)
    · exact h

/-- Every step keeps both sets. -/
theorem step (h : SetsSafe s) (answer : step s = .next t) : SetsSafe t := by
  unfold Machine.step at answer
  split at answer
  · rename_i c rest _
    exact exec (s := { s with pending := rest }) h c answer
  · cases answer
    exact h.idle

end SetsSafe

/-- Settles O60: the blocks' operations keep the trace, and every signal, every clearing and every restart keeps the sets. -/
theorem everyStepKeepsTraceAndSetsSafe : Obligations.EveryStepKeepsTraceAndSetsSafe :=
  ⟨fun _ _ h answer => keptByBlocks_traceSafe.step h answer, fun _ _ h answer => h.step answer⟩

end Sys2Proof.Machine
end

