-- ==== Sys2Proof/Proofs/TraceControl.lean ====
section
/-! PROOFS. TRACE CONTROL: the codes of its record, what each action does, and its errors (O58). -/

namespace Sys2Proof.Machine

-- One theorem after another: side by side, so many small ones need more threads than the memory limit admits.
set_option Elab.async false

/-! ## The codes of a configuration record (R174, R176) -/

theorem elementOfCode_eq_some_iff {n : Nat} {e : ElementType} : elementOfCode n = some e ↔ e.code = n := by
  constructor
  · intro h
    unfold elementOfCode at h
    split at h <;> cases h <;> rfl
  · rintro rfl
    cases e <;> rfl

theorem ElementType.exists_code {n : Nat} : (∃ e : ElementType, e.code = n) ↔ 1 ≤ n ∧ n ≤ 13 := by
  constructor
  · rintro ⟨e, rfl⟩
    cases e <;> decide
  · rintro ⟨low, high⟩
    have : elementOfCode n ≠ none := by interval_cases n <;> decide
    obtain ⟨e, found⟩ := Option.ne_none_iff_exists'.mp this
    exact ⟨e, elementOfCode_eq_some_iff.mp found⟩

/-- The tags are read exactly when they are the codes of the elements (R174). -/
theorem elementTypes_eq_some_iff {tags : List Byte} {types : List ElementType} :
    elementTypes tags = some types ↔ types.map ElementType.code = tags.map BitVec.toNat := by
  induction tags generalizing types with
  | nil => simp [elementTypes, eq_comm]
  | cons tag rest ih =>
    cases types with
    | nil =>
      simp only [elementTypes, List.map_nil, List.map_cons, List.nil_eq, reduceCtorEq, iff_false]
      split <;> simp
    | cons e types =>
      rw [List.map_cons, List.map_cons, List.cons.injEq, ← ih, ← elementOfCode_eq_some_iff, elementTypes]
      split
      · next e' types' first others => simp [first, others]
      · next missing => exact iff_of_false (by simp) fun both => missing e types both.1 both.2

/-- The tags are read when each of them names an element. -/
theorem exists_elementTypes_iff {tags : List Byte} :
    (∃ types, elementTypes tags = some types) ↔ ∀ tag ∈ tags, 1 ≤ tag.toNat ∧ tag.toNat ≤ 13 := by
  simp only [elementTypes_eq_some_iff, ← ElementType.exists_code]
  induction tags with
  | nil => simp
  | cons tag rest ih =>
    rw [List.forall_mem_cons, ← ih]
    constructor
    · rintro ⟨types, codes⟩
      obtain ⟨e, types, rfl, first, others⟩ := List.map_eq_cons_iff.mp codes
      exact ⟨⟨e, first⟩, types, others⟩
    · rintro ⟨⟨e, first⟩, types, others⟩
      exact ⟨e :: types, by rw [List.map_cons, List.map_cons, first, others]⟩

theorem exists_clockKindOfCode_iff {n : Nat} : (∃ kind, clockKindOfCode n = some kind) ↔ 1 ≤ n ∧ n ≤ 6 := by
  constructor
  · rintro ⟨kind, found⟩
    unfold clockKindOfCode at found
    split at found
    case h_7 => cases found
    all_goals decide
  · rintro ⟨low, high⟩
    interval_cases n <;> exact ⟨_, rfl⟩

theorem traceModeOfCode_eq_some_iff {n : Nat} {mode : TraceMode} :
    traceModeOfCode n = some mode ↔ (n = 1 ∧ mode = .stopWhenFull) ∨ (n = 2 ∧ mode = .overwriteOldest) := by
  unfold traceModeOfCode
  split
  · simp [eq_comm]
  · simp [eq_comm]
  · next notOne notTwo => exact iff_of_false (by simp) (by rintro (⟨one, -⟩ | ⟨two, -⟩) <;> contradiction)

theorem flagOfByte_eq_some_iff {b : Byte} {flag : Bool} :
    flagOfByte b = some flag ↔ b.toNat ≤ 1 ∧ (flag = true ↔ b.toNat = 1) := by
  have zero : b = 0 ↔ b.toNat = 0 := by bv_omega
  have one : b = 1 ↔ b.toNat = 1 := by bv_omega
  unfold flagOfByte
  simp only [zero, one]
  split
  · next h => cases flag <;> simp [h]
  · split
    · next h => cases flag <;> simp [h]
    · exact iff_of_false (by simp) (by omega)

/-! ## The checks of a record -/

/-- A byte of a record as a number. -/
def fieldAt (record : List Byte) (i : Nat) : Nat := (byteAt record i).toNat

/-- Every field of a configuration record lies in its range (R176). -/
def RecordPasses (record : List Byte) : Prop :=
  1 ≤ fieldAt record 0 ∧ fieldAt record 0 ≤ 6 ∧ fieldAt record 1 ≠ 0 ∧ 1 ≤ fieldAt record 2 ∧ fieldAt record 2 ≤ 6 ∧
    (∀ i, i < fieldAt record 2 → 1 ≤ fieldAt record (3 + i) ∧ fieldAt record (3 + i) ≤ 13) ∧
    (fieldAt record 9 = 1 ∨ fieldAt record 9 = 2) ∧
    1 ≤ (field16 record 10).toNat ∧ (field16 record 10).toNat ≤ 4096 ∧ fieldAt record 12 ≤ 1 ∧ fieldAt record 17 ≤ 1

/-- The tag places of a record. -/
theorem getElem?_tags {record : List Byte} (long : record.length = 18) {length i : Nat} (short : length ≤ 6) (lt : i < length) :
    ((record.drop 3).take length)[i]? = some (byteAt record (3 + i)) := by
  rw [List.getElem?_take_of_lt lt, List.getElem?_drop, byteAt, List.getD_eq_getElem _ _ (by omega), List.getElem?_eq_getElem]

theorem forall_tags_iff {record : List Byte} (long : record.length = 18) {length : Nat} (short : length ≤ 6) {p : Byte → Prop} :
    (∀ tag ∈ (record.drop 3).take length, p tag) ↔ ∀ i, i < length → p (byteAt record (3 + i)) := by
  have count : ((record.drop 3).take length).length = length := by
    rw [List.length_take, List.length_drop]
    omega
  constructor
  · exact fun all i lt => all _ (List.mem_of_getElem? (getElem?_tags long short lt))
  · intro all tag mem
    obtain ⟨i, found⟩ := List.mem_iff_getElem?.mp mem
    have lt : i < length := count ▸ (List.getElem?_eq_some_iff.mp found).1
    rw [getElem?_tags long short lt] at found
    cases found
    exact all i lt

/-- A record gives a configuration exactly when it passes. -/
theorem exists_traceConfigOfBytes_iff {record : List Byte} (long : record.length = 18) :
    (∃ config, traceConfigOfBytes record = some config) ↔ RecordPasses record := by
  unfold RecordPasses fieldAt
  constructor
  · rintro ⟨config, found⟩
    obtain ⟨⟨clock, -, block, mode, -, enabled, -, -, deglitch⟩, divider, ⟨low, high⟩, interval⟩ :=
      traceConfigOfBytes_eq_some_iff.mp found
    obtain ⟨one, six⟩ := exists_clockKindOfCode_iff.mp ⟨_, clock⟩
    refine ⟨one, six, divider, low, high, ?_, ?_, interval.1, interval.2, (flagOfByte_eq_some_iff.mp enabled).1,
      (flagOfByte_eq_some_iff.mp deglitch).1⟩
    · exact (forall_tags_iff long high).mp (exists_elementTypes_iff.mp ⟨_, block⟩)
    · exact (traceModeOfCode_eq_some_iff.mp mode).imp And.left And.left
  · rintro ⟨one, six, divider, low, high, tags, mode, interval, limit, enabled, deglitch⟩
    obtain ⟨clock, clock_⟩ := exists_clockKindOfCode_iff.mpr ⟨one, six⟩
    obtain ⟨block, block_⟩ := exists_elementTypes_iff.mpr ((forall_tags_iff long high).mpr tags)
    obtain ⟨mode, mode_⟩ : ∃ mode, traceModeOfCode (byteAt record 9).toNat = some mode := by
      rcases mode with one | two
      · exact ⟨_, traceModeOfCode_eq_some_iff.mpr (.inl ⟨one, rfl⟩)⟩
      · exact ⟨_, traceModeOfCode_eq_some_iff.mpr (.inr ⟨two, rfl⟩)⟩
    have flag : ∀ {b : Byte}, b.toNat ≤ 1 → flagOfByte b = some (decide (b.toNat = 1)) := fun short =>
      flagOfByte_eq_some_iff.mpr ⟨short, decide_eq_true_iff⟩
    exact ⟨{ clock, divider := _, block, mode, pacing := ⟨_, _, _, _, _⟩ }, traceConfigOfBytes_eq_some_iff.mpr
      ⟨⟨clock_, rfl, block_, mode_, rfl, flag enabled, rfl, rfl, flag deglitch⟩, divider, ⟨low, high⟩, interval, limit⟩⟩

/-- The clock event kinds with their codes (R174). -/
def clockCodes : List (Nat × ClockKind) :=
  [(1, .fSample), (2, .slewPace), (3, .sectorChange), (4, .liftEvent), (5, .supChange), (6, .vdShaped)]

/-- The element types with their tags (R174). -/
def elementTags : List (Nat × ElementType) :=
  [(1, .time), (2, .f), (3, .a), (4, .reach), (5, .pitch), (6, .roll), (7, .slewPos), (8, .sampleMass), (9, .u),
    (10, .capacity), (11, .liftState), (12, .supState), (13, .captureNumber)]

theorem mem_clockCodes {n : Nat} {kind : ClockKind} (h : clockKindOfCode n = some kind) : (n, kind) ∈ clockCodes := by
  unfold clockKindOfCode at h
  split at h <;> cases h <;> decide

theorem mem_elementTags (e : ElementType) : (e.code, e) ∈ elementTags := by cases e <;> decide

/-- The configuration carries the fields of its record. -/
theorem traceConfigOfBytes_fields {record : List Byte} (long : record.length = 18) {config : TraceConfig}
    (h : traceConfigOfBytes record = some config) :
    clockKindOfCode (fieldAt record 0) = some config.clock ∧ config.divider = fieldAt record 1 ∧
      (fieldAt record 0, config.clock) ∈ clockCodes ∧ config.block.length = fieldAt record 2 ∧
      (∀ i ty, config.block[i]? = some ty → (fieldAt record (3 + i), ty) ∈ elementTags) ∧
      config.block.map ElementType.code = ((record.drop 3).take (fieldAt record 2)).map BitVec.toNat ∧
      (config.mode = .stopWhenFull ↔ fieldAt record 9 = 1) ∧ config.pacing.interval = (field16 record 10).toNat ∧
      (config.pacing.windowEnabled = true ↔ fieldAt record 12 = 1) ∧ config.pacing.windowStart = (field16 record 13).toNat ∧
      config.pacing.windowEnd = (field16 record 15).toNat ∧ (config.pacing.deglitch = true ↔ fieldAt record 17 = 1) := by
  have length := length_traceConfig_block h
  obtain ⟨⟨clock, divider, block, mode, interval, enabled, start, end_, deglitch⟩, -, ⟨-, six⟩, -⟩ :=
    traceConfigOfBytes_eq_some_iff.mp h
  have codes := elementTypes_eq_some_iff.mp block
  refine ⟨clock, divider.symm, mem_clockCodes clock, length, fun i ty found => ?_, codes, ?_, interval.symm,
    (flagOfByte_eq_some_iff.mp enabled).2, start.symm, end_.symm, (flagOfByte_eq_some_iff.mp deglitch).2⟩
  · have lt : i < (byteAt record 2).toNat := length ▸ (List.getElem?_eq_some_iff.mp found).1
    have code := congrArg (·[i]?) codes
    simp only [List.getElem?_map, found, getElem?_tags long six lt, Option.map_some, Option.some.injEq] at code
    rw [fieldAt, ← code]
    exact mem_elementTags ty
  · rcases traceModeOfCode_eq_some_iff.mp mode with ⟨code, is⟩ | ⟨code, is⟩ <;> simp [fieldAt, code, is]

/-! ## The operations (R168, R179) -/

section
variable {s : State} {r : Request} {c : Chain} {code : Byte} {more : Bool} {operands : List Byte} {next : Nat}

/-- Performing an operation with wanted operands when it is the next one. -/
theorem performWanted_of_nextOperation (h : NextOperation s r c code more operands next) {wanted : List Byte → Bool}
    (accepted : wanted operands = true) (perform : List Byte → Nat → State → State × OpResult) :
    performWanted code wanted perform s = concludeOp r.payload code more next c (judged code perform operands c.free s) := by
  simp only [performWanted, nextOp_of_nextOperation h, accepted, and_self, if_true]

/-- A row of TRACE CONTROL with its action as the next operation. -/
theorem exec_traceControl {action : Byte} {rest : List Byte} (h : NextOperation s r c 0x30 more (action :: rest) next)
    (perform : List Byte → Nat → State → State × OpResult) :
    s.unlessReset (performWanted codeTraceControl (hasAction action) perform) =
      .next (concludeOp r.payload 0x30 more next c (judged 0x30 perform (action :: rest) c.free s)) :=
  (State.unlessReset_running _ s h.1).trans
    (congrArg _ (performWanted_of_nextOperation h (wanted := hasAction action) (by simp [hasAction]) perform))

/-- An operand length that the action refuses gives LENGTH_ERROR, whatever TRACE CONTROL's lengths are. -/
theorem judged_of_lengthError {perform : List Byte → Nat → State → State × OpResult} {free : Nat}
    (refuses : perform operands free s = refuse .lengthError s) : judged code perform operands free s = (s, .gives .lengthError []) := by
  unfold judged
  split
  · exact refuses
  · rfl

/-- The trace state that an action returns, when there is room for it (R161). -/
theorem traceResult_eq (t : State) :
    traceResult c.free t s = if fits 1 c.free then (t, .gives .ok [sendByte t.trace.state.code]) else (s, .gives .noRoom []) := rfl

theorem judged_traceControl (perform : List Byte → Nat → State → State × OpResult) (length : operands.length = 1 ∨ operands.length = 19)
    (free : Nat) : judged 0x30 perform operands free s = perform operands free s := by
  refine if_pos ?_
  rcases length with h | h <;> rw [h] <;> decide

/-- What an action without operands does: a surplus operand is a length error, and the result needs room. -/
theorem exec_plainAction {action : Byte} {rest : List Byte} {perform : List Byte → Nat → State → State × OpResult} (after : State)
    (acts : ∀ operands free, perform operands free s =
      if operands.length ≠ 1 then refuse .lengthError s else traceResult free after s)
    (h : NextOperation s r c 0x30 more (action :: rest) next) :
    s.unlessReset (performWanted codeTraceControl (hasAction action) perform) =
      .next (concludeOp r.payload 0x30 more next c
        (if rest ≠ [] then (s, .gives .lengthError [])
          else if fits 1 c.free then (after, .gives .ok [sendByte after.trace.state.code]) else (s, .gives .noRoom []))) := by
  rw [exec_traceControl h]
  by_cases surplus : rest = []
  · subst surplus
    rw [judged_traceControl _ (.inl rfl), acts, if_neg (by simp), if_neg (by simp), traceResult_eq]
  · rw [judged_of_lengthError, if_pos surplus]
    rw [acts, if_pos (by simpa using surplus)]

/-- What a configuration does: its length, its state, its fields and its room are judged in this order. -/
theorem exec_traceConfigure {record : List Byte} (h : NextOperation s r c 0x30 more (1 :: record) next) :
    exec .traceConfigure s = .next (concludeOp r.payload 0x30 more next c
      (if record.length ≠ 18 then (s, .gives .lengthError [])
        else if s.trace.state ≠ .disabled then (s, .gives .wrongState [])
        else match traceConfigOfBytes record with
          | none => (s, .gives .rangeError [])
          | some config =>
            if fits 1 c.free then (traceConfigure config s, .gives .ok [sendByte (traceConfigure config s).trace.state.code])
            else (s, .gives .noRoom []))) := by
  refine (exec_traceControl h opTraceConfigure).trans ?_
  by_cases length : record.length = 18
  · rw [judged_traceControl _ (.inr (by simp [length])), opTraceConfigure, if_neg (by simp [length]), if_neg (not_not_intro length)]
    simp only [List.drop_succ_cons, List.drop_zero, traceResult_eq]
    rfl
  · rw [judged_of_lengthError, if_pos length]
    rw [opTraceConfigure, if_pos (by simpa using length)]

theorem traceFlush_eq (s : State) :
    traceFlush s = { s with trace := {
      state := if s.trace.state = .disabled then .disabled else .running, config := s.trace.config } } := by
  unfold traceFlush Trace.emptied
  cases s.trace.state <;> rfl

theorem traceConfigure_eq (disabled : s.trace.state = .disabled) (config : TraceConfig) :
    traceConfigure config s =
      { s with trace := { state := .disabled, config }, slew := { s.slew with lastPace := none } } := by
  unfold traceConfigure Trace.emptied
  rw [disabled]

theorem traceEnable_of_disabled (disabled : s.trace.state = .disabled) :
    traceEnable s = { s with trace := { s.trace with state := .running, dividerCount := 0 } } := by
  unfold traceEnable
  rw [disabled]

theorem traceEnable_of_not_disabled (on : s.trace.state ≠ .disabled) : traceEnable s = s := by
  unfold traceEnable
  split
  · next off => exact absurd off on
  · rfl
  · rfl

end

/-- Settles O58: a length error comes first, then the state, the fields and the room; and the record's codes are R174's. -/
theorem traceIsControlled : Obligations.TraceIsControlled := by
  intro s r c more next done
  have enable : ∀ {rest}, NextOperation s r c 0x30 more (2 :: rest) next → exec .traceEnable s = _ :=
    exec_plainAction (traceEnable s) fun _ _ => rfl
  have disable : ∀ {rest}, NextOperation s r c 0x30 more (3 :: rest) next → exec .traceDisable s = _ :=
    exec_plainAction (traceDisable s) fun _ _ => rfl
  have flush : ∀ {rest}, NextOperation s r c 0x30 more (4 :: rest) next → exec .traceFlush s = _ :=
    exec_plainAction (traceFlush s) fun _ _ => rfl
  have roomy := (fits_iff_roomFor (c := c) (length := 1)).mpr
  have full := mt (fits_iff_roomFor (c := c) (length := 1)).mp
  refine ⟨fun rest => ⟨fun h length => ?_, fun h surplus => ?_, fun h surplus => ?_, fun h surplus => ?_⟩,
    fun room => ⟨fun h => ?_, fun h => ?_, fun h => ?_⟩, fun record long h => ?_, fun h room => ⟨fun off => ?_, fun on => ?_⟩,
    fun h room => ?_, fun h room => ?_⟩
  · rw [exec_traceConfigure h, if_pos length]
  · rw [enable h, if_pos surplus]
  · rw [disable h, if_pos surplus]
  · rw [flush h, if_pos surplus]
  · rw [enable h, if_neg (not_not_intro rfl), if_neg (full room)]
  · rw [disable h, if_neg (not_not_intro rfl), if_neg (full room)]
  · rw [flush h, if_neg (not_not_intro rfl), if_neg (full room)]
  · have act := exec_traceConfigure h
    rw [if_neg (not_not_intro long)] at act
    refine ⟨fun on => ?_, fun off fails => ?_, fun off passes room => ?_, fun off passes room => ?_⟩
    · rw [act, if_pos on]
    · have none : traceConfigOfBytes record = none :=
        Option.eq_none_iff_forall_ne_some.mpr fun config found =>
          fails ((exists_traceConfigOfBytes_iff long).mp ⟨config, found⟩)
      rw [act, if_neg (not_not_intro off), none]
    · obtain ⟨config, found⟩ := (exists_traceConfigOfBytes_iff long).mpr passes
      rw [act, if_neg (not_not_intro off), found]
      simp only [if_neg (full room)]
      rfl
    · obtain ⟨config, found⟩ := (exists_traceConfigOfBytes_iff long).mpr passes
      refine ⟨config, ?_, traceConfigOfBytes_fields long found⟩
      rw [act, if_neg (not_not_intro off), found]
      simp only [if_pos (roomy room), traceConfigure_eq off]
      rfl
  · rw [enable h, if_neg (not_not_intro rfl), if_pos (roomy room), traceEnable_of_disabled off]
    rfl
  · rw [enable h, if_neg (not_not_intro rfl), if_pos (roomy room), traceEnable_of_not_disabled on]
  · rw [disable h, if_neg (not_not_intro rfl), if_pos (roomy room)]
    rfl
  · intro state
    rw [flush h, if_neg (not_not_intro rfl), if_pos (roomy room), traceFlush_eq]

end Sys2Proof.Machine
end

