-- ==== Sys2Proof/Proofs/SlewCounter.lean ====
section
/-! PROOFS. The slew counter's operations, and the sector map: the sectors cover every position and the current one follows
with hysteresis (O25). -/

namespace Sys2Proof.Machine

-- One theorem after another: side by side, so many small ones need more threads than the memory limit admits.
set_option Elab.async false

/-! ## An observation: the levels, the count, the index (R40, R43) -/

/-- The levels of an observation are taken in. -/
def sensed (a b z : Bool) (s : State) : State :=
  s.modSlew fun w => { w with levelA := a, levelB := b, levelZ := z, indexHeld := z && a && b }

/-- What an observation counts, before an index that begins. -/
def counted (a b z : Bool) (s : State) : State :=
  if a ≠ s.slew.levelA ∧ b ≠ s.slew.levelB then countError (sensed a b z s)
  else if a ≠ s.slew.levelA ∨ b ≠ s.slew.levelB then
    takeCount (decide (phaseOf a b = (phaseOf s.slew.levelA s.slew.levelB + 1) % 4)) (sensed a b z s)
  else sensed a b z s

theorem observe_eq (a b z : Bool) (s : State) :
    observe a b z s = if (z && a && b) && !s.slew.indexHeld then takeIndex (counted a b z s) else counted a b z s := rfl

section
variable {a b z : Bool} {s : State}

theorem exec_encoderObservation (running : s.inReset = false) :
    exec (.encoderObservation a b z) s = .next (observe a b z s) := State.unlessReset_running _ s running

theorem exec_observation_without_index (running : s.inReset = false)
    (index : ¬((z && a && b) = true ∧ s.slew.indexHeld = false)) :
    exec (.encoderObservation a b z) s = .next (counted a b z s) := by
  rw [exec_encoderObservation running, observe_eq, if_neg]
  simpa using index

theorem exec_observation_with_index (running : s.inReset = false) (begins : s.slew.indexHeld = false) :
    exec (.encoderObservation true true true) s = .next (takeIndex (counted true true true s)) := by
  rw [exec_encoderObservation running, observe_eq, if_pos]
  simp [begins]

theorem counted_of_same (sameA : a = s.slew.levelA) (sameB : b = s.slew.levelB) : counted a b z s = sensed a b z s := by
  rw [counted, if_neg fun both => both.1 sameA, if_neg fun one => one.elim (· sameA) (· sameB)]

theorem counted_of_both (newA : a ≠ s.slew.levelA) (newB : b ≠ s.slew.levelB) :
    counted a b z s = countError (sensed a b z s) := if_pos ⟨newA, newB⟩

/-- The steps forward in the sequence (low, low), (high, low), (high, high), (low, high) (R40). -/
theorem phaseOf_forward : ∀ a b oldA oldB : Bool, (a ≠ oldA ∧ b = oldB) ∨ (a = oldA ∧ b ≠ oldB) →
    decide (phaseOf a b = (phaseOf oldA oldB + 1) % 4) = if a = oldA then b == a else a != b := by decide

theorem counted_of_one (one : (a ≠ s.slew.levelA ∧ b = s.slew.levelB) ∨ (a = s.slew.levelA ∧ b ≠ s.slew.levelB)) :
    counted a b z s = takeCount (if a = s.slew.levelA then b == a else a != b) (sensed a b z s) := by
  have notBoth : ¬(a ≠ s.slew.levelA ∧ b ≠ s.slew.levelB) := by
    rcases one with ⟨-, same⟩ | ⟨same, -⟩ <;> simp [same]
  rw [counted, if_neg notBoth, if_pos (one.imp And.left And.right), phaseOf_forward _ _ _ _ one]

/-! ## A count: the position, the sector, the pacing (R40) -/

/-- The sector follows a count while the slew is referenced. -/
def tracked (s : State) : State := if s.slew.referenced then trackSector s else s

/-- A count moves P. -/
def moved (up : Bool) (s : State) : State := s.modSlew fun w => { w with p := countedPosition up s.modulus w.p }

theorem takeCount_eq (up : Bool) (s : State) : takeCount up s = paceCount (tracked (moved up s)) := rfl

theorem trackSector_slew (s : State) : (trackSector s).slew = { s.slew with sector := (trackSector s).slew.sector } := by
  conv_lhs => rw [trackSector_sets, setSector_slew]

theorem tracked_slew (s : State) : (tracked s).slew = { s.slew with sector := (tracked s).slew.sector } := by
  unfold tracked
  split
  · exact trackSector_slew s
  · rfl

/-- Pacing leaves the position and the sector. -/
theorem paceCount_slew (s : State) : (paceCount s).slew = { s.slew with lastPace := (paceCount s).slew.lastPace } := by
  unfold paceCount
  dsimp only
  split
  · simp [State.modSlew]
  · rfl

end

/-! ## The sectors of a table (R47, R152) -/

/-- Every entry passes the checks at its own index (R150). -/
theorem entryFailures_getElem {α : Type} {checkEntry : Nat → α → Option Failure} {l : List α}
    (h : entryFailures checkEntry l = none) {i : Nat} (lt : i < l.length) : checkEntry i l[i] = none :=
  (firstFailure_eq_none_iff _).mp h _ (List.mem_mapIdx.mpr ⟨i, lt, rfl⟩)

theorem TableSet.startOf_eq (t : TableSet) {i : Nat} (lt : i < t.sectors.length) : t.startOf i = t.sectors[i].start.toNat := by
  rw [startOf, List.getD_eq_getElem _ _ lt]

namespace SetValid

variable {t : TableSet} (h : SetValid t)
include h

theorem startOf_lt_succ {i : Nat} (lt : i + 1 < t.sectors.length) : t.startOf i < t.startOf (i + 1) := by
  have entries : entryFailures (checkSector t) t.sectors = none :=
    (firstFailure_eq_none_iff _).mp h.sectorsChecked _ (by simp)
  have ordered := failUnless_eq_none_iff.mp
    ((firstFailure_eq_none_iff _).mp (entryFailures_getElem entries lt) _ (List.mem_cons_of_mem _ List.mem_cons_self))
  rw [t.startOf_eq lt]
  simpa using ordered

theorem startOf_mono {i j : Nat} (le : i ≤ j) (lt : j < t.sectors.length) : t.startOf i ≤ t.startOf j := by
  induction j, le using Nat.le_induction with
  | base => exact Nat.le_refl _
  | succ j _ ih => exact (ih (by omega)).trans (h.startOf_lt_succ lt).le

end SetValid

/-- In a list where a predicate, once false, stays false, the filtered elements are the first ones. -/
theorem lt_length_filter_iff {α : Type} {p : α → Bool} {l : List α} (falls : l.Pairwise fun x y => p y = true → p x = true)
    {i : Nat} (lt : i < l.length) : i < (l.filter p).length ↔ p l[i] = true := by
  induction l generalizing i with
  | nil => exact absurd lt (Nat.not_lt_zero i)
  | cons x rest ih =>
    rw [List.pairwise_cons] at falls
    obtain ⟨first, others⟩ := falls
    cases holds : p x with
    | true =>
      rw [List.filter_cons_of_pos holds]
      cases i with
      | zero => simp [holds]
      | succ i => simpa using ih others (by simpa using lt)
    | false =>
      have none : rest.filter p = [] := List.filter_eq_nil_iff.mpr fun y mem later => by
        simp [first y mem later] at holds
      have fails : ¬p (x :: rest)[i] = true := fun later => by
        rcases List.mem_cons.mp (List.getElem_mem lt) with is | mem
        · exact absurd (is ▸ later) (by simp [holds])
        · exact absurd (first _ mem later) (by simp [holds])
      rw [List.filter_cons_of_neg (by simp [holds]), none]
      exact iff_of_false (Nat.not_lt_zero i) fails

/-- The sectors that start at or below a position are the first ones. -/
theorem SetValid.lt_started_iff {t : TableSet} (h : SetValid t) (p : Nat) {i : Nat} (lt : i < t.sectors.length) :
    i < (t.sectors.filter fun e => decide (e.start.toNat ≤ p)).length ↔ t.startOf i ≤ p := by
  rw [lt_length_filter_iff ?_ lt, t.startOf_eq lt, decide_eq_true_iff]
  rw [List.pairwise_iff_getElem]
  intro i j lti ltj ij below
  rw [decide_eq_true_iff, ← t.startOf_eq] at below ⊢
  exact (h.startOf_mono ij.le ltj).trans below

/-- The sector of a position is the last that starts at or below it, or the last of all (R47). -/
theorem SetValid.sectorAt_spec {t : TableSet} (h : SetValid t) (p : Nat) :
    (p < t.startOf 0 ∧ t.sectorAt p = t.sectors.length - 1) ∨
      (t.startOf (t.sectorAt p) ≤ p ∧ (∀ j, t.sectorAt p < j → j < t.sectors.length → p < t.startOf j) ∧
        ∀ j, j ≤ t.sectorAt p → t.startOf j ≤ p) := by
  have two := h.two_le_sectors
  have started := fun {i} lt => h.lt_started_iff p (i := i) lt
  have few := List.length_filter_le (fun e : SectorEntry => decide (e.start.toNat ≤ p)) t.sectors
  unfold TableSet.sectorAt
  dsimp only
  generalize (t.sectors.filter fun e => decide (e.start.toNat ≤ p)).length = k at started few ⊢
  split
  · next zero => exact .inl ⟨by have := started (i := 0) (by omega); omega, rfl⟩
  · refine .inr ⟨(started (by omega)).mp (by omega), fun j above lt => ?_, fun j below => (started (by omega)).mp (by omega)⟩
    exact Nat.lt_of_not_le fun le => absurd ((started lt).mpr le) (by omega)

/-! ## Hysteresis (R50) -/

/-- How far a position lies past the boundary that two neighbours share. -/
def TableSet.past (t : TableSet) (i j p : Nat) : Nat :=
  let cpr := t.sectorHeader.cpr.toNat
  let fromNext := (p + cpr - t.startOf j) % cpr
  let fromPrevious := (t.startOf i + cpr - 1 - p) % cpr
  if t.sectors.length = 2 then min fromNext fromPrevious
  else if j = (i + 1) % t.sectors.length then fromNext else fromPrevious

/-- Two sectors are neighbours on the circle. -/
def TableSet.neighbours (t : TableSet) (i j : Nat) : Prop :=
  j = (i + 1) % t.sectors.length ∨ i = (j + 1) % t.sectors.length

/-- The two ways around the circle meet in a table of two sectors only. -/
theorem both_neighbours_iff {n i j : Nat} (two : 2 ≤ n) (lti : i < n) (next : j = (i + 1) % n) : i = (j + 1) % n ↔ n = 2 := by
  rcases Nat.lt_or_ge (i + 1) n with inside | last
  · rw [Nat.mod_eq_of_lt inside] at next
    subst next
    rcases Nat.lt_or_ge (i + 1 + 1) n with inside | last
    · rw [Nat.mod_eq_of_lt inside]
      omega
    · rw [show i + 1 + 1 = n by omega, Nat.mod_self]
      omega
  · rw [show i + 1 = n by omega, Nat.mod_self] at next
    rw [next, Nat.mod_eq_of_lt (by omega)]
    omega

theorem TableSet.distancePast_eq (t : TableSet) {i j : Nat} (p : Nat) (two : 2 ≤ t.sectors.length)
    (lti : i < t.sectors.length) (ltj : j < t.sectors.length) :
    (t.neighbours i j → t.distancePast i j p = some (t.past i j p)) ∧ (¬t.neighbours i j → t.distancePast i j p = none) := by
  unfold distancePast neighbours past
  dsimp only
  constructor
  · intro neighbours
    by_cases next : j = (i + 1) % t.sectors.length
    · have both := both_neighbours_iff two lti next
      rw [if_pos next, if_congr both rfl rfl, if_pos next]
      split <;> rfl
    · have previous := neighbours.resolve_left next
      have many : t.sectors.length ≠ 2 := mt (both_neighbours_iff two ltj previous).mpr next
      rw [if_neg next, if_pos previous, if_neg many, if_neg next]
  · intro apart
    rw [if_neg fun next => apart (.inl next), if_neg fun previous => apart (.inr previous)]

/-- The sector after a count on a referenced slew. -/
theorem trackSector_sector {s : State} {t : TableSet} {i : Nat} (active : s.active = some t) (current : s.slew.sector = some i)
    (two : 2 ≤ t.sectors.length) (lt : i < t.sectors.length) :
    let j := t.sectorAt s.slew.p
    (trackSector s).slew.sector =
      some (if j ≠ i ∧ (j = (i + 1) % t.sectors.length ∨ i = (j + 1) % t.sectors.length) ∧
        t.sectorHeader.hysteresis.toNat ≤ t.past i j s.slew.p then j else i) := by
  intro j
  obtain ⟨near, far⟩ := t.distancePast_eq s.slew.p two lt (TableSet.sectorAt_lt (by omega) s.slew.p)
  unfold trackSector
  rw [active, current]
  dsimp only
  by_cases same : j = i
  · rw [if_pos same, if_neg fun moves => moves.1 same, current]
  · rw [if_neg same]
    by_cases neighbours : t.neighbours i j
    · rw [near neighbours]
      dsimp only
      by_cases past : t.sectorHeader.hysteresis.toNat ≤ t.past i j s.slew.p
      · rw [if_pos past, if_pos ⟨same, neighbours, past⟩, setSector_sector]
      · rw [if_neg past, if_neg fun moves => past moves.2.2, current]
    · rw [far neighbours, if_neg fun moves => neighbours moves.2.1]
      exact current

/-- Settles O25: the starts rise, so the map is the last start at or below; and tracking moves past the shared boundary only. -/
theorem sectorFollowsWithHysteresis : Obligations.SectorFollowsWithHysteresis := by
  refine ⟨fun set p valid _ => ⟨valid.sectorAt_lt p, valid.sectorAt_spec p⟩, ?_⟩
  intro a b z set i s running active valid referenced current lt _ one index
  refine ⟨counted a b z s, exec_observation_without_index running index, ?_⟩
  rw [counted_of_one one, takeCount_eq]
  generalize hs : moved _ (sensed a b z s) = u
  have active' : u.active = some set := hs ▸ active
  have current' : u.slew.sector = some i := hs ▸ current
  have tracks : tracked u = trackSector u := if_pos (hs ▸ referenced)
  have position : (paceCount (trackSector u)).slew.p = u.slew.p := by
    rw [paceCount_slew, trackSector_slew]
  have sector : (paceCount (trackSector u)).slew.sector = (trackSector u).slew.sector := by
    rw [paceCount_slew]
  rw [tracks, position, sector]
  exact trackSector_sector active' current' valid.two_le_sectors lt

end Sys2Proof.Machine
end

