-- ==== Sys2Proof/Proofs/SectorChange.lean ====
section
/-! PROOFS. What a change of the current sector does to the rest of the state: supervision evaluates, the lift controller notes
it, and trace capture may take it. -/

namespace Sys2Proof.Machine

-- One theorem after another: side by side, so many small ones need more threads than the memory limit admits.
set_option Elab.async false

/-! ## Raised conditions (R170) -/

theorem State.raised_raise (c k : Condition) (s : State) : (s.raise c).raised k = (s.raised k || decide (c.bit = k.bit)) := by
  have inside := c.bit_lt
  unfold State.raised State.raise
  rw [BitVec.getLsbD_or, BitVec.getLsbD_twoPow, decide_eq_true (show c.bit < 32 by omega), Bool.true_and]

theorem State.raised_raise_same (c : Condition) (s : State) : (s.raise c).raised c = true := by
  rw [State.raised_raise, decide_eq_true rfl, Bool.or_true]

/-! ## What an evaluation and a capture reach (R119, R178) -/

/-- From one state to another the events of a changed sector were taken: of the lift controller only the noted sector and the
open lift changed, the notices raised are supervision's, no condition was cleared and SLEW_SUSPECT not raised, and the
trace is configured as before. -/
structure Heeded (s t : State) : Prop where
  lift : t.lift = { s.lift with notedSector := t.lift.notedSector, openLift := t.lift.openLift }
  notices : ∃ kinds, Notifies kinds s t ∧ NoticeKind.slewSuspect ∉ kinds
  raised : ∀ k : Condition, s.raised k = true → t.raised k = true
  suspect : t.raised .slewSuspect = s.raised .slewSuspect
  config : t.trace.config = s.trace.config

namespace Heeded

variable {r s t : State}

theorem refl (s : State) : Heeded s s := ⟨rfl, ⟨[], .refl s, List.not_mem_nil⟩, fun _ h => h, rfl, rfl⟩

theorem trans (h : Heeded r s) (g : Heeded s t) : Heeded r t := by
  obtain ⟨lift, ⟨kinds, told, others⟩, raised, suspect, config⟩ := h
  obtain ⟨lift', ⟨kinds', told', others'⟩, raised', suspect', config'⟩ := g
  refine ⟨?_, ⟨kinds ++ kinds', told.trans told', ?_⟩, fun k => raised' k ∘ raised k, suspect'.trans suspect, config'.trans config⟩
  · rw [lift', lift]
  · simp [others, others']

/-- A step that gives no signal. -/
theorem same (h : Heeded r s)
    (lift : t.lift = { s.lift with notedSector := t.lift.notedSector, openLift := t.lift.openLift } := by simp)
    (cab : t.cab = s.cab := by simp) (notices : t.notices = s.notices := by simp)
    (conditions : t.conditions = s.conditions := by simp) (config : t.trace.config = s.trace.config := by simp) :
    Heeded r t := by
  refine h.trans ⟨lift, ⟨[], (Notifies.refl s).same cab notices, List.not_mem_nil⟩, fun k raised => ?_, ?_, config⟩
  · unfold State.raised at raised ⊢
    rwa [conditions]
  · unfold State.raised
    rw [conditions]

theorem raise (h : Heeded r s) (c : Condition) (other : c.bit ≠ Condition.slewSuspect.bit) : Heeded r (s.raise c) := by
  refine h.trans ⟨rfl, ⟨[], (Notifies.refl s).same rfl rfl, List.not_mem_nil⟩, fun k raised => ?_, ?_, rfl⟩
  · rw [State.raised_raise, raised, Bool.true_or]
  · rw [State.raised_raise, decide_eq_false other, Bool.or_false]

theorem notify (h : Heeded r s) {k : NoticeKind} (other : k ≠ .slewSuspect) : Heeded r (s.notify k) := by
  refine h.trans ⟨by simp, ⟨[k], (Notifies.refl s).notify k, by simpa using other.symm⟩, fun c raised => ?_, ?_, by simp⟩
  · unfold State.raised at raised ⊢
    simpa using raised
  · simp [State.raised]

theorem capture (h : Heeded r s) (event : ClockEvent) : Heeded r (capture event s) := by
  have written : ∀ kept, Heeded r (writeBlock event kept s) := fun _ => h.same rfl rfl rfl rfl rfl
  unfold Machine.capture
  dsimp only
  split
  · exact written _
  · split
    · exact raise (h.same (t := { s with trace := { s.trace with state := .full } }) rfl rfl rfl rfl rfl) .traceOverflow (by decide)
    · exact (written _).raise .traceOverflow (by decide)

theorem clockEvent (h : Heeded r s) (event : ClockEvent) : Heeded r (clockEvent event s) := by
  unfold Machine.clockEvent
  split
  · split
    · exact capture (h.same (t := { s with trace := { s.trace with dividerCount := 0 } }) rfl rfl rfl rfl rfl) event
    · exact h.same rfl rfl rfl rfl rfl
  · exact h

theorem computeFigures (h : Heeded r s) : Heeded r (computeFigures s) := by
  unfold Machine.computeFigures
  split
  · exact h
  · rename_i set _
    have raised : Heeded r (if 160 < tiltOf set s then s.raise .tiltHigh else s) := by
      split
      · exact h.raise _ (by decide)
      · exact h
    dsimp only
    generalize (if 160 < tiltOf set s then s.raise .tiltHigh else s) = u at raised ⊢
    split
    · exact raised.same rfl rfl rfl rfl rfl
    · exact raised.same rfl rfl rfl rfl rfl

theorem notifyAll (h : Heeded r s) {kinds : List NoticeKind} (others : .slewSuspect ∉ kinds) :
    Heeded r (kinds.foldl (fun s kind => s.notify kind) s) := by
  induction kinds generalizing s with
  | nil => exact h
  | cons kind kinds ih =>
    rw [List.mem_cons, not_or] at others
    exact ih (h.notify (Ne.symm others.1)) others.2

/-- Tracking changes the open lift only (R127). -/
theorem trackChange (h : Heeded r s) (state : SupState) : Heeded r (trackChange state s) := by
  unfold Machine.trackChange
  split
  · exact h.same rfl rfl rfl rfl rfl
  · exact h

theorem trackPeak (h : Heeded r s) : Heeded r (trackPeak s) := by
  unfold Machine.trackPeak
  split
  · exact h.same rfl rfl rfl rfl rfl
  · exact h

theorem changeState (h : Heeded r s) (now : SupState) : Heeded r (changeState now s) := by
  have others : NoticeKind.slewSuspect ∉ stateNotices s.sup.state now := by simp [mem_stateNotices]
  have entered : Heeded r { s with sup := { s.sup with state := now } } := h.same rfl rfl rfl rfl rfl
  have told := entered.notifyAll others
  have alerted : Heeded r (setAlert now ((stateNotices s.sup.state now).foldl (fun s kind => s.notify kind)
      { s with sup := { s.sup with state := now } })) := told.same rfl rfl rfl rfl rfl
  unfold Machine.changeState
  split
  · exact h
  · exact (alerted.trackChange now).clockEvent (.supChange now)

theorem evaluate (h : Heeded r s) : Heeded r (evaluate s) := (h.computeFigures.changeState _).trackPeak

theorem setSector (h : Heeded r s) (sector : Option Nat) : Heeded r (setSector sector s) := by
  have supervised : ∀ {u}, Heeded r u → Heeded r (supSectorChange sector u) := fun h =>
    evaluate (h.same rfl rfl rfl rfl rfl)
  have noted : Heeded r (State.choose 2 (liftSectorChange sector (s.modSlew fun w => { w with sector := sector }))).2 :=
    h.same rfl rfl rfl rfl rfl
  unfold Machine.setSector sectorEvent
  dsimp only
  split
  · exact h
  · split
    · exact (supervised noted).clockEvent _
    · exact supervised (noted.clockEvent _)

theorem onlyNoticesSent (h : Heeded s t) : OnlyNoticesSent s t := by
  obtain ⟨kinds, told, -⟩ := h.notices
  exact ⟨_, told⟩

end Heeded

/-! ## What a change of the sector leaves as it was -/

theorem setSector_frame (sector : Option Nat) (s : State) :
    let t := setSector sector s
    t = { s with slew := t.slew, choices := t.choices, lift := t.lift, sup := t.sup, notices := t.notices, cab := t.cab,
                 conditions := t.conditions, trace := t.trace } := by
  have keeps := setSector_keeps sector s
  generalize setSector sector s = t at keeps
  obtain ⟨pending, inReset, clock, strap, station, crane, intake, queue, tally, active, staging, mgmt⟩ := keeps
  rw [← pending, ← inReset, ← clock, ← strap, ← station, ← crane, ← intake, ← queue, ← tally, ← active, ← staging, ← mgmt]

/-- From one state to another only what a change of the sector reaches has changed: the slew counter, an order chosen, the noted
sector and the open lift, supervision, notices with the cab port, conditions and the trace. -/
def SlewFrame (s t : State) : Prop :=
  t = { s with slew := t.slew, choices := t.choices, lift := t.lift, sup := t.sup, notices := t.notices, cab := t.cab,
               conditions := t.conditions, trace := t.trace } ∧
    t.lift = { s.lift with notedSector := t.lift.notedSector, openLift := t.lift.openLift } ∧ OnlyNoticesSent s t

theorem heeded_setSector (sector : Option Nat) (s : State) : Heeded s (setSector sector s) := (Heeded.refl s).setSector sector

theorem slewFrame_setSector (sector : Option Nat) (s : State) : SlewFrame s (setSector sector s) :=
  ⟨setSector_frame sector s, (heeded_setSector sector s).lift, (heeded_setSector sector s).onlyNoticesSent⟩

theorem setSector_same {sector : Option Nat} {s : State} (same : sector = s.slew.sector) : setSector sector s = s := if_pos same

theorem setSector_noted_of_ne {sector : Option Nat} {s : State} (new : sector ≠ s.slew.sector) :
    (setSector sector s).lift.notedSector = sector := (setSector_noted sector s).trans (if_neg new)

theorem setSector_sup_sector_of_ne {sector : Option Nat} {s : State} (new : sector ≠ s.slew.sector) :
    (setSector sector s).sup.sector = sector := (setSector_sup_sector sector s).trans (if_neg new)

/-! ## A count error (R41) -/

/-- The slew without its reference, before the sector is taken from it. -/
def unreferenced (s : State) : State :=
  (s.raise .slewCountError).modSlew fun w => { w with referenced := false, lastPace := none }

theorem countError_eq (s : State) : countError s = setSector none (unreferenced s) := rfl

theorem countError_slew (s : State) :
    (countError s).slew = { s.slew with referenced := false, sector := none, lastPace := none } := by
  rw [countError_eq, setSector_slew]
  rfl

theorem countError_raised (s : State) : (countError s).raised .slewCountError = true :=
  (heeded_setSector none (unreferenced s)).raised .slewCountError (State.raised_raise_same .slewCountError s)

end Sys2Proof.Machine
end

