-- ==== Sys2Proof/Proofs/Counting.lean ====
section
/-! PROOFS. A count, a count error, and the pacing that follows a count (O23). -/

namespace Sys2Proof.Machine

-- One theorem after another: side by side, so many small ones need more threads than the memory limit admits.
set_option Elab.async false

/-! ## The sector after a count (R48, R51) -/

/-- Tracking sets the sector that it leaves, on a referenced slew and on one without a reference. -/
theorem tracked_sets (s : State) : tracked s = setSector (tracked s).slew.sector s := by
  unfold tracked
  split
  · exact trackSector_sets s
  · exact (if_pos rfl : setSector s.slew.sector s = s).symm

theorem tracked_becomes (s : State) : SectorBecomes (tracked s).slew.sector s (tracked s) := by
  have becomes := setSector_becomes (tracked s).slew.sector s
  rwa [← tracked_sets] at becomes

theorem slewFrame_tracked (s : State) : SlewFrame s (tracked s) := by
  rw [tracked_sets]
  exact slewFrame_setSector _ s

/-- A slew without a reference, and a count inside the sector, leave everything but the position. -/
theorem tracked_of_kept {s : State} (kept : s.slew.referenced = false ∨ (tracked s).slew.sector = s.slew.sector) :
    tracked s = s := by
  rcases kept with unreferenced | same
  · rw [tracked, unreferenced, if_neg Bool.false_ne_true]
  · rw [tracked_sets, setSector_same same]

/-! ## Pacing (R52, R53, R56) -/

theorem paceCount_of_pace {s : State} {p : Nat} {c : Pacing} (position : s.slew.p = p) (config : s.trace.config.pacing = c)
    (paces : p % c.interval = 0 ∧ c.inside s.modulus p = true ∧ ¬(c.deglitch = true ∧ s.slew.lastPace = some p)) :
    paceCount s = clockEvent (.slewPace p) { s with slew := { s.slew with lastPace := some p } } := by
  subst position config
  exact if_pos paces

theorem paceCount_of_no_pace {s : State} {p : Nat} {c : Pacing} (position : s.slew.p = p) (config : s.trace.config.pacing = c)
    (silent : ¬(p % c.interval = 0 ∧ c.inside s.modulus p = true ∧ ¬(c.deglitch = true ∧ s.slew.lastPace = some p))) :
    paceCount s = s := by
  subst position config
  exact if_neg silent

/-! ## A count (R40) -/

/-- The window test is made with the modulus and the configuration that the change of sector left as they were. -/
theorem paceCount_tracked {s : State} {p : Nat} (position : s.slew.p = p) {paces : Prop}
    (is : paces ↔ p % s.trace.config.pacing.interval = 0 ∧ s.trace.config.pacing.inside s.modulus p = true ∧
      ¬(s.trace.config.pacing.deglitch = true ∧ s.slew.lastPace = some p)) :
    (paces → paceCount (tracked s) =
      clockEvent (.slewPace p) { tracked s with slew := { (tracked s).slew with lastPace := some p } }) ∧
    (¬paces → paceCount (tracked s) = tracked s) := by
  have slew := tracked_slew s
  have modulus : (tracked s).modulus = s.modulus := by
    unfold State.modulus
    rw [tracked_sets, (setSector_frame _ s)]
  have config : (tracked s).trace.config = s.trace.config := by
    rw [tracked_sets]
    exact (heeded_setSector _ s).config
  have position' : (tracked s).slew.p = p := by rw [slew, ← position]
  have last : (tracked s).slew.lastPace = s.slew.lastPace := by rw [slew]
  rw [← config, ← modulus, ← last] at is
  exact ⟨fun h => paceCount_of_pace position' rfl (is.mp h), fun h => paceCount_of_no_pace position' rfl (mt is.mpr h)⟩

/-- Settles O23: a count error takes the sector away, a count tracks it and then paces at the position it leaves. -/
theorem encoderCounts : Obligations.EncoderCounts := by
  intro a b z s running index old seen framed
  have answer := exec_observation_without_index running index
  refine ⟨fun ⟨sameA, sameB⟩ => ?_, fun ⟨newA, newB⟩ => ?_, fun one => ?_⟩
  · rw [answer, counted_of_same sameA sameB]
    rfl
  · refine ⟨countError (sensed a b z s), by rw [answer, counted_of_both newA newB],
      slewFrame_setSector none (unreferenced (sensed a b z s)), countError_slew _, countError_raised _,
      setSector_becomes none (unreferenced (sensed a b z s)), fun unknown => ?_, fun known => ⟨?_, ?_⟩⟩
    · rw [countError_eq, setSector_same (s := unreferenced (sensed a b z s)) unknown.symm]
      rfl
    · exact setSector_noted_of_ne (s := unreferenced (sensed a b z s)) known.symm
    · exact setSector_sup_sector_of_ne (s := unreferenced (sensed a b z s)) known.symm
  · intro up p pacing inside
    rw [answer, counted_of_one one, takeCount_eq]
    obtain ⟨paces, silent⟩ := paceCount_tracked (s := moved up (sensed a b z s)) (p := p) rfl
      (and_congr_right' (and_congr_left' (Pacing.inside_iff pacing s.modulus p).symm))
    exact ⟨tracked (moved up (sensed a b z s)), slewFrame_tracked _, tracked_slew _, tracked_becomes _, tracked_of_kept (s := moved up (sensed a b z s)),
      fun h => congrArg _ (paces h), fun h => congrArg _ (silent h)⟩

end Sys2Proof.Machine
end

