-- ==== Sys2Proof/Proofs/Index.lean ====
section
/-! PROOFS. A qualified index: the position, the drift, the sector, and the count that the same observation takes first (O24). -/

namespace Sys2Proof.Machine

-- One theorem after another: side by side, so many small ones need more threads than the memory limit admits.
set_option Elab.async false

/-! ## The levels are read by nothing but the count -/

section
variable (a b z : Bool) (s : State)

theorem attemptNotice_sensed : attemptNotice (sensed a b z s) = sensed a b z (attemptNotice s) := by
  have offered : (sensed a b z s).offer .cab (noticeFrame s) = sensed a b z (s.offer .cab (noticeFrame s)) := by
    unfold State.offer
    rw [apply_ite (sensed a b z)]
    rfl
  unfold attemptNotice
  rw [apply_ite (sensed a b z)]
  change (if _ then { (sensed a b z s).offer .cab (noticeFrame s) with notices := 0 } else _) = _
  rw [offered]
  rfl

theorem notify_sensed (k : NoticeKind) : (sensed a b z s).notify k = sensed a b z (s.notify k) :=
  attemptNotice_sensed a b z (s.markPending k)

theorem notifyAll_sensed (kinds : List NoticeKind) :
    kinds.foldl (fun s k => s.notify k) (sensed a b z s) = sensed a b z (kinds.foldl (fun s k => s.notify k) s) := by
  induction kinds generalizing s with
  | nil => rfl
  | cons k rest ih => rw [List.foldl_cons, List.foldl_cons, notify_sensed, ih]

theorem capture_sensed (event : ClockEvent) : capture event (sensed a b z s) = sensed a b z (capture event s) := by
  unfold capture
  dsimp only
  rw [apply_ite (sensed a b z)]
  refine congrArg _ ?_
  cases mode : s.trace.config.mode
  all_goals
    rw [show (sensed a b z s).trace.config.mode = _ from mode]
    rfl

theorem clockEvent_sensed (event : ClockEvent) : clockEvent event (sensed a b z s) = sensed a b z (clockEvent event s) := by
  unfold clockEvent
  rw [apply_ite (sensed a b z), apply_ite (sensed a b z), ← capture_sensed]
  rfl

theorem computeFigures_sensed : computeFigures (sensed a b z s) = sensed a b z (computeFigures s) := by
  unfold computeFigures
  rw [show (sensed a b z s).active = s.active from rfl]
  cases s.active with
  | none => rfl
  | some set =>
    have raised : (if 160 < tiltOf set (sensed a b z s) then (sensed a b z s).raise .tiltHigh else sensed a b z s) =
        sensed a b z (if 160 < tiltOf set s then s.raise .tiltHigh else s) := by
      rw [apply_ite (sensed a b z)]
      rfl
    dsimp only
    rw [raised]
    generalize (if 160 < tiltOf set s then s.raise .tiltHigh else s) = u
    rw [apply_ite (sensed a b z)]
    rfl

theorem setAlert_sensed (state : SupState) : setAlert state (sensed a b z s) = sensed a b z (setAlert state s) := rfl

theorem trackChange_sensed (state : SupState) : trackChange state (sensed a b z s) = sensed a b z (trackChange state s) := by
  unfold trackChange
  rw [apply_ite (sensed a b z)]
  rfl

theorem trackPeak_sensed : trackPeak (sensed a b z s) = sensed a b z (trackPeak s) := by
  unfold trackPeak
  rw [apply_ite (sensed a b z)]
  rfl

theorem changeState_sensed (now : SupState) : changeState now (sensed a b z s) = sensed a b z (changeState now s) := by
  unfold changeState
  rw [apply_ite (sensed a b z)]
  dsimp only
  rw [← clockEvent_sensed, ← trackChange_sensed, ← setAlert_sensed, ← notifyAll_sensed]
  rfl

theorem evaluate_sensed : evaluate (sensed a b z s) = sensed a b z (evaluate s) := by
  unfold evaluate
  dsimp only
  rw [computeFigures_sensed, ← trackPeak_sensed, ← changeState_sensed]
  rfl

theorem supSectorChange_sensed (sector : Option Nat) :
    supSectorChange sector (sensed a b z s) = sensed a b z (supSectorChange sector s) :=
  evaluate_sensed a b z { s with sup := { s.sup with sector := sector } }

theorem setSector_sensed (sector : Option Nat) : setSector sector (sensed a b z s) = sensed a b z (setSector sector s) := by
  unfold setSector sectorEvent
  dsimp only
  rw [apply_ite (sensed a b z), apply_ite (sensed a b z), ← clockEvent_sensed, ← supSectorChange_sensed,
    ← supSectorChange_sensed, ← clockEvent_sensed]
  rfl

/-! ## The count of the same observation (R40, R41) -/

theorem trackSector_sensed : trackSector (sensed a b z s) = sensed a b z (trackSector s) := by
  unfold trackSector
  rw [show (sensed a b z s).active = s.active from rfl, show (sensed a b z s).slew.sector = s.slew.sector from rfl]
  cases s.active with
  | none => rfl
  | some set =>
    cases s.slew.sector with
    | none => rfl
    | some i =>
      dsimp only
      rw [apply_ite (sensed a b z)]
      refine congrArg _ ?_
      rw [show (sensed a b z s).slew.p = s.slew.p from rfl]
      cases set.distancePast i (set.sectorAt s.slew.p) s.slew.p with
      | none => rfl
      | some d =>
        dsimp only
        rw [setSector_sensed]
        exact (apply_ite (sensed a b z) _ _ _).symm

theorem tracked_sensed : tracked (sensed a b z s) = sensed a b z (tracked s) := by
  unfold tracked
  rw [trackSector_sensed]
  exact (apply_ite (sensed a b z) _ _ _).symm

theorem paceCount_sensed : paceCount (sensed a b z s) = sensed a b z (paceCount s) := by
  unfold paceCount
  dsimp only
  rw [apply_ite (sensed a b z), ← clockEvent_sensed]
  rfl

theorem takeCount_sensed (up : Bool) : takeCount up (sensed a b z s) = sensed a b z (takeCount up s) := by
  rw [takeCount_eq, takeCount_eq, ← paceCount_sensed, ← tracked_sensed]
  rfl

theorem countError_sensed : countError (sensed a b z s) = sensed a b z (countError s) :=
  setSector_sensed a b z (unreferenced s) none

/-- The count is the same whatever Z is, and leaves the levels as they were observed. -/
theorem sensed_counted (seen : Bool) : sensed a b z (counted a b seen s) = counted a b z s := by
  unfold counted
  rw [apply_ite (sensed a b z), apply_ite (sensed a b z), ← countError_sensed, ← takeCount_sensed]
  rfl

theorem counted_slew : (counted a b z s).slew =
    { (counted a b z s).slew with levelA := a, levelB := b, levelZ := z, indexHeld := z && a && b } :=
  congrArg State.slew (sensed_counted a b z s z).symm

end

/-- An observation without Z counts and takes no index. -/
theorem observe_without_z (a b : Bool) (s : State) : observe a b false s = counted a b false s := rfl

/-- The index that begins at an observation is taken on what its count leaves. -/
theorem exec_observation_with_index_of_counted {s : State} (running : s.inReset = false) (begins : s.slew.indexHeld = false) :
    exec (.encoderObservation true true true) s =
      exec (.encoderObservation true true true) (counted true true false s) := by
  have slew := counted_slew true true false s
  have running' : (counted true true false s).inReset = false := by
    rw [← observe_without_z]
    simpa using running
  have again : counted true true true (counted true true false s) = counted true true true s := by
    rw [counted_of_same (by rw [slew]) (by rw [slew]), sensed_counted]
  rw [exec_observation_with_index running begins, exec_observation_with_index running' (by rw [slew]; rfl), again]

/-! ## The index with a table set active (R44, R45) -/

/-- SLEW_SUSPECT as condition and notice, when the drift is suspect (R44). -/
def marked (suspect : Prop) [Decidable suspect] (s : State) : State :=
  if suspect then (s.raise .slewSuspect).notify .slewSuspect else s

/-- The position and the reference that an index sets. -/
def placed (offset : Nat) (drift : Int) (s : State) : State :=
  s.modSlew fun w => { w with p := offset, referenced := true, lastDrift := drift, lastPace := none }

theorem indexReferenced_eq (set : TableSet) (s : State) :
    let offset := set.sectorHeader.indexOffset.toNat
    let drift := wrappedDrift set.sectorHeader.cpr.toNat s.slew.p offset
    indexReferenced set s = setSector (some (set.sectorAt offset)) (placed offset drift
      (marked (s.slew.referenced = true ∧ set.sectorHeader.driftLimit.toNat < drift.natAbs) s)) := rfl

section
variable (suspect : Prop) [Decidable suspect] (s : State)

theorem marked_slew : (marked suspect s).slew = s.slew := by
  unfold marked
  split <;> simp

theorem marked_sensed (a b z : Bool) : marked suspect (sensed a b z s) = sensed a b z (marked suspect s) := by
  unfold marked
  rw [apply_ite (sensed a b z), ← notify_sensed]
  rfl

theorem marked_suspect : (marked suspect s).raised .slewSuspect = (s.raised .slewSuspect || decide suspect) := by
  unfold marked
  split
  · next holds =>
    rw [decide_eq_true holds, Bool.or_true, ← State.raised_raise_same .slewSuspect s]
    simp [State.raised]
  · next fails => rw [decide_eq_false fails, Bool.or_false]

theorem marked_raised (k : Condition) (h : s.raised k = true) : (marked suspect s).raised k = true := by
  unfold marked
  split
  · have raised : (s.raise .slewSuspect).raised k = true := by rw [State.raised_raise, h, Bool.true_or]
    rw [← raised]
    simp [State.raised]
  · exact h

theorem notifies_marked : Notifies (if suspect then [.slewSuspect] else []) s (marked suspect s) := by
  unfold marked
  split
  · exact Notifies.notify (kinds := []) (s := s.raise .slewSuspect) ((Notifies.refl s).same rfl rfl) .slewSuspect
  · exact .refl s

end

/-- The drift is the distance from the index offset, some turns away, and less than half a turn (R44). -/
theorem wrappedDrift_spec {cpr : Nat} (pos : 0 < cpr) (p offset : Nat) :
    (∃ turns : Int, wrappedDrift cpr p offset = (p : Int) - offset + turns * cpr) ∧
      -((cpr : Int) / 2) ≤ wrappedDrift cpr p offset ∧ wrappedDrift cpr p offset ≤ (cpr : Int) - (cpr : Int) / 2 - 1 := by
  have half : ((cpr / 2 : Nat) : Int) = (cpr : Int) / 2 := by simp
  have low := Int.emod_nonneg ((p : Int) - offset + (cpr / 2 : Nat)) (b := cpr) (by omega)
  have high := Int.emod_lt_of_pos ((p : Int) - offset + (cpr / 2 : Nat)) (b := cpr) (by omega)
  have turn := Int.emod_add_mul_ediv ((p : Int) - offset + (cpr / 2 : Nat)) cpr
  unfold wrappedDrift
  refine ⟨⟨-(((p : Int) - offset + (cpr / 2 : Nat)) / cpr), ?_⟩, by omega, by omega⟩
  rw [Int.neg_mul, Int.mul_comm]
  omega

/-- High levels seen again change Z and the index condition only. -/
theorem sensed_of_high {s : State} (highA : s.slew.levelA = true) (highB : s.slew.levelB = true) :
    sensed true true true s = { s with slew := { s.slew with levelZ := true, indexHeld := true } } := by
  have levels : ∀ w : Slew, w.levelA = true → w.levelB = true →
      { w with levelA := true, levelB := true, levelZ := true, indexHeld := true } = { w with levelZ := true, indexHeld := true } := by
    rintro ⟨⟩ rfl rfl
    rfl
  exact congrArg (fun slew => { s with slew }) (levels s.slew highA highB)

/-- An index that begins with the levels high already. -/
theorem exec_index_alone {s : State} (running : s.inReset = false) (highA : s.slew.levelA = true) (highB : s.slew.levelB = true)
    (begins : s.slew.indexHeld = false) :
    exec (.encoderObservation true true true) s = .next (takeIndex (sensed true true true s)) := by
  rw [exec_observation_with_index running begins, counted_of_same highA.symm highB.symm]

/-- A drift beyond the limit on a referenced slew (R44). -/
abbrev driftIsSuspect (set : TableSet) (drift : Int) (s : State) : Prop :=
  s.slew.referenced = true ∧ set.sectorHeader.driftLimit.toNat < drift.natAbs

/-- What an index has set before the sector follows: the mark of a suspect drift, the levels, the position and the reference. -/
def indexed (set : TableSet) (drift : Int) (s : State) : State :=
  placed set.sectorHeader.indexOffset.toNat drift (sensed true true true (marked (driftIsSuspect set drift s) s))

section
variable {s : State} {set : TableSet} {drift : Int}

theorem indexed_slew (highA : s.slew.levelA = true) (highB : s.slew.levelB = true) :
    (indexed set drift s).slew = { s.slew with
      levelZ := true, indexHeld := true, p := set.sectorHeader.indexOffset.toNat, referenced := true, lastDrift := drift,
      lastPace := none } := by
  have slew := marked_slew (driftIsSuspect set drift s) s
  unfold indexed
  generalize marked (driftIsSuspect set drift s) s = u at slew
  rw [← slew] at highA highB
  rw [sensed_of_high highA highB, ← slew]
  rfl

/-- An index that begins with the levels high already sets the position and lets the sector follow. -/
theorem exec_index_alone_of_active (running : s.inReset = false) (highA : s.slew.levelA = true) (highB : s.slew.levelB = true)
    (begins : s.slew.indexHeld = false) (active : s.active = some set)
    (drifted : wrappedDrift set.sectorHeader.cpr.toNat s.slew.p set.sectorHeader.indexOffset.toNat = drift) :
    exec (.encoderObservation true true true) s =
      .next (setSector (some (set.sectorAt set.sectorHeader.indexOffset.toNat)) (indexed set drift s)) := by
  subst drifted
  rw [exec_index_alone running highA highB begins, takeIndex, show (sensed true true true s).active = some set from active]
  dsimp only
  rw [indexReferenced_eq, marked_sensed]
  rfl

/-- What the index raises: SLEW_SUSPECT for a suspect drift, and what the changed sector raises. -/
theorem indexed_raises (sector : Option Nat) :
    ∃ raised, NoticesRaised raised s (setSector sector (indexed set drift s)) ∧
      (raised .slewSuspect ↔ driftIsSuspect set drift s) := by
  have told := notifies_marked (driftIsSuspect set drift s) s
  obtain ⟨kinds, follows, others⟩ := (heeded_setSector sector (indexed set drift s)).notices
  have reached : Notifies _ s (indexed set drift s) := told.same rfl rfl
  refine ⟨_, reached.trans follows, ?_⟩
  rw [List.mem_append, or_iff_left others]
  split
  · next suspect => exact iff_of_true List.mem_cons_self suspect
  · next fine => exact iff_of_false List.not_mem_nil fine

theorem indexed_becomes (highA : s.slew.levelA = true) (highB : s.slew.levelB = true) (sector : Option Nat) :
    SectorBecomes sector
      { marked (driftIsSuspect set drift s) s with
        slew := { (setSector sector (indexed set drift s)).slew with sector := s.slew.sector } }
      (setSector sector (indexed set drift s)) := by
  have slew : { (setSector sector (indexed set drift s)).slew with sector := s.slew.sector } = (indexed set drift s).slew := by
    rw [setSector_slew, indexed_slew highA highB]
  rw [slew]
  exact setSector_becomes sector (indexed set drift s)

end

/-- Settles O24: the index is taken on what the count leaves, and without a count it sets the position, the drift and the sector. -/
theorem qualifiedIndexSetsThePosition : Obligations.QualifiedIndexSetsThePosition := by
  refine ⟨fun s running highA highB begins => ⟨fun inactive => ?_, fun set active cpr => ?_⟩, fun s running begins => ?_⟩
  · rw [exec_index_alone running highA highB begins, sensed_of_high highA highB, takeIndex, inactive]
    rfl
  · obtain ⟨⟨turns, turned⟩, low, high⟩ := wrappedDrift_spec (cpr := set.sectorHeader.cpr.toNat)
      (by bv_omega) s.slew.p set.sectorHeader.indexOffset.toNat
    generalize drifted : wrappedDrift set.sectorHeader.cpr.toNat s.slew.p set.sectorHeader.indexOffset.toNat = drift at *
    have answer := exec_index_alone_of_active running highA highB begins active drifted
    have slew := indexed_slew (set := set) (drift := drift) highA highB
    have sector : (indexed set drift s).slew.sector = s.slew.sector := by rw [slew]
    generalize some (set.sectorAt set.sectorHeader.indexOffset.toNat) = place at answer ⊢
    have follows := heeded_setSector place (indexed set drift s)
    obtain ⟨raised, raises, suspect⟩ := indexed_raises (s := s) (set := set) (drift := drift) place
    refine ⟨setSector place (indexed set drift s), drift, turns, raised, answer, turned, low, high, ?_, ?_, ?_, raises,
      suspect, fun k h => follows.raised k (marked_raised _ s k h), fun new => ?_⟩
    · rw [setSector_slew, slew]
    · exact follows.suspect.trans (marked_suspect _ s)
    · exact indexed_becomes highA highB place
    · rw [← sector] at new
      exact ⟨setSector_noted_of_ne new, setSector_sup_sector_of_ne new⟩
  · have slew := counted_slew true true false s
    refine ⟨counted true true false s, exec_observation_without_index running (by simp),
      exec_observation_with_index_of_counted running begins, ?_, by rw [slew], by rw [slew], by rw [slew]; rfl, ?_, ?_⟩
    · rw [← observe_without_z]
      simpa using running
    · rw [← observe_without_z]
      simp
    · rintro ⟨lowA, lowB⟩
      rw [counted_of_both (by simp [lowA]) (by simp [lowB]), countError_slew]
      exact ⟨rfl, rfl, countError_raised _⟩

end Sys2Proof.Machine
end

