-- ==== Sys2Proof/Proofs/LiftOperations.lean ====
section
/-! PROOFS. What each operation of the lift controller does, said once: lift events, the sequence number, samples and the
weigh window (R60 to R75, R83, R90). -/

namespace Sys2Proof.Machine

-- One theorem after another: side by side, so many small ones need more threads than the memory limit admits.
set_option Elab.async false

theorem satAdd_eq_min (cap a b : Nat) : satAdd cap a b = min cap (a + b) := by
  unfold satAdd
  split <;> omega

/-! ## Lift events (R83) -/

section
variable {f : LiftController → LiftController} {s : State}

/-- A LIFT_EVENT reads of the lift controller the last sample mass alone (R175). -/
theorem writeBlock_liftEvent_modLift (mass : (f s.lift).lastSampleMass = s.lift.lastSampleMass) (st : LiftState)
    (kept : List (List TraceElement)) :
    writeBlock (.liftEvent st) kept (s.modLift f) = (writeBlock (.liftEvent st) kept s).modLift f := by
  have values : ∀ number, captureValue (.liftEvent st) number (s.modLift f) = captureValue (.liftEvent st) number s := by
    intro number
    funext element
    cases element <;> simp [captureValue, mass]
  simp only [writeBlock, State.modLift_keeps, values]
  rfl

theorem capture_liftEvent_modLift (mass : (f s.lift).lastSampleMass = s.lift.lastSampleMass) (st : LiftState) :
    capture (.liftEvent st) (s.modLift f) = (capture (.liftEvent st) s).modLift f := by
  have written := writeBlock_liftEvent_modLift mass st
  unfold capture
  dsimp only
  rw [apply_ite (State.modLift f), ← written]
  cases mode : s.trace.config.mode with
  | stopWhenFull =>
    rw [show (s.modLift f).trace.config.mode = _ from mode]
    rfl
  | overwriteOldest =>
    rw [show (s.modLift f).trace.config.mode = _ from mode]
    dsimp only
    rw [written (dropToFit _ _)]
    rfl

theorem clockEvent_liftEvent_modLift (mass : (f s.lift).lastSampleMass = s.lift.lastSampleMass) (st : LiftState) :
    clockEvent (.liftEvent st) (s.modLift f) = (clockEvent (.liftEvent st) s).modLift f := by
  unfold clockEvent
  rw [apply_ite (State.modLift f), apply_ite (State.modLift f),
    ← capture_liftEvent_modLift (s := { s with trace := { s.trace with dividerCount := 0 } }) mass]
  rfl

end

@[simp] theorem enterLiftState_lift (st : LiftState) (s : State) : (enterLiftState st s).lift = { s.lift with state := st } := by
  simp [enterLiftState]

/-- A clock event writes the trace and the conditions alone. -/
theorem clockEvent_frame (event : ClockEvent) (s : State) :
    clockEvent event s = { s with trace := (clockEvent event s).trace, conditions := (clockEvent event s).conditions } := by
  have keeps := clockEvent_keeps event s
  generalize clockEvent event s = t at keeps
  obtain ⟨pending, choices, inReset, clock, strap, station, cab, crane, notices, intake, slew, lift, queue, tally, sup, active,
    staging, mgmt⟩ := keeps
  rw [← pending, ← choices, ← inReset, ← clock, ← strap, ← station, ← cab, ← crane, ← notices, ← intake, ← slew, ← lift,
    ← queue, ← tally, ← sup, ← active, ← staging, ← mgmt]

theorem State.modOpenLift_of_some {s : State} {l : OpenLift} (openLift : s.lift.openLift = some l) (f : OpenLift → OpenLift) :
    s.modOpenLift f = { s with lift := { s.lift with openLift := some (f l) } } := by
  rw [State.modOpenLift, openLift, Option.map_some]

/-! ## The sequence number (R69, R73, R90) -/

/-- The lift with the number, the generation and the fields it has when supervision begins to keep them (R127). -/
def numberedLift (s : State) (l : OpenLift) : OpenLift :=
  { l with
    number := some (s.queue.nextSequence, s.activeGeneration), peak := if s.uCurrent then s.sup.utilisation else 0,
    limitDuring := decide (s.sup.state = .limit), bypassed := decide (s.sup.state = .bypass) }

/-- The lift has taken the next sequence number, and supervision keeps its fields. -/
def numbered (l : OpenLift) (s : State) : State :=
  { s with
    lift := { s.lift with openLift := some (numberedLift s l) },
    queue := { s.queue with nextSequence := s.queue.nextSequence + 1 }, sup := { s.sup with tracking := true } }

section
variable {s : State} {l : OpenLift}

theorem takeNumber_of_numbered (openLift : s.lift.openLift = some l) (taken : l.number.isSome) : takeNumber s = s := by
  simp [takeNumber, openLift, taken]

theorem takeNumber_of_unnumbered (openLift : s.lift.openLift = some l) (untaken : l.number = none) :
    takeNumber s = numbered l s := by
  simp only [takeNumber, openLift, untaken, Option.isSome_none, trackStart, trackChange, trackPeak, State.modOpenLift,
    Option.map_some, numbered, numberedLift, State.uCurrent, State.fresh]
  cases s.sup.state <;> simp [trackState] <;> split <;> simp_all

theorem enterLifting_of_numbered (openLift : s.lift.openLift = some l) (taken : l.number.isSome) :
    enterLifting s = enterLiftState .lifting s := takeNumber_of_numbered (by simpa using openLift) taken

theorem enterLifting_of_unnumbered (openLift : s.lift.openLift = some l) (untaken : l.number = none) :
    enterLifting s = numbered l (enterLiftState .lifting s) := takeNumber_of_unnumbered (by simpa using openLift) untaken

theorem enterLifting_of_none (absent : s.lift.openLift = none) : enterLifting s = enterLiftState .lifting s := by
  simp [enterLifting, takeNumber, absent]

end

/-! ## A new lift (R69, R71) -/

/-- The lift controller with a new lift open, in GRIPPED. -/
def openedLift (s : State) : LiftController :=
  { s.lift with state := .gripped, openLift := some (newLift s), gripTimer := none, window := {}, setDownRun := 0 }

/-- A known tool's lift is in GRIPPED, and an unknown tool's goes on to LIFTING. -/
theorem confirmGrip_eq (s : State) :
    confirmGrip s =
      let gripped := clockEvent (.liftEvent .gripped) { s with lift := openedLift s }
      if (newLift s).snapshot.isNone then enterLifting gripped else gripped := rfl

/-! ## Samples (R61, R62) -/

theorem massOf_le {force accel : Int} {m : Nat} (formed : massOf force accel = some m) : m ≤ 200000 := by
  unfold massOf at formed
  split at formed
  · cases formed
  · cases formed
    exact Nat.min_le_left _ _

/-- A sample without an acceleration, one under an acceleration, and a static one (R60, R62). -/
theorem sampleOf_cases (gate : Nat) (force : Int) (report : Option Int) (s : State) :
    sampleOf gate force report s = { mass := none, suitable := false, static := false } ∨
      (∃ a, sampleOf gate force report s =
        { mass := massOf force a, suitable := (massOf force a).isSome && decide (a.natAbs ≤ gate), static := false }) ∨
      sampleOf gate force report s = { mass := massOf force 0, suitable := true, static := true } := by
  unfold sampleOf
  split
  · split
    · exact .inl rfl
    · exact .inr (.inl ⟨_, rfl⟩)
  · exact .inr (.inr rfl)

/-- Every sample's mass is at most 200000 (R61). -/
theorem sampleOf_mass_le {gate : Nat} {force : Int} {report : Option Int} {s : State} {m : Nat}
    (formed : (sampleOf gate force report s).mass = some m) : m ≤ 200000 := by
  rcases sampleOf_cases gate force report s with sample | ⟨a, sample⟩ | sample <;> rw [sample] at formed
  · cases formed
  · exact massOf_le (accel := a) formed
  · exact massOf_le (accel := 0) formed

/-- A sample that is suitable has a mass (R62). -/
theorem sampleOf_mass_of_suitable {gate : Nat} {force : Int} {report : Option Int} {s : State}
    (suitable : (sampleOf gate force report s).suitable = true) : (sampleOf gate force report s).mass.isSome = true := by
  rcases sampleOf_cases gate force report s with sample | ⟨a, sample⟩ | sample <;> rw [sample] at suitable ⊢
  · cases suitable
  · exact (Bool.and_eq_true_iff.mp suitable).1
  · rfl

theorem noteMass_eq (x : Sample) (s : State) :
    noteMass x s = { s with lift := { s.lift with lastSampleMass := x.mass.getD s.lift.lastSampleMass } } := by
  unfold noteMass
  cases x.mass <;> rfl

theorem noteStatic_of_some {s : State} {l : OpenLift} (openLift : s.lift.openLift = some l) (x : Sample) :
    noteStatic x s = { s with lift := { s.lift with openLift := some { l with static := l.static || x.static } } } := by
  unfold noteStatic
  split
  · next static => rw [State.modOpenLift_of_some openLift, static, Bool.or_true]
  · next moving =>
    rw [Bool.not_eq_true] at moving
    rw [moving, Bool.or_false, ← openLift]

/-! ## The weigh window (R63, R64) -/

theorem Window.feed_suitable {x : Sample} {m : Nat} (suitable : x.suitable = true) (mass : x.mass = some m) (w : Window) :
    w.feed x = { n := w.n + 1, sum := w.sum + m, least := some (w.least.elim m (min m)),
                 greatest := some (w.greatest.elim m (max m)), gapRun := 0 } := by
  simp [feed, suitable, mass]

theorem Window.feed_unsuitable {x : Sample} (unsuitable : x.suitable = false) (w : Window) :
    w.feed x = { w with gapRun := w.gapRun + 1 } := by
  simp [feed, unsuitable]

section
variable {s : State} {e : ToolEntry}

theorem windowTool_of_taring (taring : s.lift.state = .taring) : windowTool s = selectedEntry s := by
  simp only [windowTool, taring]

theorem windowTool_of_lifting (lifting : s.lift.state = .lifting) : windowTool s = s.lift.openLift.bind (·.snapshot) := by
  simp only [windowTool, lifting]

/-- A tool is in use for the window in TARING and LIFTING alone (R63). -/
theorem state_of_windowTool (tool : windowTool s = some e) : s.lift.state = .taring ∨ s.lift.state = .lifting := by
  unfold windowTool at tool
  split at tool
  · exact .inl (by assumption)
  · exact .inr (by assumption)
  all_goals cases tool

theorem gapRunDue_iff (tool : windowTool s = some e) : gapRunDue s = true ↔ e.gapLimit.toNat ≤ s.lift.window.gapRun := by
  simp [gapRunDue, tool]

theorem windowDue_iff (tool : windowTool s = some e) : windowDue s = true ↔ s.lift.window.n = e.windowLength.toNat := by
  simp [windowDue, tool]

/-- A sample handed to the window: the gap limit clears it, and a full one is evaluated (R63, R64). -/
theorem feedWindow_eq (tool : windowTool s = some e) (x : Sample) :
    let fed := s.lift.window.feed x
    let u : State := { s with lift := { s.lift with window := if e.gapLimit.toNat ≤ fed.gapRun then {} else fed } }
    feedWindow x s = if u.lift.window.n = e.windowLength.toNat then evaluateWindow u else u := by
  intro fed u
  have fedTool : windowTool (s.modLift fun l => { l with window := l.window.feed x }) = some e := tool
  have due : (if gapRunDue (s.modLift fun l => { l with window := l.window.feed x }) then
      clearWindow (s.modLift fun l => { l with window := l.window.feed x })
      else s.modLift fun l => { l with window := l.window.feed x }) = u := by
    rw [if_congr (gapRunDue_iff fedTool) rfl rfl]
    show (if e.gapLimit.toNat ≤ fed.gapRun then _ else _) = _
    split
    · next gap => simp only [u, if_pos gap]; rfl
    · next short => simp only [u, if_neg short]; rfl
  unfold feedWindow
  dsimp only
  rw [due]
  exact if_congr (windowDue_iff (s := u) tool) rfl rfl

end

end Sys2Proof.Machine
end

