-- ==== Sys2Proof/Proofs/LiftKept.lean ====
section
/-! PROOFS. What supervision, the slew counter and the account of lifts leave of the lift controller: its state, the lift's
number, and the window; and the promises that the lift controller's own operations keep, packaged once (O34). -/

namespace Sys2Proof.Machine

-- One theorem after another: side by side, so many small ones need more threads than the memory limit admits.
set_option Elab.async false

/-! ## What is left of the lift -/

/-- A lift has kept its number, and its weighing unless it was taken away. -/
def SameLift (l m : OpenLift) : Prop := m.number = l.number ∧ (m.weighing = l.weighing ∨ m.weighing = none)

/-- From one state to another the lift state, the open lift with its number, the masses and the queued records are as they
were, and the window unless it was cleared. -/
structure LiftKept (s t : State) : Prop where
  state : t.lift.state = s.lift.state
  openLift : ∃ f, (∀ l, SameLift l (f l)) ∧ t.lift.openLift = s.lift.openLift.map f
  window : t.lift.window = s.lift.window ∨ t.lift.window = {}
  mass : t.lift.lastSampleMass = s.lift.lastSampleMass
  tracking : t.sup.tracking = s.sup.tracking
  next : t.queue.nextSequence = s.queue.nextSequence
  records : t.queue.records = s.queue.records

/-- From one state to another the account of lifts is as it was: the tally, the table set and the bunk class in use. -/
structure AccountKept (s t : State) : Prop where
  tally : t.tally = s.tally
  active : t.active = s.active
  bunkClass : t.sup.bunkClass = s.sup.bunkClass

/-- From one state to another neither the lift nor the account of lifts has changed. -/
structure BothKept (s t : State) : Prop where
  lift : LiftKept s t
  account : AccountKept s t

theorem SameLift.refl (l : OpenLift) : SameLift l l := ⟨rfl, .inl rfl⟩

theorem SameLift.trans {l m n : OpenLift} (h : SameLift l m) (g : SameLift m n) : SameLift l n := by
  obtain ⟨number, weighing⟩ := h
  obtain ⟨number', weighing'⟩ := g
  refine ⟨number'.trans number, ?_⟩
  rcases weighing' with same | gone
  · exact weighing.imp same.trans same.trans
  · exact .inr gone

namespace LiftKept

variable {r s t : State}

theorem refl (s : State) : LiftKept s s :=
  ⟨rfl, ⟨id, SameLift.refl, by simp⟩, .inl rfl, rfl, rfl, rfl, rfl⟩

theorem trans (h : LiftKept r s) (g : LiftKept s t) : LiftKept r t where
  state := g.state.trans h.state
  openLift := by
    obtain ⟨f, same, first⟩ := h.openLift
    obtain ⟨f', same', second⟩ := g.openLift
    exact ⟨f' ∘ f, fun l => (same l).trans (same' (f l)), by rw [second, first, Option.map_map]⟩
  window := g.window.elim (fun same => h.window.imp same.trans same.trans) .inr
  mass := g.mass.trans h.mass
  tracking := g.tracking.trans h.tracking
  next := g.next.trans h.next
  records := g.records.trans h.records

/-- The lift controller is told nothing. -/
theorem same (h : LiftKept r s) (lift : t.lift = s.lift := by simp) (tracking : t.sup.tracking = s.sup.tracking := by simp)
    (next : t.queue.nextSequence = s.queue.nextSequence := by simp)
    (records : t.queue.records = s.queue.records := by simp) : LiftKept r t :=
  h.trans ⟨by rw [lift], ⟨id, SameLift.refl, by rw [lift, Option.map_id, id]⟩, .inl (by rw [lift]), by rw [lift], tracking,
    next, records⟩

/-- The open lift is changed in what is neither its number nor its weighing. -/
theorem map (h : LiftKept r s) {f : OpenLift → OpenLift} (keeps : ∀ l, SameLift l (f l)) : LiftKept r (s.modOpenLift f) :=
  h.trans ⟨rfl, ⟨f, keeps, rfl⟩, .inl rfl, rfl, rfl, rfl, rfl⟩

/-- The lift controller changes in what is none of these. -/
theorem modLift (h : LiftKept r s) {f : LiftController → LiftController} (state : (f s.lift).state = s.lift.state := by rfl)
    (openLift : (f s.lift).openLift = s.lift.openLift := by rfl) (window : (f s.lift).window = s.lift.window := by rfl)
    (mass : (f s.lift).lastSampleMass = s.lift.lastSampleMass := by rfl) : LiftKept r (s.modLift f) :=
  h.trans ⟨state, ⟨id, SameLift.refl, by rw [Option.map_id, id]; exact openLift⟩, .inl window, mass, rfl, rfl, rfl⟩

/-- The window is cleared, and the set-down run may be. -/
theorem cleared (h : LiftKept r s) (run : Nat) :
    LiftKept r (s.modLift fun l => { l with window := {}, setDownRun := run }) :=
  h.trans ⟨rfl, ⟨id, SameLift.refl, by rw [Option.map_id, id]; rfl⟩, .inr rfl, rfl, rfl, rfl, rfl⟩

end LiftKept

namespace BothKept

variable {r s t : State}

theorem refl (s : State) : BothKept s s := ⟨.refl s, rfl, rfl, rfl⟩

theorem trans (h : BothKept r s) (g : BothKept s t) : BothKept r t where
  lift := h.lift.trans g.lift
  account := ⟨g.account.tally.trans h.account.tally, g.account.active.trans h.account.active,
    g.account.bunkClass.trans h.account.bunkClass⟩

/-- An operation of another block. -/
theorem same (h : BothKept r s) (lift : t.lift = s.lift := by simp) (queue : t.queue = s.queue := by simp)
    (tracking : t.sup.tracking = s.sup.tracking := by simp) (bunkClass : t.sup.bunkClass = s.sup.bunkClass := by simp)
    (tally : t.tally = s.tally := by simp) (active : t.active = s.active := by simp) : BothKept r t :=
  h.trans ⟨(LiftKept.refl s).same lift tracking (by rw [queue]) (by rw [queue]), tally, active, bunkClass⟩

/-- The lift controller changes itself in what the lift keeps. -/
theorem modLift (h : BothKept r s) {f : LiftController → LiftController} (kept : LiftKept s (s.modLift f)) :
    BothKept r (s.modLift f) := h.trans ⟨kept, rfl, rfl, rfl⟩

theorem modOpenLift (h : BothKept r s) {f : OpenLift → OpenLift} (keeps : ∀ l, SameLift l (f l)) :
    BothKept r (s.modOpenLift f) := h.trans ⟨(LiftKept.refl s).map keeps, rfl, rfl, rfl⟩

theorem clockEvent (h : BothKept r s) (event : ClockEvent) : BothKept r (clockEvent event s) := h.same

theorem notify (h : BothKept r s) (k : NoticeKind) : BothKept r (s.notify k) := h.same

/-! ## Supervision (06) -/

theorem sameLift_trackState (state : SupState) (l : OpenLift) : SameLift l (trackState state l) := by
  cases state <;> exact .refl _

theorem computeFigures (h : BothKept r s) : BothKept r (computeFigures s) :=
  h.same (tracking := by rw [computeFigures_sup_frame]) (bunkClass := by rw [computeFigures_sup_frame])

theorem changeState (h : BothKept r s) (now : SupState) : BothKept r (changeState now s) := by
  have sup := changeState_sup now s
  have registers : (Machine.changeState now s).sup.tracking = s.sup.tracking ∧
      (Machine.changeState now s).sup.bunkClass = s.sup.bunkClass := by
    rw [sup]
    split <;> exact ⟨rfl, rfl⟩
  rcases changeState_lift now s with lift | lift
  · exact h.same lift (tracking := registers.1) (bunkClass := registers.2)
  · exact (h.modOpenLift (sameLift_trackState now)).same lift (tracking := registers.1) (bunkClass := registers.2)

theorem trackPeak (h : BothKept r s) : BothKept r (trackPeak s) := by
  unfold Machine.trackPeak
  split
  · exact h.modOpenLift fun l => .refl _
  · exact h

theorem evaluate (h : BothKept r s) : BothKept r (evaluate s) := (h.computeFigures.changeState _).trackPeak

/-- Supervision takes another history, sector or service level in and evaluates. -/
theorem evaluate_of_sup (h : BothKept r s) {sup : Supervision} (tracking : sup.tracking = s.sup.tracking := by rfl)
    (bunkClass : sup.bunkClass = s.sup.bunkClass := by rfl) : BothKept r (Machine.evaluate { s with sup }) :=
  evaluate (h.same rfl rfl tracking bunkClass rfl rfl)

theorem supServiceChange (h : BothKept r s) (level : Bool) : BothKept r (supServiceChange level s) := by
  unfold Machine.supServiceChange
  split
  · exact h
  · exact h.evaluate_of_sup

theorem alertToggle (h : BothKept r s) : BothKept r (alertToggle s) := by
  have sup : (Machine.alertToggle s).sup.tracking = s.sup.tracking ∧ (Machine.alertToggle s).sup.bunkClass = s.sup.bunkClass := by
    unfold Machine.alertToggle
    split <;> exact ⟨rfl, rfl⟩
  exact h.same (tracking := sup.1) (bunkClass := sup.2)

/-! ## The slew counter (03) -/

theorem setSector (h : BothKept r s) (sector : Option Nat) : BothKept r (setSector sector s) := by
  have noted : BothKept r (State.choose 2 (liftSectorChange sector (s.modSlew fun w => { w with sector := sector }))).2 :=
    (h.modLift (f := fun l => { l with notedSector := sector }) (.modLift (.refl s))).same rfl rfl rfl rfl rfl rfl
  unfold Machine.setSector sectorEvent
  dsimp only
  split
  · exact h
  · split
    · exact noted.evaluate_of_sup.clockEvent _
    · exact (noted.clockEvent _).evaluate_of_sup

theorem takeCount (h : BothKept r s) (up : Bool) : BothKept r (takeCount up s) := by
  have counted : BothKept r (moved up s) := h.same rfl rfl rfl rfl rfl rfl
  have followed := counted.setSector (tracked (moved up s)).slew.sector
  rw [← tracked_sets] at followed
  rw [takeCount_eq]
  exact followed.same

theorem countError (h : BothKept r s) : BothKept r (countError s) :=
  setSector (s := unreferenced s) (h.same rfl rfl rfl rfl rfl rfl) none

theorem takeIndex (h : BothKept r s) : BothKept r (takeIndex s) := by
  unfold Machine.takeIndex indexReferenced
  dsimp only
  split
  · split
    · exact setSector h.same _
    · exact setSector h.same _
  · exact h.same

theorem observe (h : BothKept r s) (a b z : Bool) : BothKept r (observe a b z s) := by
  have levels : BothKept r (sensed a b z s) := h.same rfl rfl rfl rfl rfl rfl
  have count : BothKept r (counted a b z s) := by
    unfold counted
    split
    · exact levels.countError
    · split
      · exact levels.takeCount _
      · exact levels
  rw [observe_eq]
  split
  · exact count.takeIndex
  · exact count

theorem slewActivation (h : BothKept r s) (old : Option TableSet) (new : TableSet) :
    BothKept r (slewActivation old new s) := by
  unfold Machine.slewActivation
  dsimp only
  split
  · split
    · exact setSector h.same _
    · exact h.same
  · exact setSector h.same _

end BothKept

namespace LiftKept

variable {r s t : State}

theorem evaluate (h : LiftKept r s) : LiftKept r (evaluate s) := h.trans (BothKept.evaluate (.refl s)).lift

/-! ## The account of lifts (05) -/

/-- A new bunk class is told to supervision, which evaluates; the lift is not changed (R104). -/
theorem judgeClass (h : LiftKept r s) : LiftKept r (judgeClass s) := by
  unfold Machine.judgeClass
  dsimp only
  split
  · exact h
  · exact evaluate (h.same rfl rfl rfl rfl)

theorem raiseBunkNotices (h : LiftKept r s) (m : MachineRecord) : LiftKept r (raiseBunkNotices m s) := h.same

theorem setBunkArms (h : LiftKept r s) (m : MachineRecord) : LiftKept r (setBunkArms m s) := h.same

theorem book (h : LiftKept r s) (record : LiftRecord) : LiftKept r (book record s) := by
  have booked : LiftKept r { s with tally := bookOutcome record.outcome record.assortment record.weighing s.tally } :=
    h.same rfl rfl rfl rfl
  unfold Machine.book afterBooking
  split
  · exact booked
  · dsimp only
    split
    · exact booked.judgeClass
    · split
      · exact booked.judgeClass.raiseBunkNotices _
      · exact booked.judgeClass.setBunkArms _

theorem clearBunk (h : LiftKept r s) : LiftKept r (clearBunk s) := by
  unfold Machine.clearBunk
  dsimp only
  generalize emptied : ({ s with tally := _ } : State) = u
  have judged : LiftKept r (Machine.judgeClass u) := by
    rw [← emptied]
    exact judgeClass (h.same rfl rfl rfl rfl)
  split
  · exact judged.setBunkArms _
  · exact judged

/-! ## Activation (R155) -/

theorem queueActivation (h : LiftKept r s) (m : MachineRecord) : LiftKept r (queueActivation m s) :=
  h.same (next := by rw [queueActivation_queue]) (records := by rw [queueActivation_queue])

theorem tallyActivation (h : LiftKept r s) (m : MachineRecord) : LiftKept r (tallyActivation m s) :=
  (h.judgeClass.raiseBunkNotices m).setBunkArms m

/-- What the swap does before the lift controller takes it. -/
theorem turned (h : LiftKept r s) (set : TableSet) : LiftKept r (turned set s) := by
  have taken : LiftKept r (takenOver set s) := h.same (by simp [takenOver]) (by simp) (by simp [takenOver]) (by simp [takenOver])
  have activated : LiftKept r (supActivation (takenOver set s)) := evaluate (taken.same rfl rfl rfl rfl)
  exact activated.trans (BothKept.slewActivation (.refl _) _ _).lift

end LiftKept

end Sys2Proof.Machine
end

