-- ==== Sys2Proof/Proofs/KeptInLift.lean ====
section
/-! PROOFS. What every operation of the lift controller keeps, packaged once: a promise that each of its elementary changes
keeps is kept by every sample, tool change, tare request and activation (O34). The beginning and the end of a lift are no
elementary changes: each promise says for itself what they do to it. -/

namespace Sys2Proof.Machine

-- One theorem after another: side by side, so many small ones need more threads than the memory limit admits.
set_option Elab.async false

/-- A promise that the elementary changes of the lift controller keep, each under the condition on which it is made. -/
structure KeptInLift (I : State → Prop) : Prop where
  both : ∀ {s t}, I s → BothKept s t → I t
  massed : ∀ {s} {m : Nat}, I s → m ≤ 200000 → I (s.modLift fun l => { l with lastSampleMass := m })
  fed : ∀ {s} {x : Sample}, I s → (∀ m, x.mass = some m → m ≤ 200000) →
    I (s.modLift fun l => { l with window := l.window.feed x })
  entered : ∀ {s} {st : LiftState}, I s → holdsLift st = holdsLift s.lift.state → st ≠ .lifting → st ≠ .weighed →
    I (s.modLift fun l => { l with state := st })
  lifting : ∀ {s}, I s → holdsLift s.lift.state = true → I (enterLifting s)
  weighed : ∀ {s}, I s → s.lift.state = .lifting → I (liftWeighed s.lift.window.mean s)

namespace KeptInLift

variable {I : State → Prop} (k : KeptInLift I) {s t : State}
include k

/-- An operation of another block. -/
theorem same (h : I s) (lift : t.lift = s.lift := by simp) (queue : t.queue = s.queue := by simp)
    (sup : t.sup = s.sup := by simp) (tally : t.tally = s.tally := by simp) (active : t.active = s.active := by simp) : I t :=
  k.both h ((BothKept.refl s).same lift queue (by rw [sup]) (by rw [sup]) tally active)

theorem clockEvent (h : I s) (event : ClockEvent) : I (clockEvent event s) := k.same h

theorem notify (h : I s) (kind : NoticeKind) : I (s.notify kind) := k.same h

theorem evaluate (h : I s) : I (evaluate s) := k.both h (.evaluate (.refl s))

/-- The lift controller changes in what a promise does not read. -/
theorem modLift (h : I s) {f : LiftController → LiftController} (kept : LiftKept s (s.modLift f)) : I (s.modLift f) :=
  k.both h (.modLift (.refl s) kept)

theorem modOpenLift (h : I s) {f : OpenLift → OpenLift} (keeps : ∀ l, SameLift l (f l)) : I (s.modOpenLift f) :=
  k.both h (.modOpenLift (.refl s) keeps)

/-! ## Lift states (R83) -/

theorem enterLiftState (h : I s) {st : LiftState} (holds : holdsLift st = holdsLift s.lift.state) (notLifting : st ≠ .lifting)
    (notWeighed : st ≠ .weighed) : I (enterLiftState st s) :=
  k.clockEvent (k.entered h holds notLifting notWeighed) _

theorem applyPendingTool (h : I s) : I (applyPendingTool s) := by
  unfold Machine.applyPendingTool
  split
  · exact h
  · split
    · exact k.modLift h (.modLift (.refl s))
    · exact k.modLift h (.modLift (.refl s))

/-- EMPTY is entered with no lift open. -/
theorem enterEmpty (h : I s) (holds : holdsLift s.lift.state = false) : I (enterEmpty s) :=
  k.applyPendingTool (k.enterLiftState h holds.symm (by decide) (by decide))

/-! ## The weigh window (R63, R64, R66) -/

theorem clearWindow (h : I s) : I (clearWindow s) := k.modLift h (.cleared (.refl s) s.lift.setDownRun)

theorem tareAccepted (h : I s) (taring : s.lift.state = .taring) (e : ToolEntry) (mean : Nat) : I (tareAccepted e mean s) := by
  have ended : ∀ {u}, I u → u.lift.state = .taring →
      I (Machine.enterEmpty (u.modLift fun l => { l with tareTimer := none, window := {} })) := by
    intro u h taring
    have cleared := k.modLift (f := fun l => { l with tareTimer := none }) (k.clearWindow h) (.modLift (.refl _))
    exact k.enterEmpty cleared (by simp [taring, holdsLift])
  unfold Machine.tareAccepted
  dsimp only
  split
  · have tared := k.modLift (f := fun l => { l with workingTare := some mean }) h (.modLift (.refl s))
    exact ended (k.notify tared .tareDone) (by simpa using taring)
  · exact ended (k.notify h .tareFailed) (by simpa using taring)

theorem evaluateWindow (h : I s) : I (evaluateWindow s) := by
  unfold Machine.evaluateWindow
  split
  · exact h
  · rename_i e tool
    have inUse := state_of_windowTool tool
    dsimp only
    split
    · next taring =>
      split
      · exact k.tareAccepted h taring _ _
      · exact k.clearWindow h
    · next notTaring =>
      split
      · exact k.weighed h (inUse.resolve_left notTaring)
      · exact k.modOpenLift (k.clearWindow h) fun l => .refl _

theorem feedWindow (h : I s) {x : Sample} (bound : ∀ m, x.mass = some m → m ≤ 200000) : I (feedWindow x s) := by
  have fed := k.fed h bound
  unfold Machine.feedWindow
  dsimp only
  split
  · split
    · exact k.evaluateWindow (k.clearWindow fed)
    · exact k.clearWindow fed
  · split
    · exact k.evaluateWindow fed
    · exact fed

/-! ## A force sample (R60, R66, R72 to R74) -/

theorem noteMass (h : I s) {x : Sample} (bound : ∀ m, x.mass = some m → m ≤ 200000) : I (noteMass x s) := by
  unfold Machine.noteMass
  split
  · exact k.massed h (bound _ (by assumption))
  · exact h

theorem noteStatic (h : I s) (x : Sample) : I (noteStatic x s) := by
  unfold Machine.noteStatic
  split
  · exact k.modOpenLift h fun l => .refl _
  · exact h

theorem takeSetDown (h : I s) (due : setDownDue s = true) : I (takeSetDown s) := by
  have lifting : s.lift.state = .lifting := of_decide_eq_true (Bool.and_eq_true_iff.mp due).1
  exact k.enterLiftState (k.modLift h (.cleared (.refl s) 0)) (by simp [lifting, holdsLift]) (by decide) (by decide)

theorem liftingSample (h : I s) (e : ToolEntry) {x : Sample} (bound : ∀ m, x.mass = some m → m ≤ 200000) :
    I (liftingSample e x s) := by
  unfold Machine.liftingSample
  split
  · exact h
  · rename_i l _
    dsimp only
    have counted := k.modOpenLift (f := fun l => { l with sampleCount := satAdd 65535 l.sampleCount 1 }) h fun l => .refl _
    have run := k.modLift (f := fun c => { c with setDownRun := setDownRunAfter e l x c.setDownRun }) counted (.modLift (.refl _))
    split
    · exact k.takeSetDown run (by assumption)
    · exact k.feedWindow run bound

theorem liftFSample (h : I s) (v : Int) (a : Option Int) : I (liftFSample v a s) := by
  have bound : ∀ gate m, (sampleOf gate v a s).mass = some m → m ≤ 200000 := fun _ _ => sampleOf_mass_le
  have noted : ∀ gate, I (Machine.noteStatic (sampleOf gate v a s) (Machine.noteMass (sampleOf gate v a s) s)) :=
    fun gate => k.noteStatic (k.noteMass h (bound gate)) _
  unfold Machine.liftFSample
  split
  · split
    · exact h
    · exact k.feedWindow (k.noteMass h (bound _)) (bound _)
  · rename_i gripped
    split
    · exact h
    · split
      · exact h
      · rename_i l _ _ e _
        dsimp only
        split
        · refine k.liftingSample (k.lifting (noted _) ?_) _ (bound _)
          rw [noteMass_eq, noteStatic_of_some (l := l) (by assumption)]
          simp [gripped, holdsLift]
        · exact noted _
  · split
    · exact h
    · exact k.liftingSample (noted _) _ (bound _)
  all_goals exact h

/-! ## Grapple pressure (R67, R70, R76, R77) -/

theorem gripPressure (h : I s) (v : Int) : I (gripPressure v s) := by
  unfold Machine.gripPressure
  split
  · exact h
  · split
    · exact k.modLift h (.modLift (.refl s))
    · exact k.modLift h (.modLift (.refl s))

theorem failTare (h : I s) (taring : s.lift.state = .taring) : I (failTare s) := by
  have stopped := k.modLift (f := fun l => { l with tareTimer := none }) h (.modLift (.refl s))
  exact k.enterEmpty (k.notify stopped .tareFailed) (by simp [taring, holdsLift])

theorem taringPressure (h : I s) (taring : s.lift.state = .taring) (v : Int) : I (taringPressure v s) := by
  unfold Machine.taringPressure
  split
  · exact h
  · split
    · dsimp only
      split
      · exact k.failTare h taring
      · exact k.modLift (k.failTare h taring) (.modLift (.refl _))
    · exact h

theorem heldPressure (h : I s) (holds : holdsLift s.lift.state = true) (v : Int) : I (heldPressure v s) := by
  unfold Machine.heldPressure
  split
  · exact h
  · rename_i e _
    split
    · have details := k.modOpenLift (f := fun l => { l with opened := some {
        sector := s.lift.notedSector, assortment := s.intake.snapshot.assortment, time := s.clock } }) h fun l => .refl _
      exact k.enterLiftState (k.modLift details (.modLift (.refl _))) holds.symm (by decide) (by decide)
    · exact h

theorem regrip (h : I s) (releasing : s.lift.state = .releasing) : I (regrip s) := by
  have counted := k.modOpenLift (f := fun l => { l with regripCount := satAdd 255 l.regripCount 1 }) h fun l => .refl _
  have stopped := k.modLift (f := fun l => { l with regripTimer := none, remembered := none }) counted (.modLift (.refl _))
  have holds : holdsLift s.lift.state = true := by rw [releasing]; rfl
  unfold Machine.regrip
  dsimp only
  split
  · have unweighed := k.modOpenLift (f := fun l => { l with weighing := none }) stopped fun l => ⟨rfl, .inr rfl⟩
    exact k.lifting (k.clearWindow unweighed) holds
  · exact k.lifting stopped holds
  · exact k.enterLiftState stopped holds.symm (by decide) (by decide)

theorem releasingPressure (h : I s) (releasing : s.lift.state = .releasing) (v : Int) : I (releasingPressure v s) := by
  unfold Machine.releasingPressure
  split
  · exact h
  · split
    · exact k.regrip h releasing
    · exact h

theorem liftGpress (h : I s) (v : Int) : I (liftGpress v s) := by
  unfold Machine.liftGpress
  split
  case h_1 => exact k.gripPressure h v
  case h_2 taring => exact k.taringPressure h taring v
  case h_6 releasing => exact k.releasingPressure h releasing v
  all_goals exact k.heldPressure h (by simp [*, holdsLift]) v

/-! ## Expiries and operator events (R58, R65, R80) -/

theorem liftAExpiry (h : I s) : I (liftAExpiry s) := by
  unfold Machine.liftAExpiry
  split
  · exact k.clearWindow h
  · exact h

theorem liftFExpiry (h : I s) : I (liftFExpiry s) := by
  unfold Machine.liftFExpiry
  split
  · exact k.modLift h (.cleared (.refl s) 0)
  · exact h

theorem liftToolChange (h : I s) (id : Nat) : I (liftToolChange id s) := by
  unfold Machine.liftToolChange
  split
  · exact k.modLift h (.modLift (.refl s))
  · exact k.modLift h (.modLift (.refl s))

theorem liftTareRequest (h : I s) : I (liftTareRequest s) := by
  unfold Machine.liftTareRequest
  split
  · rename_i accepted
    have timed := k.modLift (f := fun l => { l with tareTimer := some (after s.clock 5000) }) (k.clearWindow h) (.modLift (.refl _))
    exact k.enterLiftState timed (by simp [Machine.clearWindow, accepted.1, holdsLift]) (by decide) (by decide)
  · exact k.notify h _

/-! ## Activation (R81) -/

theorem liftActivation (h : I s) : I (liftActivation s) := by
  unfold Machine.liftActivation
  dsimp only
  split
  · exact k.modLift (k.failTare h (by assumption)) (.modLift (.refl _))
  · exact k.modLift h (.modLift (.refl s))

/-! ## Intake (02) -/

/-- An F sample to its receivers, in any of the six orders (R34). -/
theorem deliverForce (h : I s) (v : Int) (a : Option Int) : I (deliverForce v a s) := by
  have chosen : I (s.choose 6).2 := k.same h
  have supervised : ∀ {u}, I u → I (supFSample v u) := fun {u} h =>
    k.both h (.evaluate_of_sup (.refl u))
  unfold Machine.deliverForce
  dsimp only
  split
  · exact k.clockEvent (supervised (k.liftFSample chosen v a)) _
  · exact supervised (k.clockEvent (k.liftFSample chosen v a) _)
  · exact k.clockEvent (k.liftFSample (supervised chosen) v a) _
  · exact k.liftFSample (k.clockEvent (supervised chosen) _) v a
  · exact supervised (k.liftFSample (k.clockEvent chosen _) v a)
  · exact k.liftFSample (supervised (k.clockEvent chosen _)) v a

theorem deliverSample (h : I s) (m : Measurand) (v : Int) (a : Option Int) : I (deliverSample m v a s) := by
  cases m with
  | f => exact k.deliverForce h v a
  | a => exact h
  | gpress => exact k.liftGpress h v
  | reach | pitch | roll => exact k.evaluate h

theorem judgeRecord {x : State × Option Int} (h : I x.1) (r : MatchedRecord) : I (judgeRecord x r).1 := by
  unfold Machine.judgeRecord
  dsimp only
  split
  · exact k.deliverSample (k.same h) _ _ _
  · exact k.same h

theorem readReport (h : I s) (source : Byte) (payload : List Byte) : I (readReport source payload s) := by
  have judged : ∀ (rs : List MatchedRecord) (x : State × Option Int), I x.1 → I (rs.foldl Machine.judgeRecord x).1 := by
    intro rs
    induction rs with
    | nil => exact fun _ h => h
    | cons r rs ih => exact fun x h => ih _ (k.judgeRecord h r)
  unfold Machine.readReport
  split
  · exact h
  · exact judged _ _ h

theorem takeTool (h : I s) (id : Nat) : I (takeTool id s) := by
  unfold Machine.takeTool
  split
  · exact h
  · exact k.liftToolChange (k.same h) id

theorem takeTareNumber (h : I s) (number : Byte) : I (takeTareNumber number s) := by
  have read : I (s.modSnapshot fun n => { n with tareNumber := some number }) := k.same h
  unfold Machine.takeTareNumber
  dsimp only
  split
  · exact read
  · split
    · exact read
    · exact k.liftTareRequest read

theorem readOperatorState (h : I s) (payload : List Byte) : I (readOperatorState payload s) := by
  unfold Machine.readOperatorState
  split
  · rename_i tool _ _ _
    split
    · exact k.takeTareNumber (k.same (k.takeTool h tool.toNat)) _
    · exact h
  · exact h

/-- The expiry of a measurand that is not GPRESS, by which no lift ends (R80). -/
theorem deliverExpiry (h : I s) {m : Measurand} (notGpress : m ≠ .gpress) : I (deliverExpiry m s) := by
  cases m with
  | gpress => exact absurd rfl notGpress
  | f => exact k.both (k.liftFExpiry h) (.evaluate_of_sup (.refl _))
  | a => exact k.liftAExpiry h
  | reach | pitch | roll => exact k.evaluate h

end KeptInLift

end Sys2Proof.Machine
end

