-- ==== Sys2Proof/Proofs/LiftSafe.lean ====
section
/-! PROOFS. Every step keeps the lift controller's promise (R63, R69, R73, R75, R88, R127), the first part of O34. -/

namespace Sys2Proof.Machine

-- One theorem after another: side by side, so many small ones need more threads than the memory limit admits.
set_option Elab.async false

/-! ## The number of the open lift (R69) -/

theorem openNumber_of_some {s : State} {l : OpenLift} (openLift : s.lift.openLift = some l) :
    openNumber s = l.number.map Prod.fst := by
  rw [openNumber, openLift, Option.bind_some]

theorem openNumber_of_none {s : State} (absent : s.lift.openLift = none) : openNumber s = none := by
  rw [openNumber, absent, Option.bind_none]

theorem openNumber_congr {s t : State} (openLift : t.lift.openLift = s.lift.openLift) : openNumber t = openNumber s := by
  rw [openNumber, openNumber, openLift]

theorem LiftKept.openNumber {s t : State} (h : LiftKept s t) : openNumber t = openNumber s := by
  obtain ⟨f, same, openLift⟩ := h.openLift
  unfold Machine.openNumber
  rw [openLift]
  cases s.lift.openLift with
  | none => rfl
  | some l => rw [Option.map_some, Option.bind_some, Option.bind_some, (same l).1]

/-! ## The window (R63, R64) -/

theorem Window.feed_sum_le {w : Window} (h : w.sum ≤ 200000 * w.n) {x : Sample} (bound : ∀ m, x.mass = some m → m ≤ 200000) :
    (w.feed x).sum ≤ 200000 * (w.feed x).n := by
  unfold feed
  split
  · have := bound _ (by assumption)
    dsimp only
    omega
  · exact h

/-- The mean of masses of at most 200000 is at most 200000. -/
theorem Window.mean_le {w : Window} (h : w.sum ≤ 200000 * w.n) : w.mean ≤ 200000 := by
  unfold mean roundHalfUp
  rcases Nat.eq_zero_or_pos w.n with zero | pos
  · simp [zero]
  · exact (Nat.div_le_iff_le_mul_add_pred (by omega)).mpr (by omega)

/-! ## The end of a lift (R78, R79, R84) -/

/-- The lift controller with its lift ended, before EMPTY is entered. -/
def LiftController.ended (c : LiftController) : LiftController :=
  { c with openLift := none, regripTimer := none, gripTimer := none, remembered := none }

/-- A lift ends without a number, or is handed over with the one it has. -/
theorem endLift_cases (ending : LiftEnding) (s : State) :
    ∃ u, endLift ending s = enterEmpty { u with lift := u.lift.ended } ∧
      ((u = s ∧ openNumber s = none) ∨ ∃ l number, s.lift.openLift = some l ∧ l.number = some number ∧
        u = handOver ending l number s) := by
  cases openLift : s.lift.openLift with
  | none =>
    refine ⟨s, ?_, .inl ⟨rfl, openNumber_of_none openLift⟩⟩
    simp only [endLift, openLift]
    rfl
  | some l =>
    cases number : l.number with
    | none =>
      have unnumbered : openNumber s = none := by rw [openNumber_of_some openLift, number]; rfl
      exact ⟨s, endLift_of_unnumbered openLift number ending, .inl ⟨rfl, unnumbered⟩⟩
    | some n => exact ⟨_, endLift_of_numbered openLift number ending, .inr ⟨l, n, rfl, number, rfl⟩⟩

/-- A record is filed last, with some older ones kept before it, or it is dropped (R91, R92). -/
theorem fileRecord_records (r : LiftRecord) (s : State) :
    (fileRecord r s).queue.records = s.queue.records ∧ 32 ≤ s.queue.records.length ∨
      (fileRecord r s).queue.records = s.queue.records.drop 1 ++ [r] ∧ 32 ≤ s.queue.records.length ∨
      (fileRecord r s).queue.records = s.queue.records ++ [r] ∧ s.queue.records.length < 32 := by
  unfold fileRecord
  dsimp only
  split
  · next full =>
    split
    · exact .inl ⟨by simp, full⟩
    · exact .inr (.inl ⟨by simp, full⟩)
  · next room =>
    refine .inr (.inr ⟨?_, Nat.lt_of_not_le room⟩)
    split <;> simp

theorem fileRecord_sublist (r : LiftRecord) (s : State) :
    (fileRecord r s).queue.records.Sublist (s.queue.records ++ [r]) := by
  rcases fileRecord_records r s with ⟨kept, -⟩ | ⟨kept, -⟩ | ⟨kept, -⟩ <;> rw [kept]
  · exact List.sublist_append_left _ _
  · exact (List.drop_sublist _ _).append_right _

theorem fileRecord_next (r : LiftRecord) (s : State) :
    (fileRecord r s).queue.nextSequence = s.queue.nextSequence := by
  unfold fileRecord
  dsimp only
  (repeat' split) <;> simp

/-! ## Records that leave (R93) -/

/-- The records left by DROP LIFTS are the newer ones. -/
theorem suffix_of_dropThrough {number : BitVec 16} {records rest : List LiftRecord}
    (found : dropThrough number records = some rest) : rest <:+ records := by
  induction records with
  | nil => cases found
  | cons r records ih =>
    unfold dropThrough at found
    split at found
    · cases found
      exact List.suffix_cons _ _
    · exact (ih found).trans (List.suffix_cons _ _)

theorem removeLifts_records (rest : List LiftRecord) (s : State) : (removeLifts rest s).queue.records = rest := by
  unfold removeLifts armAfterRemoval
  split
  · split <;> rfl
  · rfl

theorem removeLifts_next (rest : List LiftRecord) (s : State) :
    (removeLifts rest s).queue.nextSequence = s.queue.nextSequence := by
  unfold removeLifts armAfterRemoval
  split
  · split <;> rfl
  · rfl

/-- What the hand-over leaves of the lift controller, and the records it leaves (R84). -/
theorem handOver_lift (ending : LiftEnding) (l : OpenLift) (number : BitVec 16 × BitVec 16) (s : State) :
    ∃ b, LiftKept (trackStop s) b ∧ (handOver ending l number s).lift = b.lift ∧
      (handOver ending l number s).sup.tracking = false ∧
      (handOver ending l number s).queue.nextSequence = s.queue.nextSequence ∧
      (handOver ending l number s).queue.records.Sublist (s.queue.records ++ [buildRecord (trackStop s) ending l number]) := by
  have booked := (LiftKept.refl (trackStop s)).book (buildRecord (trackStop s) ending l number)
  refine ⟨_, booked, by simp [handOver], ?_, ?_, ?_⟩
  · simp only [handOver, fileRecord_keeps]
    exact booked.tracking
  · rw [handOver, fileRecord_next]
    exact booked.next
  · have filed := fileRecord_sublist (buildRecord (trackStop s) ending l number)
      (book (buildRecord (trackStop s) ending l number) (trackStop s))
    rwa [booked.records] at filed

/-! ## The promise -/

namespace LiftSafe

variable {s t : State}

theorem of_kept (h : LiftSafe s) (kept : LiftKept s t) : LiftSafe t := by
  obtain ⟨opens, numbered, tracked, weighings, window, mass, records⟩ := h
  obtain ⟨f, same, openLift⟩ := kept.openLift
  refine ⟨?_, ?_, ?_, ?_, ?_, kept.mass ▸ mass, kept.records ▸ records⟩
  · rw [openLift, kept.state, Option.isSome_map]
    exact opens
  · rwa [kept.state, kept.openNumber]
  · rwa [kept.tracking, kept.openNumber]
  · intro m w found weighed
    rw [openLift] at found
    obtain ⟨l, was, rfl⟩ := Option.map_eq_some_iff.mp found
    rcases (same l).2 with weighing | weighing
    · exact weighings l w was (weighing ▸ weighed)
    · rw [weighing] at weighed
      cases weighed
  · rcases kept.window with same | cleared
    · rw [same]; exact window
    · rw [cleared]; exact Nat.zero_le _

/-- The lift state changes: a lift is open in the one as in the other, and it has a number where the new state asks for one. -/
theorem entered (h : LiftSafe s) {st : LiftState} (holds : holdsLift st = holdsLift s.lift.state)
    (number : st = .lifting ∨ st = .weighed → (openNumber s).isSome) : LiftSafe (s.modLift fun l => { l with state := st }) := by
  obtain ⟨opens, -, rest⟩ := h
  exact ⟨opens.trans holds.symm, number, rest⟩

/-- With its number a lift enters LIFTING (R73). -/
theorem lifting (h : LiftSafe s) (holds : holdsLift s.lift.state = true) : LiftSafe (enterLifting s) := by
  obtain ⟨opens, -, tracked, weighings, rest⟩ := id h
  obtain ⟨l, openLift⟩ := Option.isSome_iff_exists.mp (opens.trans holds)
  have kept : ∀ u : State, LiftKept u (clockEvent (.liftEvent .lifting) u) := fun u => (BothKept.clockEvent (.refl u) _).lift
  by_cases taken : l.number.isSome
  · rw [enterLifting_of_numbered openLift taken]
    refine (h.entered (st := .lifting) holds.symm fun _ => ?_).of_kept (kept _)
    rwa [openNumber_of_some openLift, Option.isSome_map]
  · rw [enterLifting_of_unnumbered openLift (Option.not_isSome_iff_eq_none.mp taken)]
    refine ⟨by simp [numbered, enterLiftState, holdsLift], fun _ => rfl, rfl, ?_, ?_⟩
    · rintro m w ⟨⟩ weighed
      exact weighings l w openLift weighed
    · simpa [numbered, enterLiftState] using rest

/-- A mean of masses weighs the lift (R75). -/
theorem weighed (h : LiftSafe s) (isLifting : s.lift.state = .lifting) : LiftSafe (liftWeighed s.lift.window.mean s) := by
  obtain ⟨opens, number, tracked, -, window, mass, records⟩ := h
  obtain ⟨l, openLift⟩ := Option.isSome_iff_exists.mp (opens.trans (congrArg holdsLift isLifting))
  have mean := Window.mean_le window
  have same : openNumber (liftWeighed s.lift.window.mean s) = openNumber s := by
    rw [openNumber_of_some openLift]
    simp [openNumber, liftWeighed, openLift]
  refine ⟨?_, fun _ => ?_, ?_, ?_, ?_, ?_, ?_⟩
  · simp [liftWeighed, openLift, holdsLift]
  · rw [same]; exact number (.inl isLifting)
  · simpa [same] using tracked
  · intro m w found weighed
    simp only [liftWeighed, enterLiftState_lift, State.modLift_lift, State.modOpenLift_lift, openLift, Option.map_some,
      Option.some.injEq] at found
    subst found
    cases weighed
    refine ⟨?_, mean⟩
    dsimp only [netOf]
    omega
  · simpa [liftWeighed] using window
  · simpa [liftWeighed] using mass
  · simpa using records

end LiftSafe

/-- Every elementary change keeps the promise. -/
theorem keptInLift_liftSafe : KeptInLift LiftSafe where
  both h kept := h.of_kept kept.lift
  massed h bound := by
    obtain ⟨opens, numbered, tracked, weighings, window, -, records⟩ := h
    exact ⟨opens, numbered, tracked, weighings, window, bound, records⟩
  fed h bound := by
    obtain ⟨opens, numbered, tracked, weighings, window, rest⟩ := h
    exact ⟨opens, numbered, tracked, weighings, Window.feed_sum_le window bound, rest⟩
  entered h holds notLifting notWeighed := h.entered holds fun asks => absurd asks (by simp [notLifting, notWeighed])
  lifting h holds := h.lifting holds
  weighed h isLifting := h.weighed isLifting

namespace LiftSafe

variable {s : State}

/-- A new lift is open, without a number (R69, R71). -/
theorem opened (h : LiftSafe s) (empty : s.lift.state = .empty) : LiftSafe { s with lift := openedLift s } := by
  obtain ⟨opens, -, tracked, -, -, rest⟩ := h
  have closed : s.lift.openLift = none := Option.not_isSome_iff_eq_none.mp (by simp [opens, empty, holdsLift])
  refine ⟨rfl, fun asks => absurd asks (by simp [openedLift]), ?_, ?_, Nat.zero_le _, rest⟩
  · rw [openNumber_of_none closed] at tracked
    exact tracked
  · rintro l w ⟨⟩ weighed
    cases weighed

theorem confirmGrip (h : LiftSafe s) (empty : s.lift.state = .empty) : LiftSafe (confirmGrip s) := by
  have gripped := keptInLift_liftSafe.clockEvent (h.opened empty) (.liftEvent .gripped)
  rw [confirmGrip_eq]
  dsimp only
  split
  · refine keptInLift_liftSafe.lifting gripped ?_
    simp [openedLift, holdsLift]
  · exact gripped

/-- With the lift ended and its fields kept no longer, EMPTY is entered (R78, R79). -/
theorem ended {u : State} (untracked : u.sup.tracking = false) (window : u.lift.window.sum ≤ 200000 * u.lift.window.n)
    (mass : u.lift.lastSampleMass ≤ 200000) (records : ∀ r ∈ u.queue.records, ∀ w, r.weighing = some w → WeighingSafe w) :
    LiftSafe (enterEmpty { u with lift := u.lift.ended }) := by
  have empty : LiftSafe { u with lift := { u.lift.ended with state := .empty } } :=
    ⟨rfl, fun asks => absurd asks (by simp), untracked, fun l w found => (by cases found), window, mass, records⟩
  exact keptInLift_liftSafe.applyPendingTool (keptInLift_liftSafe.clockEvent empty (.liftEvent .empty))

theorem endLift (h : LiftSafe s) (ending : LiftEnding) : LiftSafe (endLift ending s) := by
  obtain ⟨-, -, tracked, weighings, window, mass, records⟩ := h
  obtain ⟨u, ends, ⟨rfl, unnumbered⟩ | ⟨l, number, openLift, -, rfl⟩⟩ := endLift_cases ending s
  · rw [ends]
    exact ended (by rw [tracked, unnumbered]; rfl) window mass records
  · obtain ⟨b, booked, lift, untracked, -, filed⟩ := handOver_lift ending l number s
    rw [ends]
    refine ended untracked ?_ ?_ fun r mem w weighed => ?_
    · rw [lift]
      rcases booked.window with same | cleared
      · rw [same]; exact window
      · rw [cleared]; exact Nat.zero_le _
    · rw [lift, booked.mass]; exact mass
    · rcases List.mem_append.mp (filed.subset mem) with old | new
      · exact records r old w weighed
      · rw [List.mem_singleton.mp new] at weighed
        exact weighings l w openLift weighed

theorem liftGpressExpiry (h : LiftSafe s) : LiftSafe (liftGpressExpiry s) := by
  unfold Machine.liftGpressExpiry
  split
  · exact keptInLift_liftSafe.modLift h (.modLift (.refl s))
  · exact h
  all_goals exact h.endLift _

theorem expireMeasurand (h : LiftSafe s) (m : Measurand) : LiftSafe (expireMeasurand m s) := by
  unfold Machine.expireMeasurand
  split
  · by_cases isGpress : m = .gpress
    · subst isGpress
      exact (keptInLift_liftSafe.same h).liftGpressExpiry
    · exact keptInLift_liftSafe.deliverExpiry (keptInLift_liftSafe.same h) isGpress
  · exact h

theorem activateSet (h : LiftSafe s) (set : TableSet) : LiftSafe (activateSet set s) := by
  have rearmed : LiftSafe (rearmed set s) :=
    (keptInLift_liftSafe.liftActivation (h.of_kept (.turned (.refl s) set))).of_kept (.queueActivation (.refl _) _)
  exact rearmed.of_kept (.tallyActivation (.refl _) _)

theorem warmRestart (s : State) : LiftSafe (warmRestart s) := by
  refine ⟨rfl, fun asks => absurd asks (by simp [Machine.warmRestart]), ?_, fun l w found => (by cases found), Nat.zero_le _,
    Nat.zero_le _, fun r mem => (by cases mem)⟩
  simp [Machine.warmRestart, supWarmRestart_of_stale, openNumber]

theorem startFrom (pins : InputLevels) (s : State) : LiftSafe (startFrom pins s) :=
  ⟨rfl, fun asks => absurd asks (by simp [Machine.startFrom, startState, State.reset]), rfl,
    fun l w found => (by cases found), Nat.zero_le _, Nat.zero_le _, fun r mem => (by cases mem)⟩

theorem removeLifts (h : LiftSafe s) {rest : List LiftRecord} (suffix : rest <:+ s.queue.records) :
    LiftSafe (removeLifts rest s) := by
  obtain ⟨opens, numbered, tracked, weighings, window, mass, records⟩ := h
  have same : openNumber (Machine.removeLifts rest s) = openNumber s := openNumber_congr (by simp)
  simp only [LiftSafe, same, removeLifts_keeps, removeLifts_records]
  exact ⟨opens, numbered, tracked, weighings, window, mass, fun r mem => records r (suffix.subset mem)⟩

end LiftSafe

/-- Every operation keeps the lift controller's promise. -/
theorem keptByBlocks_liftSafe : KeptByBlocks LiftSafe where
  same h same := by
    obtain ⟨-, -, lift, queue, -, sup, -, -, -⟩ := same
    exact h.of_kept (.same (.refl _) lift (by rw [sup]) (by rw [queue]) (by rw [queue]))
  start := LiftSafe.startFrom
  assertReset h := h
  warmRestart _ := LiftSafe.warmRestart _
  readReport source payload h := keptInLift_liftSafe.readReport h source payload
  readOperatorState payload h := keptInLift_liftSafe.readOperatorState h payload
  expireMeasurand m h := h.expireMeasurand m
  clearWindow h := keptInLift_liftSafe.clearWindow h
  takeSetDown h due := keptInLift_liftSafe.takeSetDown h due
  evaluateWindow h _ := keptInLift_liftSafe.evaluateWindow h
  confirmGrip h empty := h.confirmGrip empty
  release h _ := h.endLift _
  failTare h taring := keptInLift_liftSafe.failTare h taring
  observe a b z h := h.of_kept (BothKept.observe (.refl _) a b z).lift
  serviceChange level h := h.of_kept (BothKept.supServiceChange (.refl _) level).lift
  alertToggle h := h.of_kept (BothKept.alertToggle (.refl _)).lift
  clockEvent event h := keptInLift_liftSafe.clockEvent h event
  removeLifts h found := h.removeLifts (suffix_of_dropThrough found)
  clearBunk h := h.of_kept (.clearBunk (.refl _))
  openStaging h := h
  writeStaging _ h _ _ := h
  checkStaging h _ := h
  activateSet h _ := h.activateSet _
  traceConfigure h _ := h
  traceEnable h := keptInLift_liftSafe.same h
  traceDisable h := h
  traceFlush h := h
  traceRead _ h := h

end Sys2Proof.Machine
end

