-- ==== Sys2Proof/Proofs/AccountSafe.lean ====
section
/-! PROOFS. Every step keeps the account of lifts (R91, R98, R99, R103, R104), the second part of O34. -/

namespace Sys2Proof.Machine

-- One theorem after another: side by side, so many small ones need more threads than the memory limit admits.
set_option Elab.async false

/-! ## The figures (R98 to R103) -/

/-- The tally's figures lie in their ranges, and the bunk total does not exceed the total delivered. -/
def TallySafe (t : Tally) : Prop :=
  t.bunkTotal ≤ t.totalDelivered ∧ t.totalDelivered ≤ 4294967295 ∧ ∀ a ∈ t.assortments.toList, AssortmentSafe a

/-- The bunk class is the one the total gives, in the tally and in supervision. -/
def ClassSafe (s : State) : Prop := s.tally.bunkClass = judgedClass s ∧ s.sup.bunkClass = s.tally.bunkClass

theorem accountSafe_iff (s : State) :
    AccountSafe s ↔ s.queue.records.length ≤ 32 ∧ TallySafe s.tally ∧ ClassSafe s := by
  simp only [AccountSafe, TallySafe, ClassSafe, and_assoc]

theorem satAdd_mono {cap a b : Nat} (h : a ≤ b) (x : Nat) : satAdd cap a x ≤ satAdd cap b x := by
  rw [satAdd_eq_min, satAdd_eq_min]
  omega

theorem satAdd_le (cap a x : Nat) : satAdd cap a x ≤ cap := by
  rw [satAdd_eq_min]
  omega

theorem assortmentSafe_modAssortment {t : Tally} (h : ∀ a ∈ t.assortments.toList, AssortmentSafe a) (i : Nat)
    {f : AssortmentTally → AssortmentTally} (keeps : ∀ a, AssortmentSafe a → AssortmentSafe (f a)) :
    ∀ a ∈ (t.modAssortment i f).assortments.toList, AssortmentSafe a := by
  intro a mem
  obtain ⟨j, valid, rfl⟩ := Vector.mem_iff_getElem.mp (Vector.mem_toList_iff.mp mem)
  have was : AssortmentSafe t.assortments[j] := h _ (Vector.mem_toList_iff.mpr (Vector.getElem_mem _))
  simp only [Tally.modAssortment, Vector.getElem_mapIdx]
  split
  · exact keeps _ was
  · exact was

/-- Booking keeps every figure in its range, and the bunk total at most the total delivered (R100 to R103). -/
theorem TallySafe.bookOutcome {t : Tally} (h : TallySafe t) (outcome : LiftOutcome) (assortment : Nat)
    (weighing : Option Weighing) : TallySafe (bookOutcome outcome assortment weighing t) := by
  obtain ⟨total, delivered, figures⟩ := id h
  cases outcome with
  | delivered =>
    cases weighing with
    | some w =>
      refine ⟨satAdd_mono total _, satAdd_le massCap _ _, assortmentSafe_modAssortment figures _ fun a safe => ?_⟩
      obtain ⟨-, -, rest⟩ := safe
      exact ⟨satAdd_le countCap _ _, satAdd_le massCap _ _, rest⟩
    | none =>
      refine ⟨total, delivered, assortmentSafe_modAssortment figures _ fun a safe => ?_⟩
      obtain ⟨count, mass, -, rest⟩ := safe
      exact ⟨count, mass, satAdd_le countCap _ _, rest⟩
  | unloaded =>
    cases weighing with
    | some w =>
      refine ⟨(Nat.sub_le _ _).trans total, delivered, assortmentSafe_modAssortment figures _ fun a safe => ?_⟩
      obtain ⟨count, mass, unweighed, -, -⟩ := safe
      exact ⟨count, mass, unweighed, satAdd_le countCap _ _, satAdd_le massCap _ _⟩
    | none =>
      refine ⟨total, delivered, assortmentSafe_modAssortment figures _ fun a safe => ?_⟩
      obtain ⟨count, mass, unweighed, -, unloaded⟩ := safe
      exact ⟨count, mass, unweighed, satAdd_le countCap _ _, unloaded⟩
  | dropped | shifted | unplaced | abandoned => exact h

/-- The figures that CLEAR BUNK leaves (R106). -/
theorem TallySafe.cleared (t : Tally) :
    TallySafe { t with assortments := Vector.replicate 32 {}, bunkTotal := 0, totalDelivered := 0, incomplete := false } := by
  refine ⟨Nat.le_refl 0, Nat.zero_le _, fun a mem => ?_⟩
  rw [(Vector.mem_replicate.mp (Vector.mem_toList_iff.mp mem)).2]
  exact ⟨Nat.zero_le _, Nat.zero_le _, Nat.zero_le _, Nat.zero_le _, Nat.zero_le _⟩

theorem bookOutcome_bunkClass (outcome : LiftOutcome) (assortment : Nat) (weighing : Option Weighing) (t : Tally) :
    (bookOutcome outcome assortment weighing t).bunkClass = t.bunkClass := by
  cases outcome <;> cases weighing <;> rfl

/-! ## The bunk class (R104) -/

/-- Where supervision has the tally's class, judging gives both the class of the total. -/
theorem ClassSafe.judgeClass {s : State} (agree : s.sup.bunkClass = s.tally.bunkClass) : ClassSafe (judgeClass s) := by
  refine ⟨?_, ?_⟩
  · simp [judgedClass, judgeClass_tally]
  · rw [judgeClass_sup_bunkClass, judgeClass_tally]
    split
    · next same => rw [agree]; exact same.symm
    · rfl

/-! ## The account -/

namespace AccountSafe

variable {s t : State}

theorem of_kept (h : AccountSafe s) (kept : AccountKept s t) (length : t.queue.records.length ≤ 32) : AccountSafe t := by
  obtain ⟨-, figures⟩ := h
  refine ⟨length, ?_⟩
  simpa only [judgedClass, kept.tally, kept.active, kept.bunkClass] using figures

/-- The lift controller, the trace, a sequence number: the account is not touched. -/
theorem same (h : AccountSafe s) (tally : t.tally = s.tally := by simp) (active : t.active = s.active := by simp)
    (bunkClass : t.sup.bunkClass = s.sup.bunkClass := by simp) (records : t.queue.records = s.queue.records := by simp) :
    AccountSafe t := h.of_kept ⟨tally, active, bunkClass⟩ (records ▸ h.1)

/-- Only the arms of the bunk notices change. -/
theorem of_arms (h : AccountSafe s) {warn full : Bool} (tally : t.tally = { s.tally with warnArm := warn, fullArm := full })
    (active : t.active = s.active := by simp) (sup : t.sup = s.sup := by simp) (queue : t.queue = s.queue := by simp) :
    AccountSafe t := by
  unfold AccountSafe judgedClass at h ⊢
  rw [tally, active, sup, queue]
  exact h

theorem raiseBunkNotices (h : AccountSafe s) (m : MachineRecord) : AccountSafe (raiseBunkNotices m s) :=
  h.of_arms (raiseBunkNotices_tally m s)

theorem setBunkArms (h : AccountSafe s) (m : MachineRecord) : AccountSafe (setBunkArms m s) := h.of_arms rfl

theorem judgeClass (length : s.queue.records.length ≤ 32) (figures : TallySafe s.tally)
    (agree : s.sup.bunkClass = s.tally.bunkClass) : AccountSafe (judgeClass s) := by
  refine (accountSafe_iff _).mpr ⟨by simpa using length, ?_, .judgeClass agree⟩
  rw [judgeClass_tally]
  exact figures

theorem book (h : AccountSafe s) (r : LiftRecord) : AccountSafe (book r s) := by
  obtain ⟨length, figures, judged, agree⟩ := (accountSafe_iff s).mp h
  have booked := figures.bookOutcome r.outcome r.assortment r.weighing
  have bunkClass := bookOutcome_bunkClass r.outcome r.assortment r.weighing s.tally
  unfold Machine.book afterBooking
  dsimp only
  split
  · next total =>
    refine (accountSafe_iff _).mpr ⟨length, booked, ?_, agree.trans bunkClass.symm⟩
    simpa [judgedClass, bunkClass, total] using judged
  · have rejudged := judgeClass (s := { s with tally := bookOutcome r.outcome r.assortment r.weighing s.tally })
      length booked (agree.trans bunkClass.symm)
    split
    · exact rejudged
    · split
      · exact rejudged.raiseBunkNotices _
      · exact rejudged.setBunkArms _

theorem fileRecord (h : AccountSafe s) (r : LiftRecord) : AccountSafe (fileRecord r s) := by
  refine h.of_kept ⟨by simp, by simp, by simp⟩ ?_
  obtain ⟨length, -⟩ := h
  rcases fileRecord_records r s with ⟨kept, -⟩ | ⟨kept, full⟩ | ⟨kept, room⟩ <;> rw [kept]
  · exact length
  · rw [List.length_append, List.length_drop, List.length_singleton]
    omega
  · rw [List.length_append, List.length_singleton]
    omega

theorem handOver (h : AccountSafe s) (ending : LiftEnding) (l : OpenLift) (number : BitVec 16 × BitVec 16) :
    AccountSafe (handOver ending l number s) := by
  have stopped : AccountSafe (trackStop s) := h.same rfl rfl rfl rfl
  exact (stopped.book _).fileRecord _

theorem endLift (h : AccountSafe s) (ending : LiftEnding) : AccountSafe (endLift ending s) := by
  obtain ⟨u, ends, ⟨rfl, -⟩ | ⟨l, number, -, -, rfl⟩⟩ := endLift_cases ending s
  · rw [ends]
    exact h.same
  · rw [ends]
    exact (h.handOver ending l number).same

theorem enterLifting (h : AccountSafe s) : AccountSafe (enterLifting s) := by
  cases openLift : s.lift.openLift with
  | none =>
    rw [enterLifting_of_none openLift]
    exact h.same
  | some l =>
    cases number : l.number with
    | none =>
      rw [enterLifting_of_unnumbered openLift number]
      exact h.same (by simp [numbered]) (by simp [numbered]) (by simp [numbered]) (by simp [numbered])
    | some _ =>
      rw [enterLifting_of_numbered openLift (by rw [number]; rfl)]
      exact h.same

end AccountSafe

/-- Every elementary change of the lift controller keeps the account. -/
theorem keptInLift_accountSafe : KeptInLift AccountSafe where
  both h kept := h.of_kept kept.account (kept.lift.records ▸ h.1)
  massed h _ := h
  fed h _ := h
  entered h _ _ _ := h
  lifting h _ := h.enterLifting
  weighed h _ := h.same

namespace AccountSafe

variable {s : State}

theorem confirmGrip (h : AccountSafe s) : AccountSafe (confirmGrip s) := by
  have opened : AccountSafe { s with lift := openedLift s } := h
  have gripped := keptInLift_accountSafe.clockEvent opened (.liftEvent .gripped)
  rw [confirmGrip_eq]
  dsimp only
  split
  · exact gripped.enterLifting
  · exact gripped

theorem liftGpressExpiry (h : AccountSafe s) : AccountSafe (liftGpressExpiry s) := by
  unfold Machine.liftGpressExpiry
  split
  · exact h
  · exact h
  all_goals exact h.endLift _

theorem expireMeasurand (h : AccountSafe s) (m : Measurand) : AccountSafe (expireMeasurand m s) := by
  unfold Machine.expireMeasurand
  split
  · by_cases isGpress : m = .gpress
    · subst isGpress
      exact (keptInLift_accountSafe.same h).liftGpressExpiry
    · exact keptInLift_accountSafe.deliverExpiry (keptInLift_accountSafe.same h) isGpress
  · exact h

theorem removeLifts (h : AccountSafe s) {rest : List LiftRecord} (suffix : rest <:+ s.queue.records) :
    AccountSafe (removeLifts rest s) := by
  refine h.of_kept ⟨by simp, by simp, by simp⟩ ?_
  rw [removeLifts_records]
  exact suffix.length_le.trans h.1

theorem clearBunk (h : AccountSafe s) : AccountSafe (clearBunk s) := by
  obtain ⟨length, -, -, agree⟩ := (accountSafe_iff s).mp h
  have judged := judgeClass (s := { s with tally := { s.tally with
    assortments := Vector.replicate 32 {}, bunkTotal := 0, totalDelivered := 0, incomplete := false } }) length
    (.cleared s.tally) agree
  unfold Machine.clearBunk
  dsimp only
  split
  · exact judged.setBunkArms _
  · exact judged

/-- At activation the class is judged with the new thresholds (R107). -/
theorem activateSet (h : AccountSafe s) (set : TableSet) : AccountSafe (activateSet set s) := by
  obtain ⟨length, figures, -, agree⟩ := (accountSafe_iff s).mp h
  have agreed := activateSet_bunkClass set s agree
  refine (accountSafe_iff _).mpr ⟨?_, ?_, ?_, agreed⟩
  · rw [activateSet_queue]; exact length
  · rw [activateSet_tally]; exact figures
  · rw [judgedClass_of_active set (activateSet_active set s), activateSet_tally]

theorem warmRestart (h : AccountSafe s) : AccountSafe (warmRestart s) := by
  obtain ⟨-, total, delivered, figures, judged, -⟩ := h
  refine ⟨Nat.zero_le _, total, delivered, figures, judged, ?_⟩
  simp [Machine.warmRestart, supWarmRestart_of_stale]

theorem startFrom (pins : InputLevels) (s : State) : AccountSafe (startFrom pins s) := by
  unfold AccountSafe AssortmentSafe
  simp [Machine.startFrom, startState, State.reset, supStart, judgedClass]

end AccountSafe

/-- Every operation keeps the account. -/
theorem keptByBlocks_accountSafe : KeptByBlocks AccountSafe where
  same h same := by
    obtain ⟨-, -, -, queue, tally, sup, active, -, -⟩ := same
    exact h.same tally active (by rw [sup]) (by rw [queue])
  start := AccountSafe.startFrom
  assertReset h := h
  warmRestart h := h.warmRestart
  readReport source payload h := keptInLift_accountSafe.readReport h source payload
  readOperatorState payload h := keptInLift_accountSafe.readOperatorState h payload
  expireMeasurand m h := h.expireMeasurand m
  clearWindow h := keptInLift_accountSafe.clearWindow h
  takeSetDown h due := keptInLift_accountSafe.takeSetDown h due
  evaluateWindow h _ := keptInLift_accountSafe.evaluateWindow h
  confirmGrip h _ := h.confirmGrip
  release h _ := h.endLift _
  failTare h taring := keptInLift_accountSafe.failTare h taring
  observe a b z h := keptInLift_accountSafe.both h (.observe (.refl _) a b z)
  serviceChange level h := keptInLift_accountSafe.both h (.supServiceChange (.refl _) level)
  alertToggle h := keptInLift_accountSafe.both h (.alertToggle (.refl _))
  clockEvent event h := keptInLift_accountSafe.clockEvent h event
  removeLifts h found := h.removeLifts (suffix_of_dropThrough found)
  clearBunk h := h.clearBunk
  openStaging h := h
  writeStaging _ h _ _ := h
  checkStaging h _ := h
  activateSet h _ := h.activateSet _
  traceConfigure h _ := h
  traceEnable h := keptInLift_accountSafe.same h
  traceDisable h := h
  traceFlush h := h
  traceRead _ h := h

end Sys2Proof.Machine
end

