-- ==== Sys2Proof/Proofs/SequenceNumbers.lean ====
section
/-! PROOFS. What the operations of a lift do to the sequence numbers of the queued records and of the open lift (R69, R90,
R91, R93). -/

namespace Sys2Proof.Machine

-- One theorem after another: side by side, so many small ones need more threads than the memory limit admits.
set_option Elab.async false

/-! ## How far a number lies behind the next (R90) -/

theorem sequenceAge_congr {s t : State} (next : t.queue.nextSequence = s.queue.nextSequence) : sequenceAge t = sequenceAge s := by
  funext number
  rw [sequenceAge, sequenceAge, next]

/-- A number taken puts every other one further behind. -/
theorem age_succ {next number : BitVec 16} (room : (next - number).toNat < 65535) :
    (next + 1 - number).toNat = (next - number).toNat + 1 := by
  bv_omega

theorem age_of_next (next : BitVec 16) : (next + 1 - next).toNat = 1 := by bv_omega

/-- One more number taken after numbers that ascend: every age grows by one, and the new one's is 1. -/
theorem ascending_succ {ages : List Nat} (h : (ages ++ [0]).Pairwise fun a b => b < a) :
    (ages.map (· + 1) ++ [1] ++ [0]).Pairwise fun a b => b < a := by
  have shifted : ages.map (· + 1) ++ [1] = (ages ++ [0]).map (· + 1) := by simp
  rw [shifted, List.pairwise_append]
  refine ⟨List.pairwise_map.mpr (h.imp fun h => Nat.add_lt_add_right h 1), List.pairwise_singleton _ _, fun a mem b last => ?_⟩
  obtain ⟨n, -, rfl⟩ := List.mem_map.mp mem
  rw [List.mem_singleton.mp last]
  exact Nat.succ_pos n

/-! ## The promise -/

theorem SequenceSafe.of_same {s t : State} (h : SequenceSafe s) (number : openNumber t = openNumber s)
    (next : t.queue.nextSequence = s.queue.nextSequence) (records : t.queue.records = s.queue.records) : SequenceSafe t := by
  unfold SequenceSafe at h ⊢
  rwa [number, records, sequenceAge_congr next]

/-- No record is queued and no lift open. -/
theorem SequenceSafe.of_empty {s : State} (number : openNumber s = none) (records : s.queue.records = []) : SequenceSafe s := by
  simp [SequenceSafe, number, records]

/-- The lift is closed, and only records that were queued, or a record with the lift's number, are left, in their order. -/
theorem SequenceSafe.of_closed {s t : State} (h : SequenceSafe s) (closed : openNumber t = none)
    (next : t.queue.nextSequence = s.queue.nextSequence)
    (left : (t.queue.records.map (·.sequence)).Sublist (s.queue.records.map (·.sequence) ++ (openNumber s).toList)) :
    SequenceSafe t := by
  have ages := (left.map (sequenceAge s)).append_right [0]
  unfold SequenceSafe at h ⊢
  rw [closed, sequenceAge_congr next]
  refine h.sublist ?_
  simpa [Function.comp_def] using ages

/-- The numbers are distinct and ascend, and where the open lift has none yet, the count may go on by one. -/
def SequenceReady (s : State) : Prop :=
  SequenceSafe s ∧ (openNumber s = none → ∀ r ∈ s.queue.records, sequenceAge s r.sequence < 65535)

namespace SequenceReady

variable {s t : State}

theorem of_same (h : SequenceReady s) (number : openNumber t = openNumber s)
    (next : t.queue.nextSequence = s.queue.nextSequence) (records : t.queue.records = s.queue.records) : SequenceReady t := by
  obtain ⟨safe, room⟩ := h
  refine ⟨safe.of_same number next records, ?_⟩
  rwa [number, records, sequenceAge_congr next]

theorem of_kept (h : SequenceReady s) (kept : LiftKept s t) : SequenceReady t :=
  h.of_same kept.openNumber kept.next kept.records

theorem of_empty (number : openNumber s = none) (records : s.queue.records = []) : SequenceReady s :=
  ⟨.of_empty number records, fun _ r mem => by rw [records] at mem; cases mem⟩

/-- The open lift takes the next number (R69). -/
theorem numbered (h : SequenceReady s) {l : OpenLift} (openLift : s.lift.openLift = some l) (untaken : l.number = none) :
    SequenceReady (numbered l s) := by
  obtain ⟨safe, room⟩ := h
  have unnumbered : openNumber s = none := by rw [openNumber_of_some openLift, untaken]; rfl
  have older : ∀ r ∈ s.queue.records, sequenceAge (Machine.numbered l s) r.sequence = sequenceAge s r.sequence + 1 :=
    fun r mem => age_succ (room unnumbered r mem)
  refine ⟨?_, fun none => by cases none⟩
  unfold SequenceSafe at safe ⊢
  rw [unnumbered] at safe
  have records : (Machine.numbered l s).queue.records.map (fun r => sequenceAge (Machine.numbered l s) r.sequence) =
      (s.queue.records.map fun r => sequenceAge s r.sequence).map (· + 1) := by
    rw [List.map_map]
    exact List.map_congr_left older
  have number : (openNumber (Machine.numbered l s)).toList.map (sequenceAge (Machine.numbered l s)) = [1] :=
    congrArg (fun n => [n]) (age_of_next _)
  rw [records, number]
  exact ascending_succ (by simpa using safe)

theorem enterLifting (h : SequenceReady s) : SequenceReady (enterLifting s) := by
  have entered : SequenceReady (enterLiftState .lifting s) := h.of_same (openNumber_congr (by simp)) (by simp) (by simp)
  cases openLift : s.lift.openLift with
  | none => rwa [enterLifting_of_none openLift]
  | some l =>
    cases number : l.number with
    | none =>
      rw [enterLifting_of_unnumbered openLift number]
      exact entered.numbered (by simpa using openLift) number
    | some _ => rwa [enterLifting_of_numbered openLift (by rw [number]; rfl)]

theorem liftWeighed (h : SequenceReady s) (mean : Nat) : SequenceReady (liftWeighed mean s) := by
  refine h.of_same ?_ (by simp) (by simp)
  unfold openNumber
  cases openLift : s.lift.openLift with
  | none => simp [Machine.liftWeighed, openLift]
  | some l => simp [Machine.liftWeighed, openLift]

end SequenceReady

/-- Every elementary change of the lift controller keeps the numbers distinct and ascending. -/
theorem keptInLift_sequenceReady : KeptInLift SequenceReady where
  both h kept := h.of_kept kept.lift
  massed h _ := h
  fed h _ := h
  entered h _ _ _ := h
  lifting h _ := h.enterLifting
  weighed h _ := h.liftWeighed _

/-! ## The beginning and the end of a lift -/

theorem openNumber_ended (u : State) : openNumber (enterEmpty { u with lift := u.lift.ended }) = none :=
  openNumber_of_none (by rw [enterEmpty_lift]; rfl)

/-- A new lift takes the place of none, and an unknown tool's takes a number at once (R69, R71). -/
theorem SequenceSafe.confirmGrip {s : State} (h : SequenceSafe s)
    (room : ∀ r ∈ s.queue.records, sequenceAge s r.sequence < 65535) : SequenceSafe (confirmGrip s) := by
  have opened : SequenceReady { s with lift := openedLift s } :=
    ⟨h.of_closed rfl rfl (List.sublist_append_left _ _), fun _ => room⟩
  have gripped := keptInLift_sequenceReady.clockEvent opened (.liftEvent .gripped)
  rw [confirmGrip_eq]
  dsimp only
  split
  · exact gripped.enterLifting.1
  · exact gripped.1

/-- The number of a lift that ends goes into its record, the newest (R84, R91). -/
theorem SequenceSafe.endLift {s : State} (h : SequenceSafe s) (ending : LiftEnding) : SequenceSafe (endLift ending s) := by
  obtain ⟨u, ends, ⟨rfl, unnumbered⟩ | ⟨l, number, openLift, taken, rfl⟩⟩ := endLift_cases ending s
  · rw [ends]
    exact h.of_same ((openNumber_ended _).trans unnumbered.symm) (by simp) (by simp)
  · obtain ⟨b, -, -, -, next, filed⟩ := handOver_lift ending l number s
    rw [ends]
    refine h.of_closed (openNumber_ended _) (by simpa using next) ?_
    rw [openNumber_of_some openLift, taken]
    simpa [buildRecord] using filed.map (·.sequence)

theorem SequenceSafe.liftGpressExpiry {s : State} (h : SequenceSafe s) : SequenceSafe (liftGpressExpiry s) := by
  unfold Machine.liftGpressExpiry
  split
  · exact h
  · exact h
  all_goals exact h.endLift _

namespace SequenceReady

variable {s : State}

theorem expireMeasurand (h : SequenceReady s) (m : Measurand) : SequenceSafe (expireMeasurand m s) := by
  unfold Machine.expireMeasurand
  split
  · by_cases isGpress : m = .gpress
    · subst isGpress
      exact SequenceSafe.liftGpressExpiry (keptInLift_sequenceReady.same h).1
    · exact (keptInLift_sequenceReady.deliverExpiry (keptInLift_sequenceReady.same h) isGpress).1
  · exact h.1

/-- DROP LIFTS leaves the newer records (R93). -/
theorem removeLifts (h : SequenceReady s) {rest : List LiftRecord} (suffix : rest <:+ s.queue.records) :
    SequenceReady (removeLifts rest s) := by
  have number : openNumber (Machine.removeLifts rest s) = openNumber s := openNumber_congr (by simp)
  have ages := sequenceAge_congr (removeLifts_next rest s)
  obtain ⟨safe, room⟩ := h
  refine ⟨?_, ?_⟩
  · unfold SequenceSafe at safe ⊢
    rw [number, ages, removeLifts_records]
    exact safe.sublist (((suffix.sublist.map _).append_right _).append_right _)
  · rw [number, ages, removeLifts_records]
    exact fun none r mem => room none r (suffix.subset mem)

theorem activateSet (h : SequenceReady s) (set : TableSet) : SequenceReady (activateSet set s) := by
  have rearmed : SequenceReady (rearmed set s) :=
    (keptInLift_sequenceReady.liftActivation (h.of_kept (.turned (.refl s) set))).of_kept (.queueActivation (.refl _) _)
  exact rearmed.of_kept (.tallyActivation (.refl _) _)

theorem warmRestart (s : State) : SequenceReady (warmRestart s) := .of_empty rfl rfl

theorem startFrom (pins : InputLevels) (s : State) : SequenceReady (startFrom pins s) := .of_empty rfl rfl

end SequenceReady

end Sys2Proof.Machine
end

