-- ==== Sys2Proof/Proofs/LiftAndAccount.lean ====
section
/-! PROOFS. Settles O34. A step opens or ends a lift only by GRIP_CONFIRMED, RELEASE and the expiry of GPRESS; whatever else
it does leaves room for one number more. So the sequence numbers are followed here through management and the link, which
perform several operations in a step, and those three are taken by themselves. -/

namespace Sys2Proof.Machine

-- One theorem after another: side by side, so many small ones need more threads than the memory limit admits.
set_option Elab.async false

namespace SequenceReady

variable {s t : State}

/-- An operation of another block. -/
theorem same (h : SequenceReady s) (lift : t.lift = s.lift := by simp) (queue : t.queue = s.queue := by simp) :
    SequenceReady t := h.of_same (openNumber_congr (by rw [lift])) (by rw [queue]) (by rw [queue])

/-! ## Offers and replies (R25, R31, R170) -/

theorem offerHeld (h : SequenceReady s) : SequenceReady (offerHeld s) := by
  unfold Machine.offerHeld
  split
  · rename_i reply restart r rest _ _
    split
    · exact h
    · have placed : SequenceReady (dropHead (s.offer r.port reply)) := h.same
      dsimp only
      split
      · exact .warmRestart _
      · exact placed
    · have dropped : SequenceReady (dropHead s) := h.same
      dsimp only
      split
      · exact .warmRestart _
      · exact dropped
  · exact h

theorem endChain (h : SequenceReady s) (final : Status) (c : Chain) : SequenceReady (endChain final c s) :=
  offerHeld h.same

theorem makeOffers (h : SequenceReady s) (p : PortId) (offers : List Offer) : SequenceReady (makeOffers p offers s) := by
  unfold Machine.makeOffers
  induction offers generalizing s with
  | nil => exact h
  | cons o offers ih =>
    refine ih ?_
    cases o with
    | reply => exact KeptByBlocks.ifDue h fun _ => h.offerHeld
    | notice => exact same (t := attemptNotice s) h

theorem settleOffers (h : SequenceReady s) (p : PortId) : SequenceReady (settleOffers p s) := by
  unfold Machine.settleOffers
  dsimp only
  split
  · exact h.makeOffers p _
  · exact makeOffers h.same p _

theorem offerOwed (h : SequenceReady s) (p : PortId) : SequenceReady (offerOwed p s) := makeOffers h.same p _

theorem settleIfLeft (h : SequenceReady s) (p : PortId) (before : State) : SequenceReady (settleIfLeft p before s) :=
  KeptByBlocks.ifDue h fun _ => h.settleOffers p

/-! ## The chain of a request (R159 to R169) -/

theorem skipNext (h : SequenceReady s) (payload : List Byte) (c : Chain) : SequenceReady (skipNext payload c s) := by
  unfold Machine.skipNext
  split
  · exact h.endChain _ _
  · split
    · dsimp only
      split
      · exact h
      · exact h.endChain _ _
    · exact h.endChain _ _

theorem concludeOp {x : State × OpResult} (h : SequenceReady x.1) (payload : List Byte) (code : Byte) (more : Bool)
    (next : Nat) (c : Chain) : SequenceReady (concludeOp payload code more next c x) := by
  unfold Machine.concludeOp
  dsimp only
  split
  · exact h
  · exact h.same
  · split
    · split
      · exact h.skipNext _ _
      · exact h
    · exact h.endChain _ _
  · exact h.endChain _ _

/-- An operation that leaves the lift controller and the queue as they were. -/
theorem performs_of_same {perform : List Byte → Nat → State → State × OpResult}
    (lift : ∀ operands free s, (perform operands free s).1.lift = s.lift := by simp)
    (queue : ∀ operands free s, (perform operands free s).1.queue = s.queue := by simp) :
    KeptByBlocks.Performs SequenceReady perform := fun h operands free => h.same (lift operands free _) (queue operands free _)

theorem opDropLifts : KeptByBlocks.Performs SequenceReady opDropLifts := by
  intro s h operands free
  unfold Machine.opDropLifts
  split
  · exact h
  · exact KeptByBlocks.performIf h (h.removeLifts (suffix_of_dropThrough (by assumption))) _ _ _

theorem opClearBunk : KeptByBlocks.Performs SequenceReady opClearBunk :=
  fun h _ _ => KeptByBlocks.performIf h (h.of_kept (.clearBunk (.refl _))) _ _ _

theorem opActivate : KeptByBlocks.Performs SequenceReady opActivate := by
  intro s h operands free
  unfold Machine.opActivate
  split
  · exact h
  · split
    · exact h
    · exact KeptByBlocks.performIf h (h.activateSet _) _ _ _

theorem performWanted {perform : List Byte → Nat → State → State × OpResult}
    (keeps : KeptByBlocks.Performs SequenceReady perform) (h : SequenceReady s) (code : Byte) (wanted : List Byte → Bool) :
    SequenceReady (performWanted code wanted perform s) := by
  unfold Machine.performWanted
  split
  · exact h
  · split
    · exact h
    · split
      · exact concludeOp (KeptByBlocks.judged (I := SequenceReady) keeps h _ _ _) _ _ _ _ _
      · exact h

theorem performCode (h : SequenceReady s) (code : Byte) (operands : List Byte) (free : Nat) :
    SequenceReady (performCode code operands free s).1 := by
  unfold Machine.performCode
  split
  case h_7 => exact KeptByBlocks.judged (I := SequenceReady) opDropLifts h _ _ _
  case h_8 => exact KeptByBlocks.judged (I := SequenceReady) opClearBunk h _ _ _
  case h_14 => exact KeptByBlocks.judged (I := SequenceReady) opActivate h _ _ _
  case h_18 => exact h
  all_goals exact KeptByBlocks.judged (I := SequenceReady) performs_of_same h _ _ _

theorem performNext (h : SequenceReady s) : SequenceReady (performNext s) := by
  unfold Machine.performNext
  split
  · exact h
  · split
    · exact h.endChain _ _
    · exact concludeOp (h.performCode _ _ _) _ _ _ _ _

theorem runChain (h : SequenceReady s) (fuel : Nat) : SequenceReady (runChain fuel s) := by
  induction fuel generalizing s with
  | zero => exact h
  | succ fuel ih =>
    unfold Machine.runChain
    dsimp only
    split
    · exact ih h.performNext
    · exact h.performNext

theorem performRequest (h : SequenceReady s) : SequenceReady (performRequest s) := by
  unfold Machine.performRequest
  split
  · exact h.offerHeld
  · exact h
  · exact h
  · split
    · exact h.endChain _ _
    · exact h.endChain _ _
    · exact (h.runChain _).offerHeld

theorem completeCheck (h : SequenceReady s) : SequenceReady (completeCheck s) := by
  unfold Machine.completeCheck
  split
  · exact concludeOp (x := (_, _)) h.same _ _ _ _ _
  · exact h

/-! ## The link (01) -/

theorem badFrame (h : SequenceReady s) (p : PortId) (next : Framing) : SequenceReady (badFrame p next s) :=
  settleIfLeft h.same _ _

theorem goDown (h : SequenceReady s) (p : PortId) : SequenceReady (goDown p s) :=
  settleIfLeft (settleIfLeft h.same _ _) _ _

theorem headerComplete (h : SequenceReady s) (p : PortId) (header : List Byte) : SequenceReady (headerComplete p header s) := by
  unfold Machine.headerComplete
  split
  · exact h.badFrame _ _
  · dsimp only
    split
    · exact h.same
    · exact h.same

theorem frameByte (h : SequenceReady s) (p : PortId) (b : Byte) : SequenceReady (frameByte p b s) := by
  unfold Machine.frameByte
  dsimp only
  split
  · exact h.badFrame _ _
  · split
    · exact headerComplete h.same _ _
    · split
      · exact h.same
      · exact h.same

theorem readReport (h : SequenceReady s) (source : Byte) (payload : List Byte) : SequenceReady (readReport source payload s) :=
  keptInLift_sequenceReady.readReport h source payload

theorem readOperatorState (h : SequenceReady s) (payload : List Byte) : SequenceReady (readOperatorState payload s) :=
  keptInLift_sequenceReady.readOperatorState h payload

theorem handOn (h : SequenceReady s) (p : PortId) (t : Treatment) (bytes : List Byte) : SequenceReady (handOn p t bytes s) := by
  unfold Machine.handOn
  split
  · exact h
  · split
    · exact h.readReport _ _
    · exact h.readOperatorState _
  · exact h.same
  · exact h.same

theorem frameEnd (h : SequenceReady s) (p : PortId) : SequenceReady (frameEnd p s) := by
  unfold Machine.frameEnd
  dsimp only
  split
  · split
    · exact handOn h.same _ _ _
    · exact h.same
  · exact h.badFrame _ _

theorem frameSymbol (h : SequenceReady s) (p : PortId) (sym : LineSymbol) : SequenceReady (frameSymbol p sym s) := by
  unfold Machine.frameSymbol
  split
  · exact h.same
  · cases sym
    case data b => exact h.frameByte _ _
    case endFrame => exact h.frameEnd _
    all_goals exact h.badFrame _ _
  · exact h.same

theorem receive (h : SequenceReady s) (p : PortId) (sym : LineSymbol) : SequenceReady (receive p sym s) := by
  unfold Machine.receive
  split
  · exact h.same
  · dsimp only
    split
    · exact goDown h.same _
    · exact KeptByBlocks.ifDue h.same fun _ => settleOffers h.same _
  · dsimp only
    split
    · exact goDown h.same _
    · exact frameSymbol h.same _ _

theorem transmit (h : SequenceReady s) (p : PortId) : SequenceReady (transmit p s) := by
  unfold Machine.transmit
  split
  · exact h.same
  · exact settleIfLeft ((h.offerOwed p).same) _ _

/-! ## Commands, internal events and steps -/

/-- Every command keeps the numbers distinct and ascending. -/
theorem exec (h : SequenceReady s) (room : ∀ r ∈ s.queue.records, sequenceAge s r.sequence < 65535) (c : Instr)
    (answer : exec c s = .next t) : SequenceSafe t := by
  have ready {f : State → State} (keeps : SequenceReady (f s)) (answer : s.unlessReset f = .next t) : SequenceSafe t :=
    KeptByBlocks.unlessReset h.1 keeps.1 answer
  have performed {perform : List Byte → Nat → State → State × OpResult} (keeps : KeptByBlocks.Performs SequenceReady perform)
      {code : Byte} {wanted : List Byte → Bool} (answer : s.unlessReset (Machine.performWanted code wanted perform) = .next t) :
      SequenceSafe t := ready (performWanted keeps h code wanted) answer
  cases c
  case powerOn pins => cases answer; exact (startFrom pins s).1
  case resetReleased pins => cases answer; exact (startFrom pins s).1
  case resetAsserted => cases answer; exact h.1
  case transmitSymbol p => cases answer; exact (h.transmit p).1
  case receiveSymbol p sym => exact ready (h.receive p sym) answer
  case heldReplyOffer => exact ready h.offerHeld answer
  case noticeAttempt => exact ready h.same answer
  case polarityFlip p => exact ready (KeptByBlocks.ifDue h fun _ => h.same) answer
  case linkUp p => exact ready (KeptByBlocks.ifDue h fun _ => settleOffers h.same p) answer
  case lossOfSignal p => exact ready (KeptByBlocks.ifDue h fun _ => h.goDown p) answer
  case violationWindowFull p => exact ready (KeptByBlocks.ifDue h fun _ => h.goDown p) answer
  case sensorReport source payload => exact ready (h.readReport source payload) answer
  case operatorState payload => exact ready (h.readOperatorState payload) answer
  case freshnessExpiry m => exact KeptByBlocks.unlessReset h.1 (h.expireMeasurand m) answer
  case gapRunLimit => exact ready (KeptByBlocks.ifDue h fun _ => keptInLift_sequenceReady.clearWindow h) answer
  case setDown => exact ready (KeptByBlocks.ifDue h fun due => keptInLift_sequenceReady.takeSetDown h due) answer
  case windowEvaluation => exact ready (KeptByBlocks.ifDue h fun _ => keptInLift_sequenceReady.evaluateWindow h) answer
  case gripConfirmed => exact KeptByBlocks.unlessReset h.1 (KeptByBlocks.ifDue h.1 fun _ => h.1.confirmGrip room) answer
  case release => exact KeptByBlocks.unlessReset h.1 (KeptByBlocks.ifDue h.1 fun _ => h.1.endLift .released) answer
  case tareTimerExpiry => exact ready (KeptByBlocks.ifDue h fun due => keptInLift_sequenceReady.failTare h due.1) answer
  case encoderObservation a b z => exact ready (h.of_kept (BothKept.observe (.refl s) a b z).lift) answer
  case serviceInputChange level => exact ready (h.of_kept (BothKept.supServiceChange (.refl s) level).lift) answer
  case alertFlashToggle => exact ready h.same answer
  case traceCapture event => exact ready h.same answer
  case shapeValveDemand dest source _ payload => exact ready h.same answer
  case takeRequest p source payload => exact ready h.same answer
  case performRequest => exact ready h.performRequest answer
  case checkStagingComplete => exact ready h.completeCheck answer
  case warmRestartPerformed =>
    unfold Machine.exec execWarmRestartPerformed at answer
    refine ready ?_ answer
    split
    · exact h.offerHeld
    · exact h
  case dropLifts => exact performed opDropLifts answer
  case clearBunk => exact performed opClearBunk answer
  case activate => exact performed opActivate answer
  all_goals exact performed performs_of_same answer

/-- Every internal event keeps them. -/
theorem internalEvents (h : SequenceReady s) (room : ∀ r ∈ s.queue.records, sequenceAge s r.sequence < 65535) :
    ∀ e ∈ internalEvents s, e.due = true → SequenceSafe e.taken := by
  simp only [Machine.internalEvents, List.forall_mem_cons]
  refine ⟨fun _ => (h.offerOwed .cab).1, fun _ => (h.offerOwed .crane).1, fun _ => h.expireMeasurand .f,
    fun _ => h.expireMeasurand .a, fun _ => h.expireMeasurand .reach, fun _ => h.expireMeasurand .pitch,
    fun _ => h.expireMeasurand .roll, fun _ => h.expireMeasurand .gpress, fun _ => h.1.confirmGrip room,
    fun _ => h.1.endLift .released, fun due => (keptInLift_sequenceReady.failTare h ?_).1,
    fun _ => (same (t := alertToggle s) h).1, fun _ => h.completeCheck.1, fun _ => h.offerHeld.1, fun _ => h.performRequest.1,
    fun _ none => absurd none List.not_mem_nil⟩
  exact of_decide_eq_true (Bool.and_eq_true_iff.mp due).1

end SequenceReady

/-- Every step keeps the sequence numbers distinct and ascending. -/
theorem step_keeps_sequenceSafe {s t : State} (h : SequenceSafe s)
    (room : ∀ r ∈ s.queue.records, sequenceAge s r.sequence < 65535) (answer : step s = .next t) : SequenceSafe t := by
  have ready : SequenceReady s := ⟨h, fun _ => room⟩
  unfold step at answer
  split at answer
  · rename_i c rest _
    exact SequenceReady.exec (s := { s with pending := rest }) ready room c answer
  · cases answer
    unfold idle
    split
    · exact h
    · split
      · rename_i e found
        exact ready.internalEvents room e (List.mem_of_find?_eq_some found) (List.find?_some found)
      · exact h

/-- Settles O34: each promise is kept by every operation of a block, and the numbers by the one lift a step may open or end. -/
theorem everyStepKeepsLiftAndAccount : Obligations.EveryStepKeepsLiftAndAccount :=
  ⟨fun _ _ => keptByBlocks_liftSafe.step, fun _ _ => keptByBlocks_accountSafe.step, fun _ _ => step_keeps_sequenceSafe⟩

end Sys2Proof.Machine
end

