-- ==== Sys2Proof/Proofs/SampleMass.lean ====
section
/-! PROOFS. The sample mass, the suitability of a sample, and the liftoff (R60 to R62, R72, R73). Settles O27. -/

namespace Sys2Proof.Machine

-- One theorem after another: side by side, so many small ones need more threads than the memory limit admits.
set_option Elab.async false

/-! ## The mass of a force (R61) -/

/-- The sample mass is force·1000 over the effective gravity rounded half up, cut at 200000. -/
theorem massOf_nearest {force accel : Int} (positive : 0 ≤ force) (gravity : 300 ≤ 981 + accel) :
    ∃ m : Nat, massOf force accel = some m ∧ m ≤ 200000 ∧ 2 * (m : Int) * (981 + accel) ≤ 2000 * force + (981 + accel) ∧
      (m < 200000 → 2000 * force < (2 * (m : Int) + 1) * (981 + accel)) := by
  obtain ⟨f, rfl⟩ := Int.eq_ofNat_of_zero_le positive
  obtain ⟨g, effective⟩ := Int.eq_ofNat_of_zero_le (show (0 : Int) ≤ 981 + accel by omega)
  obtain ⟨below, above⟩ := roundHalfUp_nearest (f * 1000) (den := g) (by omega)
  have formed : massOf f accel = some (min 200000 (roundHalfUp (f * 1000) g)) := by
    rw [massOf, if_neg (by omega), effective, Int.toNat_natCast, Int.toNat_natCast]
  generalize roundHalfUp (f * 1000) g = q at below above formed
  have cut : min 200000 q * g ≤ q * g := Nat.mul_le_mul_right g (Nat.min_le_right _ _)
  refine ⟨_, formed, Nat.min_le_left _ _, ?_, fun uncut => ?_⟩
  · have : 2 * min 200000 q * g ≤ 2000 * f + g := by rw [Nat.mul_assoc]; omega
    rw [effective]
    exact_mod_cast this
  · have whole : min 200000 q = q := by omega
    have : 2000 * f < (2 * q + 1) * g := by rw [Nat.add_mul, Nat.mul_assoc]; omega
    rw [effective, whole]
    exact_mod_cast this

/-! ## The sample of a force (R60, R62) -/

section
variable {s : State} {set : TableSet} {channel : ChannelEntry} (gate : Nat) (force : Int)

theorem aConfigured_of_some (active : s.active = some set) (a : set.channelOf .a = some channel) : aConfigured s = true := by
  simp [aConfigured, active, a]

theorem aConfigured_of_none (absent : ∀ set, s.active = some set → set.channelOf .a = none) : aConfigured s = false := by
  unfold aConfigured
  cases active : s.active with
  | none => rfl
  | some set => simp [absent set active]

theorem sampleOf_of_configured (configured : aConfigured s = true) {report : Option Int} {a : Int}
    (value : report = some a ∨ (report = none ∧ s.fresh .a = true ∧ s.intake.a.value = a)) :
    sampleOf gate force report s =
      { mass := massOf force a, suitable := (massOf force a).isSome && decide (a.natAbs ≤ gate), static := false } := by
  rcases value with rfl | ⟨rfl, fresh, rfl⟩
  · simp [sampleOf, configured]
  · simp [sampleOf, configured, fresh]

theorem sampleOf_of_stale (configured : aConfigured s = true) (stale : s.fresh .a = false) :
    sampleOf gate force none s = { mass := none, suitable := false, static := false } := by
  simp [sampleOf, configured, stale]

theorem sampleOf_of_unconfigured (unconfigured : aConfigured s = false) (report : Option Int) :
    sampleOf gate force report s = { mass := massOf force 0, suitable := true, static := true } := by
  simp [sampleOf, unconfigured]

end

/-! ## The open lift takes note of a sample (R61, R62) -/

/-- The mass is the last sample mass, if the sample has one, and a static sample marks the lift. -/
def noted (l : OpenLift) (x : Sample) (s : State) : State :=
  { s with lift := { s.lift with
    lastSampleMass := x.mass.getD s.lift.lastSampleMass, openLift := some { l with static := l.static || x.static } } }

theorem noteStatic_noteMass {s : State} {l : OpenLift} (openLift : s.lift.openLift = some l) (x : Sample) :
    noteStatic x (noteMass x s) = noted l x s := by
  have isOpen : (noteMass x s).lift.openLift = some l := by rw [noteMass_eq]; exact openLift
  rw [noteStatic_of_some isOpen, noteMass_eq]
  rfl

theorem noted_of_mass {x : Sample} {m : Nat} (mass : x.mass = some m) (l : OpenLift) (s : State) :
    noted l x s = { s with lift := { s.lift with
      lastSampleMass := m, openLift := some { l with static := l.static || x.static } } } := by
  rw [noted, mass]
  rfl

theorem noted_of_none {x : Sample} (none : x.mass = none) (l : OpenLift) (s : State) :
    noted l x s = { s with lift := { s.lift with openLift := some { l with static := l.static || x.static } } } := by
  rw [noted, none]
  rfl

/-! ## The entry to LIFTING (R73) -/

theorem clockEvent_lift (event : ClockEvent) (s : State) : (clockEvent event s).lift = s.lift := by simp

/-- A lift that has its number enters LIFTING by one LIFT_EVENT, with nothing else told. -/
theorem enterLifting_again {s : State} {l : OpenLift} (openLift : s.lift.openLift = some l) (taken : l.number.isSome) :
    enterLifting s = clockEvent (.liftEvent .lifting) { s with lift := { s.lift with state := .lifting } } :=
  enterLifting_of_numbered openLift taken

/-- One that has none takes it with the entry, and supervision begins to keep its fields (R69, R90, R127). -/
theorem enterLifting_first {s : State} {l : OpenLift} (openLift : s.lift.openLift = some l) (untaken : l.number = none) :
    enterLifting s =
      { clockEvent (.liftEvent .lifting)
          { s with lift := { s.lift with state := .lifting, openLift := some (numberedLift s l) } } with
        queue := { s.queue with nextSequence := s.queue.nextSequence + 1 }, sup := { s.sup with tracking := true } } := by
  have same : numberedLift (enterLiftState .lifting s) l = numberedLift s l := by
    simp [numberedLift, State.activeGeneration, State.uCurrent, State.fresh]
  have event := clockEvent_liftEvent_modLift (s := s.modLift fun c => { c with state := .lifting })
    (f := fun c => { c with openLift := some (numberedLift s l) }) rfl .lifting
  have told : clockEvent (.liftEvent .lifting)
      { s with lift := { s.lift with state := .lifting, openLift := some (numberedLift s l) } } = _ := event
  have queue : (enterLiftState .lifting s).queue = s.queue := by simp
  have sup : (enterLiftState .lifting s).sup = s.sup := by simp
  rw [enterLifting_of_unnumbered openLift untaken, numbered, same, told, queue, sup]
  rfl

/-- Either way the entry is one LIFT_EVENT. -/
theorem enterLifting_told {s : State} {l : OpenLift} (openLift : s.lift.openLift = some l) :
    ∃ m queue sup,
      enterLifting s =
        { clockEvent (.liftEvent .lifting) { s with lift := { s.lift with state := .lifting, openLift := some m } } with
          queue, sup } ∧
      (∀ n, l.number = some n → m = l ∧ queue = s.queue ∧ sup = s.sup) ∧
      (l.number = none → m = numberedLift s l ∧ queue = { s.queue with nextSequence := s.queue.nextSequence + 1 } ∧
        sup = { s.sup with tracking := true }) := by
  by_cases untaken : l.number = none
  · refine ⟨_, _, _, enterLifting_first openLift untaken, fun n taken => ?_, fun _ => ⟨rfl, rfl, rfl⟩⟩
    rw [untaken] at taken
    cases taken
  · refine ⟨l, s.queue, s.sup, ?_, fun _ _ => ⟨rfl, rfl, rfl⟩, fun none => absurd none untaken⟩
    rw [enterLifting_again openLift (Option.isSome_iff_ne_none.mpr untaken), ← openLift, clockEvent_frame]

/-- The liftoff: what a sample at or above the liftoff net mass finds when it is processed in LIFTING (R72, R73). -/
theorem liftFSample_of_gripped {s : State} {l : OpenLift} {e : ToolEntry} (gripped : s.lift.state = .gripped)
    (openLift : s.lift.openLift = some l) (snapshot : l.snapshot = some e) (force : Int) (report : Option Int) :
    liftFSample force report s =
      if isLiftoff e l (sampleOf e.accelGate.toNat force report s) then
        liftingSample e (sampleOf e.accelGate.toNat force report s)
          (enterLifting (noted l (sampleOf e.accelGate.toNat force report s) s))
      else noted l (sampleOf e.accelGate.toNat force report s) s := by
  rw [← noteStatic_noteMass openLift]
  simp only [liftFSample, gripped, openLift, snapshot]

theorem isLiftoff_iff {e : ToolEntry} {l : OpenLift} {x : Sample} {m : Nat} (mass : x.mass = some m) :
    isLiftoff e l x = true ↔ (e.liftoffNet.toNat : Int) ≤ (m : Int) - (l.tareInUse.getD 0 : Nat) := by
  rw [isLiftoff, mass]
  exact decide_eq_true_iff

/-- Settles O27: the mass by its rounding, the sample by what there is of A, and the liftoff by whether the lift has its
number. -/
theorem sampleMassIsFormed : Obligations.SampleMassIsFormed := by
  refine ⟨fun force accel _ low => if_pos low, fun force accel positive _ gravity => massOf_nearest positive gravity, ?_, ?_⟩
  · intro gate force report s
    refine ⟨fun set e active a => ?_, fun absent => sampleOf_of_unconfigured gate force (aConfigured_of_none absent) report⟩
    have configured := aConfigured_of_some active a
    refine ⟨?_, fun a value => sampleOf_of_configured gate force configured value⟩
    rintro rfl stale
    exact sampleOf_of_stale gate force configured stale
  · intro force report s l e gripped openLift snapshot x net sampled
    have taken : liftFSample force report s =
        if isLiftoff e l x then liftingSample e x (enterLifting (noted l x s)) else noted l x s :=
      liftFSample_of_gripped gripped openLift snapshot force report
    refine ⟨fun none => ?_, fun m mass low => ?_, fun m mass liftoff => ?_⟩
    · rw [taken, if_neg (by simp [isLiftoff, none]), noted_of_none none]
    · rw [taken, if_neg (mt (isLiftoff_iff mass).mp (Int.not_le.mpr low)), noted_of_mass mass]
    · rw [if_pos ((isLiftoff_iff mass).mpr liftoff), noted_of_mass mass] at taken
      obtain ⟨entering, queue, sup, entered, again, first⟩ := enterLifting_told (l := sampled)
        (s := { s with lift := { s.lift with lastSampleMass := m, openLift := some sampled } }) rfl
      have lift := clockEvent_lift (.liftEvent .lifting) { s with lift := { s.lift with
        state := .lifting, lastSampleMass := m, openLift := some entering } }
      rw [entered] at taken
      refine ⟨_, taken, ?_, ?_, ?_, fun n number => ?_, fun none => ?_⟩
      · rw [clockEvent_frame]
      · rw [clockEvent_frame]
      · exact congrArg (fun lift => { clockEvent (.liftEvent .lifting) { s with lift } with queue, sup }) lift.symm
      · obtain ⟨rfl, rfl, rfl⟩ := again n number
        exact ⟨congrArg LiftController.openLift lift, rfl, rfl⟩
      · obtain ⟨rfl, rfl, rfl⟩ := first none
        exact ⟨congrArg LiftController.openLift lift, rfl, rfl⟩

end Sys2Proof.Machine
end

