-- ==== Sys2Proof/Proofs/WeighWindow.lean ====
section
/-! PROOFS. The weigh window in LIFTING: its evaluation, the set-down run and the gap run (R63, R64, R71, R74, R75).
Settles O30 and O28. -/

namespace Sys2Proof.Machine

-- One theorem after another: side by side, so many small ones need more threads than the memory limit admits.
set_option Elab.async false

/-- The bounds between which a quotient is rounded half up. -/
theorem roundHalfUp_bounds (num : Nat) {den : Nat} (pos : 0 < den) :
    2 * den * roundHalfUp num den ≤ 2 * num + den ∧ 2 * num + den < 2 * den * (roundHalfUp num den + 1) :=
  ⟨Nat.mul_div_le _ _, Nat.lt_mul_div_succ _ (by omega)⟩

section
variable {s : State} {e : ToolEntry}

/-! ## The evaluation (R64, R75) -/

theorem exec_windowEvaluation (running : s.inReset = false) (tool : windowTool s = some e) :
    exec .windowEvaluation s = .next (if s.lift.window.n = e.windowLength.toNat then evaluateWindow s else s) := by
  rw [← if_congr (windowDue_iff tool) rfl rfl]
  exact State.unlessReset_running _ s running

theorem Window.accepted_iff {w : Window} {lo hi : Nat} (least : w.least = some lo) (greatest : w.greatest = some hi) :
    w.accepted e = true ↔ hi ≤ lo + w.tolerance e := by
  simp only [accepted, least, greatest, Option.getD_some, decide_eq_true_eq]
  omega

theorem evaluateWindow_of_lifting (lifting : s.lift.state = .lifting) (tool : windowTool s = some e) :
    evaluateWindow s =
      if s.lift.window.accepted e then liftWeighed s.lift.window.mean s else countAttempt (clearWindow s) := by
  simp [evaluateWindow, tool, lifting]

theorem evaluateWindow_of_taring (taring : s.lift.state = .taring) (tool : windowTool s = some e) :
    evaluateWindow s = if s.lift.window.accepted e then tareAccepted e s.lift.window.mean s else clearWindow s := by
  simp [evaluateWindow, tool, taring]

variable {l : OpenLift}

theorem windowTool_of_lift (lifting : s.lift.state = .lifting) (openLift : s.lift.openLift = some l)
    (snapshot : l.snapshot = some e) : windowTool s = some e := by
  rw [windowTool_of_lifting lifting, openLift, Option.bind_some, snapshot]

/-- The lift is weighed: net is gross minus the tare in use, cut at 0. -/
theorem liftWeighed_of_some (openLift : s.lift.openLift = some l) (mean : Nat) :
    liftWeighed mean s = clockEvent (.liftEvent .weighed) { s with lift := { s.lift with
      state := .weighed, setDownRun := 0,
      openLift := some { l with weighing := some {
        gross := mean, net := mean - l.tareInUse.getD 0, belowTare := decide (mean < l.tareInUse.getD 0) } } } } := by
  have net : (netOf l mean).toNat = mean - l.tareInUse.getD 0 := by unfold netOf; omega
  have below : decide (netOf l mean < 0) = decide (mean < l.tareInUse.getD 0) := by
    rw [decide_eq_decide, netOf]
    omega
  rw [liftWeighed, State.modOpenLift_of_some openLift, net, below]
  rfl

theorem countAttempt_clearWindow (openLift : s.lift.openLift = some l) :
    countAttempt (clearWindow s) = { s with lift := { s.lift with
      window := {}, openLift := some { l with windowAttempts := min 255 (l.windowAttempts + 1) } } } := by
  rw [countAttempt, State.modOpenLift_of_some (s := clearWindow s) openLift, satAdd_eq_min]
  rfl

end

/-- Settles O30: the mean and the share by their rounding, and the window by the spread test. -/
theorem windowEvaluationInLifting : Obligations.WindowEvaluationInLifting := by
  intro s l e lo hi running lifting openLift snapshot w
  have tool := windowTool_of_lift lifting openLift snapshot
  have row := exec_windowEvaluation running tool
  have evaluated := evaluateWindow_of_lifting lifting tool
  refine ⟨fun other => by rw [row, if_neg other], fun full filled least greatest => ?_⟩
  have test := Window.accepted_iff (e := e) least greatest
  refine ⟨w.mean, roundHalfUp (w.mean * e.tolerance.toNat) 1000, roundHalfUp_bounds _ (Nat.pos_of_ne_zero filled),
    roundHalfUp_bounds (den := 1000) _ (by decide), fun within => ?_, fun outside => ?_⟩
  · rw [row, if_pos full, evaluated, if_pos (test.mpr within), liftWeighed_of_some openLift]
    cases l.tareInUse <;> rfl
  · rw [row, if_pos full, evaluated, if_neg (mt test.mp (Nat.not_le.mpr outside)), countAttempt_clearWindow openLift]

/-! ## A sample handed to the window (R63, R64) -/

/-- A window that a suitable mass joins. -/
def Window.joined (w : Window) (m : Nat) : Window :=
  { n := w.n + 1, sum := w.sum + m, gapRun := 0,
    least := some (match w.least with | some a => min m a | none => m),
    greatest := some (match w.greatest with | some a => max m a | none => m) }

theorem Window.feed_eq_joined {x : Sample} {m : Nat} (suitable : x.suitable = true) (mass : x.mass = some m) (w : Window) :
    w.feed x = w.joined m := by
  rw [feed_suitable suitable mass, joined]
  cases w.least <;> cases w.greatest <;> rfl

section
variable {s : State} {e : ToolEntry} {x : Sample} (tool : windowTool s = some e)
include tool

/-- A suitable sample joins the window, which it may fill. -/
theorem feedWindow_of_suitable {m : Nat} (suitable : x.suitable = true) (mass : x.mass = some m) (limit : e.gapLimit.toNat ≠ 0) :
    feedWindow x s =
      if s.lift.window.n + 1 = e.windowLength.toNat then
        evaluateWindow { s with lift := { s.lift with window := s.lift.window.joined m } }
      else { s with lift := { s.lift with window := s.lift.window.joined m } } := by
  have fed := feedWindow_eq tool x
  have running : ¬e.gapLimit.toNat ≤ (s.lift.window.joined m).gapRun := by simp [Window.joined, limit]
  simp only [Window.feed_eq_joined suitable mass, if_neg running] at fed
  exact fed

/-- An unsuitable one lengthens the gap run. -/
theorem feedWindow_of_unsuitable (unsuitable : x.suitable = false) (short : s.lift.window.gapRun + 1 < e.gapLimit.toNat)
    (unfilled : s.lift.window.n ≠ e.windowLength.toNat) :
    feedWindow x s =
      { s with lift := { s.lift with window := { s.lift.window with gapRun := s.lift.window.gapRun + 1 } } } := by
  have fed := feedWindow_eq tool x
  simp only [Window.feed_unsuitable unsuitable, if_neg (Nat.not_le.mpr short), if_neg unfilled] at fed
  exact fed

/-- And at the gap limit it clears the window. -/
theorem feedWindow_of_gap (unsuitable : x.suitable = false) (gap : e.gapLimit.toNat ≤ s.lift.window.gapRun + 1)
    (length : e.windowLength.toNat ≠ 0) : feedWindow x s = { s with lift := { s.lift with window := {} } } := by
  have fed := feedWindow_eq tool x
  simp only [Window.feed_unsuitable unsuitable, if_pos gap, if_neg length.symm] at fed
  exact fed

end

/-! ## A force sample in LIFTING (R63, R71, R74) -/

section
variable {s : State} {l : OpenLift} {e : ToolEntry}

theorem setDownDue_iff (lifting : s.lift.state = .lifting) (tool : windowTool s = some e) :
    setDownDue s = true ↔ e.gapLimit.toNat ≤ s.lift.setDownRun := by
  simp [setDownDue, lifting, tool]

theorem setDownDue_of_not_lifting (notLifting : s.lift.state ≠ .lifting) : setDownDue s = false := by
  simp [setDownDue, notLifting]

theorem takeSetDown_eq (s : State) :
    takeSetDown s =
      clockEvent (.liftEvent .gripped) { s with lift := { s.lift with state := .gripped, window := {}, setDownRun := 0 } } := rfl

/-- The sample has counted, and its net has made the set-down run, before either acts. -/
def runCounted (run : Nat) (l : OpenLift) (s : State) : State :=
  { s with lift := { s.lift with
    setDownRun := run, openLift := some { l with sampleCount := min 65535 (l.sampleCount + 1) } } }

/-- A sample's run at the gap limit sets the load down; otherwise the window takes the sample. -/
theorem liftingSample_eq (lifting : s.lift.state = .lifting) (openLift : s.lift.openLift = some l)
    (snapshot : l.snapshot = some e) {x : Sample} {run : Nat} (counted : run = setDownRunAfter e l x s.lift.setDownRun) :
    liftingSample e x s =
      if e.gapLimit.toNat ≤ run then takeSetDown (runCounted run l s) else feedWindow x (runCounted run l s) := by
  have tool : windowTool (runCounted run l s) = some e := windowTool_of_lift (s := runCounted run l s) lifting rfl snapshot
  refine Eq.trans ?_ (if_congr (setDownDue_iff (s := runCounted run l s) lifting tool) rfl rfl)
  unfold liftingSample
  rw [openLift]
  dsimp only
  rw [State.modOpenLift_of_some openLift, satAdd_eq_min, counted]
  rfl

theorem liftFSample_of_lifting (lifting : s.lift.state = .lifting) (openLift : s.lift.openLift = some l)
    (snapshot : l.snapshot = some e) (force : Int) (report : Option Int) :
    liftFSample force report s =
      liftingSample e (sampleOf e.accelGate.toNat force report s) (noted l (sampleOf e.accelGate.toNat force report s) s) := by
  rw [← noteStatic_noteMass openLift]
  simp only [liftFSample, lifting, openLift, Option.bind_some, snapshot]

/-! ## Commands of the window (R63, R74) -/

theorem exec_gapRunLimit (running : s.inReset = false) (tool : windowTool s = some e) :
    exec .gapRunLimit s =
      .next (if e.gapLimit.toNat ≤ s.lift.window.gapRun then { s with lift := { s.lift with window := {} } } else s) := by
  rw [← if_congr (gapRunDue_iff tool) rfl rfl]
  exact State.unlessReset_running _ s running

theorem exec_setDown (running : s.inReset = false) :
    exec .setDown s = .next (if setDownDue s then takeSetDown s else s) := State.unlessReset_running _ s running

end

/-- Settles O28: a sample by its set-down run, then by its suitability and what the window is with it. -/
theorem setDownAndTheGapRun : Obligations.SetDownAndTheGapRun := by
  refine ⟨?_, ?_, ?_⟩
  · intro s l e x lifting openLift snapshot massed run counted w
    have net : run = setDownRunAfter e l x s.lift.setDownRun := by
      simp only [run, setDownRunAfter]
      cases x.mass <;> rfl
    have sampled := liftingSample_eq lifting openLift snapshot net
    have tool : windowTool (runCounted run l s) = some e := windowTool_of_lift (s := runCounted run l s) lifting rfl snapshot
    refine ⟨fun atLimit => ?_, fun below unsuitable short unfilled => ?_, fun below unsuitable gap length => ?_,
      fun m below suitable mass => ?_⟩
    · rw [sampled, if_pos atLimit]
      exact takeSetDown_eq _
    · rw [sampled, if_neg (Nat.not_le.mpr below)]
      exact feedWindow_of_unsuitable tool unsuitable short unfilled
    · rw [sampled, if_neg (Nat.not_le.mpr below)]
      exact feedWindow_of_gap tool unsuitable gap fun zero => length (BitVec.eq_of_toNat_eq zero)
    · rw [if_neg (Nat.not_le.mpr below)] at sampled
      intro joined
      have fed : feedWindow x (runCounted run l s) = if w.n + 1 = e.windowLength.toNat then evaluateWindow joined else joined :=
        feedWindow_of_suitable tool suitable mass (Nat.ne_of_gt (Nat.zero_lt_of_lt below))
      refine ⟨fun unfilled => ?_, fun filled running => ?_⟩
      · rw [sampled, fed, if_neg unfilled]
      · rw [sampled, fed]
        exact exec_windowEvaluation (s := joined) running tool
  · intro force report s
    refine ⟨fun idle => ?_, fun l busy openLift unknown => ?_, fun l e lifting openLift snapshot => ?_⟩
    · rcases idle with state | state | state <;> simp only [liftFSample, state]
    · rcases busy with state | state <;> simp [liftFSample, state, openLift, unknown]
    · refine ⟨sampleOf_mass_of_suitable, ?_⟩
      rw [liftFSample_of_lifting lifting openLift snapshot]
      cases mass : (sampleOf e.accelGate.toNat force report s).mass with
      | some m => rw [noted_of_mass mass]
      | none => rw [noted_of_none mass]
  · intro s running
    have down := exec_setDown running
    refine ⟨fun untooled => ⟨?_, ?_⟩, fun e tool => ⟨fun gap => ?_, fun short => ?_, fun stays => ?_, fun lifting atLimit => ?_⟩⟩
    · exact (State.unlessReset_running _ s running).trans (by simp [gapRunDue, untooled])
    · rw [down, setDownDue, untooled]
      simp
    · rw [exec_gapRunLimit running tool, if_pos gap]
    · rw [exec_gapRunLimit running tool, if_neg (Nat.not_le.mpr short)]
    · have notDue : ¬setDownDue s = true := by
        rcases stays with notLifting | below
        · rw [setDownDue_of_not_lifting notLifting]
          exact Bool.false_ne_true
        · simp [setDownDue, tool, below]
      rw [down, if_neg notDue]
    · rw [down, if_pos ((setDownDue_iff lifting tool).mpr atLimit), takeSetDown_eq]

end Sys2Proof.Machine
end

