-- ==== Sys2Proof/Proofs/Taring.lean ====
section
/-! PROOFS. TARING: its samples and its ends (R58, R60, R63 to R67, R70). Settles O31. -/

namespace Sys2Proof.Machine

-- One theorem after another: side by side, so many small ones need more threads than the memory limit admits.
set_option Elab.async false

/-! ## The entry to EMPTY (R58, R83) -/

/-- EMPTY is entered by a lift event, and a pending tool change is applied. -/
theorem enterEmpty_eq (u : State) :
    enterEmpty u =
      let t := clockEvent (.liftEvent .empty) { u with lift := { u.lift with state := .empty } }
      match u.lift.pendingTool with
      | none => t
      | some id =>
        if id = u.lift.selectedTool then { t with lift := { t.lift with pendingTool := none } }
        else { t with lift := { t.lift with pendingTool := none, selectedTool := id, workingTare := none } } := by
  have lift := enterLiftState_lift .empty u
  unfold enterEmpty applyPendingTool
  rw [lift]
  cases u.lift.pendingTool <;> rfl

/-! ## The tare that a window gives (R66) -/

section
variable {s : State} {e : ToolEntry} {mean : Nat}

theorem tareAccepted_of_within (within : mean ≤ e.tare.toNat + e.tare.toNat / 5 ∧ e.tare.toNat ≤ mean + e.tare.toNat / 5) :
    tareAccepted e mean s = enterEmpty (State.modLift (fun l => { l with tareTimer := none, window := {} })
      (State.notify .tareDone { s with lift := { s.lift with workingTare := some mean } })) := by
  unfold tareAccepted
  dsimp only
  rw [if_pos (by omega)]
  rfl

theorem tareAccepted_of_beyond
    (beyond : ¬(mean ≤ e.tare.toNat + e.tare.toNat / 5 ∧ e.tare.toNat ≤ mean + e.tare.toNat / 5)) :
    tareAccepted e mean s = enterEmpty (State.modLift (fun l => { l with tareTimer := none, window := {} })
      (s.notify .tareFailed)) := by
  unfold tareAccepted
  dsimp only
  rw [if_neg (by omega)]

/-! ## Samples and pressure in TARING (R60, R67, R70) -/

variable (taring : s.lift.state = .taring) (selected : selectedEntry s = some e)
include taring selected

theorem windowTool_of_selected : windowTool s = some e := (windowTool_of_taring taring).trans selected

/-- A force sample gives its mass, and the window takes it as a gross mass. -/
theorem liftFSample_of_taring (force : Int) (report : Option Int) :
    liftFSample force report s =
      feedWindow (sampleOf e.accelGate.toNat force report s)
        { s with lift := { s.lift with
          lastSampleMass := (sampleOf e.accelGate.toNat force report s).mass.getD s.lift.lastSampleMass } } := by
  rw [← noteMass_eq]
  simp only [liftFSample, taring, selected]

theorem liftGpress_of_taring_below {v : Int} (below : v < (e.closeThreshold.toNat : Int)) : liftGpress v s = s := by
  simp only [liftGpress, taring, taringPressure, selected, if_neg (Int.not_le.mpr below)]

/-- A closed grapple ends TARING, and the entry that then serves times the grip from this sample. -/
theorem liftGpress_of_taring_closed {v : Int} (closed : (e.closeThreshold.toNat : Int) ≤ v) {g : ToolEntry}
    (grip : gripParams (failTare s) = some g) : liftGpress v s = startGripTimer g (failTare s) := by
  simp only [liftGpress, taring, taringPressure, selected, if_pos closed, grip]

end

/-- The failed tare leaves the grip-confirm timer as it was. -/
theorem failTare_gripTimer (s : State) : (failTare s).lift.gripTimer = s.lift.gripTimer := by
  rw [failTare, enterEmpty_lift]
  simp

/-- The grip-confirm timer starts unless it runs (R70). -/
theorem startGripTimer_eq (g : ToolEntry) (s : State) :
    startGripTimer g s = { s with lift := { s.lift with
      gripTimer := s.lift.gripTimer.or (some (s.clock + BitVec.ofNat 32 g.gripConfirmTime.toNat)) } } := rfl

/-- After it the timer starts from this sample, unless it runs (R67, R70). -/
theorem startGripTimer_failTare (g : ToolEntry) (s : State) :
    startGripTimer g (failTare s) = { failTare s with lift := { (failTare s).lift with
      gripTimer := s.lift.gripTimer.or (some (s.clock + BitVec.ofNat 32 g.gripConfirmTime.toNat)) } } := by
  have clock : (failTare s).clock = s.clock := by simp
  rw [← failTare_gripTimer s, ← clock]
  exact startGripTimer_eq g (failTare s)

theorem exec_tareTimerExpiry {s : State} (running : s.inReset = false) :
    exec .tareTimerExpiry s = .next (if s.lift.state = .taring ∧ expired s.clock s.lift.tareTimer then failTare s else s) :=
  State.unlessReset_running _ s running

/-- Settles O31: the window's end by its spread and its mean, the timer's, and that of a closed grapple. -/
theorem taringEnds : Obligations.TaringEnds := by
  refine ⟨fun s e lo hi running taring selected => ?_, enterEmpty_eq⟩
  intro w
  have tool := windowTool_of_selected taring selected
  have row := exec_windowEvaluation running tool
  refine ⟨fun other => by rw [row, if_neg other], fun full filled least greatest => ?_, ?_, fun force report => ?_⟩
  · have test := Window.accepted_iff (e := e) least greatest
    have evaluated := evaluateWindow_of_taring taring tool
    rw [if_pos full] at row
    refine ⟨fun outside => ?_, fun inside => ?_⟩
    · rw [row, evaluated, if_neg (mt test.mp (Nat.not_le.mpr outside))]
      rfl
    · rw [if_pos (test.mpr inside)] at evaluated
      refine ⟨fun within => ?_, fun beyond => ?_⟩
      · rw [row, evaluated, tareAccepted_of_within within]
        rfl
      · rw [row, evaluated, tareAccepted_of_beyond beyond]
        rfl
  · intro failed
    have timer := exec_tareTimerExpiry running
    refine ⟨fun early => ?_, fun late => ?_, fun v => ⟨liftGpress_of_taring_below taring selected, fun g closed grip => ?_⟩⟩
    · rw [timer, if_neg (by simp [early])]
    · rw [timer, if_pos ⟨taring, late⟩]
      rfl
    · rw [liftGpress_of_taring_closed taring selected closed grip, startGripTimer_failTare]
      cases s.lift.gripTimer <;> rfl
  · intro x noted
    have taken : liftFSample force report s = feedWindow x (noted (x.mass.getD s.lift.lastSampleMass) w) :=
      liftFSample_of_taring taring selected force report
    have inUse : ∀ m next, windowTool (noted m next) = some e :=
      fun m next => windowTool_of_selected (s := noted m next) taring selected
    refine ⟨fun m mass suitable unfilled limit => ?_, fun unsuitable short unfilled => ?_, fun unsuitable gap length => ?_,
      fun m u mass suitable filled limit filling => ?_⟩
    · rw [taken, mass]
      exact (feedWindow_of_suitable (inUse m w) suitable mass limit).trans (if_neg unfilled)
    · rw [taken]
      exact feedWindow_of_unsuitable (inUse _ w) unsuitable short unfilled
    · rw [taken]
      exact feedWindow_of_gap (inUse _ w) unsuitable gap length
    · have fed : feedWindow x (noted m w) = evaluateWindow (noted m (w.joined m)) :=
        (feedWindow_of_suitable (inUse m w) suitable mass limit).trans (if_pos filled)
      have evaluation := exec_windowEvaluation (s := noted m (w.joined m)) running (inUse _ _)
      rw [taken, mass, Option.getD_some, fed, filling, Window.feed_eq_joined suitable mass, evaluation]
      exact congrArg _ (if_pos filled)

end Sys2Proof.Machine
end

