-- ==== Sys2Proof/Proofs/GrapplePressure.lean ====
section
/-! PROOFS. Grapple pressure: the entry that serves, grips, openings and regrips (R57, R58, R70, R71, R76, R77). Settles O29. -/

namespace Sys2Proof.Machine

-- One theorem after another: side by side, so many small ones need more threads than the memory limit admits.
set_option Elab.async false

/-! ## The entry that serves (R57, R58) -/

/-- The first entry with the tool id is the one found. -/
theorem TableSet.toolOf_of_first {set : TableSet} {before behind : List ToolEntry} {e : ToolEntry} {id : Nat}
    (tools : set.tools = before ++ e :: behind) (found : e.toolId.toNat = id) (first : ∀ d ∈ before, d.toolId.toNat ≠ id) :
    set.toolOf id = some e := by
  rw [TableSet.toolOf, tools, List.find?_append,
    List.find?_eq_none.mpr fun d mem => by simpa using first d mem, Option.none_or,
    List.find?_cons_of_pos (by simpa using found)]

theorem TableSet.toolOf_of_absent {set : TableSet} {id : Nat} (absent : ∀ d ∈ set.tools, d.toolId.toNat ≠ id) :
    set.toolOf id = none := List.find?_eq_none.mpr fun d mem => by simpa using absent d mem

/-- Of the best entry so far and another, the one with the lower tool id; the earlier of two with the same. -/
def lowerTool (best : Option ToolEntry) (e : ToolEntry) : Option ToolEntry :=
  match best with
  | some b => if e.toolId.toNat < b.toolId.toNat then some e else some b
  | none => some e

theorem TableSet.fallbackTool_eq (set : TableSet) : set.fallbackTool = set.tools.foldl lowerTool none := rfl

/-- Entries above a tool id leave the best entry above it, if there is one. -/
theorem foldl_lowerTool_above {n : Nat} {tools : List ToolEntry} (above : ∀ d ∈ tools, n < d.toolId.toNat)
    {best : Option ToolEntry} (bestAbove : ∀ b, best = some b → n < b.toolId.toNat) :
    ∀ b, tools.foldl lowerTool best = some b → n < b.toolId.toNat := by
  induction tools generalizing best with
  | nil => exact bestAbove
  | cons d tools ih =>
    obtain ⟨dAbove, above⟩ := List.forall_mem_cons.mp above
    refine ih above fun b found => ?_
    unfold lowerTool at found
    split at found
    · split at found
      · cases found; exact dAbove
      · cases found; exact bestAbove _ rfl
    · cases found; exact dAbove

/-- Entries at or above the best one's tool id leave it the best. -/
theorem foldl_lowerTool_kept {e : ToolEntry} {tools : List ToolEntry} (above : ∀ d ∈ tools, e.toolId.toNat ≤ d.toolId.toNat) :
    tools.foldl lowerTool (some e) = some e := by
  induction tools with
  | nil => rfl
  | cons d tools ih =>
    obtain ⟨dAbove, above⟩ := List.forall_mem_cons.mp above
    have kept : lowerTool (some e) d = some e := if_neg (Nat.not_lt.mpr dAbove)
    rw [List.foldl_cons, kept, ih above]

theorem TableSet.fallbackTool_of_lowest {set : TableSet} {before behind : List ToolEntry} {e : ToolEntry}
    (tools : set.tools = before ++ e :: behind) (lower : ∀ d ∈ before, e.toolId.toNat < d.toolId.toNat)
    (lowest : ∀ d ∈ behind, e.toolId.toNat ≤ d.toolId.toNat) : set.fallbackTool = some e := by
  have earlier := foldl_lowerTool_above lower (best := none) (fun b none => by cases none)
  have taken : lowerTool (before.foldl lowerTool none) e = some e := by
    unfold lowerTool
    split
    · next b best => exact if_pos (earlier b best)
    · rfl
  rw [TableSet.fallbackTool_eq, tools, List.foldl_append, List.foldl_cons, taken, foldl_lowerTool_kept lowest]

/-! ## Grips and openings (R70, R76) -/

section
variable {s : State} {l : OpenLift} {e : ToolEntry} {v : Int}

theorem liftGpress_of_empty (empty : s.lift.state = .empty) (grip : gripParams s = some e) :
    liftGpress v s = if (e.closeThreshold.toNat : Int) ≤ v then startGripTimer e s
      else { s with lift := { s.lift with gripTimer := none } } := by
  have pressed : liftGpress v s = gripPressure v s := by simp only [liftGpress, empty]
  rw [pressed, gripPressure, grip]
  rfl

theorem liftGpress_of_held (held : s.lift.state = .gripped ∨ s.lift.state = .lifting ∨ s.lift.state = .weighed)
    (openLift : s.lift.openLift = some l) (serves : liftParams s l = some e) :
    liftGpress v s = if v ≤ (e.openThreshold.toNat : Int) then openGrapple e s else s := by
  have pressed : liftGpress v s = heldPressure v s := by
    rcases held with state | state | state <;> simp only [liftGpress, state]
  rw [pressed, heldPressure, openLift, Option.bind_some, serves]

/-- The grapple opens into RELEASING with the details of the release. -/
theorem openGrapple_eq (openLift : s.lift.openLift = some l) :
    openGrapple e s = clockEvent (.liftEvent .releasing) { s with lift := { s.lift with
      state := .releasing, remembered := some s.lift.state, setDownRun := 0,
      regripTimer := some (s.clock + BitVec.ofNat 32 e.regripTime.toNat),
      openLift := some { l with opened := some {
        sector := s.lift.notedSector, assortment := s.intake.snapshot.assortment, time := s.clock } } } } := by
  rw [openGrapple, State.modOpenLift_of_some openLift]
  rfl

/-! ## Regrips (R77) -/

theorem liftGpress_of_releasing (releasing : s.lift.state = .releasing) (openLift : s.lift.openLift = some l)
    (serves : liftParams s l = some e) :
    liftGpress v s = if (e.closeThreshold.toNat : Int) ≤ v then regrip s else s := by
  simp only [liftGpress, releasing, releasingPressure, openLift, Option.bind_some, serves]

/-- The regrip is counted, and the regrip timer stopped, before the lift goes back. -/
def regripped (l : OpenLift) (s : State) : State :=
  { s with lift := { s.lift with
    regripTimer := none, remembered := none, openLift := some { l with regripCount := min 255 (l.regripCount + 1) } } }

theorem regrip_eq (openLift : s.lift.openLift = some l) :
    regrip s =
      match s.lift.remembered with
      | some .weighed => enterLifting (clearWindow ((regripped l s).modOpenLift fun l => { l with weighing := none }))
      | some .lifting => enterLifting (regripped l s)
      | _ => enterLiftState .gripped (regripped l s) := by
  unfold regrip
  rw [State.modOpenLift_of_some openLift, satAdd_eq_min]
  rfl

end

/-- Settles O29: the entry by the tool table's order, the sample by the lift state and its threshold, and a regrip by the
state it goes back to. -/
theorem pressureGripsOpensAndRegrips : Obligations.PressureGripsOpensAndRegrips := by
  refine ⟨fun s l => ⟨fun inactive => ?_, fun e snapshot => ?_, fun set before e behind active tools =>
    ⟨fun found first => ?_, fun lower lowest => ?_⟩⟩, fun v s e => ⟨fun empty grip => ?_, fun l openLift serves =>
    ⟨fun held => ?_, fun releasing => ⟨fun below => ?_, fun closed => ?_⟩⟩⟩⟩
  · simp [gripParams, liftParams, selectedEntry, inactive]
  · rw [liftParams, snapshot, Option.some_or]
  · simp [gripParams, selectedEntry, active, TableSet.toolOf_of_first tools found first]
  · have fallback := TableSet.fallbackTool_of_lowest tools lower lowest
    refine ⟨fun unknown => ?_, fun unknown => ?_⟩
    · simp [gripParams, selectedEntry, active, TableSet.toolOf_of_absent unknown, fallback]
    · simp [liftParams, unknown, active, fallback]
  · rw [liftGpress_of_empty empty grip]
    split
    · next closed =>
      rw [if_neg (Int.not_lt.mpr closed), startGripTimer_eq]
      cases s.lift.gripTimer <;> rfl
    · next below => rw [if_pos (Int.not_le.mp below)]
  · have pressed := liftGpress_of_held (v := v) held openLift serves
    refine ⟨fun above => ?_, fun opens => ?_⟩
    · rw [pressed, if_neg (Int.not_le.mpr above)]
    · rw [pressed, if_pos opens, openGrapple_eq openLift]
  · rw [liftGpress_of_releasing releasing openLift serves, if_neg (Int.not_le.mpr below)]
  · intro counted stopped
    have pressed := liftGpress_of_releasing (v := v) releasing openLift serves
    rw [if_pos closed, regrip_eq openLift] at pressed
    refine ⟨fun remembered => ?_, fun remembered numbered => ?_, fun remembered numbered => ?_⟩
    · rw [pressed, remembered]
      rfl
    · rw [pressed, remembered]
      exact enterLifting_again (s := regripped l s) (l := counted) rfl numbered
    · rw [pressed, remembered]
      exact enterLifting_again (l := { counted with weighing := none }) rfl numbered

end Sys2Proof.Machine
end

