-- ==== Sys2Proof/Proofs/GripConfirmed.lean ====
section
/-! PROOFS. A confirmed grip opens a lift (R69, R71, R73, R83, R90, R127). Settles O32. -/

namespace Sys2Proof.Machine

-- One theorem after another: side by side, so many small ones need more threads than the memory limit admits.
set_option Elab.async false

section
variable {s : State}

/-- A LIFT_EVENT under another lift controller with the same last sample mass. -/
theorem clockEvent_liftEvent_withLift {lift : LiftController} (mass : lift.lastSampleMass = s.lift.lastSampleMass)
    (st : LiftState) :
    clockEvent (.liftEvent st) { s with lift } = { clockEvent (.liftEvent st) s with lift } :=
  clockEvent_liftEvent_modLift (f := fun _ => lift) mass st

theorem exec_gripConfirmed (running : s.inReset = false) :
    exec .gripConfirmed s = .next (if s.lift.state = .empty ∧ expired s.clock s.lift.gripTimer then confirmGrip s else s) :=
  State.unlessReset_running _ s running

theorem confirmGrip_of_known (known : (newLift s).snapshot.isNone = false) :
    confirmGrip s = clockEvent (.liftEvent .gripped) { s with lift := openedLift s } := by
  rw [confirmGrip_eq]
  exact if_neg (Bool.eq_false_iff.mp known)

theorem confirmGrip_of_unknown (unknown : (newLift s).snapshot.isNone = true) :
    confirmGrip s = enterLifting { clockEvent (.liftEvent .gripped) s with lift := openedLift s } := by
  rw [← clockEvent_liftEvent_withLift (lift := openedLift s) rfl, confirmGrip_eq]
  exact if_pos unknown

/-- A known tool's lift has its entry, and the working tare or else the table tare. -/
theorem newLift_of_known {e : ToolEntry} (known : selectedEntry s = some e) :
    newLift s = {
      tool := s.lift.selectedTool, snapshot := some e,
      tareInUse := some (s.lift.workingTare.getD e.tare.toNat),
      workingTare := s.lift.workingTare.isSome, gripTime := s.clock, pickSector := s.lift.notedSector } := by
  rw [newLift, known]
  rfl

theorem newLift_of_unknown (unknown : selectedEntry s = none) :
    newLift s = {
      tool := s.lift.selectedTool, snapshot := none, tareInUse := none, workingTare := false, gripTime := s.clock,
      pickSector := s.lift.notedSector } := by
  rw [newLift, unknown]
  rfl

end

/-- Settles O32: GRIPPED's event under the lift controller as LIFTING's leaves it, which no event reads. -/
theorem gripConfirmedOpensALift : Obligations.GripConfirmedOpensALift := by
  intro s running
  have row := exec_gripConfirmed running
  refine ⟨fun early => ?_, fun empty late => ?_⟩
  · rw [row, if_neg]
    rintro ⟨empty, late⟩
    rcases early with notEmpty | early
    · exact notEmpty empty
    · rw [early] at late
      cases late
  · rw [if_pos ⟨empty, late⟩] at row
    refine ⟨fun e known => ?_, fun unknown => ?_⟩
    · have lift := newLift_of_known known
      rw [row, confirmGrip_of_known (by rw [lift]; rfl), openedLift, lift]
      dsimp only
      cases s.lift.workingTare <;> rfl
    · have lift := newLift_of_unknown unknown
      rw [confirmGrip_of_unknown (by rw [lift]; rfl)] at row
      have gripped : ∀ c : LiftController, c.lastSampleMass = s.lift.lastSampleMass →
          clockEvent (.liftEvent .gripped) { s with lift := c } = { clockEvent (.liftEvent .gripped) s with lift := c } :=
        fun c mass => clockEvent_liftEvent_withLift mass _
      rw [clockEvent_frame] at row gripped
      generalize (clockEvent (.liftEvent .gripped) s).trace = trace at row gripped
      generalize (clockEvent (.liftEvent .gripped) s).conditions = conditions at row gripped
      have entered := enterLifting_first (l := newLift s)
        (s := { s with lift := openedLift s, trace, conditions }) rfl (by rw [lift])
      rw [entered] at row
      have left := clockEvent_lift (.liftEvent .lifting) { s with
        trace, conditions,
        lift := { openedLift s with state := .lifting, openLift := some (numberedLift s (newLift s)) } }
      refine ⟨_, row, ?_, rfl, rfl, ?_, ?_⟩
      · refine left.trans ?_
        rw [lift]
        rfl
      · rw [clockEvent_frame]
      · have under := (congrArg (fun lift => clockEvent (.liftEvent .gripped) { s with lift }) left).trans (gripped _ rfl)
        exact congrArg (fun u => { clockEvent (.liftEvent .lifting) u with
          queue := { s.queue with nextSequence := s.queue.nextSequence + 1 }, sup := { s.sup with tracking := true } }) under.symm

end Sys2Proof.Machine
end

