-- ==== Sys2Proof/Proofs/Released.lean ====
section
/-! PROOFS. A released lift is handed over, booked and filed (R78, R84 to R89, R91, R92, R95, R127). Settles O33. -/

namespace Sys2Proof.Machine

-- One theorem after another: side by side, so many small ones need more threads than the memory limit admits.
set_option Elab.async false

/-! ## What a hand-over sends -/

namespace OnlyNoticesSent

variable {r s t : State}

/-- A notice raised by a block that has changed itself. -/
theorem notify_of_same (h : OnlyNoticesSent r s) (kind : NoticeKind) (cab : t.cab = s.cab := by rfl)
    (notices : t.notices = s.notices := by rfl) : OnlyNoticesSent r (t.notify kind) := (h.same cab notices).notify kind

theorem judgeClass (h : OnlyNoticesSent r s) : OnlyNoticesSent r (judgeClass s) := by
  unfold Machine.judgeClass
  dsimp only
  split
  · exact h
  · exact evaluate (h.same rfl rfl)

theorem raiseBunkNotices (h : OnlyNoticesSent r s) (m : MachineRecord) : OnlyNoticesSent r (raiseBunkNotices m s) := by
  have warned := h.notify_of_same (t := { s with tally := { s.tally with warnArm := false } }) .bunkWarn
  unfold Machine.raiseBunkNotices
  dsimp only
  split
  · split
    · exact warned.notify_of_same .bunkFull
    · exact h.notify_of_same .bunkFull
  · split
    · exact warned
    · exact h

theorem book (h : OnlyNoticesSent r s) (record : LiftRecord) : OnlyNoticesSent r (book record s) := by
  have booked : OnlyNoticesSent r { s with tally := bookOutcome record.outcome record.assortment record.weighing s.tally } :=
    h.same rfl rfl
  unfold Machine.book afterBooking
  split
  · exact booked
  · dsimp only
    split
    · exact booked.judgeClass
    · split
      · exact booked.judgeClass.raiseBunkNotices _
      · exact booked.judgeClass.same rfl rfl

theorem fileRecord (h : OnlyNoticesSent r s) (record : LiftRecord) : OnlyNoticesSent r (fileRecord record s) := by
  unfold Machine.fileRecord
  dsimp only
  split
  · split
    · exact h.same
    · exact h.same
  · split
    · exact h.notify_of_same .liftsWaiting
    · exact h.same rfl rfl

theorem endLift (h : OnlyNoticesSent r s) (ending : LiftEnding) : OnlyNoticesSent r (endLift ending s) := by
  obtain ⟨u, ends, ⟨rfl, -⟩ | ⟨l, number, -, -, rfl⟩⟩ := endLift_cases ending s
  · rw [ends]
    exact enterEmpty (h.same rfl rfl)
  · have stopped : OnlyNoticesSent r (trackStop s) := h.same rfl rfl
    rw [ends]
    exact enterEmpty (same ((stopped.book _).fileRecord _) rfl rfl)

end OnlyNoticesSent

/-! ## The end of a lift (R78) -/

theorem exec_release {s : State} (running : s.inReset = false) :
    exec .release s =
      .next (if s.lift.state = .releasing ∧ expired s.clock s.lift.regripTimer then endLift .released s else s) :=
  State.unlessReset_running _ s running

/-- However a lift ends, EMPTY is entered with no lift open and its timers stopped. -/
theorem endLift_lift (ending : LiftEnding) (s : State) :
    (endLift ending s).lift.state = .empty ∧ (endLift ending s).lift.openLift = none ∧
      (endLift ending s).lift.regripTimer = none ∧ (endLift ending s).lift.remembered = none := by
  obtain ⟨u, ends, -⟩ := endLift_cases ending s
  rw [ends, enterEmpty_lift]
  exact ⟨rfl, rfl, rfl, rfl⟩

theorem endLift_next (ending : LiftEnding) (s : State) :
    (endLift ending s).queue.nextSequence = s.queue.nextSequence := by
  obtain ⟨u, ends, ⟨rfl, -⟩ | ⟨l, number, -, -, rfl⟩⟩ := endLift_cases ending s
  · rw [ends]
    simp
  · obtain ⟨_, -, -, -, next, -⟩ := handOver_lift ending l number s
    rw [ends]
    simpa using next

/-- The record of a lift that was released (R86 to R89). -/
theorem buildRecord_released (s : State) {l : OpenLift} {o : OpenDetails} (opened : l.opened = some o)
    (sequence generation : BitVec 16) :
    buildRecord s .released l (sequence, generation) =
      { sequence, outcome := decideOutcome s .released l.pickSector o.sector, weighing := l.weighing, tool := l.tool,
        assortment := o.assortment, pickSector := l.pickSector, releaseSector := o.sector, generation,
        sampleCount := l.sampleCount, windowAttempts := l.windowAttempts, regripCount := l.regripCount, static := l.static,
        workingTare := l.workingTare, limitDuring := l.limitDuring, bypassed := l.bypassed, peak := l.peak,
        gripTime := l.gripTime, duration := min 65535 ((o.time - l.gripTime).toNat / 10) } := by
  simp only [buildRecord, opened]
  rfl

/-! ## Filing (R91, R92, R95) -/

section
variable {u : State} {set : TableSet} (active : u.active = some set) (record : LiftRecord)
include active

theorem machine_of_active : u.active.elim {} (·.machine) = set.machine := by rw [active, Option.elim_some]

/-- A record that takes the length past the threshold with the arm set raises LIFTS_WAITING, and clears the arm. -/
theorem fileRecord_of_waiting (room : u.queue.records.length < 32)
    (waiting : u.queue.records.length = set.machine.queueThreshold.toNat ∧ u.queue.waitingArm = true) :
    fileRecord record u = State.notify .liftsWaiting { u with queue := { u.queue with
      records := u.queue.records ++ [record], waitingArm := false } } := by
  obtain ⟨length, arm⟩ := waiting
  have notFull : ¬queuePlaces ≤ u.queue.records.length := Nat.not_le.mpr room
  unfold fileRecord
  dsimp only
  rw [machine_of_active active, if_neg notFull, if_pos ⟨by omega, by omega, arm⟩]

theorem fileRecord_of_quiet (room : u.queue.records.length < 32)
    (quiet : ¬(u.queue.records.length = set.machine.queueThreshold.toNat ∧ u.queue.waitingArm = true)) :
    fileRecord record u = { u with queue := { u.queue with records := u.queue.records ++ [record] } } := by
  have notFull : ¬queuePlaces ≤ u.queue.records.length := Nat.not_le.mpr room
  unfold fileRecord
  dsimp only
  rw [machine_of_active active, if_neg notFull, if_neg]
  rintro ⟨atMost, above, arm⟩
  exact quiet ⟨by omega, arm⟩

/-- At a full queue the overflow mode says whether the record takes the oldest one's place. -/
theorem fileRecord_of_full (full : 32 ≤ u.queue.records.length) :
    fileRecord record u =
      { u with
        conditions := u.conditions ||| BitVec.twoPow 32 Condition.queueOverflow.bit,
        queue := if set.machine.overflowMode = 2 then u.queue
          else { u.queue with records := u.queue.records.drop 1 ++ [record] } } := by
  have isFull : queuePlaces ≤ u.queue.records.length := full
  unfold fileRecord
  dsimp only
  rw [machine_of_active active, if_pos isFull]
  split
  · rfl
  · rfl

end

/-- Settles O33: the end by the lift's number, the record by its fields, and the filing by the length of the queue. -/
theorem releaseHandsTheLiftOver : Obligations.ReleaseHandsTheLiftOver := by
  refine ⟨fun s l running => ⟨fun early => ?_, fun releasing late openLift => ?_⟩, fun record set u active => ?_⟩
  · rw [exec_release running, if_neg]
    rintro ⟨releasing, late⟩
    rcases early with notReleasing | early
    · exact notReleasing releasing
    · rw [early] at late
      cases late
  · intro stopped
    have row := exec_release running
    rw [if_pos ⟨releasing, late⟩] at row
    refine ⟨?_, fun unnumbered => ?_, fun sequence generation o numbered opened => ?_⟩
    · obtain ⟨state, closed, timer, remembered⟩ := endLift_lift .released s
      exact ⟨_, row, state, closed, timer, remembered, by simp, by simp, by simp, by simp, by simp, by simp,
        endLift_next .released s, (OnlyNoticesSent.refl s).endLift _⟩
    · rw [row, endLift_of_unnumbered openLift unnumbered]
    · intro outcome made filed
      have built : buildRecord (trackStop s) .released l (sequence, generation) = made :=
        buildRecord_released (trackStop s) opened sequence generation
      rw [row, endLift_of_numbered openLift numbered, handOver, built]
      rfl
  · exact ⟨fun room => ⟨fileRecord_of_waiting active record room, fileRecord_of_quiet active record room⟩,
      fileRecord_of_full active record⟩

end Sys2Proof.Machine
end

