-- ==== Sys2Proof/Proofs/Booked.lean ====
section
/-! PROOFS. The outcome of a lift, and the account that booking it leaves (R84 to R86, R98 to R105). Settles O35 and O36. -/

namespace Sys2Proof.Machine

-- One theorem after another: side by side, so many small ones need more threads than the memory limit admits.
set_option Elab.async false

/-! ## The outcome (R85, R86) -/

theorem inBunk_iff {s : State} {x : Option Nat} : inBunk s x = true ↔
    ∃ set i e, s.active = some set ∧ x = some i ∧ i < set.sectorHeader.count.toNat ∧ set.sectors[i]? = some e ∧
      e.kind = 1 := by
  cases active : s.active with
  | none => simp [inBunk, active]
  | some set =>
    cases x with
    | none => simp [inBunk, active]
    | some i =>
      by_cases below : i < set.sectorHeader.count.toNat
      · cases entry : set.sectors[i]? <;> simp [inBunk, active, TableSet.sectorOf, below, entry]
      · simp [inBunk, active, TableSet.sectorOf, below]

theorem decideOutcome_released {s : State} {pick release : Option Nat} (known : release ≠ none) :
    decideOutcome s .released pick release =
      match inBunk s pick, inBunk s release with
      | false, true => .delivered
      | false, false => .dropped
      | true, false => .unloaded
      | true, true => .shifted := if_neg known

/-- Settles O35: a released lift with a known release sector has the outcome of the two judgements of R85. -/
theorem outcomeFollowsTheSectors : Obligations.OutcomeFollowsTheSectors := by
  intro s pick release bunk
  have inside : ∀ {x}, bunk x → inBunk s x = true := inBunk_iff.mpr
  have outside : ∀ {x}, ¬bunk x → inBunk s x = false := fun notBunk => Bool.eq_false_iff.mpr (mt inBunk_iff.mp notBunk)
  refine ⟨rfl, fun unknown => if_pos unknown, fun known => ?_⟩
  rw [decideOutcome_released known]
  refine ⟨fun p r => ?_, fun p r => ?_, fun p r => ?_, fun p r => ?_⟩
  · rw [outside p, inside r]
  · rw [outside p, outside r]
  · rw [inside p, outside r]
  · rw [inside p, inside r]

/-! ## The figures (R98 to R102) -/

/-- The figures of one assortment, as the statements of the account read them. -/
theorem getD_modAssortment (t : Tally) (i : Nat) (f : AssortmentTally → AssortmentTally) {j : Nat} (valid : j < 32) :
    (t.modAssortment i f).assortments.toList.getD j {} =
      if j = i then f (t.assortments.toList.getD j {}) else t.assortments.toList.getD j {} := by
  have get : ∀ v : Vector AssortmentTally 32, v.toList.getD j {} = v[j] := fun v => by
    rw [List.getD_eq_getElem _ _ (by simpa using valid), Vector.getElem_toList]
  rw [get, get, Tally.modAssortment, Vector.getElem_mapIdx]

section

variable (outcome : LiftOutcome) (assortment : Nat) (weighing : Option Weighing) (t : Tally)

/-- The net mass that a record carries. -/
def recordedNet (weighing : Option Weighing) : Nat :=
  match weighing with
  | some w => w.net
  | none => 0

/-- The figures of its assortment after a lift is booked (R100, R101). -/
def bookedFigures (outcome : LiftOutcome) (weighing : Option Weighing) (old : AssortmentTally) : AssortmentTally :=
  if outcome = .delivered then
    if weighing.isSome then { old with deliveredCount := min 65535 (old.deliveredCount + 1),
                                       deliveredMass := min 4294967295 (old.deliveredMass + recordedNet weighing) }
    else { old with unweighedDelivered := min 65535 (old.unweighedDelivered + 1) }
  else if outcome = .unloaded then
    if weighing.isSome then { old with unloadedCount := min 65535 (old.unloadedCount + 1),
                                       unloadedMass := min 4294967295 (old.unloadedMass + recordedNet weighing) }
    else { old with unloadedCount := min 65535 (old.unloadedCount + 1) }
  else old

theorem bookOutcome_figures {j : Nat} (valid : j < 32) :
    (bookOutcome outcome assortment weighing t).assortments.toList.getD j {} =
      if j = assortment then bookedFigures outcome weighing (t.assortments.toList.getD j {})
      else t.assortments.toList.getD j {} := by
  cases outcome with
  | delivered | unloaded =>
    cases weighing with
    | some w | none =>
      refine (getD_modAssortment t assortment _ valid).trans (if_congr Iff.rfl ?_ rfl)
      simp [bookedFigures, recordedNet, satAdd_eq_min, massCap, countCap]
  | dropped | shifted | unplaced | abandoned => simp [bookOutcome, bookedFigures]

theorem bookOutcome_bunkTotal :
    (bookOutcome outcome assortment weighing t).bunkTotal =
      if outcome = .delivered ∧ weighing.isSome then min 4294967295 (t.bunkTotal + recordedNet weighing)
      else if outcome = .unloaded ∧ weighing.isSome then t.bunkTotal - recordedNet weighing else t.bunkTotal := by
  cases outcome with
  | delivered => cases weighing <;> simp [bookOutcome, bookDelivered, Tally.modAssortment, satAdd_eq_min, massCap, recordedNet]
  | unloaded => cases weighing <;> simp [bookOutcome, bookUnloaded, Tally.modAssortment, recordedNet]
  | dropped | shifted | unplaced | abandoned => simp [bookOutcome]

theorem bookOutcome_totalDelivered :
    (bookOutcome outcome assortment weighing t).totalDelivered =
      if outcome = .delivered ∧ weighing.isSome then min 4294967295 (t.totalDelivered + recordedNet weighing)
      else t.totalDelivered := by
  cases outcome with
  | delivered => cases weighing <;> simp [bookOutcome, bookDelivered, Tally.modAssortment, satAdd_eq_min, massCap, recordedNet]
  | unloaded => cases weighing <;> simp [bookOutcome, bookUnloaded, Tally.modAssortment]
  | dropped | shifted | unplaced | abandoned => simp [bookOutcome]

theorem bookOutcome_incomplete :
    (bookOutcome outcome assortment weighing t).incomplete =
      (t.incomplete || decide (outcome = .unplaced ∨ outcome = .abandoned ∨
        ((outcome = .delivered ∨ outcome = .unloaded) ∧ weighing.isSome = false))) := by
  cases outcome with
  | delivered => cases weighing <;> simp [bookOutcome, bookDelivered, Tally.modAssortment]
  | unloaded => cases weighing <;> simp [bookOutcome, bookUnloaded, Tally.modAssortment]
  | dropped | shifted | unplaced | abandoned => simp [bookOutcome]

theorem bookOutcome_arms :
    (bookOutcome outcome assortment weighing t).warnArm = t.warnArm ∧
      (bookOutcome outcome assortment weighing t).fullArm = t.fullArm := by
  cases outcome <;> cases weighing <;> exact ⟨rfl, rfl⟩

end

/-! ## What booking writes -/

/-- From one state to another nothing but the tally has changed, and what an evaluation and a raise write. -/
def OnlyAccountWritten (s t : State) : Prop :=
  t.pending = s.pending ∧ t.choices = s.choices ∧ t.inReset = s.inReset ∧ t.clock = s.clock ∧
    t.strapValue = s.strapValue ∧ t.station = s.station ∧ t.crane = s.crane ∧ t.intake = s.intake ∧ t.slew = s.slew ∧
    t.queue = s.queue ∧ t.active = s.active ∧ t.staging = s.staging ∧ t.mgmt = s.mgmt

theorem OnlyAccountWritten.eq {s t : State} (h : OnlyAccountWritten s t) :
    t = { s with tally := t.tally, sup := t.sup, lift := t.lift, notices := t.notices, cab := t.cab,
                 conditions := t.conditions, trace := t.trace } := by
  cases t
  simp only [OnlyAccountWritten] at h
  simp only [h]

/-! ## Raising does not read the arms (R173) -/

/-- An attempt to send (R173). -/
theorem attemptNotice_eq (s : State) :
    attemptNotice s =
      if s.notices ≠ 0 ∧ noticeStation s ≠ 0 ∧ s.cab.hasPlace then
        { s with notices := 0, cab := s.cab.append { bytes := noticeFrame s, status := .whole } }
      else s := by
  unfold attemptNotice
  split
  · next due =>
    obtain ⟨-, -, place⟩ := due
    simp only [State.offer, State.port, place, if_true]
    rfl
  · rfl

section

variable {s : State} {tally : Tally} (total : tally.bunkTotal = s.tally.bunkTotal)
include total

/-- Of the tally a NOTICE gives the bunk total alone. -/
theorem noticeFrame_withTally : noticeFrame { s with tally } = noticeFrame s := by
  unfold noticeFrame noticePayload
  rw [total]
  rfl

theorem notify_withTally (k : NoticeKind) : State.notify k { s with tally } = { s.notify k with tally } := by
  have frame : noticeFrame (State.markPending k { s with tally }) = noticeFrame (s.markPending k) :=
    noticeFrame_withTally (s := s.markPending k) total
  unfold State.notify
  rw [attemptNotice_eq, attemptNotice_eq, frame]
  by_cases due : (s.markPending k).notices ≠ 0 ∧ noticeStation (s.markPending k) ≠ 0 ∧ (s.markPending k).cab.hasPlace
  · exact (if_pos due).trans (by rw [if_pos due]; rfl)
  · exact (if_neg due).trans (by rw [if_neg due]; rfl)

theorem notifyAll_withTally (kinds : List NoticeKind) :
    kinds.foldl (fun u k => State.notify k u) { s with tally } =
      { kinds.foldl (fun u k => State.notify k u) s with tally } := by
  induction kinds generalizing s with
  | nil => rfl
  | cons k kinds ih =>
    rw [List.foldl_cons, List.foldl_cons, notify_withTally total, ih]
    simpa using total

end

/-! ## The bunk notices (R105) -/

/-- The bunk notices that an increase raises. -/
def bunkNotices (m : MachineRecord) (tally : Tally) : List NoticeKind :=
  (if tally.warnArm = true ∧ m.bunkWarn.toNat ≤ tally.bunkTotal then [.bunkWarn] else []) ++
    if tally.fullArm = true ∧ m.bunkLimit.toNat ≤ tally.bunkTotal then [.bunkFull] else []

theorem raiseBunkNotices_eq (m : MachineRecord) (s : State) :
    raiseBunkNotices m s =
      (bunkNotices m s.tally).foldl (fun u k => State.notify k u) { s with tally := (raiseBunkNotices m s).tally } := by
  have arm : ∀ (arm : Bool) (reached : Prop) [Decidable reached],
      (arm && !decide reached) = if arm = true ∧ reached then false else arm := by
    intro arm reached _
    by_cases h : reached <;> simp [h]
  rw [raiseBunkNotices_tally, arm, arm]
  unfold raiseBunkNotices bunkNotices
  dsimp only
  simp only [Bool.and_eq_true, decide_eq_true_eq]
  by_cases warn : s.tally.warnArm = true ∧ m.bunkWarn.toNat ≤ s.tally.bunkTotal
  · by_cases full : s.tally.fullArm = true ∧ m.bunkLimit.toNat ≤ s.tally.bunkTotal
    · have tally (u : State) : (State.notify .bunkWarn u).tally = u.tally := by simp
      simp only [if_pos warn, if_pos full, tally]
      exact congrArg (State.notify .bunkFull) (notify_withTally
        (s := { s with tally := { s.tally with warnArm := false } })
        (tally := { s.tally with warnArm := false, fullArm := false }) rfl .bunkWarn).symm
    · simp only [if_pos warn, if_neg full]
      rfl
  · by_cases full : s.tally.fullArm = true ∧ m.bunkLimit.toNat ≤ s.tally.bunkTotal
    · simp only [if_neg warn, if_pos full]
      rfl
    · simp only [if_neg warn, if_neg full]
      rfl

/-- Judging the class is an evaluation with a class that differs (R104). -/
theorem judgeClass_eq (s : State) :
    judgeClass s =
      if (judgeClass s).tally.bunkClass = s.tally.bunkClass then s
      else evaluate { s with tally := (judgeClass s).tally,
                             sup := { s.sup with bunkClass := (judgeClass s).tally.bunkClass } } := by
  rw [judgeClass_tally]
  rfl

/-- An evaluation that judging the class brings about raises no bunk notice (R126). -/
theorem judgeClass_notifies (s : State) :
    ∃ kinds, Notifies kinds s (judgeClass s) ∧ .bunkWarn ∉ kinds ∧ .bunkFull ∉ kinds := by
  rw [judgeClass_eq]
  split
  · exact ⟨[], .refl s, by simp, by simp⟩
  · have told : Notifies [] s { s with
        tally := (judgeClass s).tally, sup := { s.sup with bunkClass := (judgeClass s).tally.bunkClass } } :=
      (Notifies.refl s).same rfl rfl
    refine ⟨_, told.evaluate, ?_, ?_⟩
    · split <;> simp [mem_stateNotices]
    · split <;> simp [mem_stateNotices]

/-! ## A new tally, judged (R104) -/

/-- A state that takes a tally whose class has been judged: supervision evaluates with a class that differs. -/
def judgedFrom (s : State) (tally : Tally) : State :=
  if tally.bunkClass = s.tally.bunkClass then { s with tally }
  else evaluate { s with tally, sup := { s.sup with bunkClass := tally.bunkClass } }

/-- Judging the class of new figures, told from the tally that is left when the arms have changed after it. -/
theorem judgeClass_eq_judgedFrom {s : State} {figures left : Tally} {warn full : Bool}
    (bunkClass : figures.bunkClass = s.tally.bunkClass) (warnArm : figures.warnArm = s.tally.warnArm)
    (fullArm : figures.fullArm = s.tally.fullArm)
    (leaves : left = { (judgeClass { s with tally := figures }).tally with warnArm := warn, fullArm := full }) :
    judgeClass { s with tally := figures } =
      judgedFrom s { left with warnArm := s.tally.warnArm, fullArm := s.tally.fullArm } := by
  have judged : (judgeClass { s with tally := figures }).tally =
      { left with warnArm := s.tally.warnArm, fullArm := s.tally.fullArm } := by
    rw [leaves, judgeClass_tally, ← warnArm, ← fullArm]
  rw [judgeClass_eq, judged]
  unfold judgedFrom
  dsimp only
  rw [bunkClass]
  split
  · next same =>
    rw [← judged, judgeClass_eq, judged, if_pos (same.trans bunkClass.symm)]
  · rfl

/-! ## Booking (R84, R100 to R105) -/

section

variable {r : LiftRecord} {s : State} {set : TableSet}

/-- The lift is in the figures, and the class is not yet judged. -/
def withBooked (r : LiftRecord) (s : State) : State :=
  { s with tally := bookOutcome r.outcome r.assortment r.weighing s.tally }

theorem book_of_unchanged (same : (withBooked r s).tally.bunkTotal = s.tally.bunkTotal) : book r s = withBooked r s :=
  if_pos same

theorem afterBooking_of_changed {u : State} {before : Nat} (active : u.active = some set)
    (changed : u.tally.bunkTotal ≠ before) :
    afterBooking before u =
      if before < u.tally.bunkTotal then raiseBunkNotices set.machine (judgeClass u)
      else setBunkArms set.machine (judgeClass u) := by
  have kept : (judgeClass u).active = some set := by simpa using active
  have total : (judgeClass u).tally.bunkTotal = u.tally.bunkTotal := by rw [judgeClass_tally]
  unfold afterBooking
  rw [if_neg changed]
  simp only [kept, total]

theorem book_of_changed (active : s.active = some set)
    (changed : (withBooked r s).tally.bunkTotal ≠ s.tally.bunkTotal) :
    book r s =
      if s.tally.bunkTotal < (withBooked r s).tally.bunkTotal then raiseBunkNotices set.machine (judgeClass (withBooked r s))
      else setBunkArms set.machine (judgeClass (withBooked r s)) := afterBooking_of_changed active changed

/-- What follows a booking leaves the figures as they were booked. -/
theorem book_figures (r : LiftRecord) (s : State) :
    (book r s).tally = { (withBooked r s).tally with
      bunkClass := (book r s).tally.bunkClass, warnArm := (book r s).tally.warnArm, fullArm := (book r s).tally.fullArm } := by
  unfold book afterBooking
  split
  · rfl
  · dsimp only
    split
    · rw [judgeClass_tally]; rfl
    · split
      · rw [raiseBunkNotices_tally, judgeClass_tally]; rfl
      · dsimp only [setBunkArms]; rw [judgeClass_tally]; rfl

/-- The tally that a booking leaves when it has changed the bunk total. -/
theorem book_tally_of_changed (active : s.active = some set)
    (changed : (withBooked r s).tally.bunkTotal ≠ s.tally.bunkTotal) :
    (book r s).tally = { (judgeClass (withBooked r s)).tally with
      warnArm := if s.tally.bunkTotal < (withBooked r s).tally.bunkTotal then
          s.tally.warnArm && decide ((withBooked r s).tally.bunkTotal < set.machine.bunkWarn.toNat)
        else s.tally.warnArm || decide ((withBooked r s).tally.bunkTotal < set.machine.bunkWarn.toNat),
      fullArm := if s.tally.bunkTotal < (withBooked r s).tally.bunkTotal then
          s.tally.fullArm && decide ((withBooked r s).tally.bunkTotal < set.machine.bunkLimit.toNat)
        else s.tally.fullArm || decide ((withBooked r s).tally.bunkTotal < set.machine.bunkLimit.toNat) } := by
  obtain ⟨warnArm, fullArm⟩ := bookOutcome_arms r.outcome r.assortment r.weighing s.tally
  rw [book_of_changed active changed]
  split
  · rw [raiseBunkNotices_tally, judgeClass_tally, ← warnArm, ← fullArm]
    simp only [← decide_not, Nat.not_le]
    rfl
  · dsimp only [setBunkArms]
    rw [judgeClass_tally, ← warnArm, ← fullArm]
    rfl

/-- The notices that follow a booking, told from the judged state and the tally that is left. -/
theorem book_eq_notifyAll (active : s.active = some set)
    (changed : (withBooked r s).tally.bunkTotal ≠ s.tally.bunkTotal) :
    book r s =
      (if s.tally.bunkTotal < (withBooked r s).tally.bunkTotal then bunkNotices set.machine (withBooked r s).tally
        else []).foldl (fun u k => State.notify k u)
        { judgeClass (withBooked r s) with tally := (book r s).tally } := by
  have kinds : bunkNotices set.machine (judgeClass (withBooked r s)).tally =
      bunkNotices set.machine (withBooked r s).tally := by rw [judgeClass_tally]; rfl
  rw [book_of_changed active changed, ← kinds]
  split
  · exact raiseBunkNotices_eq _ _
  · rfl

/-- The class that a booking leaves in supervision when it has changed it (R104). -/
theorem book_sup_bunkClass (active : s.active = some set)
    (changed : (withBooked r s).tally.bunkTotal ≠ s.tally.bunkTotal)
    (differs : (book r s).tally.bunkClass ≠ s.tally.bunkClass) :
    (book r s).sup.bunkClass = (book r s).tally.bunkClass := by
  have judged : (book r s).tally.bunkClass = judgedClass (withBooked r s) := by
    rw [book_tally_of_changed active changed, judgeClass_tally]
  have sup : (book r s).sup = (judgeClass (withBooked r s)).sup := by
    rw [book_of_changed active changed]
    split <;> simp
  have was : (withBooked r s).tally.bunkClass = s.tally.bunkClass := bookOutcome_bunkClass _ _ _ _
  rw [sup, judgeClass_sup_bunkClass, judged, was, if_neg (judged ▸ differs)]

theorem book_notifies (active : s.active = some set) :
    ∃ kinds, Notifies (kinds ++ if s.tally.bunkTotal < (withBooked r s).tally.bunkTotal then
        bunkNotices set.machine (withBooked r s).tally else []) s (book r s) ∧ .bunkWarn ∉ kinds ∧ .bunkFull ∉ kinds := by
  have booked : Notifies [] s (withBooked r s) := (Notifies.refl s).same rfl rfl
  by_cases changed : (withBooked r s).tally.bunkTotal = s.tally.bunkTotal
  · refine ⟨[], ?_, by simp, by simp⟩
    rw [if_neg changed.not_gt, book_of_unchanged changed]
    exact booked
  · obtain ⟨kinds, judged, noWarn, noFull⟩ := judgeClass_notifies (withBooked r s)
    refine ⟨kinds, ?_, noWarn, noFull⟩
    rw [book_eq_notifyAll active changed]
    exact Notifies.notifyAll (((booked.trans judged).tally _)) _

/-- The notices that follow a booking, in the words of the statement. -/
theorem bunkNotices_withBooked (m : MachineRecord) (r : LiftRecord) (s : State) :
    bunkNotices m (withBooked r s).tally =
      (if s.tally.warnArm = true ∧ m.bunkWarn.toNat ≤ (withBooked r s).tally.bunkTotal then [.bunkWarn] else []) ++
        if s.tally.fullArm = true ∧ m.bunkLimit.toNat ≤ (withBooked r s).tally.bunkTotal then [.bunkFull] else [] := by
  obtain ⟨warnArm, fullArm⟩ := bookOutcome_arms r.outcome r.assortment r.weighing s.tally
  rw [← warnArm, ← fullArm]
  rfl

end

/-- Settles O36: the figures are those of the booking; what follows is told apart by whether the bunk total changed. -/
theorem bookingKeepsTheAccount : Obligations.BookingKeepsTheAccount := by
  intro r set s active valid t weighedNet weighed fig old level1 level2
  have figures : t.tally = _ := book_figures r s
  have total : t.tally.bunkTotal = (withBooked r s).tally.bunkTotal := by rw [figures]
  have fig_eq : ∀ i, fig t i = (withBooked r s).tally.assortments.toList.getD i {} := fun i => by
    show t.tally.assortments.toList.getD i {} = _
    rw [figures]
  obtain ⟨kinds, told, noWarn, noFull⟩ := book_notifies (r := r) active
  refine ⟨fun i below other => ?_, ?_, ?_, ?_, ?_, fun changed => ?_, fun more => ?_, fun less => ?_, fun same => ?_,
    OnlyAccountWritten.eq (book_keeps r s), _, told, ?_, ?_⟩
  · exact (fig_eq i).trans ((bookOutcome_figures _ _ _ _ below).trans (if_neg other))
  · exact (fig_eq _).trans ((bookOutcome_figures _ _ _ _ valid).trans (if_pos rfl))
  · exact total.trans (bookOutcome_bunkTotal _ _ _ _)
  · rw [figures]
    exact bookOutcome_totalDelivered _ _ _ _
  · rw [figures]
    exact bookOutcome_incomplete _ _ _ _
  · have differs : (withBooked r s).tally.bunkTotal ≠ s.tally.bunkTotal := total ▸ changed
    have leaves := book_tally_of_changed active differs
    refine ⟨?_, book_sup_bunkClass active differs, ?_⟩
    · rw [total, leaves, judgeClass_tally]
      exact judgedClass_of_active set (x := withBooked r s) active
    · intro increased booked judged notices
      obtain ⟨warnArm, fullArm⟩ := bookOutcome_arms r.outcome r.assortment r.weighing s.tally
      have judgedEq : judgeClass (withBooked r s) = judged :=
        judgeClass_eq_judgedFrom (bookOutcome_bunkClass _ _ _ _) warnArm fullArm leaves
      have noticesEq : notices = if increased then bunkNotices set.machine (withBooked r s).tally else [] := by
        have increased_iff : increased ↔ s.tally.bunkTotal < t.tally.bunkTotal := Iff.rfl
        rw [bunkNotices_withBooked, ← total]
        by_cases more : increased <;> simp [notices, more, level1, level2]
      have sent := book_eq_notifyAll active differs
      rw [judgedEq, ← total] at sent
      rw [noticesEq]
      exact sent
  · have leaves := book_tally_of_changed active (total ▸ more.ne')
    rw [if_pos (total ▸ more), if_pos (total ▸ more)] at leaves
    rw [total]
    exact ⟨by rw [leaves], by rw [leaves]⟩
  · have notMore : ¬s.tally.bunkTotal < t.tally.bunkTotal := less.not_gt
    have leaves := book_tally_of_changed active (total ▸ less.ne)
    rw [if_neg (total ▸ notMore), if_neg (total ▸ notMore)] at leaves
    rw [total]
    exact ⟨by rw [leaves], by rw [leaves]⟩
  · have same : t = withBooked r s := book_of_unchanged (total ▸ same)
    obtain ⟨warnArm, fullArm⟩ := bookOutcome_arms r.outcome r.assortment r.weighing s.tally
    rw [same]
    exact ⟨rfl, bookOutcome_bunkClass _ _ _ _, warnArm, fullArm⟩
  · rw [bunkNotices_withBooked, total]
    split
    · next more => simp [more, noWarn, level1]
    · next notMore => simp [notMore, noWarn]
  · rw [bunkNotices_withBooked, total]
    split
    · next more => simp [more, noFull, level2]
    · next notMore => simp [notMore, noFull]

end Sys2Proof.Machine
end

