-- ==== Sys2Proof/Proofs/AccountOperations.lean ====
section
/-! PROOFS. Management's operations on the lift queue, the tally and the conditions, and WARM RESTART (R88, R93 to R95, R106,
R165, R166, R169, R171, R174). Settles O56. -/

namespace Sys2Proof.Machine

-- One theorem after another: side by side, so many small ones need more threads than the memory limit admits.
set_option Elab.async false

/-! ## An operation and its room (R159, R161) -/

section

variable {s : State} {r : Request} {c : Chain} {code : Byte} {more : Bool} {operands : List Byte} {next : Nat}

/-- An operation whose operands have an accepted length. -/
theorem unlessReset_performCoded (h : NextOperation s r c code more operands next)
    (perform : List Byte → Nat → State → State × OpResult) (accepted : operandLengthOk code operands.length = true) :
    s.unlessReset (performCoded code perform) =
      .next (concludeOp r.payload code more next c (perform operands c.free s)) := by
  obtain ⟨running, -⟩ := id h
  rw [State.unlessReset_running _ s running, performCoded_of_nextOperation h, judged, if_pos accepted]

theorem performIf_of_room {dataLength : Nat} (room : RoomFor c dataLength) (result : State × OpResult) (s : State) :
    performIf c.free dataLength result s = result := if_pos ((fits_iff_roomFor c dataLength).mpr room)

theorem performIf_of_noRoom {dataLength : Nat} (noRoom : ¬RoomFor c dataLength) (result : State × OpResult) (s : State) :
    performIf c.free dataLength result s = (s, .gives .noRoom []) := if_neg (mt (fits_iff_roomFor c dataLength).mp noRoom)

end

/-! ## PEEK LIFTS (R165) -/

/-- The records that fit are the longest run of the oldest ones that does. -/
theorem recordsThatFit_eq (space : Nat) (records : List LiftRecord) :
    ∃ n, recordsThatFit space records = (records.take n).flatMap recordBytes ∧ n ≤ records.length ∧
      (n < records.length → space < ((records.take (n + 1)).flatMap recordBytes).length) := by
  induction records generalizing space with
  | nil => exact ⟨0, rfl, Nat.le_refl 0, fun h => absurd h (Nat.lt_irrefl 0)⟩
  | cons x rest ih =>
    unfold recordsThatFit
    dsimp only
    split
    · next fits =>
      obtain ⟨n, taken, within, full⟩ := ih (space - (recordBytes x).length)
      refine ⟨n + 1, by rw [taken, List.take_succ_cons, List.flatMap_cons], Nat.succ_le_succ within, fun further => ?_⟩
      have := full (Nat.lt_of_succ_lt_succ further)
      rw [List.take_succ_cons, List.flatMap_cons, List.length_append]
      omega
    · next tooLong =>
      refine ⟨0, rfl, Nat.zero_le _, fun _ => ?_⟩
      simpa using tooLong

/-- The records that fit among the first `k`. -/
theorem recordsThatFit_take (space k : Nat) (records : List LiftRecord) :
    ∃ n, recordsThatFit space (records.take k) = (records.take n).flatMap recordBytes ∧ n ≤ k ∧
      ((records.take n).flatMap recordBytes).length ≤ space ∧
      (n < k → n < records.length → space < ((records.take (n + 1)).flatMap recordBytes).length) := by
  obtain ⟨n, taken, within, full⟩ := recordsThatFit_eq space (records.take k)
  rw [List.length_take] at within full
  have most : n ≤ k := by omega
  rw [List.take_take, Nat.min_eq_left most] at taken
  refine ⟨n, taken, most, taken ▸ length_recordsThatFit_le space _, fun below further => ?_⟩
  have longer := full (by omega)
  rwa [List.take_take, Nat.min_eq_left below] at longer

/-! ## The lift record (R88, R174) -/

theorem append_bytes32 (x : BitVec 32) :
    (x.extractLsb' 24 8 ++ x.extractLsb' 16 8 : BitVec 16) ++ (x.extractLsb' 8 8 ++ x.extractLsb' 0 8 : BitVec 16) = x := by
  have pair (i : Nat) : x.extractLsb' (i + 8) 8 ++ x.extractLsb' i 8 = x.extractLsb' i (8 + 8) :=
    BitVec.extractLsb'_append_extractLsb'_eq_extractLsb' rfl
  have whole : x.extractLsb' 16 16 ++ x.extractLsb' 0 16 = x.extractLsb' 0 (16 + 16) :=
    BitVec.extractLsb'_append_extractLsb'_eq_extractLsb' rfl
  rw [pair 16, pair 0]
  exact whole.trans BitVec.extractLsb'_eq_self

theorem field32_bytes32 (x : BitVec 32) : field32 (bytes32 x) 0 = x := append_bytes32 x

theorem recordBytes_fields (x : LiftRecord) : let b := recordBytes x;
    b.length = (if x.weighing.isSome then 30 else 22) ∧ field16 b 0 = x.sequence ∧
    byteAt b 2 = BitVec.ofNat 8 x.outcome.code ∧ byteAt b 3 = recordFlags x ∧
    byteAt b 4 = BitVec.ofNat 8 x.tool ∧ byteAt b 5 = BitVec.ofNat 8 x.assortment ∧ byteAt b 6 = sendSector x.pickSector ∧
    byteAt b 7 = sendSector x.releaseSector ∧ field16 b 8 = x.generation ∧ field16 b 10 = BitVec.ofNat 16 x.sampleCount ∧
    byteAt b 12 = BitVec.ofNat 8 x.windowAttempts ∧ byteAt b 13 = BitVec.ofNat 8 x.regripCount ∧
    field16 b 14 = BitVec.ofNat 16 x.peak ∧ field32 b 16 = x.gripTime ∧ field16 b 20 = BitVec.ofNat 16 x.duration := by
  refine ⟨?_, append_bytes16 _, rfl, rfl, rfl, rfl, rfl, rfl, append_bytes16 _, append_bytes16 _, rfl, rfl, append_bytes16 _,
    append_bytes32 _, append_bytes16 _⟩
  cases weighing : x.weighing <;> simp [recordBytes, weighing, length_bytes16, length_bytes32, length_send16, length_send32]

theorem recordBytes_weighing {x : LiftRecord} {w : Weighing} (weighed : x.weighing = some w) :
    field32 (recordBytes x) 22 = BitVec.ofNat 32 w.gross ∧ field32 (recordBytes x) 26 = BitVec.ofNat 32 w.net := by
  unfold recordBytes
  rw [weighed]
  exact ⟨append_bytes32 _, append_bytes32 _⟩

theorem recordFlags_bits (x : LiftRecord) :
    (recordFlags x).getLsbD 0 = x.weighing.isSome ∧ (recordFlags x).getLsbD 1 = x.weighing.elim false (·.belowTare) ∧
      (recordFlags x).getLsbD 2 = x.static ∧ (recordFlags x).getLsbD 3 = x.workingTare ∧
      (recordFlags x).getLsbD 4 = x.limitDuring ∧ (recordFlags x).getLsbD 5 = x.bypassed ∧ (recordFlags x).toNat < 64 := by
  have bits : ∀ a b c d e f : Bool,
      let flags := bitByte a 0 ||| bitByte b 1 ||| bitByte c 2 ||| bitByte d 3 ||| bitByte e 4 ||| bitByte f 5
      flags.getLsbD 0 = a ∧ flags.getLsbD 1 = b ∧ flags.getLsbD 2 = c ∧ flags.getLsbD 3 = d ∧ flags.getLsbD 4 = e ∧
        flags.getLsbD 5 = f ∧ flags.toNat < 64 := by decide
  exact bits _ _ _ _ _ _

/-! ## DROP LIFTS (R93, R95) -/

theorem dropThrough_of_absent {sequence : BitVec 16} {records : List LiftRecord}
    (absent : ∀ x ∈ records, x.sequence ≠ sequence) : dropThrough sequence records = none := by
  induction records with
  | nil => rfl
  | cons x rest ih =>
    obtain ⟨other, others⟩ := List.forall_mem_cons.mp absent
    rw [dropThrough, if_neg other, ih others]

theorem dropThrough_of_first {sequence : BitVec 16} {before : List LiftRecord} {x : LiftRecord}
    (first : ∀ y ∈ before, y.sequence ≠ sequence) (found : x.sequence = sequence) (rest : List LiftRecord) :
    dropThrough sequence (before ++ x :: rest) = some rest := by
  induction before with
  | nil => exact if_pos found
  | cons y before ih =>
    obtain ⟨other, others⟩ := List.forall_mem_cons.mp first
    rw [List.cons_append, dropThrough, if_neg other, ih others]

/-- The LIFTS_WAITING arm after a removal (R95). -/
def armLeft (rest : List LiftRecord) (s : State) : Bool :=
  match s.active with
  | some set => s.queue.waitingArm || decide (rest.length ≤ set.machine.queueThreshold.toNat)
  | none => s.queue.waitingArm

theorem removeLifts_eq (rest : List LiftRecord) (s : State) :
    removeLifts rest s = { s with queue := { s.queue with records := rest, waitingArm := armLeft rest s } } := by
  unfold removeLifts armAfterRemoval armLeft
  cases active : s.active with
  | none => rfl
  | some set =>
    dsimp only
    split
    · next below => simp [below]
    · next above => simp [above]

/-! ## CLEAR BUNK (R106) -/

/-- Every figure is cleared, and the class is not yet judged. -/
def withCleared (s : State) : State :=
  { s with tally := { s.tally with
      assortments := Vector.replicate 32 {}, bunkTotal := 0, totalDelivered := 0, incomplete := false } }

theorem clearBunk_of_none {s : State} (active : s.active = none) : clearBunk s = judgeClass (withCleared s) := by
  have kept : (judgeClass (withCleared s)).active = none := by simpa [withCleared] using active
  unfold clearBunk
  dsimp only
  split
  · next found => cases kept.symm.trans found
  · rfl

theorem clearBunk_of_some {s : State} {set : TableSet} (active : s.active = some set) :
    clearBunk s = setBunkArms set.machine (judgeClass (withCleared s)) := by
  have kept : (judgeClass (withCleared s)).active = some set := by simpa [withCleared] using active
  unfold clearBunk
  dsimp only
  split
  · next found =>
    cases kept.symm.trans found
    rfl
  · next found => cases kept.symm.trans found

theorem clearBunk_tally_of_none {s : State} (active : s.active = none) :
    (clearBunk s).tally = { (withCleared s).tally with bunkClass := 0 } := by
  have judged : judgedClass (withCleared s) = 0 := by simp only [judgedClass, withCleared, active]
  rw [clearBunk_of_none active, judgeClass_tally, judged]

theorem clearBunk_tally_of_some {s : State} {set : TableSet} (active : s.active = some set) :
    (clearBunk s).tally = { (withCleared s).tally with
      bunkClass := classOf set.machine 0
      warnArm := s.tally.warnArm || decide (0 < set.machine.bunkWarn.toNat)
      fullArm := s.tally.fullArm || decide (0 < set.machine.bunkLimit.toNat) } := by
  rw [clearBunk_of_some active]
  dsimp only [setBunkArms]
  rw [judgeClass_tally, judgedClass_of_active set (x := withCleared s) active]
  rfl

/-- What is cleared, and what the judging and the arms leave (R106). -/
theorem clearBunk_tally (s : State) :
    (clearBunk s).tally = { (judgeClass (withCleared s)).tally with
      warnArm := (clearBunk s).tally.warnArm, fullArm := (clearBunk s).tally.fullArm } := by
  cases active : s.active with
  | none => rw [clearBunk_of_none active]
  | some set => rw [clearBunk_of_some active]; rfl

theorem clearBunk_eq (s : State) :
    clearBunk s = { judgeClass (withCleared s) with tally := (clearBunk s).tally } := by
  cases active : s.active with
  | none => rw [clearBunk_of_none active]
  | some set => rw [clearBunk_of_some active]; rfl

/-- The state that CLEAR BUNK leaves, told from its tally. -/
theorem clearBunk_eq_judgedFrom (s : State) :
    clearBunk s =
      { judgedFrom s { (clearBunk s).tally with warnArm := s.tally.warnArm, fullArm := s.tally.fullArm } with
        tally := (clearBunk s).tally } := by
  have judged : judgeClass (withCleared s) = judgedFrom s _ := judgeClass_eq_judgedFrom rfl rfl rfl (clearBunk_tally s)
  rw [← judged]
  exact clearBunk_eq s

theorem clearBunk_sup_bunkClass {s : State} (differs : (clearBunk s).tally.bunkClass ≠ s.tally.bunkClass) :
    (clearBunk s).sup.bunkClass = (clearBunk s).tally.bunkClass := by
  have judged : (clearBunk s).tally.bunkClass = judgedClass (withCleared s) := by rw [clearBunk_tally, judgeClass_tally]
  have different : judgedClass (withCleared s) ≠ (withCleared s).tally.bunkClass := judged ▸ differs
  rw [judged, clearBunk_eq, judgeClass_sup_bunkClass, if_neg different]

theorem clearBunk_notifies (s : State) :
    ∃ kinds, Notifies kinds s (clearBunk s) ∧ .bunkWarn ∉ kinds ∧ .bunkFull ∉ kinds := by
  have cleared : Notifies [] s (withCleared s) := (Notifies.refl s).same rfl rfl
  obtain ⟨kinds, judged, noWarn, noFull⟩ := judgeClass_notifies (withCleared s)
  refine ⟨kinds, ?_, noWarn, noFull⟩
  rw [clearBunk_eq]
  exact (cleared.trans judged).tally _

theorem clearBunk_liftState (s : State) : (clearBunk s).lift.state = s.lift.state := by
  have cleared : LiftKept s (withCleared s) := (LiftKept.refl s).same rfl rfl rfl rfl
  rw [clearBunk_eq]
  exact cleared.judgeClass.state

/-! ## The operations (R160, R165, R166, R171) -/

section

variable {s : State} {c : Chain}

theorem opPeekLifts_of_range {k : Byte} (outside : k.toNat = 0 ∨ 4 < k.toNat) (free : Nat) :
    opPeekLifts [k] free s = (s, .gives .rangeError []) := by
  refine if_neg ?_
  show ¬(1 ≤ k.toNat ∧ k.toNat ≤ 4)
  omega

theorem opPeekLifts_of_room {k : Byte} (low : 1 ≤ k.toNat) (high : k.toNat ≤ 4)
    (room : RoomFor c ((s.queue.records.take k.toNat).flatMap recordBytes).length) :
    opPeekLifts [k] c.free s = (s, .gives .ok ((s.queue.records.take k.toNat).flatMap recordBytes)) :=
  (if_pos ⟨low, high⟩).trans (if_pos ((fits_iff_roomFor c _).mpr room))

theorem opPeekLifts_of_noRoom {k : Byte} (low : 1 ≤ k.toNat) (high : k.toNat ≤ 4)
    (noRoom : ¬RoomFor c ((s.queue.records.take k.toNat).flatMap recordBytes).length) :
    opPeekLifts [k] c.free s = (s, .gives .noRoom (recordsThatFit (c.free - 3) (s.queue.records.take k.toNat))) :=
  (if_pos ⟨low, high⟩).trans (if_neg (mt (fits_iff_roomFor c _).mp noRoom))

theorem opDropLifts_of_absent {sequence : BitVec 16} (absent : ∀ x ∈ s.queue.records, x.sequence ≠ sequence) (free : Nat) :
    opDropLifts (bytes16 sequence) free s = (s, .gives .notFound []) := by
  simp only [opDropLifts, field16_bytes16, dropThrough_of_absent absent, refuse]

theorem opDropLifts_of_first {sequence : BitVec 16} {before rest : List LiftRecord} {x : LiftRecord}
    (records : s.queue.records = before ++ x :: rest) (first : ∀ y ∈ before, y.sequence ≠ sequence)
    (found : x.sequence = sequence) (free : Nat) :
    opDropLifts (bytes16 sequence) free s =
      performIf free 2 (removeLifts rest s, .gives .ok [sendByte (before.length + 1), sendByte rest.length]) s := by
  have dropped : (before ++ x :: rest).length - rest.length = before.length + 1 := by
    rw [List.length_append, List.length_cons]
    omega
  simp only [opDropLifts, field16_bytes16, records, dropThrough_of_first first found, dropped]

/-- Clearing by a mask (R171). -/
theorem getLsbD_and_not (conditions mask : BitVec 32) (k : Condition) :
    (conditions &&& ~~~mask).getLsbD k.bit = (conditions.getLsbD k.bit && !mask.getLsbD k.bit) := by
  have valid : k.bit < 32 := by cases k with
    | forwardOverrun p | linkLost p | checkErrorSeen p => cases p <;> decide
    | implausible m => cases m <;> decide
    | _ => decide
  rw [BitVec.getLsbD_and, BitVec.getLsbD_not, decide_eq_true valid, Bool.true_and]

end

/-- Settles O56: each operation by its own checks and then by its room, and the lift record by its offsets. -/
theorem liftsTallyAndConditionsOperations : Obligations.LiftsTallyAndConditionsOperations := by
  refine ⟨⟨?peek, ?recordLayout, ?drop, ?clearBunk⟩, fun s r c more next => ⟨fun mask operation => ?_, fun operation => ?_⟩⟩
  case peek =>
    intro s r c more next k operation done all
    have row : exec .peekLifts s = .next (concludeOp r.payload 0x10 more next c (opPeekLifts [k] c.free s)) :=
      unlessReset_performCoded operation opPeekLifts rfl
    refine ⟨fun outside => ?_, fun low high room => ?_, fun low high noRoom placed => ?_⟩
    · rw [row, opPeekLifts_of_range outside]
    · rw [row, opPeekLifts_of_room low high room]
    · obtain ⟨n, taken, most, short, full⟩ := recordsThatFit_take (c.free - 3) k.toNat s.queue.records
      rw [row, opPeekLifts_of_noRoom low high noRoom, taken]
      unfold Chain.free at short full
      refine ⟨n, rfl, most, by omega, fun below further => ?_⟩
      have := full below further
      omega
  case recordLayout =>
    intro x b
    obtain ⟨length, sequence, outcome, flags, tool, assortment, pick, release, generation, samples, attempts, regrips, peak,
      gripTime, duration⟩ := recordBytes_fields x
    obtain ⟨weighed, belowTare, static, workingTare, limit, bypassed, small⟩ := recordFlags_bits x
    rw [← flags] at weighed belowTare static workingTare limit bypassed small
    refine ⟨length, sequence, outcome, weighed, fun unweighed => ?_, static, workingTare, limit, bypassed, small, tool,
      assortment, pick, release, generation, samples, attempts, regrips, peak, gripTime, duration, fun w weighing => ?_⟩
    · rw [belowTare, unweighed]
      rfl
    · obtain ⟨gross, net⟩ := recordBytes_weighing weighing
      refine ⟨gross, net, ?_⟩
      rw [belowTare, weighing]
      rfl
  case drop =>
    intro s r c more next sequence operation done
    have row : exec .dropLifts s = _ := unlessReset_performCoded operation opDropLifts rfl
    refine ⟨fun absent => ?_, fun before x rest records first found => ⟨fun room => ?_, fun noRoom => ?_⟩⟩
    · rw [row, opDropLifts_of_absent absent]
    · rw [row, opDropLifts_of_first records first found, performIf_of_room room, removeLifts_eq]
      rfl
    · rw [row, opDropLifts_of_first records first found, performIf_of_noRoom noRoom]
  case clearBunk =>
    intro s r c more next operation
    have row : exec .clearBunk s = _ := unlessReset_performCoded operation opClearBunk rfl
    rw [row, opClearBunk]
    refine ⟨fun noRoom => by rw [performIf_of_noRoom noRoom], fun room => ?_⟩
    rw [performIf_of_room room]
    have tally := clearBunk_tally s
    rw [judgeClass_tally] at tally
    obtain ⟨kinds, told, noWarn, noFull⟩ := clearBunk_notifies s
    refine ⟨clearBunk s, rfl, fun i below => ?_, by rw [tally]; rfl, by rw [tally]; rfl, by rw [tally]; rfl, by simp, by simp,
      clearBunk_liftState s, OnlyAccountWritten.eq (clearBunk_keeps s), ⟨_, told, noWarn, noFull⟩, fun active => ?_,
      fun set active => ?_, clearBunk_sup_bunkClass, clearBunk_eq_judgedFrom s⟩
    · rw [tally]
      show (Vector.replicate 32 ({} : AssortmentTally)).toList[i]? = _
      rw [Vector.toList_replicate, List.getElem?_replicate, if_pos below]
    · rw [clearBunk_tally_of_none active]
      exact ⟨rfl, rfl, rfl⟩
    · rw [clearBunk_tally_of_some active]
      exact ⟨rfl, rfl, fun positive => if_pos positive⟩
  · have row : exec .clearConditions s = _ := unlessReset_performCoded operation opClearConditions rfl
    rw [row, opClearConditions, field32_bytes32]
    refine ⟨fun room => ?_, fun noRoom => by rw [performIf_of_noRoom noRoom]⟩
    rw [performIf_of_room room]
    exact ⟨_, rfl, rfl, getLsbD_and_not s.conditions mask⟩
  · have row : exec .warmRestart s = _ := unlessReset_performCoded operation opWarmRestart rfl
    rw [row, opWarmRestart]
    exact ⟨fun room => by rw [performIf_of_room room], fun noRoom => by rw [performIf_of_noRoom noRoom]⟩

end Sys2Proof.Machine
end

