-- ==== Sys2Proof/Proofs/LoadMoment.lean ====
section
/-! PROOFS. The figures of the load moment: force, moment, capacity and utilisation (R110, R111, R113, R114, R116).
Settles O37. -/

namespace Sys2Proof.Machine

-- One theorem after another: side by side, so many small ones need more threads than the memory limit admits.
set_option Elab.async false

/-! ## Rounded quotients (R110, R111) -/

/-- The effective force lies within a half of the mean of the history. -/
theorem effectiveForce_bounds {history : List Int} (filled : history ≠ []) (positive : ∀ v ∈ history, 0 ≤ v) :
    2 * (history.length : Int) * effectiveForce history ≤ 2 * history.sum + history.length ∧
      2 * history.sum + (history.length : Int) < 2 * history.length * (effectiveForce history + 1) := by
  obtain ⟨below, above⟩ := roundHalfUp_bounds history.sum.toNat (List.length_pos_of_ne_nil filled)
  rw [← Int.toNat_of_nonneg (List.sum_nonneg positive)]
  exact ⟨by exact_mod_cast below, by exact_mod_cast above⟩

/-- The moment lies within a half of the quotient, up to its greatest value. -/
theorem momentOf_bounds (force reach : Nat) :
    momentOf force reach ≤ 13200 ∧ 20000 * momentOf force reach ≤ 2 * (force * reach) + 10000 ∧
      (momentOf force reach < 13200 → 2 * (force * reach) + 10000 < 20000 * (momentOf force reach + 1)) := by
  obtain ⟨below, above⟩ := roundHalfUp_bounds (force * reach) (den := 10000) (by decide)
  unfold momentOf
  omega

/-! ## The capacity of a row (R113, R114) -/

theorem rowCapacity_of_low {row : CapacityRow} {tilt : Int} (low : tilt ≤ -160) :
    rowCapacity row tilt = pointCapacity row 0 := if_pos low

theorem rowCapacity_of_high {row : CapacityRow} {tilt : Int} (high : 160 ≤ tilt) :
    rowCapacity row tilt = pointCapacity row 8 := (if_neg (by omega)).trans (if_pos high)

/-- Forty times the height, at a tilt, of the straight line from tilt point `k` to the next. -/
def capacityLine (row : CapacityRow) (k : Nat) (tilt : Int) : Int :=
  40 * pointCapacity row k - ((pointCapacity row k : Int) - pointCapacity row (k + 1)) * (tilt - (-160 + 40 * (k : Int)))

section

variable {row : CapacityRow} {tilt : Int} {k : Nat}

theorem capacityLine_range (falls : pointCapacity row (k + 1) ≤ pointCapacity row k) (low : -160 + 40 * (k : Int) ≤ tilt)
    (high : tilt < -160 + 40 * ((k : Int) + 1)) :
    40 * (pointCapacity row (k + 1) : Int) ≤ capacityLine row k tilt ∧
      capacityLine row k tilt ≤ 40 * pointCapacity row k := by
  have notNegative : 0 ≤ ((pointCapacity row k : Int) - pointCapacity row (k + 1)) * (tilt - (-160 + 40 * (k : Int))) :=
    Int.mul_nonneg (by omega) (by omega)
  have atMost : ((pointCapacity row k : Int) - pointCapacity row (k + 1)) * (tilt - (-160 + 40 * (k : Int))) ≤
      (pointCapacity row k - pointCapacity row (k + 1)) * 40 := Int.mul_le_mul_of_nonneg_left (by omega) (by omega)
  unfold capacityLine
  omega

/-- Between two tilt points a row that falls there has the capacity of the line between them, rounded down. -/
theorem rowCapacity_eq_floor (below : k < 8) (falls : pointCapacity row (k + 1) ≤ pointCapacity row k)
    (low : -160 + 40 * (k : Int) ≤ tilt) (high : tilt < -160 + 40 * ((k : Int) + 1)) :
    (rowCapacity row tilt : Int) = capacityLine row k tilt / 40 := by
  obtain ⟨atLeast, -⟩ := capacityLine_range falls low high
  have point : ((tilt + 160) / 40).toNat = k := by omega
  unfold capacityLine at atLeast ⊢
  generalize beyond : tilt - (-160 + 40 * (k : Int)) = x at atLeast ⊢
  by_cases first : tilt ≤ -160
  · obtain ⟨rfl, rfl⟩ : k = 0 ∧ x = 0 := by omega
    rw [rowCapacity_of_low first]
    omega
  · unfold rowCapacity
    rw [if_neg first, if_neg (by omega)]
    dsimp only
    rw [point, beyond, ← neg_sub (pointCapacity row k : Int), neg_mul]
    omega

/-- The capacity between two tilt points lies between theirs, and is the greatest integer on or below the line. -/
theorem rowCapacity_between (below : k < 8) (falls : pointCapacity row (k + 1) ≤ pointCapacity row k)
    (low : -160 + 40 * (k : Int) ≤ tilt) (high : tilt < -160 + 40 * ((k : Int) + 1)) :
    (pointCapacity row (k + 1) : Int) ≤ rowCapacity row tilt ∧ (rowCapacity row tilt : Int) ≤ pointCapacity row k ∧
      40 * (rowCapacity row tilt : Int) ≤ capacityLine row k tilt ∧
      capacityLine row k tilt < 40 * ((rowCapacity row tilt : Int) + 1) := by
  have range := capacityLine_range falls low high
  rw [rowCapacity_eq_floor below falls low high]
  omega

end

/-! ## The utilisation (R116) -/

theorem utilisationOf_zero (moment : Nat) : utilisationOf moment 0 = if moment = 0 then 0 else 1999 := if_pos rfl

/-- The utilisation is the least whole per-mille that is not below the moment's share of the capacity. -/
theorem utilisationOf_le_iff {capacity n : Nat} (positive : 0 < capacity) (small : n < 1999) (moment : Nat) :
    utilisationOf moment capacity ≤ n ↔ 1000 * moment ≤ n * capacity := by
  have share : ceilDiv (moment * 1000) capacity ≤ n ↔ 1000 * moment ≤ n * capacity := by
    rw [ceilDiv, ← Nat.ceilDiv_eq_add_pred_div, ceilDiv_le_iff_le_mul positive, Nat.mul_comm 1000, Nat.mul_comm n]
  unfold utilisationOf
  rw [if_neg positive.ne', ← share]
  omega

/-- Settles O37: the quotients by the bounds of rounding, the capacity by the line that is rounded down, and the utilisation
as a least whole per-mille. -/
theorem figuresOfTheLoadMoment : Obligations.FiguresOfTheLoadMoment := by
  refine ⟨fun history => effectiveForce_bounds, momentOf_bounds, fun row tilt falling => ?_, fun moment capacity => ?_⟩
  · have falls : ∀ k, pointCapacity row (k + 1) ≤ pointCapacity row k := getD_succ_le_of_nonIncreasing falling
    exact ⟨fun low => congrArg _ (rowCapacity_of_low low), fun high => congrArg _ (rowCapacity_of_high high),
      fun k below low high => rowCapacity_between below (falls k) low high⟩
  · intro u
    have most : u ≤ 1999 := utilisationOf_le _ _
    refine ⟨most, fun zero => by rw [← utilisationOf_zero, ← zero], fun positive => ⟨fun small => ?_, fun notZero => ?_⟩⟩
    · exact (utilisationOf_le_iff positive small moment).mp le_rfl
    · have least : ¬u ≤ u - 1 := by omega
      exact Nat.lt_of_not_le (mt (utilisationOf_le_iff positive (by omega) moment).mpr least)

end Sys2Proof.Machine
end

