-- ==== Sys2Proof/Proofs/SupervisionState.lean ====
section
/-! PROOFS. An evaluation of supervision: its figures, the state it decides, the effects of a change of state, and the peak
(R110 to R128). Settles O38, O39 and O40. -/

namespace Sys2Proof.Machine

-- One theorem after another: side by side, so many small ones need more threads than the memory limit admits.
set_option Elab.async false

/-! ## The conditions (R117, R170) -/

section

variable (event : ClockEvent) (s : State)

/-- Trace capture raises no condition but TRACE_OVERFLOW (R178). -/
theorem capture_conditions :
    (capture event s).conditions = s.conditions ∨ (capture event s).conditions = (s.raise .traceOverflow).conditions := by
  unfold capture
  dsimp only
  split
  · exact .inl rfl
  · split <;> exact .inr rfl

theorem clockEvent_conditions :
    (clockEvent event s).conditions = s.conditions ∨
      (clockEvent event s).conditions = (s.raise .traceOverflow).conditions := by
  unfold clockEvent
  split
  · split
    · exact capture_conditions event { s with trace := { s.trace with dividerCount := 0 } }
    · exact .inl rfl
  · exact .inl rfl

theorem clockEvent_raised {k : Condition} (other : Condition.traceOverflow.bit ≠ k.bit) :
    (clockEvent event s).raised k = s.raised k := by
  unfold State.raised
  rcases clockEvent_conditions event s with same | overflowed
  · rw [same]
  · rw [overflowed]
    exact (State.raised_raise .traceOverflow k s).trans (by rw [decide_eq_false other, Bool.or_false]; rfl)

end

/-! ## The figures (R112 to R117) -/

section

variable (s : State)

/-- Step 1 raises TILT_HIGH for a tilt above 160, and no other condition. -/
theorem computeFigures_conditions :
    (computeFigures s).conditions =
      if s.active.isSome ∧ 160 < (computeFigures s).sup.tilt then (s.raise .tiltHigh).conditions else s.conditions := by
  cases active : s.active with
  | none => simp [computeFigures_of_none active]
  | some set =>
    have tilt : (computeFigures s).sup.tilt = tiltOf set s := by
      rw [computeFigures_sup active]
      split <;> rfl
    have raised : (computeFigures s).conditions = (if 160 < tiltOf set s then s.raise .tiltHigh else s).conditions := by
      simp only [computeFigures, active]
      generalize (if 160 < tiltOf set s then s.raise .tiltHigh else s) = u
      split <;> rfl
    rw [raised, tilt, apply_ite State.conditions]
    simp

/-- Step 1 writes supervision's figures and the conditions alone. -/
theorem computeFigures_frame :
    computeFigures s =
      { s with sup := (computeFigures s).sup, conditions := (computeFigures s).conditions } := by
  have keeps := computeFigures_keeps s
  generalize computeFigures s = t at keeps
  obtain ⟨pending, choices, inReset, clock, strap, station, cab, crane, notices, intake, slew, lift, queue, tally, active,
    staging, mgmt, trace⟩ := keeps
  rw [← pending, ← choices, ← inReset, ← clock, ← strap, ← station, ← cab, ← crane, ← notices, ← intake, ← slew, ← lift,
    ← queue, ← tally, ← active, ← staging, ← mgmt, ← trace]

theorem evaluate_tilt : (evaluate s).sup.tilt = (computeFigures s).sup.tilt := by rw [evaluate_sup_frame]

theorem evaluate_capacity : (evaluate s).sup.capacity = (computeFigures s).sup.capacity := by rw [evaluate_sup_frame]

theorem evaluate_moment : (evaluate s).sup.moment = (computeFigures s).sup.moment := by rw [evaluate_sup_frame]

theorem evaluate_utilisation : (evaluate s).sup.utilisation = (computeFigures s).sup.utilisation := by
  rw [evaluate_sup_frame]

/-- The state with the figures that an evaluation leaves. -/
theorem computeFigures_eq :
    computeFigures s = { s with
      sup := { s.sup with
        tilt := (evaluate s).sup.tilt, capacity := (evaluate s).sup.capacity, moment := (evaluate s).sup.moment,
        utilisation := (evaluate s).sup.utilisation },
      conditions := if s.active.isSome ∧ 160 < (evaluate s).sup.tilt then
          s.conditions ||| BitVec.twoPow 32 Condition.tiltHigh.bit else s.conditions } := by
  rw [evaluate_tilt, evaluate_capacity, evaluate_moment, evaluate_utilisation]
  refine (computeFigures_frame s).trans ?_
  rw [computeFigures_conditions, State.raise_conditions]
  conv_lhs => rw [computeFigures_sup_frame]

end

section

variable {s : State} {set : TableSet}

theorem uCurrent_iff (s : State) : s.uCurrent = true ↔ s.active.isSome ∧ s.fresh .f = true ∧ s.fresh .reach = true := by
  simp only [State.uCurrent, Bool.and_eq_true, and_assoc]

/-- With no table set active the four figures are kept. -/
theorem evaluate_figures_of_none (inactive : s.active = none) :
    (evaluate s).sup.tilt = s.sup.tilt ∧ (evaluate s).sup.capacity = s.sup.capacity ∧
      (evaluate s).sup.moment = s.sup.moment ∧ (evaluate s).sup.utilisation = s.sup.utilisation := by
  rw [evaluate_tilt, evaluate_capacity, evaluate_moment, evaluate_utilisation, computeFigures_of_none inactive]
  exact ⟨rfl, rfl, rfl, rfl⟩

/-- The tilt and the capacity are computed whenever a table set is active. -/
theorem evaluate_tilt_of_some (active : s.active = some set) : (evaluate s).sup.tilt = tiltOf set s := by
  rw [evaluate_tilt, computeFigures_sup active]
  split <;> rfl

theorem evaluate_capacity_of_some (active : s.active = some set) :
    (evaluate s).sup.capacity = capacityOf set s.sup (evaluate s).sup.tilt := by
  rw [evaluate_tilt_of_some active, evaluate_capacity, computeFigures_sup active]
  split <;> rfl

/-- The moment and the utilisation follow when U is current. -/
theorem evaluate_moment_of_current (current : s.active.isSome ∧ s.fresh .f = true ∧ s.fresh .reach = true) :
    (evaluate s).sup.moment = momentOf (effectiveForce s.sup.history) s.intake.reach.value.toNat ∧
      (evaluate s).sup.utilisation = utilisationOf (evaluate s).sup.moment (evaluate s).sup.capacity := by
  obtain ⟨set, active⟩ := Option.isSome_iff_exists.mp current.1
  rw [evaluate_moment, evaluate_utilisation, evaluate_capacity, computeFigures_sup active,
    if_pos ((uCurrent_iff s).mpr current)]
  exact ⟨rfl, rfl⟩

/-- They are kept when it is not (R117). -/
theorem evaluate_moment_of_not_current (notCurrent : ¬(s.active.isSome ∧ s.fresh .f = true ∧ s.fresh .reach = true)) :
    (evaluate s).sup.moment = s.sup.moment ∧ (evaluate s).sup.utilisation = s.sup.utilisation := by
  rw [evaluate_moment, evaluate_utilisation]
  cases active : s.active with
  | none =>
    rw [computeFigures_of_none active]
    exact ⟨rfl, rfl⟩
  | some set =>
    rw [computeFigures_sup active, if_neg (mt (uCurrent_iff s).mp notCurrent)]
    exact ⟨rfl, rfl⟩

end

/-! ## The tilt (R112) -/

section

variable {s : State} {set : TableSet}

theorem tiltOf_of_pitch_or_roll_stale (stale : s.fresh .pitch = false ∨ s.fresh .roll = false) : tiltOf set s = 160 :=
  if_pos fun fresh => by simp [fresh] at stale

theorem tiltOf_of_unknown (pitch : s.fresh .pitch = true) (roll : s.fresh .roll = true)
    (unknown : sectorInUse set s.sup.sector = none) :
    tiltOf set s = (s.intake.pitch.value.natAbs : Int) + s.intake.roll.value.natAbs := by
  unfold tiltOf
  rw [if_neg (not_not_intro ⟨pitch, roll⟩), unknown]

theorem tiltOf_of_sector (pitch : s.fresh .pitch = true) (roll : s.fresh .roll = true) {e : SectorEntry}
    (inUse : sectorInUse set s.sup.sector = some e) :
    tiltOf set s = roundAway (s.intake.pitch.value * e.cosWeight.toInt + s.intake.roll.value * e.sinWeight.toInt) 1000 := by
  unfold tiltOf
  rw [if_neg (not_not_intro ⟨pitch, roll⟩), inUse]

end

/-! ## The effects of a change of state (R126 to R128) -/

section

variable (s : State) (notices : BitVec 16) (cab : Port)

/-- Trace capture reads neither the pending kinds nor the cab port. -/
theorem capture_withNotices (event : ClockEvent) :
    capture event { s with notices, cab } = { capture event s with notices, cab } := by
  unfold capture
  dsimp only
  split
  · rfl
  · split <;> rfl

theorem clockEvent_withNotices (event : ClockEvent) :
    clockEvent event { s with notices, cab } = { clockEvent event s with notices, cab } := by
  unfold clockEvent
  dsimp only
  split
  · split
    · exact capture_withNotices { s with trace := { s.trace with dividerCount := 0 } } notices cab event
    · rfl
  · rfl

/-- Raises write the pending kinds and the cab port alone. -/
theorem notifyAll_frame (kinds : List NoticeKind) :
    kinds.foldl (fun u k => State.notify k u) s = { s with
      notices := (kinds.foldl (fun u k => State.notify k u) s).notices,
      cab := (kinds.foldl (fun u k => State.notify k u) s).cab } := by
  have keeps := notifyAll_keeps kinds s
  generalize kinds.foldl (fun u k => State.notify k u) s = t at keeps
  obtain ⟨pending, choices, inReset, clock, strap, station, crane, conditions, intake, slew, lift, queue, tally, sup, active,
    staging, mgmt, trace⟩ := keeps
  rw [← pending, ← choices, ← inReset, ← clock, ← strap, ← station, ← crane, ← conditions, ← intake, ← slew, ← lift,
    ← queue, ← tally, ← sup, ← active, ← staging, ← mgmt, ← trace]

end

/-- The notices of the state left (R126). -/
def noticesLeft : SupState → List NoticeKind
  | .limit => [.limitLeft]
  | .hold => [.holdLeft]
  | .bypass => [.bypassOff]
  | _ => []

/-- The notices of the state entered (R126). -/
def noticesEntered : SupState → List NoticeKind
  | .limit => [.limitEntered]
  | .hold => [.holdEntered]
  | .bypass => [.bypassOn]
  | _ => []

theorem stateNotices_eq (before now : SupState) : stateNotices before now = noticesLeft before ++ noticesEntered now := by
  cases before <;> cases now <;> rfl

theorem alertLevel_eq (now : SupState) :
    alertLevel now = decide (now = .unconfigured ∨ now = .limit ∨ now = .hold ∨ now = .warn) := by
  cases now <;> rfl

theorem trackState_eq (now : SupState) (l : OpenLift) :
    trackState now l = { l with
      limitDuring := l.limitDuring || decide (now = .limit), bypassed := l.bypassed || decide (now = .bypass) } := by
  cases now <;> simp [trackState]

/-- Tracking writes the open lift's flags while it is on (R127). -/
theorem trackChange_eq (now : SupState) (s : State) :
    trackChange now s = { s with
      lift := if s.sup.tracking then { s.lift with openLift := s.lift.openLift.map (trackState now) } else s.lift } := by
  unfold trackChange
  split <;> rfl

section

variable {now : SupState} {s : State}

theorem changeState_sup_of_differs (differs : now ≠ s.sup.state) :
    (changeState now s).sup = { s.sup with
      state := now, alert := alertLevel now, alertNext := if now = .warn then some (s.clock + 200) else none } := by
  rw [changeState_sup, if_neg differs]
  rfl

theorem changeState_lift_of_differs (differs : now ≠ s.sup.state) :
    (changeState now s).lift =
      if s.sup.tracking then { s.lift with openLift := s.lift.openLift.map (trackState now) } else s.lift := by
  simp [changeState, differs, trackChange_eq, setAlert]

/-- A change of state: the notices, then the registers and the flags, then the clock event. -/
theorem changeState_of_differs (differs : now ≠ s.sup.state) :
    let noticed :=
      (stateNotices s.sup.state now).foldl (fun u k => State.notify k u) { s with sup := { s.sup with state := now } }
    changeState now s =
      { clockEvent (.supChange now) { s with sup := (changeState now s).sup, lift := (changeState now s).lift } with
        notices := noticed.notices, cab := noticed.cab } := by
  intro noticed
  have frame : noticed = { s with sup := { s.sup with state := now }, notices := noticed.notices, cab := noticed.cab } :=
    notifyAll_frame _ _
  have written : trackChange now (setAlert now noticed) = { s with
      sup := (changeState now s).sup, lift := (changeState now s).lift, notices := noticed.notices, cab := noticed.cab } := by
    rw [changeState_sup_of_differs differs, changeState_lift_of_differs differs, trackChange_eq, frame]
    rfl
  calc changeState now s = clockEvent (.supChange now) (trackChange now (setAlert now noticed)) := if_neg differs
    _ = clockEvent (.supChange now) _ := congrArg _ written
    _ = _ := clockEvent_withNotices { s with sup := (changeState now s).sup, lift := (changeState now s).lift } _ _ _

end

/-! ## The state that is decided (R120 to R124) -/

/-- The levels of the state before: U at or above the first gives LIMIT, and else at or above the second WARN. -/
theorem hysteresisState_eq (m : MachineRecord) (before : SupState) (u : Nat) :
    hysteresisState m before u =
      if (if before = .limit then m.limitOff.toNat else 1000) ≤ u then .limit
      else if (if before = .limit ∨ before = .warn then m.warnOff.toNat else m.warnOn.toNat) ≤ u then .warn
      else .normal := by
  cases before <;> simp [hysteresisState, freshState]

/-- What is decided of two levels in descending order, told as three ranges of U. -/
theorem levels_iff {limitLevel warnLevel u : Nat} (descending : warnLevel ≤ limitLevel) {now : SupState}
    (decided : now = if limitLevel ≤ u then .limit else if warnLevel ≤ u then .warn else .normal) :
    (now = .limit ↔ limitLevel ≤ u) ∧ (now = .warn ↔ warnLevel ≤ u ∧ u < limitLevel) ∧ (now = .normal ↔ u < warnLevel) := by
  subst decided
  split
  · simp
    omega
  · split
    · simp
      omega
    · simp
      omega

/-- The thresholds of a valid set (R153). -/
theorem SetValid.thresholds {t : TableSet} (h : SetValid t) :
    t.machine.warnOn.toNat ≤ 999 ∧ t.machine.warnOff.toNat ≤ t.machine.warnOn.toNat ∧
      t.machine.warnOff.toNat ≤ t.machine.limitOff.toNat := by
  have machine : checkMachine t.machine = none := (firstFailure_eq_none_iff _).mp h.1 _ (by simp)
  have thresholds := failUnless_eq_none_iff.mp ((firstFailure_eq_none_iff _).mp machine _ List.mem_cons_self)
  simp only [between, Bool.and_eq_true, decide_eq_true_eq] at thresholds
  omega

/-- Of the figures of step 1, step 2 reads the utilisation alone. -/
theorem evaluate_state_eq (s : State) :
    (evaluate s).sup.state =
      decideState { s with sup := { s.sup with utilisation := (evaluate s).sup.utilisation } } := by
  rw [evaluate_state, evaluate_utilisation]
  conv_lhs => rw [computeFigures_frame, computeFigures_sup_frame]
  rfl

section

variable {s : State} {set : TableSet}

theorem decideState_of_current (released : s.sup.service = false) (active : s.active = some set)
    (f : s.fresh .f = true) (reach : s.fresh .reach = true) :
    decideState s = hysteresisState set.machine s.sup.state s.sup.utilisation := by
  simp [decideState, released, active, f, reach]

/-- With a table set active, the service input released and F and REACH FRESH, U decides. -/
theorem evaluate_state_of_current (released : s.sup.service = false) (active : s.active = some set)
    (f : s.fresh .f = true) (reach : s.fresh .reach = true) :
    (evaluate s).sup.state = hysteresisState set.machine s.sup.state (evaluate s).sup.utilisation :=
  (evaluate_state_eq s).trans (decideState_of_current (s := { s with sup := { s.sup with utilisation := _ } }) released active
    f reach)

end

/-! ## TILT_HIGH (R117) -/

/-- A change of state raises no condition but TRACE_OVERFLOW. -/
theorem changeState_raised (now : SupState) (s : State) {k : Condition} (other : Condition.traceOverflow.bit ≠ k.bit) :
    (changeState now s).raised k = s.raised k := by
  by_cases differs : now = s.sup.state
  · rw [changeState, if_pos differs]
  · rw [changeState_of_differs differs]
    exact clockEvent_raised _ _ other

theorem evaluate_raised_tiltHigh {s : State} {set : TableSet} (active : s.active = some set) :
    (evaluate s).raised .tiltHigh = (s.raised .tiltHigh || decide (160 < (evaluate s).sup.tilt)) := by
  have effects : (evaluate s).raised .tiltHigh = (computeFigures s).raised .tiltHigh := by
    rw [← changeState_raised (decideState (computeFigures s)) (computeFigures s) (by decide)]
    simp [State.raised, evaluate]
  rw [effects, evaluate_tilt, State.raised, computeFigures_conditions, active]
  by_cases high : 160 < (computeFigures s).sup.tilt
  · rw [if_pos ⟨rfl, high⟩, decide_eq_true high, Bool.or_true]
    exact State.raised_raise_same .tiltHigh s
  · rw [if_neg (fun both => high both.2), decide_eq_false high, Bool.or_false]
    rfl

/-! ## The peak (R127) -/

/-- An evaluation brings the open lift's peak up to U at its end, while tracking is on and U is current. -/
theorem evaluate_eq (s : State) :
    evaluate s =
      if s.sup.tracking = true ∧ s.active.isSome ∧ s.fresh .f = true ∧ s.fresh .reach = true then
        (changeState (evaluate s).sup.state (computeFigures s)).modOpenLift fun l =>
          { l with peak := max l.peak (evaluate s).sup.utilisation }
      else changeState (evaluate s).sup.state (computeFigures s) := by
  have order : evaluate s = trackPeak (changeState (evaluate s).sup.state (computeFigures s)) := by
    rw [evaluate_state]
    rfl
  have sup : (changeState (evaluate s).sup.state (computeFigures s)).sup = (evaluate s).sup := by
    conv_rhs => rw [order]
    simp
  have tracking : (evaluate s).sup.tracking = s.sup.tracking := by rw [evaluate_sup_frame, computeFigures_sup_frame]
  have current : (changeState (evaluate s).sup.state (computeFigures s)).uCurrent = s.uCurrent := by
    simp [State.uCurrent, State.fresh]
  conv_lhs => rw [order]
  unfold trackPeak
  rw [sup, tracking, current]
  refine if_congr ?_ rfl rfl
  rw [Bool.and_eq_true, uCurrent_iff]

/-! ## The obligations -/

/-- Settles O38: each figure of step 1, which an evaluation leaves as they are. -/
theorem evaluationComputesTheFigures : Obligations.EvaluationComputesTheFigures := by
  intro s t
  refine ⟨evaluate_figures_of_none, fun set active => ?_⟩
  have tilt : t.sup.tilt = tiltOf set s := evaluate_tilt_of_some active
  have capacity : t.sup.capacity = capacityOf set s.sup t.sup.tilt := evaluate_capacity_of_some active
  refine ⟨fun stale => tilt.trans (tiltOf_of_pitch_or_roll_stale stale),
    fun pitch roll unknown => tilt.trans (tiltOf_of_unknown pitch roll unknown), fun e pitch roll inUse => ?_,
    fun e inUse => ?_, fun unknown columns => ?_, ?_,
    fun f reach => evaluate_moment_of_current ⟨by simp [active], f, reach⟩,
    fun stale => evaluate_moment_of_not_current fun current => by simp [current] at stale⟩
  · intro sum
    obtain ⟨near, tie⟩ := roundAway_nearest sum (den := 1000) (by decide)
    rw [tilt, tiltOf_of_sector pitch roll inUse, Int.mul_comm 1000]
    exact ⟨near, tie⟩
  · rw [capacity, capacityOf, inUse]
    rfl
  · rw [capacity, capacityOf, unknown]
    exact leastCapacity_isLeast set s.sup.bunkClass t.sup.tilt columns
  · exact evaluate_raised_tiltHigh active

/-- Settles O39: the levels of the state before are those of its hysteresis, and a valid set's thresholds descend. -/
theorem stateFollowsTheUtilisation : Obligations.StateFollowsTheUtilisation := by
  intro set s active valid released f reach now u warnOn warnOff limitOff
  obtain ⟨warnOnLow, warnOffLow, limitOffHigh⟩ := valid.thresholds
  have decided : now = hysteresisState set.machine s.sup.state u := evaluate_state_of_current released active f reach
  have below : u < 1000 ↔ u ≤ 999 := Nat.lt_succ_iff
  cases before : s.sup.state with
  | warn =>
    rw [before] at decided
    rw [← below]
    exact levels_iff (limitLevel := 1000) (warnLevel := set.machine.warnOff.toNat) (by omega) decided
  | limit =>
    rw [before] at decided
    exact levels_iff limitOffHigh decided
  | normal | hold | unconfigured | bypass =>
    rw [before] at decided
    rw [← below]
    exact levels_iff (limitLevel := 1000) (warnLevel := set.machine.warnOn.toNat) (by omega) decided

/-- Settles O40: the effects of a change in their order, and the parts of an evaluation. -/
theorem changeOfSupervisionState : Obligations.ChangeOfSupervisionState := by
  refine fun now s => ⟨fun same => if_pos same, fun differs => ?_, fun s => ⟨computeFigures s, ?_⟩⟩
  · intro before t left entered noticed
    have sup : t.sup = _ := changeState_sup_of_differs differs
    have lift : t.lift = _ := changeState_lift_of_differs differs
    have notices : stateNotices s.sup.state now = left ++ entered := stateNotices_eq before now
    have changed : t = { clockEvent (.supChange now) { s with sup := t.sup, lift := t.lift } with
        notices := noticed.notices, cab := noticed.cab } := by
      have order := changeState_of_differs differs
      rwa [notices] at order
    have trace : t.trace = (clockEvent (.supChange now) { s with sup := t.sup, lift := t.lift }).trace := by
      conv_lhs => rw [changed]
    have conditions : t.conditions = (clockEvent (.supChange now) { s with sup := t.sup, lift := t.lift }).conditions := by
      conv_lhs => rw [changed]
    refine ⟨by rw [sup, alertLevel_eq], ?_, trace, conditions, fun off => ?_, fun l on openLift => ?_⟩
    · rw [trace, conditions]
      conv_lhs => rw [changed, clockEvent_frame]
    · rw [lift, off]
      rfl
    · rw [lift, on, openLift, if_pos rfl, Option.map_some, trackState_eq]
  · intro sup current
    refine ⟨computeFigures_eq s, ?_⟩
    intro decided changed
    have state : (evaluate s).sup.state = decided := by
      refine (evaluate_state_eq s).trans ?_
      unfold decideState
      simp only [hysteresisState_eq, Bool.and_eq_true] <;> rfl
    have evaluated := evaluate_eq s
    rw [state] at evaluated
    refine ⟨fun tracked => ?_, fun untracked => ?_⟩
    · rwa [if_pos tracked] at evaluated
    · rwa [if_neg untracked] at evaluated

end Sys2Proof.Machine
end

