-- ==== Sys2Proof/Proofs/ServiceInput.lean ====
section
/-! PROOFS. The service input and the flashing of the alert output (R119 to R128). Settles O41. -/

namespace Sys2Proof.Machine

-- One theorem after another: side by side, so many small ones need more threads than the memory limit admits.
set_option Elab.async false

/-! ## What an evaluation writes (R119) -/

section

variable (s : State)

/-- An evaluation writes supervision, the conditions, the notices, the open lift and the trace. -/
theorem evaluate_frame :
    evaluate s = { s with
      sup := (evaluate s).sup, conditions := (evaluate s).conditions, notices := (evaluate s).notices,
      cab := (evaluate s).cab, lift := (evaluate s).lift, trace := (evaluate s).trace } := by
  have keeps := evaluate_keeps s
  generalize evaluate s = t at keeps
  obtain ⟨pending, choices, inReset, clock, strap, station, crane, intake, slew, queue, tally, active, staging, mgmt⟩ := keeps
  rw [← pending, ← choices, ← inReset, ← clock, ← strap, ← station, ← crane, ← intake, ← slew, ← queue, ← tally, ← active,
    ← staging, ← mgmt]

theorem evaluate_lift_frame : (evaluate s).lift = { s.lift with openLift := (evaluate s).lift.openLift } := by
  have changed (now : SupState) : (changeState now (computeFigures s)).lift =
      { s.lift with openLift := (changeState now (computeFigures s)).lift.openLift } := by
    rcases changeState_lift now (computeFigures s) with e | e
    · simp [e]
    · simp [e]
  rw [evaluate_eq]
  split
  · rw [State.modOpenLift_lift, changed]
  · exact changed _

/-- An evaluation keeps what its events and the lift controller have written. -/
theorem evaluate_sup_keeps :
    (evaluate s).sup.history = s.sup.history ∧ (evaluate s).sup.sector = s.sup.sector ∧
      (evaluate s).sup.bunkClass = s.sup.bunkClass ∧ (evaluate s).sup.service = s.sup.service ∧
      (evaluate s).sup.tracking = s.sup.tracking := by
  rw [evaluate_sup_frame, computeFigures_sup_frame]
  exact ⟨rfl, rfl, rfl, rfl, rfl⟩

end

section

variable {s : State}

/-- An evaluation that changes the state gives the alert output the new state's level (R128). -/
theorem evaluate_alert_of_differs (differs : (evaluate s).sup.state ≠ s.sup.state) :
    let now := (evaluate s).sup.state
    (evaluate s).sup.alert = decide (now = .unconfigured ∨ now = .limit ∨ now = .hold ∨ now = .warn) ∧
      (evaluate s).sup.alertNext = if now = .warn then some (s.clock + 200) else none := by
  intro now
  have before : (computeFigures s).sup.state = s.sup.state := by rw [computeFigures_sup_frame]
  have sup : (evaluate s).sup = (changeState now (computeFigures s)).sup := by
    conv_lhs => rw [evaluate_eq]
    split <;> rfl
  have clock : (computeFigures s).clock = s.clock := by simp
  rw [sup, changeState_sup_of_differs (before ▸ differs), clock, alertLevel_eq]
  exact ⟨rfl, rfl⟩

/-- An evaluation that changes the state raises the notices of the state left and the state entered (R126). -/
theorem evaluate_notifies_of_differs (differs : (evaluate s).sup.state ≠ s.sup.state) :
    Notifies (stateNotices s.sup.state (evaluate s).sup.state) s (evaluate s) := by
  have told := (Notifies.refl s).evaluate
  rwa [if_neg differs] at told

end

/-! ## The service input (R124) -/

/-- The state with another level at the service input, before supervision evaluates. -/
def withService (level : Bool) (s : State) : State := { s with sup := { s.sup with service := level } }

section

variable {level : Bool} {s : State}

@[simp] theorem withService_state (level : Bool) (s : State) : (withService level s).sup.state = s.sup.state := rfl

theorem exec_serviceInputChange (running : s.inReset = false) (level : Bool) :
    exec (.serviceInputChange level) s = .next (supServiceChange level s) := State.unlessReset_running _ s running

theorem supServiceChange_of_same (same : level = s.sup.service) : supServiceChange level s = s := if_pos same.symm

theorem supServiceChange_of_new (new : level ≠ s.sup.service) : supServiceChange level s = evaluate (withService level s) :=
  if_neg (Ne.symm new)

/-- Asserted, the service input gives BYPASS, and released another state. -/
theorem evaluate_withService_bypass_iff : (evaluate (withService level s)).sup.state = .bypass ↔ level = true := by
  obtain ⟨-, -, -, service, -⟩ := evaluate_sup_keeps (withService level s)
  rw [evaluate_state]
  refine (decideState_mode _).1.trans ?_
  rw [computeFigures_sup_frame]
  rfl

/-- A new level ends BYPASS exactly when it is released. -/
theorem ModeSafe.bypass_iff_of_new (mode : ModeSafe s) (new : level ≠ s.sup.service) :
    s.sup.state = .bypass ↔ level = false := by
  obtain ⟨bypass, -⟩ := mode
  rw [bypass]
  cases level <;> simpa using new.symm

theorem evaluate_withService_differs (mode : ModeSafe s) (new : level ≠ s.sup.service) :
    (evaluate (withService level s)).sup.state ≠ s.sup.state := by
  intro same
  have after := evaluate_withService_bypass_iff (level := level) (s := s)
  rw [same, mode.bypass_iff_of_new new] at after
  cases level <;> simp at after

/-- BYPASS_ON and BYPASS_OFF follow the level, and the kinds of HOLD and LIMIT the state entered (R126). -/
theorem withService_notifies (mode : ModeSafe s) (new : level ≠ s.sup.service) :
    let t := evaluate (withService level s)
    ∃ raised, NoticesRaised raised s t ∧ (raised .bypassOn ↔ level = true) ∧ (raised .bypassOff ↔ level = false) ∧
      (raised .holdEntered ↔ t.sup.state = .hold) ∧ (raised .limitEntered ↔ t.sup.state = .limit) := by
  intro t
  have changed : Notifies [] s (withService level s) := (Notifies.refl s).same rfl rfl
  have told := changed.trans (evaluate_notifies_of_differs (evaluate_withService_differs mode new))
  refine ⟨_, told, ?_, ?_, ?_, ?_⟩
  · simpa [mem_stateNotices] using evaluate_withService_bypass_iff
  · simpa [mem_stateNotices] using mode.bypass_iff_of_new new
  · simp [mem_stateNotices, t]
  · simp [mem_stateNotices, t]

/-- Released with no table set active: UNCONFIGURED (R123). -/
theorem withService_state_of_none (inactive : s.active = none) :
    (evaluate (withService false s)).sup.state = .unconfigured :=
  (evaluate_state_eq _).trans ((decideState_mode _).2.1.mpr ⟨rfl, inactive⟩)

/-- Released with F or REACH STALE: HOLD (R122). -/
theorem withService_state_of_stale {set : TableSet} (active : s.active = some set)
    (stale : s.fresh .f = false ∨ s.fresh .reach = false) : (evaluate (withService false s)).sup.state = .hold :=
  evaluate_state_hold rfl (by simp [withService, active]) fun fresh => by
    have f : s.fresh .f = true := fresh.1
    have reach : s.fresh .reach = true := fresh.2
    simp [f, reach] at stale

/-- Released with F and REACH FRESH: the state is decided from U alone (R121). -/
theorem withService_state_of_fresh (mode : ModeSafe s) (new : false ≠ s.sup.service) {set : TableSet}
    (active : s.active = some set) (f : s.fresh .f = true) (reach : s.fresh .reach = true) :
    (evaluate (withService false s)).sup.state =
      freshState set.machine (evaluate (withService false s)).sup.utilisation := by
  have bypass : (withService false s).sup.state = .bypass := (mode.bypass_iff_of_new new).mpr rfl
  rw [evaluate_state_of_current (s := withService false s) rfl active f reach, bypass]
  rfl

end

/-! ## The flashing of the alert output (R128) -/

section

variable {s : State}

theorem exec_alertFlashToggle (running : s.inReset = false) : exec .alertFlashToggle s = .next (alertToggle s) :=
  State.unlessReset_running _ s running

theorem alertToggle_of_not_due (notDue : s.sup.state ≠ .warn ∨ expired s.clock s.sup.alertNext = false) :
    alertToggle s = s := by
  refine if_neg fun due => ?_
  rcases notDue with other | early
  · exact other due.1
  · exact Bool.eq_false_iff.mp early due.2

theorem alertToggle_of_due {due : Clock} (warn : s.sup.state = .warn) (next : s.sup.alertNext = some due)
    (reached : expired s.clock (some due) = true) :
    alertToggle s = { s with sup := { s.sup with alert := !s.sup.alert, alertNext := some (due + 200) } } := by
  unfold alertToggle
  rw [next, if_pos ⟨warn, reached⟩]
  rfl

end

/-- Settles O41: a new level is an evaluation that changes the state, whose effects are then those of the change. -/
theorem serviceInputAndAlert : Obligations.ServiceInputAndAlert := by
  intro level s running
  rw [exec_serviceInputChange running, exec_alertFlashToggle running]
  refine ⟨fun same => by rw [supServiceChange_of_same same], fun new => by rw [supServiceChange_of_new new]; rfl,
    fun new mode => ?_, fun notDue => by rw [alertToggle_of_not_due notDue],
    fun due warn next reached => by rw [alertToggle_of_due warn next reached]⟩
  have differs := evaluate_withService_differs mode new
  obtain ⟨alert, alertNext⟩ := evaluate_alert_of_differs (s := withService level s) differs
  obtain ⟨history, sector, bunkClass, service, tracking⟩ := evaluate_sup_keeps (withService level s)
  refine ⟨evaluate (withService level s), by rw [supServiceChange_of_new new], service, evaluate_frame (withService level s),
    withService_notifies mode new, evaluate_lift_frame (withService level s), history, sector, bunkClass, tracking, alert,
    alertNext, evaluate_moment_of_current (s := withService level s), evaluate_moment_of_not_current (s := withService level s),
    fun asserted => ?_, ?_⟩
  · have bypass := evaluate_withService_bypass_iff (s := s).mpr asserted
    exact ⟨bypass, by rw [alert, bypass]; rfl⟩
  · rintro rfl
    refine ⟨fun inactive => ?_, fun set active stale => ?_, fun set => withService_state_of_fresh mode new⟩
    · have unconfigured := withService_state_of_none inactive
      exact ⟨unconfigured, by rw [alert, unconfigured]; rfl⟩
    · have hold := withService_state_of_stale active stale
      exact ⟨hold, by rw [alert, hold]; rfl⟩

end Sys2Proof.Machine
end

