-- ==== Sys2Proof/Proofs/DemandClasses.lean ====
section
/-! PROOFS. The class of a demand (R134 to R136). Settles O43. -/

namespace Sys2Proof.Machine

-- One theorem after another: side by side, so many small ones need more threads than the memory limit admits.
set_option Elab.async false

/-! ## The class by positive effect (R135, R174) -/

section

variable {e : FunctionEntry} {d : Int}

theorem effectClass_of_increases (effect : e.effect = 1) :
    effectClass e d = if 0 < d then .increasing else .decreasing := if_pos effect

theorem effectClass_of_decreases (effect : e.effect = 2) :
    effectClass e d = if 0 < d then .decreasing else .increasing := by
  simp [effectClass, effect]

theorem effectClass_of_none (effect : e.effect = 0) : effectClass e d = .neutral := by
  simp [effectClass, effect]

/-! ## The class of a SLEW demand (R136) -/

@[simp] theorem slewClass_unknown : slewClass none e d = .increasing := rfl

variable {x : SectorEntry}

theorem slewClass_of_towardNone (toward : x.towardLesser = 0) : slewClass (some x) e d = .neutral := if_pos toward

/-- In a sector that names a direction, the class compares that direction with the one asked for. -/
theorem slewClass_of_toward (toward : x.towardLesser.toNat = 1 ∨ x.towardLesser.toNat = 2) :
    slewClass (some x) e d = if askedDirection e d = x.towardLesser.toNat then .increasing else .decreasing :=
  if_neg fun zero => by simp [zero] at toward

theorem askedDirection_eq_iff_of_pos (pos : 0 < d) :
    askedDirection e d = x.towardLesser.toNat ↔ e.sense = x.towardLesser := by
  rw [askedDirection, if_pos pos, BitVec.toNat_inj]

/-- A negative demand asks for the direction toward the lesser column exactly when the entry's sense is the other one. -/
theorem askedDirection_eq_iff_of_neg (neg : d < 0) (sense : e.sense.toNat = 1 ∨ e.sense.toNat = 2)
    (toward : x.towardLesser.toNat = 1 ∨ x.towardLesser.toNat = 2) :
    askedDirection e d = x.towardLesser.toNat ↔ e.sense ≠ x.towardLesser := by
  rw [askedDirection, if_neg (by omega), ne_eq, ← BitVec.toNat_inj]
  omega

theorem slewClass_of_pos (pos : 0 < d) (toward : x.towardLesser.toNat = 1 ∨ x.towardLesser.toNat = 2) :
    slewClass (some x) e d = if e.sense = x.towardLesser then .increasing else .decreasing := by
  simp only [slewClass_of_toward toward, askedDirection_eq_iff_of_pos pos]

theorem slewClass_of_neg (neg : d < 0) (sense : e.sense.toNat = 1 ∨ e.sense.toNat = 2)
    (toward : x.towardLesser.toNat = 1 ∨ x.towardLesser.toNat = 2) :
    slewClass (some x) e d = if e.sense = x.towardLesser then .decreasing else .increasing := by
  simp only [slewClass_of_toward toward, askedDirection_eq_iff_of_neg neg sense toward, ne_eq, ite_not]

end

/-! ## The cases of the classification (R134) -/

section

variable {s : State} {set : TableSet} {function : Byte} {e : FunctionEntry} {d : Int}

@[simp] theorem classify_zero : classify s function 0 = .neutral := if_pos rfl

theorem classify_of_inactive (nonzero : d ≠ 0) (inactive : s.active = none) : classify s function d = .increasing := by
  simp [classify, nonzero, inactive]

theorem functionOf_eq_none (absent : ∀ e ∈ set.functions, e.functionId ≠ function) : set.functionOf function = none :=
  List.find?_eq_none.mpr fun e mem => by simpa using absent e mem

theorem classify_of_no_entry (active : s.active = some set) (absent : set.functionOf function = none) :
    classify s function d = .neutral := by
  simp [classify, active, absent]

theorem classify_of_slew (nonzero : d ≠ 0) (active : s.active = some set) (entry : set.functionOf function = some e)
    (slew : e.role = 0) : classify s function d = slewClass (sectorInUse set s.sup.sector) e d := by
  simp [classify, nonzero, active, entry, slew]

theorem classify_of_not_slew (nonzero : d ≠ 0) (active : s.active = some set) (entry : set.functionOf function = some e)
    (other : e.role ≠ 0) : classify s function d = effectClass e d := by
  simp only [classify, if_neg nonzero, active, entry, if_neg other]

end

/-- Settles O43, case by case of R134: an entry's role picks the rule of R136 or of R135. -/
theorem classOfADemand : Obligations.ClassOfADemand := by
  intro s function d
  refine ⟨classify_zero, classify_of_inactive, fun set active =>
    ⟨fun absent => classify_of_no_entry active (functionOf_eq_none absent), fun e entry nonzero => ⟨fun role => ?_,
      fun role sense => ?_⟩⟩⟩
  · have other : e.role ≠ 0 := fun zero => role (by rw [zero]; rfl)
    rw [classify_of_not_slew nonzero active entry other]
    exact ⟨fun effect => effectClass_of_increases (BitVec.eq_of_toNat_eq effect),
      fun effect => effectClass_of_decreases (BitVec.eq_of_toNat_eq effect),
      fun effect => effectClass_of_none (BitVec.eq_of_toNat_eq effect)⟩
  · rw [classify_of_slew nonzero active entry (BitVec.eq_of_toNat_eq role)]
    refine ⟨fun unknown => by rw [unknown, slewClass_unknown], fun x sector => ?_⟩
    rw [sector]
    exact ⟨fun toward => slewClass_of_towardNone (BitVec.eq_of_toNat_eq toward),
      fun toward => ⟨fun pos => slewClass_of_pos pos toward, fun neg => slewClass_of_neg neg sense toward⟩⟩

end Sys2Proof.Machine
end

