-- ==== Sys2Proof/Proofs/DemandStrength.lean ====
section
/-! PROOFS. Shaping never strengthens a demand (R134, R137 to R139). Settles O44. -/

namespace Sys2Proof.Machine

-- One theorem after another: side by side, so many small ones need more threads than the memory limit admits.
set_option Elab.async false

/-! ## Demands that are no stronger than another -/

/-- `out` is zero or has the sign of `d`, and is no greater in magnitude. -/
def NoStronger (out d : Int) : Prop := (0 ≤ d → 0 ≤ out ∧ out ≤ d) ∧ (d ≤ 0 → d ≤ out ∧ out ≤ 0)

theorem NoStronger.refl (d : Int) : NoStronger d d := by
  unfold NoStronger
  omega

theorem NoStronger.zero (d : Int) : NoStronger 0 d := by
  unfold NoStronger
  omega

theorem NoStronger.trans {a b c : Int} (first : NoStronger a b) (second : NoStronger b c) : NoStronger a c := by
  unfold NoStronger at *
  omega

/-- A sign that is not turned, and a magnitude that does not grow. -/
theorem NoStronger.of_natAbs_le {out d : Int} (nonneg : 0 ≤ d → 0 ≤ out) (nonpos : d ≤ 0 → out ≤ 0)
    (magnitude : out.natAbs ≤ d.natAbs) : NoStronger out d := by
  unfold NoStronger
  omega

/-! ## Clamping (R134) -/

theorem clampDemand_eq (d : Int) : clampDemand d = max (-1000) (min 1000 d) := clampInt_eq (by omega) d

theorem clampDemand_noStronger (d : Int) : NoStronger (clampDemand d) d := by
  rw [clampDemand_eq]
  unfold NoStronger
  omega

/-! ## Scaling in WARN (R138) -/

theorem warnScaled_of_entry {s : State} {set : TableSet} {function : Byte} {e : FunctionEntry}
    (active : s.active = some set) (entry : set.functionOf function = some e) (d : Int) :
    warnScaled s function d = Int.tdiv (d * (e.warnScale.toNat : Int)) 1000 := by
  simp [warnScaled, active, entry]

/-- A negative demand is scaled as the positive one of its magnitude. -/
theorem warnScaled_neg (s : State) (function : Byte) (d : Int) :
    warnScaled s function (-d) = -warnScaled s function d := by
  unfold warnScaled
  split
  · rw [Int.neg_mul, Int.neg_tdiv]
  · rfl

theorem warnScaled_nonneg (s : State) (function : Byte) {d : Int} (nonneg : 0 ≤ d) : 0 ≤ warnScaled s function d := by
  unfold warnScaled
  split
  · exact Int.tdiv_nonneg (Int.mul_nonneg nonneg (Int.natCast_nonneg _)) (by omega)
  · exact nonneg

theorem warnScaled_noStronger {s : State} (valid : ∀ set, s.active = some set → SetValid set) (function : Byte) (d : Int) :
    NoStronger (warnScaled s function d) d := by
  refine .of_natAbs_le (warnScaled_nonneg s function) (fun nonpos => ?_) (natAbs_warnScaled_le valid function d)
  have opposite := warnScaled_nonneg s function (Int.neg_nonneg_of_nonpos nonpos)
  rw [warnScaled_neg] at opposite
  omega

/-- Truncation toward zero loses less than one divisor of the magnitude. -/
theorem natAbs_tdiv_bounds (n : Int) :
    (1000 * Int.tdiv n 1000).natAbs ≤ n.natAbs ∧ n.natAbs < (1000 * Int.tdiv n 1000).natAbs + 1000 := by
  have quotient : (Int.tdiv n 1000).natAbs = n.natAbs / 1000 := Int.natAbs_tdiv n 1000
  omega

/-! ## Forwarding by the class and the supervision state (R137, R139) -/

section

variable {s : State} {function : Byte}

theorem shapeIncreasing_of_passing (state : s.sup.state = .normal ∨ s.sup.state = .bypass) (d : Int) :
    shapeIncreasing s function d = d := by
  rcases state with state | state <;> simp [shapeIncreasing, state]

theorem shapeIncreasing_of_stopping
    (state : s.sup.state = .limit ∨ s.sup.state = .hold ∨ s.sup.state = .unconfigured) (d : Int) :
    shapeIncreasing s function d = 0 := by
  rcases state with state | state | state <;> simp [shapeIncreasing, state]

theorem shapeIncreasing_of_warn (state : s.sup.state = .warn) (d : Int) :
    shapeIncreasing s function d = warnScaled s function d := by
  simp [shapeIncreasing, state]

theorem shapeDemand_of_increasing {received : Int} (increasing : classify s function (clampDemand received) = .increasing) :
    shapeDemand s function received = shapeIncreasing s function (clampDemand received) := by
  simp [shapeDemand, increasing]

theorem shapeDemand_of_not_increasing {received : Int}
    (other : classify s function (clampDemand received) ≠ .increasing) :
    shapeDemand s function received = clampDemand received := by
  cases found : classify s function (clampDemand received) with
  | increasing => exact absurd found other
  | decreasing | neutral => simp [shapeDemand, found]

end

theorem shapeIncreasing_noStronger {s : State} (valid : ∀ set, s.active = some set → SetValid set) (function : Byte)
    (d : Int) : NoStronger (shapeIncreasing s function d) d := by
  cases state : s.sup.state with
  | normal | bypass =>
    rw [shapeIncreasing_of_passing (by simp [state])]
    exact .refl d
  | warn =>
    rw [shapeIncreasing_of_warn state]
    exact warnScaled_noStronger valid function d
  | limit | hold | unconfigured =>
    rw [shapeIncreasing_of_stopping (by simp [state])]
    exact .zero d

theorem shapeDemand_noStronger {s : State} (valid : ∀ set, s.active = some set → SetValid set) (function : Byte)
    (received : Int) : NoStronger (shapeDemand s function received) received := by
  refine .trans ?_ (clampDemand_noStronger received)
  by_cases increasing : classify s function (clampDemand received) = .increasing
  · rw [shapeDemand_of_increasing increasing]
    exact shapeIncreasing_noStronger valid function _
  · rw [shapeDemand_of_not_increasing increasing]
    exact .refl _

/-- Settles O44: clamping and the shaping of each supervision state keep a demand no stronger, and each state's rule says
what is forwarded. -/
theorem shapingNeverStrengthensADemand : Obligations.ShapingNeverStrengthensADemand := by
  intro s function received valid out clamped
  have clamps : clampDemand received = clamped := clampDemand_eq received
  obtain ⟨nonneg, nonpos⟩ : NoStronger out received := shapeDemand_noStronger valid function received
  have bound : out.natAbs ≤ 1000 := natAbs_shapeDemand_le valid function received
  refine ⟨fun sign => ?_, fun sign => ?_, fun other => ?_, fun increasing => ?_⟩
  · obtain ⟨kept, weaker⟩ := nonneg sign
    exact ⟨kept, weaker, by omega⟩
  · obtain ⟨weaker, kept⟩ := nonpos sign
    exact ⟨weaker, kept, by omega⟩
  · rw [← clamps] at other ⊢
    exact shapeDemand_of_not_increasing other
  · have forwarded : out = shapeIncreasing s function clamped := by
      rw [← clamps] at increasing ⊢
      exact shapeDemand_of_increasing increasing
    rw [forwarded]
    refine ⟨fun state => shapeIncreasing_of_passing state clamped, fun state => shapeIncreasing_of_stopping state clamped,
      fun set e warn active entry => ?_⟩
    rw [shapeIncreasing_of_warn warn, warnScaled_of_entry active entry]
    exact natAbs_tdiv_bounds _

end Sys2Proof.Machine
end

