-- ==== Sys2Proof/Proofs/EntryRecords.lean ====
section
/-! PROOFS. The table store's promise, and the records of a table set: how they are written and read (R145, R147, R154, R156,
R174). Settles O50 and O46. -/

namespace Sys2Proof.Machine

-- One theorem after another: side by side, so many small ones need more threads than the memory limit admits.
set_option Elab.async false

/-- Settles O50: a bank changes by a write, a check or a swap alone, and each of these keeps the promise. -/
theorem everyStepKeepsTablesSafe : Obligations.EveryStepKeepsTablesSafe :=
  fun _ _ h answer => keptByBlocks_tablesSafe.step h answer

/-! ## A record's fields, byte by byte (R174) -/

theorem bytes16_append (a b : Byte) : bytes16 (a ++ b) = [a, b] := by
  have high : (a ++ b).extractLsb' 8 8 = a := BitVec.extractLsb'_append_eq_left
  have low : (a ++ b).extractLsb' 0 8 = b := BitVec.extractLsb'_append_eq_right
  rw [bytes16, high, low]

theorem bytes16_field16 (r : List Byte) (i : Nat) : bytes16 (field16 r i) = [byteAt r i, byteAt r (i + 1)] :=
  bytes16_append _ _

theorem bytes24_append (x : BitVec 16) (b : Byte) : bytes24 (x ++ b) = bytes16 x ++ [b] := by
  have high : (x ++ b).extractLsb' 16 8 = x.extractLsb' 8 8 := BitVec.extractLsb'_append_eq_of_le (by decide)
  have middle : (x ++ b).extractLsb' 8 8 = x.extractLsb' 0 8 := BitVec.extractLsb'_append_eq_of_le (by decide)
  have low : (x ++ b).extractLsb' 0 8 = b := BitVec.extractLsb'_append_eq_right
  rw [bytes24, high, middle, low]
  rfl

theorem bytes24_field24 (r : List Byte) (i : Nat) :
    bytes24 (field24 r i) = [byteAt r i, byteAt r (i + 1), byteAt r (i + 2)] := by
  rw [field24, bytes24_append, bytes16_field16]
  rfl

theorem bytes32_append (x y : BitVec 16) : bytes32 (x ++ y) = bytes16 x ++ bytes16 y := by
  have first : (x ++ y).extractLsb' 24 8 = x.extractLsb' 8 8 := BitVec.extractLsb'_append_eq_of_le (by decide)
  have second : (x ++ y).extractLsb' 16 8 = x.extractLsb' 0 8 := BitVec.extractLsb'_append_eq_of_le (by decide)
  have third : (x ++ y).extractLsb' 8 8 = y.extractLsb' 8 8 := BitVec.extractLsb'_append_eq_of_add_le (by decide)
  have fourth : (x ++ y).extractLsb' 0 8 = y.extractLsb' 0 8 := BitVec.extractLsb'_append_eq_of_add_le (by decide)
  rw [bytes32, first, second, third, fourth]
  rfl

theorem bytes32_field32 (r : List Byte) (i : Nat) :
    bytes32 (field32 r i) = [byteAt r i, byteAt r (i + 1), byteAt r (i + 2), byteAt r (i + 3)] := by
  rw [field32, bytes32_append, bytes16_field16, bytes16_field16]
  rfl

/-- A record is its bytes, offset by offset. -/
theorem map_byteAt_range (r : List Byte) : (List.range r.length).map (byteAt r) = r := by
  refine List.ext_getElem (by simp) fun i below _ => ?_
  rw [List.getElem_map, List.getElem_range, byteAt, List.getD_eq_getElem]

/-! ## Reading back a write (R147, R156) -/

/-- An entry of a written list: the record at the index, the entries that were there, and all-zero ones between (R147). -/
theorem getElem?_writeList {α : Type} (zero e : α) (i : Nat) (l : List α) (j : Nat) :
    (writeList zero i e l)[j]? =
      if j = i then some e else if j < l.length then l[j]? else if j < i then some zero else none := by
  unfold writeList
  split
  · next inside =>
    rw [List.getElem?_set]
    grind
  · next outside =>
    simp only [List.getElem?_append, List.length_append, List.length_replicate, List.getElem?_replicate]
    grind

section

variable {target : Target} {record : List Byte}

/-- A record reads back as it was written, at its index. -/
theorem TableSet.read_write_same (length : record.length = target.recordLength) {i : Nat} (index : i < target.indices)
    (set : TableSet) : (set.write target i record).read target i = some record := by
  have bytes := map_byteAt_range record
  rw [length] at bytes
  cases target <;>
    simp only [TableSet.read, TableSet.write, getElem?_writeList, if_true, Option.map_some, Option.some.injEq] <;>
    refine Eq.trans ?_ bytes
  case channelEntry => simp only [channelOfBytes, channelBytes, bytes16_field16, bytes24_field24, bytes32_field32]; rfl
  case toolEntry => simp only [toolOfBytes, toolBytes, bytes16_field16]; rfl
  case sectorHeader => simp only [sectorHeaderOfBytes, sectorHeaderBytes, bytes16_field16]; rfl
  case sectorEntry => simp only [sectorOfBytes, sectorBytes, bytes16_field16]; rfl
  case capacityHeader => rfl
  case capacityRow =>
    show List.flatMap bytes16 [_, _, _, _, _, _, _, _, _] = _
    simp only [List.flatMap_cons, List.flatMap_nil, bytes16_field16]
    rfl
  case functionEntry => simp only [functionOfBytes, functionBytes, bytes16_field16]; rfl
  case machineRecord => simp only [machineOfBytes, machineBytes, bytes16_field16, bytes32_field32]; rfl

/-- A write leaves every other target alone. -/
theorem TableSet.read_write_other {other : Target} (different : other ≠ target) (i j : Nat) (set : TableSet) :
    (set.write target i record).read other j = set.read other j := by
  cases target <;> cases other <;> simp [TableSet.read, TableSet.write] at different ⊢

/-- What a write leaves at another index of its target: what was there, or an all-zero record below the index written. -/
theorem TableSet.read_write_index {i j : Nat} (below : i < target.indices) (index : j < target.indices) (different : j ≠ i)
    (set : TableSet) :
    (set.write target i record).read target j =
      (set.read target j).or (if j < i then some (List.replicate target.recordLength 0) else none) := by
  have entries : ∀ {α : Type} (bytes : α → List Byte) (zero e : α) (l : List α),
      (writeList zero i e l)[j]?.map bytes = (l[j]?.map bytes).or (if j < i then some (bytes zero) else none) := by
    intro α bytes zero e l
    rw [getElem?_writeList, if_neg different]
    by_cases inside : j < l.length
    · simp [inside]
    · rw [if_neg inside, List.getElem?_eq_none (Nat.le_of_not_lt inside)]
      split <;> rfl
  have single : target.indices ≠ 1 := by omega
  cases target
  case channelEntry | toolEntry | sectorEntry | capacityRow | functionEntry => exact entries _ _ _ _
  case sectorHeader | capacityHeader | machineRecord => exact absurd rfl single

end

/-- Settles O46: the target and index written, the other targets, and the other indices of the target. -/
theorem entryRecordsReadBack : Obligations.EntryRecordsReadBack := by
  intro target i record set index length
  refine ⟨set.read_write_same length index, fun other j different => TableSet.read_write_other different i j set,
    fun j below different => ?_⟩
  rw [TableSet.read_write_index index below different]
  refine ⟨fun old found => by rw [found]; rfl, fun none lower => ?_, fun none higher => ?_⟩
  · rw [none, if_pos lower]
    rfl
  · rw [none, if_neg (Nat.lt_asymm higher)]
    rfl

end Sys2Proof.Machine
end

