-- ==== Sys2Proof/Proofs/StagingOperations.lean ====
section
/-! PROOFS. OPEN STAGING, WRITE ENTRY and READ ENTRY: what each judges, in which order, and what it returns (R146, R147, R156,
R159 to R161, R167). Settles O47. -/

namespace Sys2Proof.Machine

-- One theorem after another: side by side, so many small ones need more threads than the memory limit admits.
set_option Elab.async false

/-! ## Targets and banks by their codes (R145, R174) -/

theorem targetOfCode_eq_some_iff {n : Nat} {target : Target} : targetOfCode n = some target ↔ n = target.code := by
  constructor
  · intro h
    unfold targetOfCode at h
    split at h <;> cases h <;> rfl
  · rintro rfl
    cases target <;> rfl

theorem targetAndIndex_eq_some_iff {n index : Nat} {target : Target} :
    targetAndIndex n index = some target ↔ n = target.code ∧ index < target.indices := by
  simp only [targetAndIndex, Option.bind_eq_some_iff, targetOfCode_eq_some_iff]
  constructor
  · rintro ⟨found, code, inside⟩
    split at inside <;> cases inside
    exact ⟨code, by assumption⟩
  · rintro ⟨code, inside⟩
    exact ⟨target, code, if_pos inside⟩

theorem targetAndIndex_eq_none {n index : Nat} (outside : ∀ target : Target, n = target.code → target.indices ≤ index) :
    targetAndIndex n index = none :=
  Option.eq_none_iff_forall_ne_some.mpr fun target found =>
    let ⟨code, inside⟩ := targetAndIndex_eq_some_iff.mp found
    absurd inside (Nat.not_lt.mpr (outside target code))

theorem bankSet_toNat (bank : Byte) (s : State) :
    bankSet bank.toNat s = if bank = 0 then s.active else s.staging.held := by
  have zero : bank = 0 ↔ bank.toNat = 0 := BitVec.toNat_inj.symm
  simp only [bankSet, zero]

theorem writable_eq_none {bank : Staging} (shut : bank = .empty ∨ ∃ set, bank = .previous set) : bank.writable = none := by
  rcases shut with rfl | ⟨set, rfl⟩ <;> rfl

theorem writable_eq_some {bank : Staging} {set : TableSet}
    (holds : bank = .loading set ∨ bank = .checked set ∨ bank = .failed set) : bank.writable = some set := by
  rcases holds with rfl | rfl | rfl <;> rfl

/-! ## The operations -/

section

variable {s : State} {r : Request} {c : Chain} {code : Byte} {more : Bool} {operands : List Byte} {next : Nat}

/-- An operation whose operands have no accepted length gives LENGTH_ERROR (R159 step 4). -/
theorem unlessReset_performCoded_of_length (h : NextOperation s r c code more operands next)
    (perform : List Byte → Nat → State → State × OpResult) (refused : operandLengthOk code operands.length = false) :
    s.unlessReset (performCoded code perform) =
      .next (concludeOp r.payload code more next c (s, .gives .lengthError [])) := by
  obtain ⟨running, -⟩ := id h
  rw [State.unlessReset_running _ s running, performCoded_of_nextOperation h, judged, if_neg (by simp [refused])]
  rfl

end

section

variable {s : State} {bank code index : Byte} {record : List Byte} {target : Target} {free : Nat}

theorem writeEntry_lengthOk : operandLengthOk 0x21 (code :: index :: record).length = true :=
  decide_eq_true (p := 2 ≤ record.length + 2) (Nat.le_add_left 2 record.length)

theorem opWriteEntry_of_range (outside : targetAndIndex code.toNat index.toNat = none) :
    opWriteEntry (code :: index :: record) free s = (s, .gives .rangeError []) := by
  show (match targetAndIndex code.toNat index.toNat with | none => _ | some target => _) = _
  rw [outside]
  rfl

/-- With a target and index in range: the record's length, the staging state, then the room (R147). -/
theorem opWriteEntry_of_target (inside : targetAndIndex code.toNat index.toNat = some target) :
    opWriteEntry (code :: index :: record) free s =
      if record.length ≠ target.recordLength then (s, .gives .lengthError [])
      else s.staging.writable.elim (s, .gives .notOpen [])
        fun set => performIf free 0 (writeStaging set target index.toNat record s, .gives .ok []) s := by
  show (match targetAndIndex code.toNat index.toNat with | none => _ | some target => _) = _
  rw [inside]
  dsimp only
  cases s.staging.writable <;> rfl

theorem opReadEntry_of_range (outside : 1 < bank.toNat ∨ targetAndIndex code.toNat index.toNat = none) :
    opReadEntry [bank, code, index] free s = (s, .gives .rangeError []) := by
  show (match targetAndIndex code.toNat index.toNat with | none => _ | some target => _) = _
  cases found : targetAndIndex code.toNat index.toNat with
  | none => rfl
  | some target =>
    rcases outside with high | none
    · exact if_neg (Nat.not_le.mpr high)
    · cases found.symm.trans none

/-- With operands in range: the bank's contents and the entry, then the room (R156). -/
theorem opReadEntry_of_target (low : bank.toNat ≤ 1) (inside : targetAndIndex code.toNat index.toNat = some target)
    {held : Option TableSet} (holds : bankSet bank.toNat s = held) :
    opReadEntry [bank, code, index] free s =
      (held.bind (TableSet.read target index.toNat)).elim (s, .gives .notFound [])
        fun record => performIf free target.recordLength (s, .gives .ok record) s := by
  show (match targetAndIndex code.toNat index.toNat with | none => _ | some target => _) = _
  rw [inside]
  refine (if_pos low).trans ?_
  show (match (bankSet bank.toNat s).bind (TableSet.read target index.toNat) with | none => _ | some record => _) = _
  rw [holds]
  cases held.bind (TableSet.read target index.toNat) <;> rfl

end

/-- Settles O47: each operation's judgements in their order, and then its room. -/
theorem stagingIsOpenedWrittenAndRead : Obligations.StagingIsOpenedWrittenAndRead := by
  intro s r c more operands next
  refine ⟨fun operation => ⟨fun surplus => ?_, ?_, ?_⟩, fun operation short => ?_, fun operation length => ?_,
    fun code index record operation => ⟨fun outside => ?_, fun target named inside => ?_⟩,
    fun bank code index operation => ⟨fun outside => ?_, fun target low named inside => ?_⟩⟩
  · have length : operands.length ≠ 0 := mt List.eq_nil_of_length_eq_zero surplus
    exact unlessReset_performCoded_of_length operation opOpenStaging (decide_eq_false length)
  · rintro rfl room
    refine (unlessReset_performCoded operation opOpenStaging rfl).trans ?_
    rw [opOpenStaging, performIf_of_room room, openStaging]
  · rintro rfl noRoom
    refine (unlessReset_performCoded operation opOpenStaging rfl).trans ?_
    rw [opOpenStaging, performIf_of_noRoom noRoom]
  · exact unlessReset_performCoded_of_length operation opWriteEntry (decide_eq_false (Nat.not_le.mpr short))
  · exact unlessReset_performCoded_of_length operation opReadEntry (decide_eq_false length)
  · refine (unlessReset_performCoded operation opWriteEntry writeEntry_lengthOk).trans ?_
    rw [opWriteEntry_of_range (targetAndIndex_eq_none outside)]
  · have row : exec .writeEntry s = _ := unlessReset_performCoded operation opWriteEntry writeEntry_lengthOk
    rw [row, opWriteEntry_of_target (targetAndIndex_eq_some_iff.mpr ⟨named, inside⟩)]
    refine ⟨fun wrong => by rw [if_pos wrong], fun length shut => ?_, fun set length holds => ?_⟩
    · rw [if_neg (not_not_intro length), writable_eq_none shut]
      rfl
    · rw [if_neg (not_not_intro length), writable_eq_some holds, Option.elim_some]
      exact ⟨fun room => by rw [performIf_of_room room, writeStaging], fun noRoom => by rw [performIf_of_noRoom noRoom]⟩
  · refine (unlessReset_performCoded operation opReadEntry rfl).trans ?_
    rw [opReadEntry_of_range (outside.imp_right targetAndIndex_eq_none)]
  · have row : exec .readEntry s = _ := unlessReset_performCoded operation opReadEntry rfl
    rw [row]
    have equation := fun {held} => opReadEntry_of_target (s := s) (held := held) (free := c.free) low
      (targetAndIndex_eq_some_iff.mpr ⟨named, inside⟩)
    have holding := bankSet_toNat bank s
    refine ⟨fun none => ?_, fun set holds absent => ?_, fun set record holds found => ?_⟩
    · rw [equation (holding.trans none)]
      rfl
    · rw [equation (holding.trans holds), Option.bind_some, absent]
      rfl
    · rw [equation (holding.trans holds), Option.bind_some, found, Option.elim_some]
      exact ⟨fun room => by rw [performIf_of_room room], fun noRoom => by rw [performIf_of_noRoom noRoom]⟩

end Sys2Proof.Machine
end

