-- ==== Sys2Proof/Proofs/TableChecks.lean ====
section
/-! PROOFS. Validation makes the checks of `TableSet.checks` in their order, and CHECK STAGING starts it and takes its outcome
(R148 to R153, R160, R161, R167). Settles O48. -/

namespace Sys2Proof.Machine

-- One theorem after another: side by side, so many small ones need more threads than the memory limit admits.
set_option Elab.async false

/-! ## What a list of checks finds (R148) -/

/-- A list of checks made in order finds this: nothing when all of them pass, and else the report of the first that fails. -/
inductive Finds : List TableCheck → Option Failure → Prop
  | nothing : Finds [] none
  | fails {c : TableCheck} {rest : List TableCheck} : c.fails → Finds (c :: rest) (some c.report)
  | passes {c : TableCheck} {rest : List TableCheck} {found : Option Failure} :
      ¬c.fails → Finds rest found → Finds (c :: rest) found

namespace Finds

theorem eq_none_iff {checks : List TableCheck} {found : Option Failure} (h : Finds checks found) :
    found = none ↔ ∀ c ∈ checks, ¬c.fails := by
  induction h with
  | nothing => simp
  | fails bad => simp [bad]
  | passes good _ ih => simp [good, ih]

theorem eq_some_iff {checks : List TableCheck} {found : Option Failure} (h : Finds checks found) (failure : Failure) :
    found = some failure ↔
      ∃ before c behind, checks = before ++ c :: behind ∧ c.fails ∧ c.report = failure ∧ ∀ d ∈ before, ¬d.fails := by
  induction h with
  | nothing => simp
  | @fails c rest bad =>
    rw [Option.some.injEq]
    constructor
    · rintro rfl
      exact ⟨[], c, rest, rfl, bad, rfl, fun _ none => absurd none List.not_mem_nil⟩
    · rintro ⟨_ | ⟨d, before⟩, c, behind, split, -, report, passed⟩
      · cases split
        exact report
      · cases split
        exact absurd bad (passed _ List.mem_cons_self)
  | @passes c rest _ good _ ih =>
    rw [ih]
    constructor
    · rintro ⟨before, d, behind, rfl, bad, report, passed⟩
      exact ⟨c :: before, d, behind, rfl, bad, report, List.forall_mem_cons.mpr ⟨good, passed⟩⟩
    · rintro ⟨_ | ⟨d, before⟩, c, behind, split, bad, report, passed⟩
      · cases split
        exact absurd bad good
      · cases split
        exact ⟨before, _, behind, rfl, bad, report, (List.forall_mem_cons.mp passed).2⟩

/-! ## Checks made after one another -/

/-- The checks behind are made when those before found nothing. -/
theorem append {before behind : List TableCheck} {found : Option Failure} {rest : List (Option Failure)}
    (h : Finds before found) (h' : found = none → Finds behind (firstFailure rest)) :
    Finds (before ++ behind) (firstFailure (found :: rest)) := by
  induction h with
  | nothing => exact h' rfl
  | fails bad => exact .fails bad
  | passes good _ ih => exact .passes good (ih h')

theorem cons {c : TableCheck} {behind : List TableCheck} {found : Option Failure} {rest : List (Option Failure)}
    (h : Finds [c] found) (h' : Finds behind (firstFailure rest)) : Finds (c :: behind) (firstFailure (found :: rest)) :=
  append h fun _ => h'

theorem last {checks : List TableCheck} {found : Option Failure} (h : Finds checks found) :
    Finds checks (firstFailure [found]) := by
  cases found <;> exact h

theorem single {fails : Prop} {passes : Bool} (h : fails ↔ passes = false) (target : Target) (index : Nat) (code : Byte) :
    Finds [⟨fails, target, index, code⟩] (failUnless passes target index code) := by
  cases passes with
  | false => exact .fails (h.mpr rfl)
  | true => exact .passes (mt h.mp nofun) .nothing

/-- Checks with the failures that they find, each in its place. -/
theorem flatten {checks : List (List TableCheck)} {found : List (Option Failure)} (h : List.Forall₂ Finds checks found) :
    Finds checks.flatten (firstFailure found) := by
  induction h with
  | nil => exact .nothing
  | cons first _ ih => exact append first fun _ => ih

/-- Every entry of a table is checked (R150, "Check codes"). -/
theorem entries {α : Type} {checks : Nat → α → List TableCheck} {checkEntry : Nat → α → Option Failure}
    (h : ∀ i e, Finds (checks i e) (checkEntry i e)) (l : List α) :
    Finds (entryChecks checks l) (entryFailures checkEntry l) := by
  refine flatten (List.forall₂_iff_get.mpr ⟨by simp, fun i below _ => ?_⟩)
  simp only [List.get_eq_getElem, List.getElem_mapIdx]
  exact h _ _

/-- One check for each of some things, of which the first that is wanted fails. -/
theorem find {α : Type} {l : List α} {checks : List TableCheck} {wanted : α → Bool} {report : α → Failure}
    (h : List.Forall₂ (fun x c => (c.fails ↔ wanted x = true) ∧ c.report = report x) l checks) :
    Finds checks ((l.find? wanted).map report) := by
  induction h with
  | nil => exact .nothing
  | @cons x c _ _ this _ ih =>
    obtain ⟨fails, reports⟩ := this
    rw [List.find?_cons]
    split
    · next found =>
      rw [Option.map_some, ← reports]
      exact .fails (fails.mpr found)
    · next missed => exact .passes (mt fails.mp (by simp [missed])) ih

/-- The first entry that repeats an earlier one (R150). -/
theorem repeated {α : Type} {same : α → α → Prop} {sameEntry : α → α → Bool} (h : ∀ d e, sameEntry d e = true ↔ same d e)
    (target : Target) (code : Byte) (l : List α) :
    Finds (repeatChecks target code same l) ((firstRepeat sameEntry l).map fun j => ⟨target, j, code⟩) := by
  refine find (List.forall₂_iff_get.mpr ⟨by simp [repeatChecks], fun j _ below => ?_⟩)
  have inside : j < l.length := by simpa [repeatChecks] using below
  simp [repeatChecks, h, inside]

theorem none_of_passes {checks : List TableCheck} (pass : ∀ c ∈ checks, ¬c.fails) : Finds checks none := by
  induction checks with
  | nil => exact .nothing
  | cons c rest ih =>
    obtain ⟨first, others⟩ := List.forall_mem_cons.mp pass
    exact .passes first (ih others)

theorem some_of_alone {checks : List TableCheck} {c : TableCheck} (mem : c ∈ checks) (bad : c.fails)
    (alone : ∀ d ∈ checks, d.fails → d = c) : Finds checks (some c.report) := by
  induction checks with
  | nil => exact absurd mem List.not_mem_nil
  | cons d rest ih =>
    obtain ⟨first, others⟩ := List.forall_mem_cons.mp alone
    by_cases fails : d.fails
    · obtain rfl := first fails
      exact .fails fails
    · refine .passes fails (ih ?_ others)
      rcases List.mem_cons.mp mem with rfl | behind
      · exact absurd bad fails
      · exact behind

/-- Of checks of which one alone can fail, that one's outcome. -/
theorem only {checks : List TableCheck} {fails : Prop} {target : Target} {index : Nat} {code : Byte} {passes : Bool}
    (mem : ⟨fails, target, index, code⟩ ∈ checks) (alone : ∀ d ∈ checks, d.fails → d = ⟨fails, target, index, code⟩)
    (h : fails ↔ passes = false) : Finds checks (failUnless passes target index code) := by
  cases passes with
  | false => exact some_of_alone mem (h.mpr rfl) alone
  | true =>
    refine none_of_passes fun d found bad => ?_
    obtain rfl := alone d found bad
    exact nomatch h.mp bad

end Finds

/-! ## Ranges -/

theorem between_eq_false_iff {low high v : Nat} : between low high v = false ↔ Outside low high v := by
  simp only [between, Outside, Bool.and_eq_false_iff, decide_eq_false_iff_not]
  omega

theorem inRange_eq_false_iff {low high v : Int} : inRange (low, high) v = false ↔ Outside low high v := by
  simp only [inRange, Outside, Bool.and_eq_false_iff, decide_eq_false_iff_not]
  omega

/-! ## The channel table (R24, R150) -/

theorem measurandOfCode_eq_none_iff {n : Nat} :
    measurandOfCode n = none ↔ ∀ range ∈ measurandRanges, n ≠ range.1 := by
  unfold measurandOfCode
  split <;> simp_all [measurandRanges]

/-- The ranges of a code are those of its measurand. -/
theorem exists_measurandRange_iff {n : Nat} {m : Measurand} (named : measurandOfCode n = some m) {p : Int × Int → Prop} :
    (∃ range ∈ measurandRanges, n = range.1 ∧ p range.2) ↔ p (measurandRange m) := by
  unfold measurandOfCode at named
  split at named <;> cases named <;> simp [measurandRanges, measurandRange]

/-- A channel entry's fields fail exactly when one of them lies outside its range (R24). -/
theorem channelFieldsOk_eq_false_iff (e : ChannelEntry) :
    channelFieldsOk e = false ↔
      Outside 1 62 e.source.toNat ∨ Outside 0 15 e.slot.toNat ∨ Outside 5 1000 e.timeout.toNat ∨
        (∀ range ∈ measurandRanges, ¬e.measurand.toNat = range.1) ∨
        ∃ range ∈ measurandRanges, e.measurand.toNat = range.1 ∧
          ∃ value ∈ [e.v0, e.v1, e.low, e.high], Outside range.2.1 range.2.2 value.toInt := by
  unfold channelFieldsOk
  split
  · next unknown =>
    have := measurandOfCode_eq_none_iff.mp unknown
    simp only [true_iff]
    exact .inr (.inr (.inr (.inl this)))
  · next m named =>
    have known : ¬∀ range ∈ measurandRanges, ¬e.measurand.toNat = range.1 :=
      mt measurandOfCode_eq_none_iff.mpr (by simp [named])
    have values := exists_measurandRange_iff named
      (p := fun range => ∃ value ∈ [e.v0, e.v1, e.low, e.high], Outside range.1 range.2 value.toInt)
    rw [values]
    obtain ⟨low, high⟩ := measurandRange m
    simp only [Bool.and_eq_false_iff, between_eq_false_iff, inRange_eq_false_iff, List.exists_mem_cons_iff, known, false_or,
      List.not_mem_nil, false_and, exists_false, Nat.cast_ofNat, Nat.cast_one, Nat.cast_zero,
      or_assoc, or_comm, or_left_comm]

theorem finds_checkChannels (t : TableSet) : Finds t.channelChecks (checkChannels t) := by
  unfold TableSet.channelChecks checkChannels
  rw [List.append_assoc, List.append_assoc]
  refine .append (.entries (fun i e => ?entry) _) fun _ => .append (.repeated (by simp) _ _ _) fun _ =>
    .append (.repeated (by simp) _ _ _) fun _ => .last ?missing
  case entry =>
    exact .cons (.single (channelFieldsOk_eq_false_iff e).symm _ _ _) <| .cons (.single (by simp) _ _ _) <|
      .last (.single (by simp) _ _ _)
  case missing =>
    show Finds ([Measurand.f, .reach, .pitch, .roll, .gpress].map fun m =>
      ⟨∀ e ∈ t.channels, e.measurand.toNat ≠ measurandCode m, .channelEntry, measurandCode m, 0x16⟩) _
    refine .find (List.forall₂_map_right_iff.mpr (List.forall₂_same.mpr fun m _ => ⟨?_, rfl⟩))
    simp [TableSet.channelOf]

/-! ## The tool table (R57, R151) -/

theorem toolFieldsOk_eq_false_iff (e : ToolEntry) :
    toolFieldsOk e = false ↔
      Outside 0 7 e.toolId.toNat ∨ Outside 0 50000 e.tare.toNat ∨ Outside 1 3500 e.closeThreshold.toNat ∨
        Outside 0 3499 e.openThreshold.toNat ∨ Outside 50 2000 e.gripConfirmTime.toNat ∨
        Outside 100 3000 e.regripTime.toNat ∨ Outside 100 20000 e.liftoffNet.toNat ∨ Outside 5 500 e.accelGate.toNat ∨
        Outside 16 256 e.windowLength.toNat ∨ Outside 1 200 e.tolerance.toNat ∨ Outside 0 2000 e.spreadFloor.toNat ∨
        Outside 1 32 e.gapLimit.toNat := by
  simp only [toolFieldsOk, Bool.and_eq_false_iff, between_eq_false_iff, or_assoc, Nat.cast_ofNat, Nat.cast_one, Nat.cast_zero]

theorem finds_checkTools (t : TableSet) : Finds t.toolChecks (checkTools t) := by
  unfold TableSet.toolChecks checkTools
  rw [List.append_assoc]
  exact .append (.single (by simp) _ _ _) fun _ =>
    .append (.entries (fun i e => .cons (.single (toolFieldsOk_eq_false_iff e).symm _ _ _) <|
      .last (.single (by simp) _ _ _)) _) fun _ =>
    .last (.repeated (by simp) _ _ _)

/-! ## The capacity table (R113, R151) -/

theorem nonIncreasing_of_getD {l : List (BitVec 16)}
    (h : ∀ k, k + 1 < l.length → (l.getD (k + 1) 0).toNat ≤ (l.getD k 0).toNat) : nonIncreasing l = true := by
  induction l using nonIncreasing.induct with
  | case1 a b rest ih =>
    rw [nonIncreasing, Bool.and_eq_true, decide_eq_true_eq]
    exact ⟨h 0 (by simp), ih fun k below => h (k + 1) (Nat.succ_lt_succ below)⟩
  | case2 l short => rw [nonIncreasing.eq_def]; split <;> simp_all

/-- A row rises somewhere exactly when its capacity at one of the nine tilt points is less than at the next (R113). -/
theorem nonIncreasing_eq_false_iff (r : CapacityRow) :
    nonIncreasing r.capacities.toList = false ↔ ∃ k, k < 8 ∧ pointCapacity r k < pointCapacity r (k + 1) := by
  constructor
  · intro rises
    by_contra falls
    simp only [not_exists, not_and, Nat.not_lt] at falls
    have := nonIncreasing_of_getD (l := r.capacities.toList) fun k below =>
      falls k (Nat.lt_of_succ_lt_succ (by simpa using below))
    simp [rises] at this
  · rintro ⟨k, -, rises⟩
    by_contra falls
    exact absurd (getD_succ_le_of_nonIncreasing (Bool.not_eq_false _ ▸ falls) k) (Nat.not_le.mpr rises)

theorem finds_checkCapacity (t : TableSet) : Finds t.capacityChecks (checkCapacity t) := by
  unfold TableSet.capacityChecks checkCapacity
  exact .cons (.single between_eq_false_iff.symm _ _ _) <|
    .append (before := [_]) (.single (by simp) _ _ _) fun _ => .last <|
    .entries (fun i r => .cons (.single (by simp only [List.all_eq_false, decide_eq_true_eq, Nat.not_le]) _ _ _) <|
      .last (.single (nonIncreasing_eq_false_iff r).symm _ _ _)) _

/-! ## The sector table (R46, R47, R152) -/

theorem sectorHeaderOk_eq_false_iff (h : SectorHeader) :
    sectorHeaderOk h = false ↔
      Outside 1024 65535 h.cpr.toNat ∨ h.cpr.toNat ≤ h.indexOffset.toNat ∨ h.cpr.toNat / 8 < h.driftLimit.toNat ∨
        Outside 2 12 h.count.toNat := by
  simp only [sectorHeaderOk, Bool.and_eq_false_iff, between_eq_false_iff, decide_eq_false_iff_not, Nat.not_lt, Nat.not_le,
    or_assoc, Nat.cast_ofNat]

theorem sectorFieldsOk_eq_false_iff (h : SectorHeader) (e : SectorEntry) :
    sectorFieldsOk h e = false ↔
      h.cpr.toNat ≤ e.start.toNat ∨ Outside 1 4 e.kind.toNat ∨ Outside (-1000) 1000 e.cosWeight.toInt ∨
        Outside (-1000) 1000 e.sinWeight.toInt ∨ Outside 0 2 e.towardLesser.toNat := by
  simp only [sectorFieldsOk, Bool.and_eq_false_iff, between_eq_false_iff, inRange_eq_false_iff, decide_eq_false_iff_not,
    Nat.not_lt, or_assoc, Nat.cast_ofNat, Nat.cast_one, Nat.cast_zero]

/-- A left fold that keeps the better of two indices ends at the first of the least ones. -/
theorem foldl_least (f : Nat → Nat) (n : Nat) :
    let least := (List.range (n + 1)).foldl (fun best i => if f i < f best then i else best) 0
    least < n + 1 ∧ (∀ j, j < n + 1 → f least ≤ f j) ∧ ∀ j, j < least → f least < f j := by
  induction n with
  | zero => simp
  | succ n ih =>
    rw [List.range_succ, List.foldl_append]
    generalize (List.range (n + 1)).foldl (fun best i => if f i < f best then i else best) 0 = best at ih
    obtain ⟨below, least, first⟩ := ih
    simp only [List.foldl_cons, List.foldl_nil]
    split
    · next less =>
      exact ⟨Nat.lt_succ_self _, fun j inside => by grind, fun j inside => Nat.lt_of_lt_of_le less (least j inside)⟩
    · exact ⟨by omega, fun j inside => by grind, first⟩

section

variable {t : TableSet} (nonEmpty : t.sectors ≠ [])
include nonEmpty

theorem narrowest_least : t.narrowest < t.sectors.length ∧
    (∀ j, j < t.sectors.length → t.widthOf t.narrowest ≤ t.widthOf j) ∧
      ∀ j, j < t.narrowest → t.widthOf t.narrowest < t.widthOf j := by
  obtain ⟨n, count⟩ := Nat.exists_eq_add_one_of_ne_zero (mt List.eq_nil_of_length_eq_zero nonEmpty)
  unfold TableSet.narrowest
  rw [count]
  exact foldl_least t.widthOf n

/-- The narrowest sector is the lowest of those that no other is narrower than (R152). -/
theorem eq_narrowest {i : Nat} (inside : i < t.sectors.length)
    (least : ∀ j, j < t.sectors.length → t.widthOf i ≤ t.widthOf j) (first : ∀ j, j < i → t.widthOf i < t.widthOf j) :
    i = t.narrowest := by
  obtain ⟨below, least', first'⟩ := narrowest_least nonEmpty
  rcases Nat.lt_trichotomy i t.narrowest with lower | same | higher
  · exact absurd (first' i lower) (Nat.not_lt.mpr (least _ below))
  · exact same
  · exact absurd (first _ higher) (Nat.not_lt.mpr (least' i inside))

/-- Only the narrowest sector can be too narrow for the hysteresis (R152). -/
theorem finds_narrowest :
    Finds ((List.range t.sectors.length).map fun i =>
        ⟨(∀ j, j < t.sectors.length → t.widthOf i ≤ t.widthOf j) ∧ (∀ j, j < i → t.widthOf i < t.widthOf j) ∧
          t.widthOf i ≤ 2 * t.sectorHeader.hysteresis.toNat, .sectorEntry, i, 0x46⟩)
      (failUnless (decide (2 * t.sectorHeader.hysteresis.toNat < t.widthOf t.narrowest)) .sectorEntry t.narrowest 0x46) := by
  obtain ⟨below, least, first⟩ := narrowest_least nonEmpty
  refine .only (List.mem_map.mpr ⟨t.narrowest, List.mem_range.mpr below, rfl⟩) ?_ ?_
  · rintro d found bad
    obtain ⟨i, inside, rfl⟩ := List.mem_map.mp found
    obtain ⟨least', first', -⟩ := bad
    obtain rfl := eq_narrowest nonEmpty (List.mem_range.mp inside) least' first'
    rfl
  · rw [decide_eq_false_iff_not, Nat.not_lt]
    exact ⟨fun bad => bad.2.2, fun narrow => ⟨least, first, narrow⟩⟩

end

theorem finds_checkSectors (t : TableSet) : Finds t.sectorChecks (checkSectors t) := by
  unfold TableSet.sectorChecks checkSectors
  rw [List.append_assoc]
  refine .append (before := [_]) (.single (sectorHeaderOk_eq_false_iff _).symm _ _ _) fun header =>
    .append (before := [_]) (.single (by simp) _ _ _) fun count =>
    .append (.entries (fun i e => .cons (.single (sectorFieldsOk_eq_false_iff _ e).symm _ _ _) <|
      .cons (.single (by simp) _ _ _) <| .last (.single (by simp) _ _ _)) _) fun _ => .last (finds_narrowest ?_)
  rintro empty
  have counted := failUnless_eq_none_iff.mp count
  have inRanges := failUnless_eq_none_iff.mp header
  simp only [sectorHeaderOk, between, Bool.and_eq_true, decide_eq_true_eq, empty, List.length_nil] at counted inRanges
  omega

/-! ## The function and machine tables (R132, R153) -/

theorem functionFieldsOk_eq_false_iff (e : FunctionEntry) :
    functionFieldsOk e = false ↔
      Outside 0 15 e.functionId.toNat ∨ Outside 0 6 e.role.toNat ∨ Outside 0 2 e.effect.toNat ∨ Outside 0 2 e.sense.toNat ∨
        Outside 100 1000 e.warnScale.toNat := by
  simp only [functionFieldsOk, Bool.and_eq_false_iff, between_eq_false_iff, or_assoc, Nat.cast_ofNat, Nat.cast_zero]

theorem finds_checkFunctions (t : TableSet) : Finds t.functionChecks (checkFunctions t) := by
  unfold TableSet.functionChecks checkFunctions
  exact .append (.entries (fun i e => .cons (.single (by simp [imp_iff_not_or]) _ _ _) <| .cons (.single (by simp) _ _ _) <|
    .last (.single (functionFieldsOk_eq_false_iff e).symm _ _ _)) _) fun _ => .last (.repeated (by simp) _ _ _)

theorem finds_checkMachine (t : TableSet) : Finds t.machineChecks (checkMachine t.machine) := by
  unfold TableSet.machineChecks checkMachine
  refine .cons (.single ?_ _ _ _) <| .cons (.single (by simp) _ _ _) <| .cons (.single (by simp) _ _ _) <|
    .cons (.single ?_ _ _ _) <| .last (.single (by simp) _ _ _)
  · simp only [Bool.and_eq_false_iff, between_eq_false_iff, decide_eq_false_iff_not, Nat.not_le, or_assoc, Nat.cast_ofNat,
      Outside]
    omega
  · simp only [Bool.and_eq_false_iff, between_eq_false_iff, Nat.cast_ofNat, Nat.cast_one]

/-- Validation finds what the checks of the set find (R148). -/
theorem finds_validate (t : TableSet) : Finds t.checks (validate t) := by
  unfold TableSet.checks validate
  simp only [List.append_assoc]
  exact .append (finds_checkChannels t) fun _ => .append (finds_checkTools t) fun _ => .append (finds_checkCapacity t) fun _ =>
    .append (finds_checkSectors t) fun _ => .append (finds_checkFunctions t) fun _ => .last (finds_checkMachine t)

/-! ## The operation and its completion (R148, R149) -/

section

variable {s : State} {c : Chain} {set : TableSet} {operands : List Byte}

theorem opCheckStaging_of_empty (empty : s.staging = .empty) (free : Nat) :
    opCheckStaging operands free s = (s, .gives .notOpen []) := by
  rw [opCheckStaging, empty]
  rfl

theorem opCheckStaging_of_previous (previous : s.staging = .previous set) (free : Nat) :
    opCheckStaging operands free s = (s, .gives .wrongState []) := by
  rw [opCheckStaging, previous]
  rfl

theorem opCheckStaging_of_writable (holds : s.staging = .loading set ∨ s.staging = .checked set ∨ s.staging = .failed set)
    (free : Nat) : opCheckStaging operands free s = performIf free 6 (s, .checking) s := by
  unfold opCheckStaging
  rcases holds with state | state | state <;> rw [state]

/-- The outcome of a running check: the bank by what validation says, and the chain goes on with the result (R149). -/
theorem completeCheck_of_checking {started : Clock} {more : Bool} {r : Request} {rest : List Request}
    (phase : s.mgmt.phase = .checking c started more) (requests : s.mgmt.requests = r :: rest)
    (writable : s.staging.writable = some set) :
    completeCheck s =
      concludeOp r.payload 0x23 more c.offset c ({ s with staging := stagingAfterCheck set }, .gives .ok (checkData set)) := by
  unfold completeCheck
  rw [phase, requests, writable]

theorem completeCheck_of_not_checking (idle : ∀ c started more, s.mgmt.phase ≠ .checking c started more) :
    completeCheck s = s := by
  unfold completeCheck
  split
  · next phase _ _ => exact absurd phase (idle _ _ _)
  · rfl

end

/-- Settles O48: validation by the checks of the set, CHECK STAGING by the staging state and then its room, and the completion
by what validation says. -/
theorem checkStagingJudgesTheSet : Obligations.CheckStagingJudgesTheSet := by
  refine ⟨fun set => ⟨(finds_validate set).eq_none_iff, (finds_validate set).eq_some_iff⟩,
    fun s r c more next operation => ?_, fun s r rest c started more set running phase requests holds => ?_,
    fun s running idle => ?_⟩
  · have row : exec .checkStaging s = _ := unlessReset_performCoded operation opCheckStaging rfl
    rw [row]
    refine ⟨fun empty => ?_, fun set previous => ?_, fun set holds => ?_⟩
    · rw [opCheckStaging_of_empty empty]
    · rw [opCheckStaging_of_previous previous]
    · rw [opCheckStaging_of_writable holds]
      exact ⟨fun room => by rw [performIf_of_room room]; rfl, fun noRoom => by rw [performIf_of_noRoom noRoom]⟩
  · have row : exec .checkStagingComplete s = .next (completeCheck s) := State.unlessReset_running _ s running
    rw [row, completeCheck_of_checking phase requests (writable_eq_some holds), stagingAfterCheck, checkData]
    exact ⟨fun valid => by rw [valid], fun failure found => by rw [found]⟩
  · have row : exec .checkStagingComplete s = .next (completeCheck s) := State.unlessReset_running _ s running
    rw [row, completeCheck_of_not_checking idle]

end Sys2Proof.Machine
end

