-- ==== Sys2Proof/Proofs/RunningChains.lean ====
section
/-! PROOFS. A chain is read, goes on and stops: what follows an operation, when the chain goes on behind it, and that the fuel
of `runChain` always suffices (R158 to R163). -/

namespace Sys2Proof.Machine

-- One theorem after another: side by side, so many small ones need more threads than the memory limit admits.
set_option Elab.async false

/-! ## Reading an operation (R159) -/

/-- An operation that is read takes at least its three header bytes of the payload. -/
theorem readOp_progress {payload : List Byte} {offset next : Nat} {code : Byte} {more : Bool} {operands : List Byte}
    (h : readOp payload offset = .op code more operands next) : offset + 3 ≤ next ∧ next ≤ payload.length := by
  unfold readOp at h
  split at h
  · cases h
  · next code flags length body read =>
    split at h
    · cases h
    · next long =>
      cases h
      have total := congrArg List.length read
      simp only [List.length_drop, List.length_cons] at total
      omega
  · cases h

/-! ## The reply that ends a chain (R162) -/

theorem payloadOf_frameOf (dest source kind flags : Byte) {payload : List Byte} (short : payload.length ≤ 120) :
    payloadOf (frameOf dest source kind flags payload) = payload := by
  have count : (sendByte payload.length).toNat = payload.length := by
    rw [sendByte, BitVec.toNat_ofNat]
    omega
  show (payload ++ _).take (sendByte payload.length).toNat = payload
  rw [count, List.take_left]

theorem headD_payload (payload : List Byte) : payload.headD 0 = byteAt payload 0 := by cases payload <;> rfl

section

variable {s t : State} {c : Chain} {r : Request} {rest : List Request}

/-- The reply that ends a chain carries the tag, the two counts, the final status and the results. -/
theorem endChain_reply (requests : s.mgmt.requests = r :: rest) (final : Status) (fit : c.results.length ≤ 116) :
    ∃ reply, goodAtEnd reply = true ∧ byteAt reply 0 = r.source ∧ byteAt reply 1 = s.station ∧ byteAt reply 2 = 0x52 ∧
      byteAt reply 3 = 0 ∧
      payloadOf reply =
        [byteAt r.payload 0, sendByte c.resultCount, sendByte c.performedCount, sendByte final.code] ++ c.results ∧
      endChain final c s = offerHeld { s with mgmt := { s.mgmt with phase := .held reply false } } := by
  refine ⟨replyFrame s.station r final false false c, goodAtEnd_replyFrame _ _ _ _ _ fit, rfl, rfl, rfl, rfl, ?_, ?_⟩
  · rw [replyFrame, payloadOf_frameOf, Request.tag, headD_payload]
    simp only [List.length_append, List.length_cons, List.length_nil]
    omega
  · rw [endChain, holdReply, requests]
    rfl

/-- A reply that has been offered, and has not left, does not leave at once when it is offered again (R162). -/
theorem offerHeld_offerHeld (s : State) : offerHeld (offerHeld s) = offerHeld s := by
  have stays (same : offerHeld s = s) : offerHeld (offerHeld s) = offerHeld s := by rw [same, same]
  cases phase : s.mgmt.phase with
  | reading c => exact stays (offerHeld_of_not_held (by simp [phase]))
  | checking c started more => exact stays (offerHeld_of_not_held (by simp [phase]))
  | held reply restart =>
    cases requests : s.mgmt.requests with
    | nil => exact stays (by simp only [offerHeld, phase, requests])
    | cons r rest =>
      by_cases full : (s.port r.port).answer = .noRoom
      · exact stays (offerHeld_of_noRoom phase requests full)
      · refine offerHeld_of_not_held ?_
        rw [offerHeld_of_leaves phase requests full]
        split <;> exact fun _ _ => nofun

/-! ## A chain goes on or stops -/

/-- From one state to another management has gone on in the same chain. -/
def GoesOn (s t : State) : Prop := ∃ c, t.mgmt.phase = .reading c ∧ t.mgmt.requests = s.mgmt.requests

/-- From one state to another management has stopped reading the head request's chain: it waits or holds a reply, or the
request has left. -/
def Stops (s t : State) : Prop := isReading t = false ∨ t.mgmt.requests.length ≠ s.mgmt.requests.length

theorem isReading_eq_true_iff : isReading s = true ↔ ∃ c, s.mgmt.phase = .reading c := by
  unfold isReading
  split <;> simp_all

theorem GoesOn.not_stops (h : GoesOn s t) : ¬Stops s t := by
  obtain ⟨c, phase, requests⟩ := h
  have reading : isReading t = true := isReading_eq_true_iff.mpr ⟨c, phase⟩
  simp [Stops, reading, requests]

theorem Stops.of_phase (h : ∀ c, t.mgmt.phase ≠ .reading c) : Stops s t :=
  .inl (Bool.eq_false_iff.mpr fun reading =>
    let ⟨c, phase⟩ := isReading_eq_true_iff.mp reading
    h c phase)

/-- A reply that is held stays held, or its request leaves (R162). -/
theorem Stops.offerHeld {reply : List Byte} {restart : Bool} (phase : t.mgmt.phase = .held reply restart)
    (requests : t.mgmt.requests = r :: rest) (same : t.mgmt.requests = s.mgmt.requests) : Stops s (offerHeld t) := by
  by_cases full : (t.port r.port).answer = .noRoom
  · rw [offerHeld_of_noRoom phase requests full]
    exact .of_phase (by simp [phase])
  · refine .inr ?_
    rw [offerHeld_of_leaves phase requests full, ← same, requests]
    split
    · simp [warmRestart]
    · simp [dropHead, requests]

theorem Stops.endChain (requests : t.mgmt.requests = r :: rest) (same : t.mgmt.requests = s.mgmt.requests) (final : Status)
    (c : Chain) : Stops s (endChain final c t) := by
  refine .offerHeld (t := holdReply final false c t) (reply := replyFrame t.station r final false false c) (restart := false)
    ?_ (rest := rest) (r := r) ?_ ?_ <;> simp only [holdReply, requests, State.modMgmt]
  exact requests.symm.trans same

/-! ## What follows an operation (R159, R160) -/

/-- All that can follow an operation: the chain waits for a check, a restart's reply is held, the chain goes on behind an OK
result, or it ends. -/
inductive OperationFollows (s : State) (result : OpResult) (more : Bool) (next : Nat) : State → Prop
  | waits {c : Chain} {started : Clock} : result = .checking →
      OperationFollows s result more next (s.modMgmt fun m => { m with phase := .checking c started more })
  | restarts {c : Chain} : result = .restarts → OperationFollows s result more next (holdReply .ok true c s)
  | goesOn {data : List Byte} {c : Chain} : result = .gives .ok data → more = true → next ≤ c.offset →
      OperationFollows s result more next (s.modMgmt fun m => { m with phase := .reading c })
  | ends {final : Status} {c : Chain} : OperationFollows s result more next (endChain final c s)

theorem concludeOp_follows (payload : List Byte) (code : Byte) (more : Bool) (next : Nat) (c : Chain)
    (x : State × OpResult) : OperationFollows x.1 x.2 more next (concludeOp payload code more next c x) := by
  obtain ⟨s, result⟩ := x
  unfold concludeOp
  dsimp only
  split
  · exact .waits rfl
  · exact .restarts rfl
  · split
    · next on =>
      split
      · unfold skipNext
        split
        · exact .ends
        · next read =>
          have := (readOp_progress read).1
          dsimp only at this
          split
          · dsimp only
            split
            · exact .goesOn rfl on (by dsimp only; omega)
            · exact .ends
          · exact .ends
      · exact .goesOn rfl on (Nat.le_refl _)
    · exact .ends
  · exact .ends

namespace OperationFollows

variable {result : OpResult} {more : Bool} {next : Nat} {u : State}

/-- The chain goes on behind the operation, or stops. -/
theorem goesOn_or_stops (h : OperationFollows t result more next u) (requests : t.mgmt.requests = r :: rest)
    (same : t.mgmt.requests = s.mgmt.requests) :
    (∃ data c, result = .gives .ok data ∧ more = true ∧ next ≤ c.offset ∧ u.mgmt.phase = .reading c ∧
        u.mgmt.requests = s.mgmt.requests) ∨ Stops s u := by
  cases h with
  | waits => exact .inr (.of_phase fun _ => nofun)
  | restarts => exact .inr (.of_phase (by simp [holdReply, requests, State.modMgmt]))
  | @goesOn data c gives on behind => exact .inl ⟨data, c, gives, on, behind, rfl, same⟩
  | ends => exact .inr (.endChain requests same _ _)

/-- But for a restart's reply, what is to be offered has been offered. -/
theorem settled (h : OperationFollows t result more next u) (noRestart : result ≠ .restarts) : offerHeld u = u := by
  cases h with
  | waits => exact offerHeld_of_not_held fun _ _ => nofun
  | restarts restarts => exact absurd restarts noRestart
  | goesOn => exact offerHeld_of_not_held fun _ _ => nofun
  | ends => exact offerHeld_offerHeld _

end OperationFollows

/-! ## Running a chain (R159) -/

/-- Management reads the chain of a request that has operations. -/
def Reads (s : State) (r : Request) (c : Chain) : Prop :=
  s.mgmt.phase = .reading c ∧ s.mgmt.requests.head? = some r ∧ 2 ≤ r.payload.length

theorem performNext_of_short {code : Byte} (reads : Reads s r c) (read : readOp r.payload c.offset = .short code) :
    performNext s = endChain .lengthError (c.record code .lengthError []) s := by
  obtain ⟨phase, head, length⟩ := reads
  obtain ⟨rest, requests⟩ := List.head?_eq_some_iff.mp head
  simp only [performNext, nextOp, phase, requests, if_pos length, read]

section

variable {code : Byte} {more : Bool} {operands : List Byte} {next : Nat}

theorem performNext_of_op (reads : Reads s r c) (read : readOp r.payload c.offset = .op code more operands next) :
    performNext s = concludeOp r.payload code more next c (performCode code operands c.free s) := by
  obtain ⟨phase, head, length⟩ := reads
  obtain ⟨rest, requests⟩ := List.head?_eq_some_iff.mp head
  simp only [performNext, nextOp, phase, requests, if_pos length, read]

theorem NextOperation.reads (h : NextOperation s r c code more operands next) : Reads s r c :=
  let ⟨_, phase, head, length, _⟩ := h
  ⟨phase, head, length⟩

/-- Behind an operation the chain goes on, or it stops. -/
theorem performNext_op_goesOn_or_stops (reads : Reads s r c)
    (read : readOp r.payload c.offset = .op code more operands next) :
    (∃ data c', (performCode code operands c.free s).2 = .gives .ok data ∧ more = true ∧ next ≤ c'.offset ∧
      (performNext s).mgmt.phase = .reading c' ∧ (performNext s).mgmt.requests = s.mgmt.requests) ∨
      Stops s (performNext s) := by
  obtain ⟨rest, requests⟩ := List.head?_eq_some_iff.mp reads.2.1
  have same : (performCode code operands c.free s).1.mgmt = s.mgmt := by simp
  rw [performNext_of_op reads read]
  exact (concludeOp_follows _ _ _ _ _ _).goesOn_or_stops (by rw [same, requests]) (by rw [same])

end

/-- Each operation of a chain moves on in its payload, or the chain stops. -/
theorem performNext_progress (reads : Reads s r c) :
    (∃ c', Reads (performNext s) r c' ∧ (performNext s).mgmt.requests = s.mgmt.requests ∧ c.offset + 3 ≤ c'.offset ∧
      c.offset + 3 ≤ r.payload.length) ∨ Stops s (performNext s) := by
  obtain ⟨phase, head, length⟩ := id reads
  obtain ⟨rest, requests⟩ := List.head?_eq_some_iff.mp head
  cases read : readOp r.payload c.offset with
  | short code =>
    rw [performNext_of_short reads read]
    exact .inr (.endChain requests rfl _ _)
  | op code more operands next =>
    obtain ⟨lower, upper⟩ := readOp_progress read
    refine (performNext_op_goesOn_or_stops reads read).imp_left ?_
    rintro ⟨data, c', -, -, behind, phase', same⟩
    exact ⟨c', ⟨phase', same ▸ head, length⟩, same, by omega, by omega⟩

theorem runChain_of_goesOn (h : GoesOn s (performNext s)) (fuel : Nat) :
    runChain (fuel + 1) s = runChain fuel (performNext s) := by
  obtain ⟨c, phase, requests⟩ := h
  exact if_pos ⟨congrArg List.length requests, isReading_eq_true_iff.mpr ⟨c, phase⟩⟩

theorem runChain_of_stops (h : Stops s (performNext s)) (fuel : Nat) : runChain (fuel + 1) s = performNext s := by
  refine if_neg fun ⟨length, reading⟩ => ?_
  rcases h with notReading | shorter
  · simp [reading] at notReading
  · exact shorter length

/-- Fuel for more bytes than are left of the payload suffices: one more changes nothing. -/
theorem runChain_succ {fuel : Nat} (reads : Reads s r c) (enough : r.payload.length - c.offset < fuel) :
    runChain (fuel + 1) s = runChain fuel s := by
  induction fuel generalizing s c with
  | zero => exact absurd enough (Nat.not_lt_zero _)
  | succ fuel ih =>
    rcases performNext_progress reads with ⟨c', reads', same, moved, inside⟩ | stops
    · have on : GoesOn s (performNext s) := ⟨c', reads'.1, same⟩
      rw [runChain_of_goesOn on, runChain_of_goesOn on, ih reads' (by omega)]
    · rw [runChain_of_stops stops, runChain_of_stops stops]

/-! ## Performing a request (R159) -/

theorem performRequest_of_reads (reads : Reads s r c) : performRequest s = offerHeld (runChain r.payload.length s) := by
  obtain ⟨phase, head, length⟩ := reads
  obtain ⟨rest, requests⟩ := List.head?_eq_some_iff.mp head
  unfold performRequest
  simp only [phase, requests]
  split
  · next empty => simp [empty] at length
  · next one => simp [one] at length
  · rfl

/-- When the chain stops, the reply that is held is offered. -/
theorem performRequest_of_stops (reads : Reads s r c) (stops : Stops s (performNext s)) :
    performRequest s = offerHeld (performNext s) := by
  obtain ⟨fuel, count⟩ : ∃ fuel, r.payload.length = fuel + 1 :=
    Nat.exists_eq_add_one_of_ne_zero (by have := reads.2.2; omega)
  rw [performRequest_of_reads reads, count, runChain_of_stops stops]

/-- When the chain goes on, its rest is performed. -/
theorem performRequest_of_goesOn (reads : Reads s r c) (on : GoesOn s (performNext s)) :
    performRequest s = performRequest (performNext s) := by
  obtain ⟨c', reads', -, moved, inside⟩ := (performNext_progress reads).resolve_right on.not_stops
  obtain ⟨fuel, count⟩ : ∃ fuel, r.payload.length = fuel + 1 := Nat.exists_eq_add_one_of_ne_zero (by omega)
  rw [performRequest_of_reads reads, performRequest_of_reads reads', count, runChain_of_goesOn on,
    runChain_succ reads' (by omega)]

end

end Sys2Proof.Machine
end

