-- ==== Sys2Proof/Proofs/OperationRows.lean ====
section
/-! PROOFS. Each operation's own command performs what the chain performs by its code, and PERFORM REQUEST runs the chain
(R159 to R163, R168, R169). Settles O53. -/

namespace Sys2Proof.Machine

-- One theorem after another: side by side, so many small ones need more threads than the memory limit admits.
set_option Elab.async false

/-! ## Only WARM RESTART restarts (R169) -/

/-- An operation that does not end its chain with a restart. -/
def NeverRestarts (perform : List Byte → Nat → State → State × OpResult) : Prop :=
  ∀ operands free s, (perform operands free s).2 ≠ .restarts

theorem refuse_ne_restarts (status : Status) (s : State) : (refuse status s).2 ≠ .restarts := OpResult.noConfusion

theorem performIf_ne_restarts (free dataLength : Nat) (t s : State) {result : OpResult} (h : result ≠ .restarts := by simp) :
    (performIf free dataLength (t, result) s).2 ≠ .restarts := by
  unfold performIf
  split
  · exact h
  · exact refuse_ne_restarts _ _

theorem NeverRestarts.judged {perform : List Byte → Nat → State → State × OpResult} (h : NeverRestarts perform) (code : Byte) :
    NeverRestarts (judged code perform) := by
  intro operands free s
  unfold Machine.judged
  split
  · exact h _ _ _
  · exact refuse_ne_restarts _ _

theorem opTest_neverRestarts : NeverRestarts opTest := by
  intro operands free s
  unfold opTest
  split
  · exact refuse_ne_restarts _ _
  · exact performIf_ne_restarts _ _ _ _

theorem opReadIdentity_neverRestarts : NeverRestarts opReadIdentity := fun _ _ _ => performIf_ne_restarts _ _ _ _

theorem opReadStatus_neverRestarts : NeverRestarts opReadStatus := by
  intro operands free s
  unfold opReadStatus
  split <;> exact performIf_ne_restarts _ _ _ _

theorem opReadMeasurands_neverRestarts : NeverRestarts opReadMeasurands := fun _ _ _ => performIf_ne_restarts _ _ _ _

theorem opReadTally_neverRestarts : NeverRestarts opReadTally := by
  intro operands free s
  unfold opReadTally
  dsimp only
  split
  · exact performIf_ne_restarts _ _ _ _
  · exact refuse_ne_restarts _ _

theorem opPeekLifts_neverRestarts : NeverRestarts opPeekLifts := by
  intro operands free s
  unfold opPeekLifts
  dsimp only
  split
  · split <;> simp
  · exact refuse_ne_restarts _ _

theorem opDropLifts_neverRestarts : NeverRestarts opDropLifts := by
  intro operands free s
  unfold opDropLifts
  split
  · exact refuse_ne_restarts _ _
  · exact performIf_ne_restarts _ _ _ _

theorem opClearBunk_neverRestarts : NeverRestarts opClearBunk := fun _ _ _ => performIf_ne_restarts _ _ _ _

theorem opClearConditions_neverRestarts : NeverRestarts opClearConditions := fun _ _ _ => performIf_ne_restarts _ _ _ _

theorem opOpenStaging_neverRestarts : NeverRestarts opOpenStaging := fun _ _ _ => performIf_ne_restarts _ _ _ _

theorem opWriteEntry_neverRestarts : NeverRestarts opWriteEntry := by
  intro operands free s
  unfold opWriteEntry
  dsimp only
  split
  · exact refuse_ne_restarts _ _
  · split
    · exact refuse_ne_restarts _ _
    · split
      · exact refuse_ne_restarts _ _
      · exact performIf_ne_restarts _ _ _ _

theorem opReadEntry_neverRestarts : NeverRestarts opReadEntry := by
  intro operands free s
  unfold opReadEntry
  dsimp only
  split
  · exact refuse_ne_restarts _ _
  · split
    · split
      · exact refuse_ne_restarts _ _
      · exact performIf_ne_restarts _ _ _ _
    · exact refuse_ne_restarts _ _

theorem opCheckStaging_neverRestarts : NeverRestarts opCheckStaging := by
  intro operands free s
  unfold opCheckStaging
  split
  · exact refuse_ne_restarts _ _
  · exact refuse_ne_restarts _ _
  all_goals exact performIf_ne_restarts _ _ _ _

theorem opActivate_neverRestarts : NeverRestarts opActivate := by
  intro operands free s
  unfold opActivate
  split
  · exact refuse_ne_restarts _ _
  · split
    · exact refuse_ne_restarts _ _
    · exact performIf_ne_restarts _ _ _ _

theorem traceResult_ne_restarts (free : Nat) (after s : State) : (traceResult free after s).2 ≠ .restarts :=
  performIf_ne_restarts _ _ _ _

theorem opTraceConfigure_neverRestarts : NeverRestarts opTraceConfigure := by
  intro operands free s
  unfold opTraceConfigure
  split
  · exact refuse_ne_restarts _ _
  · split
    · exact refuse_ne_restarts _ _
    · split
      · exact refuse_ne_restarts _ _
      · exact traceResult_ne_restarts _ _ _

/-- An action of TRACE CONTROL without operands. -/
theorem neverRestarts_of_plainAction {perform : List Byte → Nat → State → State × OpResult} {after : State → State}
    (acts : ∀ operands free s, perform operands free s =
      if operands.length ≠ 1 then refuse .lengthError s else traceResult free (after s) s) : NeverRestarts perform := by
  intro operands free s
  rw [acts]
  split
  · exact refuse_ne_restarts _ _
  · exact traceResult_ne_restarts _ _ _

theorem opTraceRead_neverRestarts : NeverRestarts opTraceRead := by
  intro operands free s
  unfold opTraceRead
  dsimp only
  split
  · split
    · exact performIf_ne_restarts _ _ _ _
    · split
      · exact refuse_ne_restarts _ _
      · simp
  · exact refuse_ne_restarts _ _

/-- WARM RESTART never goes on in its chain. -/
theorem opWarmRestart_ne_ok (operands : List Byte) (free : Nat) (s : State) (data : List Byte) :
    (judged 0x3F opWarmRestart operands free s).2 ≠ .gives .ok data := by
  unfold judged opWarmRestart performIf refuse
  split
  · split <;> simp
  · simp

/-! ## The rows of the operations (R159) -/

/-- A row performs the next operation when it has this code and wanted operands, as the chain does. -/
structure RowOf (x : Instr) (code : Byte) (wanted : List Byte → Bool) (perform : List Byte → Nat → State → State × OpResult) :
    Prop where
  exec_eq : ∀ s, exec x s = s.unlessReset (performWanted code wanted perform)
  performCode_eq : ∀ operands free s, wanted operands = true →
    performCode code operands free s = judged code perform operands free s
  neverRestarts : x ≠ .warmRestart → NeverRestarts perform

/-- The row of an operation that is performed whatever its operands. -/
theorem RowOf.coded {x : Instr} {code : Byte} {perform : List Byte → Nat → State → State × OpResult}
    (exec_eq : ∀ s, exec x s = s.unlessReset (performCoded code perform))
    (performCode_eq : ∀ operands free s, performCode code operands free s = judged code perform operands free s)
    (neverRestarts : x ≠ .warmRestart → NeverRestarts perform) : RowOf x code (fun _ => true) perform :=
  ⟨exec_eq, fun operands free s _ => performCode_eq operands free s, neverRestarts⟩

theorem eq_ofNat_of_toNat {b : Byte} {n : Nat} (is : b.toNat = n) : b = BitVec.ofNat 8 n := by
  rw [← is, BitVec.ofNat_toNat, BitVec.setWidth_eq]

/-- Each operation's code, the operand length it accepts (WRITE ENTRY's least) and its row; TRACE CONTROL has a row for each
of its actions. -/
def operationRows : List (Byte × Nat × Instr) :=
  [(0x01, 2, .test), (0x02, 0, .readIdentity), (0x03, 0, .readStatus), (0x04, 0, .readMeasurands), (0x05, 2, .readTally),
    (0x10, 1, .peekLifts), (0x11, 2, .dropLifts), (0x12, 0, .clearBunk), (0x13, 4, .clearConditions),
    (0x20, 0, .openStaging), (0x21, 2, .writeEntry), (0x22, 3, .readEntry), (0x23, 0, .checkStaging),
    (0x24, 2, .activate), (0x31, 1, .traceRead), (0x3F, 0, .warmRestart)]

/-- The rows of TRACE CONTROL by their actions (R168). -/
def traceActionRows : List (Byte × Instr) :=
  [(1, .traceConfigure), (2, .traceEnable), (3, .traceDisable), (4, .traceFlush)]

theorem rowOf_operationRows :
    ∀ b ∈ operationRows, ∃ perform, RowOf b.2.2 b.1 (fun _ => true) perform := by
  simp only [operationRows, List.forall_mem_cons]
  exact ⟨⟨opTest, .coded (fun _ => rfl) (fun _ _ _ => rfl) fun _ => opTest_neverRestarts⟩,
    ⟨opReadIdentity, .coded (fun _ => rfl) (fun _ _ _ => rfl) fun _ => opReadIdentity_neverRestarts⟩,
    ⟨opReadStatus, .coded (fun _ => rfl) (fun _ _ _ => rfl) fun _ => opReadStatus_neverRestarts⟩,
    ⟨opReadMeasurands, .coded (fun _ => rfl) (fun _ _ _ => rfl) fun _ => opReadMeasurands_neverRestarts⟩,
    ⟨opReadTally, .coded (fun _ => rfl) (fun _ _ _ => rfl) fun _ => opReadTally_neverRestarts⟩,
    ⟨opPeekLifts, .coded (fun _ => rfl) (fun _ _ _ => rfl) fun _ => opPeekLifts_neverRestarts⟩,
    ⟨opDropLifts, .coded (fun _ => rfl) (fun _ _ _ => rfl) fun _ => opDropLifts_neverRestarts⟩,
    ⟨opClearBunk, .coded (fun _ => rfl) (fun _ _ _ => rfl) fun _ => opClearBunk_neverRestarts⟩,
    ⟨opClearConditions, .coded (fun _ => rfl) (fun _ _ _ => rfl) fun _ => opClearConditions_neverRestarts⟩,
    ⟨opOpenStaging, .coded (fun _ => rfl) (fun _ _ _ => rfl) fun _ => opOpenStaging_neverRestarts⟩,
    ⟨opWriteEntry, .coded (fun _ => rfl) (fun _ _ _ => rfl) fun _ => opWriteEntry_neverRestarts⟩,
    ⟨opReadEntry, .coded (fun _ => rfl) (fun _ _ _ => rfl) fun _ => opReadEntry_neverRestarts⟩,
    ⟨opCheckStaging, .coded (fun _ => rfl) (fun _ _ _ => rfl) fun _ => opCheckStaging_neverRestarts⟩,
    ⟨opActivate, .coded (fun _ => rfl) (fun _ _ _ => rfl) fun _ => opActivate_neverRestarts⟩,
    ⟨opTraceRead, .coded (fun _ => rfl) (fun _ _ _ => rfl) fun _ => opTraceRead_neverRestarts⟩,
    ⟨opWarmRestart, .coded (fun _ => rfl) (fun _ _ _ => rfl) fun other => absurd rfl other⟩,
    fun _ none => absurd none List.not_mem_nil⟩

/-- A TRACE CONTROL with this action is performed by the action's own operation (R168). -/
theorem judged_traceControl_of_action {action : Byte} {perform : List Byte → Nat → State → State × OpResult}
    (acts : ∀ rest free s, opTraceControl (action :: rest) free s = perform (action :: rest) free s) (operands : List Byte)
    (free : Nat) (s : State) (wanted : hasAction action operands = true) :
    performCode 0x30 operands free s = judged 0x30 perform operands free s := by
  obtain ⟨rest, rfl⟩ := List.head?_eq_some_iff.mp (of_decide_eq_true wanted)
  show judged 0x30 opTraceControl _ free s = _
  unfold judged
  rw [acts]

/-- A TRACE CONTROL with no action: its length is judged, and then its action (R159, R168). -/
theorem performCode_traceControl_of_noAction {operands : List Byte}
    (noAction : ∀ b ∈ traceActionRows, operands.head? ≠ some b.1) (free : Nat) (s : State) :
    performCode 0x30 operands free s =
      refuse (if operands.length = 1 ∨ operands.length = 19 then .rangeError else .lengthError) s := by
  show judged 0x30 opTraceControl operands free s = _
  by_cases length : operands.length = 1 ∨ operands.length = 19
  · rw [judged_traceControl _ length, if_pos length]
    cases operands with
    | nil => simp at length
    | cons action rest =>
      have unlisted : action ∉ traceActionRows.map Prod.fst := fun listed =>
        let ⟨b, mem, same⟩ := List.mem_map.mp listed
        noAction b mem (congrArg some same.symm)
      unfold opTraceControl
      split
      case h_5 => rfl
      all_goals
        next is =>
          obtain rfl := eq_ofNat_of_toNat (b := action) is
          exact absurd (by decide) unlisted
  · rw [if_neg length]
    exact if_neg (by simpa [operandLengthOk] using length)

/-- The row of an action of TRACE CONTROL. -/
theorem RowOf.action {x : Instr} {action : Byte} {perform : List Byte → Nat → State → State × OpResult}
    (exec_eq : ∀ s, exec x s = s.unlessReset (performWanted 0x30 (hasAction action) perform))
    (acts : ∀ rest free s, opTraceControl (action :: rest) free s = perform (action :: rest) free s)
    (neverRestarts : NeverRestarts perform) : RowOf x 0x30 (hasAction action) perform :=
  ⟨exec_eq, judged_traceControl_of_action acts, fun _ => neverRestarts⟩

theorem rowOf_traceActionRows : ∀ b ∈ traceActionRows, ∃ perform, RowOf b.2 0x30 (hasAction b.1) perform := by
  simp only [traceActionRows, List.forall_mem_cons]
  exact ⟨⟨opTraceConfigure, .action (fun _ => rfl) (fun _ _ _ => rfl) opTraceConfigure_neverRestarts⟩,
    ⟨opTraceEnable, .action (fun _ => rfl) (fun _ _ _ => rfl) (neverRestarts_of_plainAction fun _ _ _ => rfl)⟩,
    ⟨opTraceDisable, .action (fun _ => rfl) (fun _ _ _ => rfl) (neverRestarts_of_plainAction fun _ _ _ => rfl)⟩,
    ⟨opTraceFlush, .action (fun _ => rfl) (fun _ _ _ => rfl) (neverRestarts_of_plainAction fun _ _ _ => rfl)⟩,
    fun _ none => absurd none List.not_mem_nil⟩

/-- The operand lengths that the rows accept. -/
theorem operandLengthOk_operationRows : ∀ b ∈ operationRows, ∀ n,
    (if b.2.2 = .writeEntry then n < b.2.1 else n ≠ b.2.1) → operandLengthOk b.1 n = false := by
  simp only [operationRows, List.forall_mem_cons]
  refine ⟨?_, ?_, ?_, ?_, ?_, ?_, ?_, ?_, ?_, ?_, ?_, ?_, ?_, ?_, ?_, ?_, fun _ none => absurd none List.not_mem_nil⟩ <;>
    intro n refused <;> refine decide_eq_false ?_ <;> simpa using refused

/-- A code that no row has names no operation (R159 step 3). -/
theorem performCode_of_unknown {code : Byte} (unknown : code ∉ operationRows.map Prod.fst) (notTrace : code ≠ 0x30)
    (operands : List Byte) (free : Nat) (s : State) : performCode code operands free s = refuse .badOperation s := by
  unfold performCode
  split
  case h_18 => rfl
  case h_15 is => exact absurd (eq_ofNat_of_toNat is) notTrace
  all_goals
    next is =>
      obtain rfl := eq_ofNat_of_toNat is
      exact absurd (by decide) unknown

/-! ## A row and the chain -/

section

variable {s : State} {r : Request} {c : Chain} {code : Byte} {more : Bool} {operands : List Byte} {next : Nat} {x : Instr}

theorem exec_performRequest (running : s.inReset = false) : exec .performRequest s = .next (performRequest s) :=
  State.unlessReset_running _ s running

/-- A row performs the next operation of the chain when it is its own. -/
theorem RowOf.exec_own {wanted : List Byte → Bool} {perform : List Byte → Nat → State → State × OpResult}
    (row : RowOf x code wanted perform) (operation : NextOperation s r c code more operands next)
    (own : wanted operands = true) : exec x s = .next (performNext s) := by
  rw [row.exec_eq, State.unlessReset_running _ _ operation.1, performWanted_of_nextOperation operation own,
    performNext_of_op operation.reads operation.2.2.2.2, row.performCode_eq _ _ _ own]

/-- A row finds nothing to do when the next operation is another. -/
theorem RowOf.exec_other {own : Byte} {wanted : List Byte → Bool} {perform : List Byte → Nat → State → State × OpResult}
    (row : RowOf x own wanted perform) (operation : NextOperation s r c code more operands next)
    (other : ¬(code = own ∧ wanted operands = true)) : exec x s = .next s := by
  rw [row.exec_eq, State.unlessReset_running _ _ operation.1]
  simp only [performWanted, nextOp_of_nextOperation operation, if_neg other]

/-- The row of an operation that has one. -/
theorem exists_rowOf (h : (∃ length, (code, length, x) ∈ operationRows) ∨
      (code = 0x30 ∧ ∃ action, (action, x) ∈ traceActionRows ∧ operands.head? = some action)) :
    ∃ wanted perform, RowOf x code wanted perform ∧ wanted operands = true := by
  rcases h with ⟨length, listed⟩ | ⟨rfl, action, listed, head⟩
  · obtain ⟨perform, row⟩ := rowOf_operationRows _ listed
    exact ⟨_, perform, row, rfl⟩
  · obtain ⟨perform, row⟩ := rowOf_traceActionRows _ listed
    exact ⟨_, perform, row, decide_eq_true head⟩

/-- Only WARM RESTART's row has its code. -/
theorem code_of_warmRestart
    (listed : (∃ length, (code, length, Instr.warmRestart) ∈ operationRows) ∨
      (code = 0x30 ∧ ∃ action, (action, Instr.warmRestart) ∈ traceActionRows ∧ operands.head? = some action)) :
    code = 0x3F := by
  simpa [operationRows, traceActionRows] using listed

/-- An operation that gives an error ends the chain, and PERFORM REQUEST with it. -/
theorem performRequest_of_error (operation : NextOperation s r c code more operands next) {status : Status}
    (error : status ≠ .ok) (gives : performCode code operands c.free s = refuse status s) :
    exec .performRequest s = .next (concludeOp r.payload code more next c (s, .gives status [])) := by
  have performed := performNext_of_op operation.reads operation.2.2.2.2
  have stops := (performNext_op_goesOn_or_stops operation.reads operation.2.2.2.2).resolve_left (by
    rintro ⟨data, c', ok, -⟩
    rw [gives] at ok
    cases ok
    exact error rfl)
  rw [exec_performRequest operation.1, performRequest_of_stops operation.reads stops, performed, gives]
  exact congrArg _ ((concludeOp_follows _ _ _ _ _ (refuse status s)).settled (refuse_ne_restarts status s))

/-- The next operation's own row and PERFORM REQUEST: where the chain stops they do the same, but for a restart's reply, which
PERFORM REQUEST offers; where it goes on, PERFORM REQUEST performs the rest. -/
theorem performRequest_of_row (operation : NextOperation s r c code more operands next)
    (listed : (∃ length, (code, length, x) ∈ operationRows) ∨
      (code = 0x30 ∧ ∃ action, (action, x) ∈ traceActionRows ∧ operands.head? = some action)) :
    exec x s = .next (performNext s) ∧
      (x ≠ .warmRestart → more = false ∨ ¬GoesOn s (performNext s) → exec .performRequest s = .next (performNext s)) ∧
      (x = .warmRestart → exec .performRequest s = exec .heldReplyOffer (performNext s)) ∧
      (GoesOn s (performNext s) → exec .performRequest s = exec .performRequest (performNext s)) := by
  obtain ⟨wanted, perform, row, own⟩ := exists_rowOf listed
  have running : (performNext s).inReset = false := by simpa using operation.1
  have reads := operation.reads
  have read := operation.2.2.2.2
  have goesOn_or_stops := performNext_op_goesOn_or_stops reads read
  rw [exec_performRequest operation.1, exec_performRequest running, exec_heldReplyOffer running]
  refine ⟨row.exec_own operation own, fun notRestart last => ?_, ?_, fun on => ?_⟩
  · have stops : Stops s (performNext s) := by
      rcases goesOn_or_stops with ⟨data, c', -, on, -, phase, requests⟩ | stops
      · rcases last with clear | stays
        · simp [on] at clear
        · exact absurd ⟨c', phase, requests⟩ stays
      · exact stops
    rw [performRequest_of_stops reads stops, performNext_of_op reads read]
    refine congrArg _ ((concludeOp_follows _ _ _ _ _ _).settled ?_)
    rw [row.performCode_eq _ _ _ own]
    exact (row.neverRestarts notRestart).judged _ _ _ _
  · rintro rfl
    obtain rfl := code_of_warmRestart listed
    have stops := goesOn_or_stops.resolve_left fun ⟨data, _, ok, _⟩ => opWarmRestart_ne_ok _ _ _ data ok
    rw [performRequest_of_stops reads stops]
  · rw [performRequest_of_goesOn reads on]

end

/-- Settles O53: the header is read byte by byte, what is no operation ends the chain, and each operation's row does what the
chain does. -/
theorem performRequestRunsTheChain : Obligations.PerformRequestRunsTheChain := by
  refine ⟨fun payload offset => ⟨fun read => ?_, fun code read => ?_, fun code flags read => ?_,
      fun code flags length body read => ?_⟩,
    fun s running => ⟨fun requests notHeld => ?_, fun c started more phase => ?_, fun reply restart phase => ?_,
      fun r rest c phase requests => ⟨fun tag payload fresh => ?_, fun payload fresh => ?_, fun code length read fit => ?_⟩⟩,
    fun s r c code more operands next operation => ⟨fun unknown notTrace => ?_, fun trace noAction => ?_,
      fun length x listed refused => ?_, fun x listed => ?_, fun y named otherCode otherAction => ?_⟩⟩
  · rw [readOp, read]
  · rw [readOp, read]
  · rw [readOp, read]
  · rw [readOp, read]
    rfl
  · rw [exec_performRequest running]
    cases phase : s.mgmt.phase with
    | reading c => simp only [performRequest, phase, requests]
    | checking c started more => simp only [performRequest, phase]
    | held reply restart => exact absurd phase (notHeld _ _)
  · rw [exec_performRequest running]
    simp only [performRequest, phase]
  · rw [exec_performRequest running, exec_heldReplyOffer running]
    simp only [performRequest, phase]
  · subst fresh
    obtain ⟨reply, good, dest, source, kind, flags, bytes, ended⟩ := endChain_reply (c := {}) requests .ok (Nat.zero_le _)
    rw [payload] at bytes
    refine ⟨reply, good, dest, source, kind, flags, bytes, ?_⟩
    rw [exec_performRequest running, ← ended]
    simp only [performRequest, phase, requests, payload]
  · subst fresh
    obtain ⟨reply, good, dest, source, kind, flags, bytes, ended⟩ :=
      endChain_reply (c := {}) requests .lengthError (Nat.zero_le _)
    rw [payload] at bytes
    refine ⟨reply, good, dest, source, kind, flags, bytes, ?_⟩
    rw [exec_performRequest running, ← ended]
    simp only [performRequest, phase, requests, payload]
  · have reads : Reads s r c := ⟨phase, by rw [requests]; rfl, length⟩
    obtain ⟨reply, good, dest, source, kind, flags, bytes, ended⟩ :=
      endChain_reply (c := c.record code .lengthError []) requests .lengthError (by rw [length_record]; exact fit)
    refine ⟨reply, good, dest, source, kind, flags, ?_, ?_⟩
    · simpa [Chain.record, Status.code, sendByte] using bytes
    · have performed := performNext_of_short reads read
      have stops : Stops s (performNext s) := performed ▸ .endChain requests rfl _ _
      rw [exec_performRequest running, performRequest_of_stops reads stops, performed, endChain, offerHeld_offerHeld,
        ← endChain, ended]
  · exact performRequest_of_error operation (by decide) (performCode_of_unknown unknown notTrace _ _ _)
  · subst trace
    refine performRequest_of_error operation ?_ (performCode_traceControl_of_noAction noAction _ _)
    split <;> decide
  · have refuses := operandLengthOk_operationRows _ listed operands.length refused
    obtain ⟨perform, row⟩ := rowOf_operationRows _ listed
    exact (row.exec_eq s).trans (unlessReset_performCoded_of_length operation perform refuses)
  · obtain ⟨own, stops, restarts, goesOn⟩ := performRequest_of_row operation listed
    exact ⟨performNext s, own, stops, restarts, fun on _ => goesOn on⟩
  · rcases named with ⟨b, listed, rfl⟩ | ⟨b, listed, rfl⟩
    · obtain ⟨perform, row⟩ := rowOf_operationRows b listed
      exact row.exec_other operation fun ⟨same, _⟩ => otherCode b listed rfl same.symm
    · obtain ⟨perform, row⟩ := rowOf_traceActionRows b listed
      exact row.exec_other operation fun ⟨same, wanted⟩ => otherAction b listed rfl ⟨same, of_decide_eq_true wanted⟩

end Sys2Proof.Machine
end

