-- ==== Sys2Proof/Proofs/ConcludedOperations.lean ====
section
/-! PROOFS. What follows an operation that has been judged: its record, the skipped operation behind a false TEST, and the
reply that ends the chain (R159 to R163, R169). Settles O52. -/

namespace Sys2Proof.Machine

-- One theorem after another: side by side, so many small ones need more threads than the memory limit admits.
set_option Elab.async false

/-! ## The reply that is held (R162) -/

/-- A good frame that answers a request with these flags, counts, final status and result records. -/
def ReplyGives (station : Byte) (r : Request) (reply : List Byte) (flags : Byte) (count performed : Nat) (final : Status)
    (results : List Byte) : Prop :=
  goodAtEnd reply = true ∧
    payloadOf reply = [r.payload.headD 0, sendByte count, sendByte performed, sendByte final.code] ++ results ∧
    byteAt reply 0 = r.source ∧ byteAt reply 1 = station ∧ byteAt reply 2 = 0x52 ∧ byteAt reply 3 = flags

theorem replyFrame_gives (station : Byte) (r : Request) (final : Status) (restart busy : Bool) {c : Chain}
    (fit : c.results.length ≤ 116) :
    ReplyGives station r (replyFrame station r final restart busy c) (replyFlags restart busy) c.resultCount
      c.performedCount final c.results := by
  refine ⟨goodAtEnd_replyFrame _ _ _ _ _ fit, ?_, rfl, rfl, rfl, rfl⟩
  refine payloadOf_frameOf _ _ _ _ ?_
  simp only [List.length_append, List.length_cons, List.length_nil]
  omega

section

variable {s : State} {r : Request} {rest : List Request} {c : Chain} {payload : List Byte} {code : Byte}

theorem holdReply_gives (requests : s.mgmt.requests = r :: rest) (final : Status) (restart : Bool)
    (fit : c.results.length ≤ 116) :
    ∃ reply, ReplyGives s.station r reply (replyFlags restart false) c.resultCount c.performedCount final c.results ∧
      holdReply final restart c s = { s with mgmt := { s.mgmt with phase := .held reply restart } } := by
  refine ⟨_, replyFrame_gives s.station r final restart false fit, ?_⟩
  rw [holdReply, requests]
  rfl

theorem endChain_gives (requests : s.mgmt.requests = r :: rest) (final : Status) (fit : c.results.length ≤ 116) :
    ∃ reply, ReplyGives s.station r reply 0 c.resultCount c.performedCount final c.results ∧
      endChain final c s = offerHeld { s with mgmt := { s.mgmt with phase := .held reply false } } :=
  let ⟨reply, gives, held⟩ := holdReply_gives requests final false fit
  ⟨reply, gives, congrArg offerHeld held⟩

/-- An operation that was not performed is recorded and not counted as performed (R160). -/
theorem record_of_error {status : Status} (error : status ≠ .ok) (data : List Byte) :
    c.record code status data =
      { c with results := c.results ++ [code, sendByte status.code, sendByte data.length] ++ data,
               resultCount := c.resultCount + 1 } := by
  rw [Chain.record, if_neg error]
  rfl

/-! ## The skipped operation (R163) -/

theorem skipNext_of_short (read : readOp payload c.offset = .short code) :
    skipNext payload c s = endChain .lengthError (c.record code .lengthError []) s := by
  rw [skipNext, read]

variable {more : Bool} {operands : List Byte} {next : Nat}

theorem skipNext_of_chained (read : readOp payload c.offset = .op code true operands next) (room : RoomFor c 0) :
    skipNext payload c s =
      s.modMgmt fun m => { m with phase := .reading { c.record code .skipped [] with offset := next } } := by
  rw [skipNext, read]
  exact if_pos ((fits_iff_roomFor c 0).mpr room)

theorem skipNext_of_last (read : readOp payload c.offset = .op code false operands next) (room : RoomFor c 0) :
    skipNext payload c s = endChain .ok (c.record code .skipped []) s := by
  rw [skipNext, read]
  exact if_pos ((fits_iff_roomFor c 0).mpr room)

theorem skipNext_of_noRoom (read : readOp payload c.offset = .op code more operands next) (noRoom : ¬RoomFor c 0) :
    skipNext payload c s = endChain .noRoom (c.record code .noRoom []) s := by
  rw [skipNext, read]
  exact if_neg (mt (fits_iff_roomFor c 0).mp noRoom)

/-! ## What follows an operation (R159, R160) -/

theorem concludeOp_of_chained {data : List Byte} (noSkip : ¬(code = 0x01 ∧ data = [0])) :
    concludeOp payload code true next c (s, .gives .ok data) =
      { s with mgmt := { s.mgmt with phase := .reading { c.record code .ok data with offset := next } } } := if_neg noSkip

theorem concludeOp_of_falseTest :
    concludeOp payload 0x01 true next c (s, .gives .ok [0]) =
      skipNext payload { c.record 0x01 .ok [0] with offset := next } s := rfl

theorem concludeOp_of_error {status : Status} (error : status ≠ .ok) (data : List Byte) :
    concludeOp payload code more next c (s, .gives status data) = endChain status (c.record code status data) s := by
  cases status with
  | ok => exact absurd rfl error
  | _ => rfl

end

/-- Settles O52: the OK results by CHAIN and by the skipped operation, then the errors and the restart. -/
theorem operationsAreConcluded : Obligations.OperationsAreConcluded := by
  intro s r rest c code next data requests fit recorded replyWith goodReply ongoing
  refine ⟨concludeOp_of_chained, ?goesOnBehindSkipped, ?endsBehindSkipped, ?last, fun status more error => ?error, ?restart⟩
  case goesOnBehindSkipped =>
    rintro skipped after_ rfl rfl room ⟨operands, read⟩
    refine (concludeOp_of_falseTest.trans (skipNext_of_chained (c := ongoing) read room)).trans ?_
    rw [record_of_error (by decide), List.append_nil]
    rfl
  case endsBehindSkipped =>
    rintro rfl rfl skips
    have ends {final status : Status} {found : Byte} (error : status ≠ .ok) (fits : ongoing.results.length + 3 ≤ 116)
        (ended : skipNext r.payload ongoing s = endChain final (ongoing.record found status []) s) :
        skips final [found, sendByte status.code, 0] := by
      rw [record_of_error error, List.append_nil] at ended
      obtain ⟨reply, gives, held⟩ := endChain_gives requests final (c := { ongoing with
        results := ongoing.results ++ [found, sendByte status.code, 0], resultCount := ongoing.resultCount + 1 })
        (by rw [List.length_append]; exact fits)
      exact ⟨reply, gives, (concludeOp_of_falseTest.trans ended).trans held⟩
    refine ⟨fun skipped operands after_ read room => ?_, fun skipped chained operands after_ read noRoom fits => ?_,
      fun found read fits => ?_⟩
    · exact ends (status := .skipped) (by decide) (by omega) (skipNext_of_last read room)
    · exact ends (status := .noRoom) (by decide) fits (skipNext_of_noRoom read (Nat.not_le.mpr noRoom))
    · exact ends (status := .lengthError) (by decide) fits (skipNext_of_short read)
  case last => exact endChain_gives (c := c.record code .ok data) requests .ok (by rwa [length_record])
  case error =>
    obtain ⟨reply, gives, ended⟩ := endChain_gives (c := c.record code status data) requests status (by rwa [length_record])
    rw [concludeOp_of_error error]
    rw [record_of_error error] at gives
    exact ⟨reply, gives, ended⟩
  case restart =>
    rintro more rfl
    exact holdReply_gives (c := c.record code .ok []) requests .ok true (by rwa [length_record])

end Sys2Proof.Machine
end

