-- ==== Sys2Proof/Proofs/ReadOperations.lean ====
section
/-! PROOFS. TEST and the operations that read the part: what each judges, and its data at their offsets (R160, R161, R163,
R164, R170, R172, R174). Settles O54 and O55. -/

namespace Sys2Proof.Machine

-- One theorem after another: side by side, so many small ones need more threads than the memory limit admits.
set_option Elab.async false

/-! ## Fields behind a part of a record (R174) -/

section

variable {l m : List Byte} {i j : Nat}

theorem byteAt_append_left (behind : i = l.length + j) : byteAt (l ++ m) i = byteAt m j := by
  simp [behind, byteAt, List.getD_eq_getElem?_getD, List.getElem?_append_right]

theorem field16_append_left (behind : i = l.length + j) : field16 (l ++ m) i = field16 m j := by
  rw [field16, byteAt_append_left behind, byteAt_append_left (j := j + 1) (by omega)]
  rfl

theorem field32_append_left (behind : i = l.length + j) : field32 (l ++ m) i = field32 m j := by
  rw [field32, field16_append_left behind, field16_append_left (j := j + 2) (by omega)]
  rfl

end

/-- Where the part of one entry lies among parts of one length. -/
theorem exists_flatMap_eq_append {α : Type} {f : α → List Byte} {n k : Nat} (each : ∀ x, (f x).length = n)
    {l : List α} {x : α} (place : l[k]? = some x) :
    ∃ before after_, l.flatMap f = before ++ (f x ++ after_) ∧ before.length = n * k := by
  obtain ⟨below, rfl⟩ := List.getElem?_eq_some_iff.mp place
  refine ⟨(l.take k).flatMap f, (l.drop (k + 1)).flatMap f, ?_, ?_⟩
  · rw [← List.flatMap_cons, ← List.flatMap_append, ← List.drop_eq_getElem_cons, List.take_append_drop]
  · simp [List.length_flatMap, each, Nat.min_eq_left below.le, Nat.mul_comm]

/-! ## TEST (R163) -/

/-- A kind and value that a TEST accepts. -/
def TestRanged (kind value : Nat) : Prop :=
  (kind = 1 ∧ value ≤ 4) ∨ (kind = 2 ∧ value ≤ 5) ∨ (kind = 3 ∧ value ≤ 32) ∨ kind = 4

/-- The condition of a TEST holds. -/
def TestHolds (kind value : Nat) (s : State) : Prop :=
  (kind = 1 ∧ s.staging.code = value) ∨ (kind = 2 ∧ supCode s.sup.state = value) ∨
    (kind = 3 ∧ value ≤ s.queue.records.length) ∨ (kind = 4 ∧ s.tally.incomplete = true)

theorem testCondition_of_not_ranged {kind value : Nat} (outside : ¬TestRanged kind value) (s : State) :
    testCondition kind value s = none := by
  unfold TestRanged at outside
  unfold testCondition
  split
  · exact if_neg (by omega)
  · exact if_neg (by omega)
  · exact if_neg (by omega)
  · omega
  · rfl

theorem testCondition_of_ranged {kind value : Nat} (ranged : TestRanged kind value) (s : State) :
    ∃ b, testCondition kind value s = some b ∧ (b = true ↔ TestHolds kind value s) := by
  unfold TestHolds
  rcases ranged with ⟨rfl, inside⟩ | ⟨rfl, inside⟩ | ⟨rfl, inside⟩ | rfl
  · exact ⟨_, if_pos inside, by simp⟩
  · exact ⟨_, if_pos inside, by simp⟩
  · exact ⟨_, if_pos inside, by simp⟩
  · exact ⟨_, rfl, by simp⟩

theorem bitByte_zero_eq {b : Bool} {p : Prop} [Decidable p] (h : b = true ↔ p) : bitByte b 0 = if p then 1 else 0 := by
  unfold bitByte
  simp only [h]
  rfl

section

variable {kind value : Byte} {s : State} {free : Nat}

theorem opTest_of_not_ranged (outside : ¬TestRanged kind.toNat value.toNat) :
    opTest [kind, value] free s = (s, .gives .rangeError []) := by
  show (match testCondition kind.toNat value.toNat s with | none => _ | some b => _) = _
  rw [testCondition_of_not_ranged outside]
  rfl

theorem opTest_of_ranged (ranged : TestRanged kind.toNat value.toNat) (free : Nat) :
    ∃ b, opTest [kind, value] free s = performIf free 1 (s, .gives .ok [bitByte b 0]) s ∧
      (b = true ↔ TestHolds kind.toNat value.toNat s) := by
  obtain ⟨b, found, holds⟩ := testCondition_of_ranged ranged s
  refine ⟨b, ?_, holds⟩
  show (match testCondition kind.toNat value.toNat s with | none => _ | some b => _) = _
  rw [found]

end

/-! ## READ MEASURANDS (R164, R174) -/

theorem measurandsRecord_fields (i : Intake) (k : Nat) (m : Measurand)
    (place : [Measurand.f, .a, .reach, .pitch, .roll, .gpress][k]? = some m) :
    field32 (measurandsRecord i) (9 * k) = BitVec.ofInt 32 (i.get m).value ∧
      byteAt (measurandsRecord i) (9 * k + 4) = (if (i.get m).state = .fresh then 1 else 0) ∧
      field32 (measurandsRecord i) (9 * k + 5) = (i.get m).lastAccepted := by
  obtain ⟨before, after_, split, length⟩ :=
    exists_flatMap_eq_append (f := fun m => measurandBytes (i.get m)) (n := 9) (fun _ => rfl) place
  have record : measurandsRecord i = before ++ (measurandBytes (i.get m) ++ after_) := split
  have behind (j : Nat) : 9 * k + j = before.length + j := by rw [length]
  rw [record]
  exact ⟨(field32_append_left (behind 0)).trans (append_bytes32 _),
    (byteAt_append_left (behind 4)).trans (bitByte_zero_eq decide_eq_true_iff),
    (field32_append_left (behind 5)).trans (append_bytes32 _)⟩

/-! ## READ TALLY (R164, R174) -/

theorem getElem?_take_drop_toList {n first count k : Nat} (tallies : Vector AssortmentTally n) (inside : first + count ≤ n)
    (below : k < count) :
    ((tallies.toList.drop first).take count)[k]? = some (tallies.toList.getD (first + k) {}) := by
  rw [List.getElem?_take_of_lt below, List.getElem?_drop, List.getD_eq_getElem?_getD, List.getElem?_eq_getElem, Option.getD_some]
  rw [Vector.length_toList]
  omega

theorem length_tallyRecord {first count : Nat} (inside : first + count ≤ 32) (t : Tally) :
    (tallyRecord first count t).length = 6 + 14 * count := by
  have each (a : AssortmentTally) : (assortmentBytes a).length = 14 := rfl
  have taken : ((t.assortments.toList.drop first).take count).length = count := by
    rw [List.length_take, List.length_drop, Vector.length_toList]
    omega
  simp only [tallyRecord, List.length_append, List.length_flatMap, each, List.map_const', List.sum_replicate, smul_eq_mul, taken,
    length_send32, List.length_cons, List.length_nil]
  omega

theorem tallyRecord_fields {first count k : Nat} (inside : first + count ≤ 32) (below : k < count) (t : Tally) :
    let data := tallyRecord first count t
    let a := t.assortments.toList.getD (first + k) {}
    field16 data (6 + 14 * k) = BitVec.ofNat 16 a.deliveredCount ∧
      field32 data (8 + 14 * k) = BitVec.ofNat 32 a.deliveredMass ∧
      field16 data (12 + 14 * k) = BitVec.ofNat 16 a.unweighedDelivered ∧
      field16 data (14 + 14 * k) = BitVec.ofNat 16 a.unloadedCount ∧
      field32 data (16 + 14 * k) = BitVec.ofNat 32 a.unloadedMass := by
  intro data a
  obtain ⟨before, after_, split, length⟩ := exists_flatMap_eq_append (f := assortmentBytes) (n := 14) (fun _ => rfl)
    (getElem?_take_drop_toList t.assortments inside below)
  have record : data = ([sendByte first, sendByte count] ++ send32 t.totalDelivered ++ before) ++
      (assortmentBytes a ++ after_) := by
    rw [List.append_assoc _ before, ← split]
    rfl
  have behind (j : Nat) :
      6 + j + 14 * k = ([sendByte first, sendByte count] ++ send32 t.totalDelivered ++ before).length + j := by
    rw [List.length_append, length, List.length_append, length_send32, List.length_cons, List.length_singleton]
    omega
  rw [record]
  exact ⟨(field16_append_left (behind 0)).trans (append_bytes16 _), (field32_append_left (behind 2)).trans (append_bytes32 _),
    (field16_append_left (behind 6)).trans (append_bytes16 _), (field16_append_left (behind 8)).trans (append_bytes16 _),
    (field32_append_left (behind 10)).trans (append_bytes32 _)⟩

theorem tallyRecord_head (first count : Byte) (t : Tally) :
    byteAt (tallyRecord first.toNat count.toNat t) 0 = first ∧ byteAt (tallyRecord first.toNat count.toNat t) 1 = count ∧
      field32 (tallyRecord first.toNat count.toNat t) 2 = BitVec.ofNat 32 t.totalDelivered :=
  ⟨BitVec.ofNat_toNat .., BitVec.ofNat_toNat .., append_bytes32 _⟩

theorem opReadTally_eq (first count : Byte) (free : Nat) (s : State) :
    opReadTally [first, count] free s =
      if 1 ≤ count.toNat ∧ count.toNat ≤ 4 ∧ first.toNat + count.toNat ≤ 32 then
        performIf free (6 + 14 * count.toNat) (s, .gives .ok (tallyRecord first.toNat count.toNat s.tally)) s
      else (s, .gives .rangeError []) := rfl

/-- Settles O54: each operation judges its operands, and then its room. -/
theorem testAndReadOperations : Obligations.TestAndReadOperations := by
  intro s r c more next done
  refine ⟨fun kind value operation => ?test, fun operation => ?identity, fun operation noRoom => ?_, fun operation room => ?_,
    fun first count operation => ?tally⟩
  case test =>
    intro v ranged holds
    have row : exec .test s = _ := unlessReset_performCoded operation opTest rfl
    rw [row]
    refine ⟨fun outside => by rw [opTest_of_not_ranged outside], fun inside room => ?_, fun inside noRoom => ?_⟩
    · obtain ⟨b, performed, found⟩ := opTest_of_ranged inside c.free
      rw [performed, performIf_of_room room, bitByte_zero_eq (p := holds) found]
    · obtain ⟨b, performed, -⟩ := opTest_of_ranged inside c.free
      rw [performed, performIf_of_noRoom noRoom]
  case identity =>
    have row : exec .readIdentity s = _ := unlessReset_performCoded operation opReadIdentity rfl
    rw [row, opReadIdentity]
    exact ⟨fun room => by rw [performIf_of_room room]; rfl, fun noRoom => by rw [performIf_of_noRoom noRoom]⟩
  · refine (unlessReset_performCoded operation opReadMeasurands rfl).trans ?_
    rw [opReadMeasurands, performIf_of_noRoom noRoom]
  · refine ⟨measurandsRecord s.intake, (unlessReset_performCoded operation opReadMeasurands rfl).trans ?_, rfl,
      measurandsRecord_fields s.intake⟩
    rw [opReadMeasurands, performIf_of_room room]
  case tally =>
    intro ranged
    have row : exec .readTally s = _ := unlessReset_performCoded operation opReadTally rfl
    rw [row, opReadTally_eq]
    refine ⟨fun outside => by rw [if_neg outside], fun inside noRoom => by rw [if_pos inside, performIf_of_noRoom noRoom],
      fun inside room => ⟨_, by rw [if_pos inside, performIf_of_room room], ?_⟩⟩
    obtain ⟨-, -, last⟩ := inside
    obtain ⟨firstSent, countSent, total⟩ := tallyRecord_head first count s.tally
    exact ⟨length_tallyRecord last _, firstSent, countSent, total, fun k below => tallyRecord_fields last below _⟩

/-! ## READ STATUS (R164, R174) -/

theorem toNat_portFlags (p : Port) :
    (byteAt (portStatus p) 1).toNat = (if p.polarity = .swapped then 1 else 0) + if p.flipped then 2 else 0 := by
  show (bitByte (decide (p.polarity = .swapped)) 0 ||| bitByte p.flipped 1).toNat = _
  cases p.polarity <;> cases p.flipped <;> rfl

/-- What a flag adds to its byte. -/
def flagValue (b : Bool) (k : Nat) : Nat := if b then 2 ^ k else 0

theorem toNat_statusFlags (s : State) :
    (statusFlags s).toNat = flagValue s.slew.referenced 0 + flagValue (openNumber s).isSome 1 +
      flagValue s.tally.incomplete 2 + flagValue s.active.isSome 3 + flagValue s.sup.service 4 := by
  have bits : ∀ a b c d e : Bool,
      (bitByte a 0 ||| bitByte b 1 ||| bitByte c 2 ||| bitByte d 3 ||| bitByte e 4).toNat =
        flagValue a 0 + flagValue b 1 + flagValue c 2 + flagValue d 3 + flagValue e 4 := by decide
  exact bits _ _ _ _ _

/-- READ STATUS sends the open lift's number, or a free value where there is none. -/
theorem opReadStatus_of_room {c : Chain} (room : RoomFor c 41) (operands : List Byte) (s : State) :
    ∃ seq uses, opReadStatus operands c.free s = ({ s with choices := uses }, .gives .ok (statusRecord seq s)) ∧
      ∀ n, openNumber s = some n → seq = n := by
  cases number : openNumber s with
  | some seq =>
    refine ⟨seq, s.choices, ?_, fun n same => Option.some.inj same⟩
    simp only [opReadStatus, number, performIf_of_room room]
  | none =>
    refine ⟨Config.noSequenceField s.choices, s.choices + 1, ?_, nofun⟩
    simp only [opReadStatus, number, performIf_of_room room]

theorem opReadStatus_of_noRoom {c : Chain} (noRoom : ¬RoomFor c 41) (operands : List Byte) (s : State) :
    opReadStatus operands c.free s = (s, .gives .noRoom []) := by
  cases number : openNumber s <;> simp only [opReadStatus, number, performIf_of_noRoom noRoom]

/-- Settles O55: the room, the codes, and the record field by field. -/
theorem statusIsRead : Obligations.StatusIsRead := by
  refine ⟨fun s r c more next operation noRoom => ?_, ⟨rfl, rfl, rfl, rfl, fun _ => rfl⟩,
    fun s r c more next operation room => ?_⟩
  · refine (unlessReset_performCoded operation opReadStatus rfl).trans ?_
    rw [opReadStatus_of_noRoom noRoom]
  · intro portByte bit lift
    obtain ⟨seq, uses, read, carried⟩ := opReadStatus_of_room room [] s
    refine ⟨statusRecord seq s, uses, (unlessReset_performCoded operation opReadStatus rfl).trans (by rw [read]),
      length_statusRecord seq s, ?_⟩
    -- Nested to the right, the record is read from its head.
    unfold statusRecord
    simp only [List.append_assoc]
    refine ⟨rfl, toNat_portFlags s.cab, rfl, toNat_portFlags s.crane, append_bytes32 _, append_bytes16 _,
      toNat_statusFlags s, rfl, append_bytes16 _, append_bytes16 _, append_bytes16 _, append_bytes16 _, rfl, append_bytes16 _,
      append_bytes16 _, rfl, fun n opened => ?_, rfl, append_bytes32 _, rfl, rfl, append_bytes16 _, rfl, append_bytes16 _, rfl⟩
    exact (append_bytes16 seq).trans (carried n opened)

end Sys2Proof.Machine
end

