-- ==== Sys2Proof/Proofs/TraceReading.lean ====
section
/-! PROOFS. TRACE READ: the whole blocks that it takes, and the bytes of an element (R160, R161, R168, R174, R178, R180).
Settles O59. -/

namespace Sys2Proof.Machine

-- One theorem after another: side by side, so many small ones need more threads than the memory limit allows.
set_option Elab.async false

/-! ## The bytes of an element (R174) -/

theorem toNat_sendByte_code (ty : ElementType) : (sendByte ty.code).toNat = ty.code := by cases ty <;> rfl

theorem elementBytes_fields (e : TraceElement) :
    ∃ tag b1 b2 b3 b4 : Byte, elementBytes e = [tag, b1, b2, b3, b4] ∧ (tag.toNat, e.tag) ∈ elementTags ∧
      e.value = b1 ++ b2 ++ b3 ++ b4 := by
  refine ⟨_, _, _, _, _, rfl, ?_, ?_⟩
  · rw [toNat_sendByte_code]
    exact mem_elementTags e.tag
  · rw [BitVec.append_assoc]
    exact (append_bytes32 e.value).symm

/-! ## The blocks that are taken (R180) -/

theorem elementsOf_cons (block : List TraceElement) (blocks : List (List TraceElement)) :
    elementsOf (block :: blocks) = block.length + elementsOf blocks := List.sum_cons

/-- A block that fits is taken, and then those behind it. -/
theorem takeBlocks_of_fits {max : Nat} {oldest : List TraceElement} (blocks : List (List TraceElement))
    (fits : oldest.length ≤ max) :
    takeBlocks max (oldest :: blocks) =
      (oldest :: (takeBlocks (max - oldest.length) blocks).1, (takeBlocks (max - oldest.length) blocks).2) := if_pos fits

theorem takeBlocks_of_tooLong {max : Nat} {oldest : List TraceElement} (blocks : List (List TraceElement))
    (tooLong : max < oldest.length) : takeBlocks max (oldest :: blocks) = ([], oldest :: blocks) :=
  if_neg (Nat.not_le.mpr tooLong)

/-- The first block that is left would not have fit as well. -/
theorem lt_elementsOf_takeBlocks {max : Nat} {blocks : List (List TraceElement)} {b : List TraceElement}
    (left : (takeBlocks max blocks).2.head? = some b) : max < elementsOf ((takeBlocks max blocks).1 ++ [b]) := by
  induction blocks generalizing max with
  | nil => cases left
  | cons oldest rest ih =>
    by_cases fits : oldest.length ≤ max
    · rw [takeBlocks_of_fits rest fits] at left ⊢
      have longer := ih left
      rw [List.cons_append, elementsOf_cons]
      omega
    · have tooLong := Nat.not_le.mp fits
      rw [takeBlocks_of_tooLong rest tooLong] at left ⊢
      cases left
      rwa [List.nil_append, elementsOf_cons]

/-- The oldest block and those behind it that fit are removed from the head, and a FULL trace goes on in RUNNING (R180). -/
theorem traceRead_of_fits {s : State} {max : Nat} {oldest : List TraceElement} {blocks : List (List TraceElement)}
    (buffer : s.trace.buffer = oldest :: blocks) (fits : oldest.length ≤ max) :
    ∃ further left, s.trace.buffer = (oldest :: further) ++ left ∧ elementsOf (oldest :: further) ≤ max ∧
      (∀ b, left.head? = some b → max < elementsOf ((oldest :: further) ++ [b])) ∧
      traceRead max s = ((oldest :: further).flatten, { s with trace := { s.trace with
        buffer := left, state := if s.trace.state = .full then .running else s.trace.state } }) := by
  have taken := takeBlocks_of_fits blocks fits
  obtain ⟨parts, short⟩ := takeBlocks_spec max (oldest :: blocks)
  have full := fun b => lt_elementsOf_takeBlocks (max := max) (blocks := oldest :: blocks) (b := b)
  simp only [taken] at parts short full
  refine ⟨_, _, buffer.trans parts.symm, short, full, ?_⟩
  simp only [traceRead, buffer, taken, ne_eq, reduceCtorEq, not_false_eq_true, and_true]

/-! ## The operation (R168, R180) -/

/-- The lowered maximum allows what the maximum and the room both allow (R168). -/
theorem le_loweredMaximum_iff {c : Chain} {max n : Nat} (positive : 0 < n) :
    n ≤ loweredMaximum max c.free ↔ n ≤ max ∧ RoomFor c (1 + 5 * n) := by
  unfold loweredMaximum Chain.free RoomFor
  omega

section

variable {s : State} {max : Byte} {oldest : List TraceElement} {blocks : List (List TraceElement)} {free : Nat}

theorem opTraceRead_of_range (outside : max.toNat = 0 ∨ 20 < max.toNat) (free : Nat) :
    opTraceRead [max] free s = (s, .gives .rangeError []) := by
  refine if_neg ?_
  show ¬(1 ≤ max.toNat ∧ max.toNat ≤ 20)
  omega

theorem opTraceRead_of_empty (inside : 1 ≤ max.toNat ∧ max.toNat ≤ 20) (empty : s.trace.buffer = []) (free : Nat) :
    opTraceRead [max] free s = performIf free 1 (s, .gives .ok [0]) s := by
  refine (if_pos inside).trans ?_
  rw [empty]

theorem opTraceRead_of_tooLong (inside : 1 ≤ max.toNat ∧ max.toNat ≤ 20) (buffer : s.trace.buffer = oldest :: blocks)
    (tooLong : loweredMaximum max.toNat free < oldest.length) : opTraceRead [max] free s = (s, .gives .noRoom []) := by
  refine (if_pos inside).trans ?_
  rw [buffer]
  exact if_pos tooLong

theorem opTraceRead_of_fits (inside : 1 ≤ max.toNat ∧ max.toNat ≤ 20) (buffer : s.trace.buffer = oldest :: blocks)
    (fits : oldest.length ≤ loweredMaximum max.toNat free) :
    opTraceRead [max] free s = ((traceRead (loweredMaximum max.toNat free) s).2,
      .gives .ok (sendByte (traceRead (loweredMaximum max.toNat free) s).1.length ::
        (traceRead (loweredMaximum max.toNat free) s).1.flatMap elementBytes)) := by
  refine (if_pos inside).trans ?_
  rw [buffer]
  exact if_neg (Nat.not_lt.mpr fits)

end

/-- Settles O59: the range, then the room, then the oldest whole blocks. -/
theorem traceIsReadInWholeBlocks : Obligations.TraceIsReadInWholeBlocks := by
  refine ⟨elementBytes_fields, fun s r c more next max operation => ?_⟩
  intro done
  have row : exec .traceRead s = .next (concludeOp r.payload 0x31 more next c (opTraceRead [max] c.free s)) :=
    unlessReset_performCoded operation opTraceRead rfl
  rw [row]
  refine ⟨fun outside => by rw [opTraceRead_of_range outside], fun low high => ⟨fun empty room => ?_, fun empty noRoom => ?_,
    fun oldest blocks buffer filled => ?_⟩⟩
  · rw [opTraceRead_of_empty ⟨low, high⟩ empty, performIf_of_room room]
  · rw [opTraceRead_of_empty ⟨low, high⟩ empty, performIf_of_noRoom noRoom]
  · have positive : 0 < oldest.length := List.length_pos_iff.mpr filled
    have allows {n : Nat} (positive : 0 < n) := le_loweredMaximum_iff (c := c) (max := max.toNat) positive
    refine ⟨fun tooLong => ?_, fun fits room => ?_⟩
    · rw [opTraceRead_of_tooLong ⟨low, high⟩ buffer]
      rw [← Nat.not_le, allows positive]
      rintro ⟨fits, room⟩
      exact tooLong.elim (Nat.not_lt.mpr fits) (absurd room)
    · have fitsLowered := (allows positive).mpr ⟨fits, room⟩
      obtain ⟨further, left, parts, short, full, read⟩ := traceRead_of_fits buffer fitsLowered
      have holdsOne : 0 < elementsOf (oldest :: further) := by
        rw [elementsOf_cons]
        omega
      obtain ⟨withinMax, withinRoom⟩ := (allows holdsOne).mp short
      refine ⟨oldest :: further, left, parts, List.cons_ne_nil _ _, withinMax, withinRoom, fun b head => ?_, ?_⟩
      · have refused := Nat.not_le.mpr (full b head)
        rw [allows (by rw [elementsOf_append]; omega), not_and_or, Nat.not_le] at refused
        exact refused
      · rw [opTraceRead_of_fits ⟨low, high⟩ buffer fitsLowered, read, List.length_flatten]
        rfl

end Sys2Proof.Machine
end

