-- ==== Sys2Proof/Proofs/TraceCapture.lean ====
section
/-! PROOFS. Trace capture: the clock events that count, and what a capture writes (R175, R176, R177, R178). Settles O57. -/

namespace Sys2Proof.Machine

-- One theorem after another: side by side, so many small ones need more threads than the memory limit allows.
set_option Elab.async false

/-! ## Making room (R178) -/

/-- No fewer blocks would have made room: with the last block that went, the new one would not have fit. -/
theorem dropToFit_fewest (b : Nat) (blocks : List (List TraceElement)) :
    ∃ dropped, blocks = dropped ++ dropToFit b blocks ∧
      ∀ last, dropped.getLast? = some last → traceRoom < elementsOf (last :: dropToFit b blocks) + b := by
  induction blocks with
  | nil => exact ⟨[], rfl, nofun⟩
  | cons oldest rest ih =>
    by_cases fits : elementsOf (oldest :: rest) + b ≤ traceRoom
    · exact ⟨[], by rw [dropToFit, if_pos fits, List.nil_append], nofun⟩
    · obtain ⟨dropped, parts, fewest⟩ := ih
      rw [dropToFit, if_neg fits]
      refine ⟨oldest :: dropped, congrArg (oldest :: ·) parts, fun last isLast => ?_⟩
      cases dropped with
      | nil =>
        cases isLast
        rw [← List.nil_append (dropToFit b rest), ← parts]
        exact Nat.not_le.mp fits
      | cons second others => exact fewest last (List.getLast?_cons_cons.symm.trans isLast)

section

variable {event : ClockEvent} {s : State}

/-! ## What a capture writes (R178) -/

/-- The block that a capture of the state writes. -/
def capturedBlock (event : ClockEvent) (s : State) : List TraceElement :=
  s.trace.config.block.map fun ty => { tag := ty, value := captureValue event (s.trace.captureNumber + 1) s ty }

theorem writeBlock_eq (kept : List (List TraceElement)) :
    writeBlock event kept s = { s with trace := { s.trace with
      captureNumber := s.trace.captureNumber + 1, buffer := kept ++ [capturedBlock event s] } } := rfl

theorem capture_of_room (room : elementsOf s.trace.buffer + s.trace.config.block.length ≤ traceRoom) :
    capture event s = writeBlock event s.trace.buffer s := if_pos room

theorem capture_of_stopWhenFull (noRoom : ¬elementsOf s.trace.buffer + s.trace.config.block.length ≤ traceRoom)
    (mode : s.trace.config.mode = .stopWhenFull) :
    capture event s = State.raise .traceOverflow { s with trace := { s.trace with state := .full } } := by
  refine (if_neg noRoom).trans ?_
  rw [mode]

theorem capture_of_overwriteOldest (noRoom : ¬elementsOf s.trace.buffer + s.trace.config.block.length ≤ traceRoom)
    (mode : s.trace.config.mode = .overwriteOldest) :
    capture event s = State.raise .traceOverflow
      (writeBlock event (dropToFit s.trace.config.block.length s.trace.buffer) s) := by
  refine (if_neg noRoom).trans ?_
  rw [mode]

/-! ## The events that count (R177) -/

/-- The event counts: the trace is RUNNING and the event is of the configured kind. -/
def Counted (event : ClockEvent) (s : State) : Prop :=
  s.trace.state = .running ∧ s.trace.config.clock = clockKind event

/-- The state with its divider count restarted, on which the capture at the divider is taken. -/
def restartedCount (s : State) : State := { s with trace := { s.trace with dividerCount := 0 } }

theorem clockEvent_of_not_counted (other : ¬Counted event s) : clockEvent event s = s := if_neg other

theorem clockEvent_below_divider (counted : Counted event s) (below : s.trace.dividerCount + 1 < s.trace.config.divider) :
    clockEvent event s = { s with trace := { s.trace with dividerCount := s.trace.dividerCount + 1 } } :=
  (if_pos counted).trans (if_neg (Nat.not_le.mpr below))

theorem clockEvent_at_divider (counted : Counted event s) (reached : s.trace.dividerCount + 1 = s.trace.config.divider) :
    clockEvent event s = capture event (restartedCount s) :=
  (if_pos counted).trans (if_pos reached.ge)

end

/-- Settles O57: the events that count, then the room and the mode at a capture. -/
theorem captureFollowsTheClockEvent : Obligations.CaptureFollowsTheClockEvent := by
  intro event s running safe t number value block raised counted roomLeft
  have row : exec (.traceCapture event) s = .next (clockEvent event s) :=
    State.unlessReset_running (clockEvent event) s running
  have values (ty : ElementType) : captureValue event number s ty = value ty := by
    cases ty with
    | f | slewPos | liftState | supState => cases event <;> rfl
    | _ => rfl
  have written : capturedBlock event (restartedCount s) = block :=
    List.map_congr_left fun ty _ => congrArg (TraceElement.mk ty) (values ty)
  have length : block.length = t.config.block.length := List.length_map ..
  rw [row]
  refine ⟨fun other => by rw [clockEvent_of_not_counted other],
    fun counts below => by rw [clockEvent_below_divider counts below], fun counts reached => ?_⟩
  rw [clockEvent_at_divider counts reached]
  refine ⟨fun room => ?_, fun noRoom mode => ?_, fun noRoom mode => ?_⟩
  · rw [capture_of_room (s := restartedCount s) (length ▸ room), writeBlock_eq, written]
    rfl
  · rw [capture_of_stopWhenFull (s := restartedCount s) (length ▸ noRoom) mode]
    rfl
  · obtain ⟨_, _, _, atMostSix, _⟩ := safe
    have short : t.config.block.length ≤ traceRoom := Nat.le_trans atMostSix (by decide)
    obtain ⟨dropped, parts, fewest⟩ := dropToFit_fewest t.config.block.length t.buffer
    obtain ⟨_, fits⟩ := dropToFit_spec t.config.block.length short t.buffer
    refine ⟨dropped, _, parts, length ▸ fits, length ▸ fewest, ?_⟩
    rw [capture_of_overwriteOldest (s := restartedCount s) (length ▸ noRoom) mode, writeBlock_eq, written]
    rfl

end Sys2Proof.Machine
end
